-- ==== Sys2Proof/Word.lean ====
section
/-! DEFINITION. Machine words of the BX-2400: bytes, 32-bit lane words, 64-bit pairs, lane masks and the 96-bit
instruction word (00_scope R5, 04_encoding R113, R120). -/

namespace Sys2Proof

/-- One byte of memory. -/
abbrev Byte := BitVec 8
/-- One 32-bit register word (R63). -/
abbrev Word := BitVec 32
/-- A 64-bit value: a register pair, an address or a program counter (R64, R114). -/
abbrev DWord := BitVec 64
/-- One bit per lane of a group (R10). -/
abbrev LaneMask := BitVec 64
/-- The 96-bit instruction word (R113, R120). -/
abbrev IWord := BitVec 96

end Sys2Proof
end

