-- ==== Sys2Proof/Syntax.lean ====
section
/-! DEFINITION. The abstract syntax: operand codes of the instruction formats (04_encoding R120-R137) and the ONE
inductive `Instr`, a constructor for every row of spec/opcode_table.json: the instructions of group code, those of the tile
stream, the engine commands, and the machine's events (95_what_each_step_holds). -/

namespace Sys2Proof

/-- Element formats, the codes of R126 in their order 0x0 to 0xF. -/
inductive Ty where
  | f32 | f64 | f16 | bf16 | e5m2 | e4m3 | e2m1 | e8m0 | uv24 | ve8 | t5 | i4 | i8 | i16 | i32 | i64
deriving DecidableEq, Repr

/-- Rounding selection, the codes of R128: `dyn` takes FPCR.RM (R66). -/
inductive Rnd where
  | dyn | rn | rz | ru | rd | ra | sr
deriving DecidableEq, Repr

/-- Covariance treatment (R96, R128). -/
inductive Cv where
  | indep | cor | anti | tagged
deriving DecidableEq, Repr

/-- Operand-class selector OC of R129. -/
inductive Oc where
  | plain | bUniform | uniform | queue
deriving DecidableEq, Repr

/-- Guard predicate (R120, R121): always, or one of p0-p47 with its negation bit. -/
inductive Guard where
  | always
  | pred (n : Nat) (neg : Bool)
deriving DecidableEq, Repr

/-- The switch marker and the guard, common to every word of group code (R120). -/
structure Hd where
  sw : Bool
  guard : Guard
deriving DecidableEq, Repr

/-- Address spaces of format M (R132). -/
inductive Space where
  | global | scratch | pen | fabric | const
deriving DecidableEq, Repr

/-- Cache hints of format M (R132). -/
inductive Hint where
  | normal | evictFirst | evictLast | streaming
deriving DecidableEq, Repr

/-- Scopes of format M (R132). -/
inductive Scope where
  | grp | blk | gang | die | dev | fab
deriving DecidableEq, Repr

/-- Access sizes of format M (R132). -/
inductive Size where
  | z8 | s8 | z16 | s16 | b32 | b64 | b96 | b128
deriving DecidableEq, Repr

/-- Branch kinds of format J (R133, R379). -/
inductive Kind where
  | perLane | any | all
deriving DecidableEq, Repr

/-- Barrier levels of format B (R135). -/
inductive Level where
  | grp | blk | gang | grid
deriving DecidableEq, Repr

/-- Barrier actions (R135). -/
inductive BarAct where
  | arv | wait | sync
deriving DecidableEq, Repr

/-- Sparsity M of format T (R137). -/
inductive SpM where
  | m4 | m8 | m16
deriving DecidableEq, Repr

/-- Format V (R124): three register operands. `minor` is SUB[5:0], `ext` is EXT. -/
structure VOp where
  hd : Hd
  d : Nat
  a : Nat
  b : Nat
  c : Nat
  ty : Ty
  rnd : Rnd
  cv : Cv
  nt : Bool
  sat : Bool
  oc : Oc
  minor : Nat
  ext : Nat
deriving DecidableEq, Repr

/-- Format I (R130): a 32-bit immediate in place of B and C. -/
structure IOp where
  hd : Hd
  d : Nat
  a : Nat
  imm : Word
  ty : Ty
  rnd : Rnd
  cv : Cv
  oc : Oc
  minor : Nat
  sat : Bool
deriving DecidableEq, Repr

/-- Format M (R131): memory. `off` is OFF24 before its sign extension, `sub` is SUB. -/
structure MOp where
  hd : Hd
  d : Nat
  a : Nat
  b : Nat
  off : BitVec 24
  space : Space
  hint : Hint
  scope : Scope
  size : Size
  split : Bool
  basek : Bool
  sub : Nat
deriving DecidableEq, Repr

/-- Format J (R133): control. `loff` is LOFF before its sign extension. -/
structure JOp where
  hd : Hd
  d : Nat
  loff : BitVec 27
  tslot : Nat
  prio : Nat
  kind : Kind
deriving DecidableEq, Repr

/-- Format Q (R134): queues and engines. -/
structure QOp where
  hd : Hd
  d : Nat
  a : Nat
  b : Nat
  c : Nat
  qn : Nat
  oce : Bool
  ocn : Nat
  ring : Nat
  cmd : Nat
  sub : Nat
deriving DecidableEq, Repr

/-- Format B (R135): barriers and counters; D, A, B and C are zero in every word of it (R533, R535). -/
structure BOp where
  hd : Hd
  level : Level
  act : BarAct
  barn : Nat
  ocn : Nat
  thr : Nat
deriving DecidableEq, Repr

/-- Format S (R136): system and tables. -/
structure SOp where
  hd : Hd
  d : Nat
  a : Nat
  b : Nat
  c : Nat
  csr : Nat
  mode : Nat
  sub : Nat
  imm : BitVec 16
deriving DecidableEq, Repr

/-- Format T (R137): the tile stream. `timm` is TIMM16. -/
structure TOp where
  d : Nat
  a : Nat
  b : Nat
  c : Nat
  fa : Ty
  fb : Ty
  slot : Nat
  spn : Nat
  spm : SpM
  timm : BitVec 16
deriving DecidableEq, Repr

/-- The host port or ports an event of the host interface comes from; `both` is one register touched by both ports in
the same port clock (R557, R558, R296). -/
inductive Ports where
  | p0 | p1 | both
deriving DecidableEq, Repr

/-- What each host port writes, of an event that may come from both in one port clock (R557). -/
structure PortWords where
  p0 : BitVec 32
  p1 : BitVec 32
deriving DecidableEq, Repr

/-- A lasting error pinned to a core, and the code of the containment it calls for (R442, R446). -/
structure CoreErr where
  core : Nat
  code : BitVec 8
deriving DecidableEq, Repr

/-- The array an ECC event concerns: a group's registers (R164), its block's scratchpad or accumulator store (R320). -/
inductive RegPart where
  | vec | side | pred | scratch | slot
deriving DecidableEq, Repr

/-- How a line comes out of HBM4 when it fills (R320). -/
inductive MemErr where
  | ok | corrected | uncorrectable
deriving DecidableEq, Repr

/-- Classes of flits (R517). -/
inductive FlitClass where
  | request | response | control
deriving DecidableEq, Repr

/-- A flow of the fabric (R518). -/
structure Flow where
  src : Nat
  dst : Nat
  hl : Nat
  cls : FlitClass
deriving DecidableEq, Repr

/-- What a fabric access asks for (R341, R521); `reply` carries a poison kind (0 for none) back to the source. -/
inductive FabKind where
  | load | store | atom (aop ty : Nat) | reply (poison : Nat) | barrier
deriving DecidableEq, Repr

/-- One fabric access or its reply: the fabric address X (R514), the bytes it carries, and the source's tag. -/
structure FabAccess where
  kind : FabKind
  addr : DWord
  size : Nat
  data : List Byte
  tag : Nat
deriving DecidableEq, Repr

/-- A flit (R517-R520): its flow, sequence number, payload, global hops so far, entropy and congestion mark. -/
structure Flit where
  flow : Flow
  seq : BitVec 16
  acc : FabAccess
  hops : Nat
  ent : BitVec 8
  mark : Bool
deriving DecidableEq, Repr

/-- How routers merge atomic requests (R317, R318): one request, named by its position among those outstanding, or two merged ones,
the first received first. -/
inductive Merge where
  | one (idx : Nat)
  | two (a b : Merge)
deriving DecidableEq, Repr

/-- The instruction set and the machine's events: one constructor per row of spec/opcode_table.json, those
without operands last. -/
inductive Instr where
  | iadd (o : VOp)
  | iaddI (o : IOp)
  | isub (o : VOp)
  | isubI (o : IOp)
  | imul (o : VOp)
  | imulI (o : IOp)
  | imad (o : VOp)
  | imin (o : VOp)
  | imax (o : VOp)
  | iabs (o : VOp)
  | ineg (o : VOp)
  | idiv (o : VOp)
  | irem (o : VOp)
  | shl (o : VOp)
  | shr (o : VOp)
  | sar (o : VOp)
  | shlI (o : IOp)
  | shrI (o : IOp)
  | sarI (o : IOp)
  | shf (o : VOp)
  | and (o : VOp)
  | andI (o : IOp)
  | or (o : VOp)
  | orI (o : IOp)
  | xor (o : VOp)
  | xorI (o : IOp)
  | not (o : VOp)
  | lop3 (o : VOp)
  | popc (o : VOp)
  | clz (o : VOp)
  | ctz (o : VOp)
  | brev (o : VOp)
  | bfx (o : VOp)
  | bfi (o : VOp)
  | bperm (o : VOp)
  | sel (o : VOp)
  | iset (o : VOp)
  | mov (o : VOp)
  | movToQueue (o : VOp)
  | movFromQueue (o : VOp)
  | movi (o : IOp)
  | cvt (o : VOp)
  | lea (o : VOp)
  | iadd64 (o : VOp)
  | dp8 (o : VOp)
  | dp4 (o : VOp)
  | unpk (o : VOp)
  | pack (o : VOp)
  | fadd (o : VOp)
  | faddI (o : IOp)
  | fsub (o : VOp)
  | fsubI (o : IOp)
  | fmul (o : VOp)
  | fmulI (o : IOp)
  | fma (o : VOp)
  | fmin (o : VOp)
  | fmax (o : VOp)
  | fabs (o : VOp)
  | fneg (o : VOp)
  | fcmp (o : VOp)
  | fcmpI (o : IOp)
  | fdiv (o : VOp)
  | fsqrt (o : VOp)
  | frcp (o : VOp)
  | frsq (o : VOp)
  | fexp2 (o : VOp)
  | flog2 (o : VOp)
  | fsin2pi (o : VOp)
  | fcos2pi (o : VOp)
  | frnd (o : VOp)
  | cvtF (o : VOp)
  | fclass (o : VOp)
  | fscale (o : VOp)
  | dp8F (o : VOp)
  | dp4F (o : VOp)
  | dvar (o : VOp)
  | dset (o : VOp)
  | dsetI (o : IOp)
  | dtag (o : VOp)
  | dtagI (o : IOp)
  | dclr (o : VOp)
  | dstd (o : VOp)
  | sample (o : VOp)
  | rndu (o : VOp)
  | rndn (o : VOp)
  | gumb (o : VOp)
  | qmean (o : VOp)
  | qvar (o : VOp)
  | sctr (o : VOp)
  | shfl (o : VOp)
  | shflI (o : IOp)
  | vote (o : VOp)
  | matchLanes (o : VOp)
  | qswap (o : VOp)
  | qbcast (o : VOp)
  | qred (o : VOp)
  | srd (o : IOp)
  | ld (o : MOp)
  | st (o : MOp)
  | ald (o : MOp)
  | ast (o : MOp)
  | atom (o : MOp)
  | dcas (o : MOp)
  | amov (o : MOp)
  | pref (o : MOp)
  | cwb (o : MOp)
  | cinv (o : MOp)
  | fence (o : MOp)
  | bra (o : JOp)
  | brx (o : JOp)
  | call (o : JOp)
  | ret (o : JOp)
  | mjoin (o : JOp)
  | join (o : JOp)
  | exit (o : JOp)
  | rgn (o : IOp)
  | nop (o : JOp)
  | yieldHint (o : JOp)
  | qpush (o : QOp)
  | qpop (o : QOp)
  | qtry (o : QOp)
  | copy (o : QOp)
  | rawait (o : QOp)
  | rarel (o : QOp)
  | rarelInit (o : QOp)
  | bar (o : BOp)
  | wait (o : BOp)
  | tlbinvPage (o : SOp)
  | tlbinvAsid (o : SOp)
  | pmap (o : SOp)
  | pdrop (o : SOp)
  | rbind (o : SOp)
  | runbind (o : SOp)
  | place (o : SOp)
  | trap (o : SOp)
  | trapPost (o : SOp)
  | rtrRestart (o : SOp)
  | rtrNext (o : SOp)
  | rtrKill (o : SOp)
  | csrr (o : SOp)
  | csrw (o : SOp)
  | bpt (o : SOp)
  | dbgw (o : SOp)
  | tmma (o : TOp)
  | tmmas (o : TOp)
  | tmman (o : TOp)
  | tzero (o : TOp)
  | tzeroSlot (o : TOp)
  | tsave (o : TOp)
  | tload (o : TOp)
  | tbar (o : TOp)
  | tset (o : TOp)
  | tget (o : TOp)
  | tmon (o : TOp)
  | tloop (o : TOp)
  | tjmp (o : TOp)
  | tend (o : TOp)
  | matrixWritePoint (bid : Nat)
  | tmmanPassEnd (bid : Nat)
  | lineFetch (gid : Nat) (upset1 upset2 : Bool)
  | variableLatencyReturn (gid idx : Nat)
  | switchMarkerRelease (gid eid : Nat)
  | splitDivision (gid eid : Nat) (late : BitVec 64)
  | splitLateWake (gid eid : Nat)
  | atomicTakeEffect (m : Merge)
  | trapEntry (gid : Nat)
  | groupArrivalCount (gid : Nat) (level : Level) (barn : Nat)
  | barrierInstanceComplete (level : Level) (scope barn : Nat)
  | copyStart (bid q : Nat)
  | copyComplete (bid idx : Nat)
  | engineCommandStart (gid q : Nat)
  | engineCompletion (gid q idx : Nat)
  | drain (gid q idx : Nat)
  | cset (gid q idx : Nat)
  | bready (gid q idx : Nat)
  | cfree (gid q idx : Nat)
  | uconf (gid q idx : Nat)
  | uinit (gid q idx : Nat)
  | ucommit (gid q idx : Nat)
  | uclean (gid q idx : Nat)
  | ufree (gid q idx : Nat)
  | stageComplete (fcode : Nat)
  | planinStore (port : Ports) (vals : PortWords)
  | planoutRemove (port : Ports)
  | ageingReplan (die pen : Nat) (offs : BitVec 16) (weak : Bool)
  | atgo (port : Ports) (vals : PortWords)
  | atnonceWrite (port : Ports) (i : Nat) (vals : PortWords)
  | lidRead (ports : Ports) (i : Nat)
  | lidWrite (ports : Ports) (i : Nat)
  | launchTake (queue : Nat)
  | launchAdmit (lid : Nat)
  | gangPlace (lid gang : Nat)
  | gangSetAside (lid gang : Nat)
  | gangRestore (lid gang : Nat)
  | launchComplete (lid : Nat)
  | stagedSetRelease (bid : Nat)
  | signatureCompare (bid : Nat)
  | gangContainment (lid gang : Nat) (err : CoreErr)
  | dieFence (die : Nat)
  | trapQueueRemove (port : Ports)
  | trapQueueReply (port : Ports) (vals : PortWords)
  | attach (ports : Ports) (cmd : BitVec 32)
  | detach (port : Ports) (cmd : BitVec 32)
  | select (port : Ports) (cmd : BitVec 32)
  | halt (port : Ports) (cmd : BitVec 32)
  | debugResume (port : Ports) (cmd : BitVec 32)
  | step (port : Ports) (cmd : BitVec 32)
  | stepDone (gid : Nat)
  | rdreg (port : Ports) (cmd : BitVec 32)
  | wrreg (port : Ports) (cmd : BitVec 32)
  | setbrk (port : Ports) (cmd : BitVec 32)
  | setwatch (port : Ports) (cmd : BitVec 32)
  | mailboxDataRead (port : Ports) (i : Nat)
  | eccWriteback (gid : Nat) (part : RegPart) (reg : Nat) (lanes : BitVec 64) (double : Bool)
  | l2Fill (pa : Nat) (err : MemErr)
  | hostAccess (port : Ports) (pa : Nat) (wr : Bool) (data : List (BitVec 8))
  | hswpcmd (port : Ports) (vals : PortWords)
  | sweepComplete (idx : Nat)
  | mcmdgo (port : Ports) (die : Nat) (vals : PortWords)
  | migrationCopyDone (die idx : Nat)
  | accessResend (idx : Nat)
  | fwcfgWrite (port : Ports) (die i : Nat) (vals : PortWords)
  | fwDisableDone (die i : Nat)
  | poolDisable (pool : Nat)
  | ttcommit (port : Ports) (vals : PortWords)
  | cgtdataWrite (port : Ports) (vals : PortWords)
  | uemodeWrite (port : Ports) (vals : PortWords)
  | flitArrival (port : Nat) (flit : Flit)
  | flitReorderDeliver (port : Nat) (flow : Flow)
  | fabricAck (flow : Flow) (upTo : BitVec 16) (marked : Bool)
  | retransmitTimeout (flow : Flow) (seq : BitVec 16)
  | fabricIncomingAccess (src : Nat) (acc : FabAccess)
  | errCounterRead (port : Ports) (die i : Nat) (lasting : Bool)
  | fwclampRead (port : Ports) (die i : Nat)
  | fbdropRead (port : Ports)
  | registerWrite (ports : Ports) (offset : Nat) (val0 val1 : BitVec 32)
  | portClock (port : Nat)
  | linkRetry (die : Nat) (good : Bool)
  | unallocatedOpcode (word : BitVec 96)
  | mailboxErrRead (port : Ports)
  | wordPairLatchRead (port : Ports) (offset : Nat)
  | undefinedDebugCommand (port : Ports) (cmd : BitVec 32)
  | undefinedLaunchCommand (port : Ports) (val : BitVec 32)
  | resetRelease
  | planTimeout
  | joinStart
  | planrdy
  | throttleBubble
  | attestationDone
  | suspend
  | resume
  | cancel
  | deviceReset
  | arithmeticClock
deriving DecidableEq, Repr

end Sys2Proof
end

