-- ==== Sys2Proof/WellFormed.lean ====
section
/-! DEFINITION. Well-formed instruction words: the field values each instruction admits (R122, R123, R179, R208, R377 and
the description of each instruction). A word outside these values is FLT_ENCODING (R139). -/

namespace Sys2Proof

/-- An element format is an integer one (R60, R126). -/
def Ty.isInt : Ty → Bool
  | .i4 | .i8 | .i16 | .i32 | .i64 => true
  | _ => false

/-- The formats CVT.F counts as floating point: 0x0-0x6, 0x8 and 0x9 (R221). -/
def Ty.isFloat : Ty → Bool
  | .f32 | .f64 | .f16 | .bf16 | .e5m2 | .e4m3 | .e2m1 | .uv24 | .ve8 => true
  | _ => false

/-- Width in bits for placement; UV24 counts as a 32-bit format (R222), T5 as its byte. -/
def Ty.bits : Ty → Nat
  | .f64 | .i64 => 64
  | .f32 | .i32 | .uv24 => 32
  | .f16 | .bf16 | .i16 => 16
  | .e5m2 | .e4m3 | .e8m0 | .ve8 | .t5 | .i8 => 8
  | .e2m1 | .i4 => 4

/-- The format occupies a register pair (R64). -/
def Ty.wide (t : Ty) : Bool := t.bits == 64

/-- Operand classes of R122: unused (zero), vector, vector pair, predicate, uniform, uniform pair. -/
inductive Cls where
  | zero | v | pair | pred | k | kpair
deriving DecidableEq, Repr

/-- The values an operand class accepts (R122). -/
def Cls.ok : Cls → Nat → Bool
  | .zero, n => n == 0
  | .v, n => n < 1024
  | .pair, n => n < 1024 && n % 2 == 0
  | .pred, n => n < 48
  | .k, n => n < 256
  | .kpair, n => n < 256 && n % 2 == 0

/-- The uniform class in place of a vector class (R129, R183, R184). -/
def Cls.toUniform : Cls → Cls
  | .v => .k
  | .pair => .kpair
  | c => c

/-- Vector register, or pair when the format is 64 bits wide. -/
def Cls.ofTy (t : Ty) : Cls := if t.wide then .pair else .v

/-- The guard names p0-p47 or is always true (R121). -/
def Guard.wf : Guard → Bool
  | .always => true
  | .pred n _ => n < 48

/-- What one V-format instruction admits: operand classes, formats, OC values, minor codes, EXT and the four rounding and
tracking fields. -/
structure VAdm where
  d : Cls
  a : Cls
  b : Cls := .zero
  c : Cls := .zero
  tys : List Ty
  ocs : List Oc := [.plain]
  minors : List Nat := [0]
  ext : Nat → Bool := fun e => e == 0
  rnd : Bool := false
  cv : Bool := false
  nt : Bool := false
  sat : Bool := false

/-- A V-format word is admitted (R123, R129, R179, R208); C is left to the caller under `c = none`. -/
def VOp.adm (o : VOp) (m : VAdm) : Bool :=
  let u := o.oc == .uniform
  o.hd.guard.wf
    && (if u then m.d.toUniform else m.d).ok o.d
    && (if u then m.a.toUniform else m.a).ok o.a
    && (if u || o.oc == .bUniform then m.b.toUniform else m.b).ok o.b
    && (if u then m.c.toUniform else m.c).ok o.c
    && m.tys.contains o.ty && m.ocs.contains o.oc && m.minors.contains o.minor
    && m.ext o.ext && decide (o.ext < 2 ^ 20)
    && (m.rnd || o.rnd == .dyn) && (m.cv || o.cv == .indep) && (m.nt || !o.nt) && (m.sat || !o.sat)

/-- What one I-format instruction admits. -/
structure IAdm where
  d : Cls
  a : Cls
  tys : List Ty
  ocs : List Oc := [.plain]
  minors : List Nat := [0]
  rnd : Bool := false
  cv : Bool := false
  sat : Bool := false

/-- An I-format word is admitted (R130). -/
def IOp.adm (o : IOp) (m : IAdm) : Bool :=
  let u := o.oc == .uniform
  o.hd.guard.wf
    && (if u then m.d.toUniform else m.d).ok o.d
    && (if u then m.a.toUniform else m.a).ok o.a
    && m.tys.contains o.ty && m.ocs.contains o.oc && m.minors.contains o.minor
    && (m.rnd || o.rnd == .dyn) && (m.cv || o.cv == .indep) && (m.sat || !o.sat)

/-- All OC values of the integer instructions (R183, R184). -/
def ocAll : List Oc := [.plain, .bUniform, .uniform]
/-- OC 00 and 01. -/
def ocB : List Oc := [.plain, .bUniform]
/-- OC 00 and 10, for an instruction without operand B. -/
def ocK : List Oc := [.plain, .uniform]
/-- FP32, FP64, FP16 and BF16 (R208). -/
def tyF4 : List Ty := [.f32, .f64, .f16, .bf16]
/-- FP32 and FP64. -/
def tyF2 : List Ty := [.f32, .f64]

/-- IADD, ISUB and their relatives (R185). -/
def VOp.wfArith (o : VOp) (minors : List Nat) (sat : Bool) : Bool :=
  o.adm { d := .v, a := .v, b := .v, tys := [.i8, .i16, .i32], ocs := ocAll, minors := minors, sat := sat }

/-- IABS and INEG (R185). -/
def VOp.wfArith1 (o : VOp) : Bool :=
  o.adm { d := .v, a := .v, tys := [.i8, .i16, .i32], ocs := ocK, sat := true }

/-- The `.wide` minor codes of IMUL and IMAD (R185). -/
def minorWide (m : Nat) : Bool := m == 4 || m == 5

/-- The pair of fields USRC, UDST and STYPE that a conversion keeps in C (R127). -/
def cvtStype (c : Nat) : Nat := c % 16
def cvtUdst (c : Nat) : Bool := (c / 16) % 2 == 1
def cvtUsrc (c : Nat) : Bool := (c / 32) % 2 == 1

/-- The format a 4-bit code names (R126). -/
def Ty.ofCode (n : Nat) : Ty :=
  match n % 16 with
  | 0 => .f32 | 1 => .f64 | 2 => .f16 | 3 => .bf16 | 4 => .e5m2 | 5 => .e4m3 | 6 => .e2m1 | 7 => .e8m0
  | 8 => .uv24 | 9 => .ve8 | 10 => .t5 | 11 => .i4 | 12 => .i8 | 13 => .i16 | 14 => .i32 | _ => .i64

/-- The code of a format (R126). -/
def Ty.code : Ty → Nat
  | .f32 => 0 | .f64 => 1 | .f16 => 2 | .bf16 => 3 | .e5m2 => 4 | .e4m3 => 5 | .e2m1 => 6 | .e8m0 => 7
  | .uv24 => 8 | .ve8 => 9 | .t5 => 10 | .i4 => 11 | .i8 => 12 | .i16 => 13 | .i32 => 14 | .i64 => 15

/-- CVT between integer widths (R127, R197). -/
def VOp.wfCvt (o : VOp) : Bool :=
  let st := Ty.ofCode (cvtStype o.c)
  o.c < 64 && st.isInt && o.ty.isInt
    && { o with c := 0 }.adm { d := Cls.ofTy o.ty, a := Cls.ofTy st, tys := [.i4, .i8, .i16, .i32, .i64], ocs := ocK, sat := true }

/-- The elements CVT.F converts, and the elements per register of the narrower side (R222). -/
def cvtCount (ws wd : Nat) : Nat := Nat.max 1 (32 / Nat.max ws wd)
def cvtElems (ws wd : Nat) : Nat := if Nat.min ws wd ≤ 32 then 32 / Nat.min ws wd else 1

/-- CVT.F: the admitted pairs of formats and positions (R221, R222). -/
def VOp.wfCvtF (o : VOp) : Bool :=
  let st := Ty.ofCode (cvtStype o.c)
  let n := cvtCount st.bits o.ty.bits
  o.c < 64
    && (!cvtUsrc o.c || st.isInt) && (!cvtUdst o.c || o.ty.isInt)
    && ((st == .e8m0 && o.ty.isFloat)
        || (st.isFloat && (o.ty.isFloat || o.ty.isInt)) || (st.isInt && o.ty.isFloat))
    && o.ty != st
    && decide (o.ext * n + n ≤ cvtElems st.bits o.ty.bits)
    && (st.bits != o.ty.bits || o.ext == 0)
    && { o with c := 0 }.adm { d := Cls.ofTy o.ty, a := Cls.ofTy st, tys := [o.ty], ext := fun e => e < 8,
                               rnd := true, nt := true, sat := true }

/-- UNPK and PACK: the format pairs of R200 and R201. -/
def VOp.wfUnpk (o : VOp) : Bool :=
  let st := Ty.ofCode (cvtStype o.c)
  o.c < 64
    && ((st == .t5 && !cvtUsrc o.c && !cvtUdst o.c && o.ext < 4) || (st == .i4 && cvtUsrc o.c == cvtUdst o.c && o.ext == 0))
    && { o with c := 0 }.adm { d := .pair, a := .v, tys := [.i8], ext := fun e => e < 4 }

def VOp.wfPack (o : VOp) : Bool :=
  let st := Ty.ofCode (cvtStype o.c)
  o.c < 64 && st == .i8
    && ((o.ty == .t5 && !cvtUsrc o.c && !cvtUdst o.c && o.ext < 4) || (o.ty == .i4 && cvtUsrc o.c == cvtUdst o.c && o.ext == 0))
    && { o with c := 0 }.adm { d := .v, a := .pair, tys := [.t5, .i4], ext := fun e => e < 4, sat := true }

/-- A queue-form operand value names q0-q15 (R129). -/
def isQueueField (n : Nat) : Bool := 0x3F0 ≤ n && n < 0x400

/-- MOV outside the queue form (R195): vector, uniform, uniform to vector, vector to uniform. -/
def VOp.wfMov (o : VOp) : Bool :=
  let w := Cls.ofTy o.ty
  let tys := [Ty.i32, Ty.i64]
  if o.minor == 2 then o.adm { d := w, a := w.toUniform, tys := tys, minors := [2] }
  else if o.minor == 4 then o.adm { d := w.toUniform, a := w, tys := tys, minors := [4] }
  else o.adm { d := w, a := w, tys := tys, ocs := ocK }

/-- MOV in the queue form: exactly one of D and A names a queue register (R129); a push is command 0x00 with a payload, which q0-q7
do not allow (R393, R394). -/
def VOp.wfMovQueue (o : VOp) (toQueue : Bool) : Bool :=
  o.adm { d := .v, a := .v, tys := [.i32], ocs := [.queue] }
    && isQueueField o.d == toQueue && isQueueField o.a == !toQueue && (!toQueue || 0x3F8 ≤ o.d)

/-- SHFL's segment and predicate fields (R203), given the nine bits that hold them. -/
def shflSeg (x : Nat) : Nat := x % 8
def shflPv (x : Nat) : Nat := (x / 8) % 64
def shflOk (x : Nat) : Bool := shflSeg x ≤ 6 && (shflPv x < 48 || shflPv x == 63)

/-- BFX and BFI: POS in EXT[4:0], LEN from 1 to 32 in EXT[10:5] (R191). -/
def bfPos (e : Nat) : Nat := e % 32
def bfLen (e : Nat) : Nat := (e / 32) % 64
def bfOk (e : Nat) : Bool := e < 2048 && 1 ≤ bfLen e && bfLen e ≤ 32

/-- The selectors of R171, and those whose value is one per group (R207). -/
def srdSel (n : Nat) : Bool := n ≤ 0x14 || n == 0x18 || n == 0x19
def srdSelUniform (n : Nat) : Bool :=
  n == 0x01 || (0x03 ≤ n && n ≤ 0x07) || (0x0A ≤ n && n ≤ 0x13) || n == 0x18 || n == 0x19

/-- The registers CSRR and CSRW name (R169). -/
def csrOk (n : Nat) : Bool :=
  n ≤ 0x004 || (0x010 ≤ n && n ≤ 0x013) || (0x020 ≤ n && n ≤ 0x022) || (0x024 ≤ n && n ≤ 0x029)
    || n == 0x030 || n == 0x031 || (0x040 ≤ n && n ≤ 0x047) || n == 0x050 || (0x100 ≤ n && n ≤ 0x2FF)

/-- The bits of a memory access (R322). -/
def Size.bytes : Size → Nat
  | .z8 | .s8 => 1
  | .z16 | .s16 => 2
  | .b32 => 4
  | .b64 => 8
  | .b96 => 12
  | .b128 => 16

/-- The registers that hold an access, and the multiple their base is of (R322). -/
def Size.regs : Size → Nat
  | .b64 => 2 | .b96 => 3 | .b128 => 4 | _ => 1
def Size.regAlign : Size → Nat
  | .b64 => 2 | .b96 => 4 | .b128 => 4 | _ => 1

/-- The base operand of a memory address is one register, or a pair where the space is 64 bits wide (R321). -/
def Space.wideBase : Space → Bool
  | .global | .pen | .fabric => true
  | .scratch | .const => false

/-- Common checks of format M (R321, R323): guard, field ranges, base class, hints of the local spaces. -/
def MOp.base (o : MOp) : Bool :=
  o.hd.guard.wf && decide (o.d < 1024 ∧ o.a < 1024 ∧ o.b < 1024 ∧ o.sub < 256)
    && (if o.basek then (if o.space.wideBase then Cls.kpair else .k) else (if o.space.wideBase then Cls.pair else .v)).ok o.a
    && ((o.space != .scratch && o.space != .pen) || o.hint == .normal)

/-- A data register operand fits the access size (R322). -/
def regFits (uniform : Bool) (s : Size) (n : Nat) : Bool :=
  n % s.regAlign == 0 && n < (if uniform then 256 else 1024)

/-- `.side` is admitted with SIZE 0100, 0101 and 0111 (R331). -/
def sideOk (o : MOp) : Bool := o.sub == 0 || (o.sub == 1 && (o.size == .b32 || o.size == .b64 || o.size == .b128))

def MOp.wfLd (o : MOp) : Bool :=
  o.base && o.scope == .grp && o.b == 0 && regFits o.basek o.size o.d && sideOk o
    && (!o.basek || (!o.split && o.sub == 0))

def MOp.wfSt (o : MOp) : Bool :=
  o.base && o.scope == .grp && o.d == 0 && regFits false o.size o.b && sideOk o && !o.split
    && o.space != .const && o.size != .s8 && o.size != .s16

/-- 32- or 64-bit locations (R333, R334, R337). -/
def Size.isAtomic (s : Size) : Bool := s == .b32 || s == .b64

def MOp.wfAld (o : MOp) : Bool :=
  o.base && o.scope == .grp && o.b == 0 && regFits false o.size o.d && o.sub == 0 && !o.split && !o.basek
    && o.space != .const && o.size.isAtomic

def MOp.wfAst (o : MOp) : Bool :=
  o.base && o.scope == .grp && o.d == 0 && regFits false o.size o.b && o.sub == 0 && !o.split
    && o.space != .const && o.size.isAtomic

/-- ATOM's SUB field (R334). -/
def atomAop (sub : Nat) : Nat := sub / 16
def atomTy (sub : Nat) : Nat := (sub / 4) % 4
def atomNr (sub : Nat) : Bool := sub % 2 == 1

/-- The combinations of operation, type and size ATOM admits (R334). -/
def atomCombo (aop ty : Nat) (s : Size) : Bool :=
  match aop with
  | 0 => ty ≤ 2
  | 1 => ty ≤ 1
  | 2 | 3 => ty ≤ 1 || (ty == 2 && s == .b32)
  | 4 | 5 | 6 | 7 | 8 => ty == 1
  | 9 | 10 => ty == 1 && s == .b32
  | 11 => ty == 2 && s == .b64
  | _ => false

def MOp.wfAtom (o : MOp) : Bool :=
  o.base && o.scope == .grp && !o.split && o.space != .const && o.size.isAtomic
    && (o.sub / 2) % 2 == 0 && atomCombo (atomAop o.sub) (atomTy o.sub) o.size
    && (if atomNr o.sub then o.d == 0 else regFits false o.size o.d)
    && (if atomAop o.sub == 8 then o.b % (if o.size == .b64 then 4 else 2) == 0 else regFits false o.size o.b)

def MOp.wfTwo (o : MOp) (dcas : Bool) : Bool :=
  o.base && o.scope == .grp && !o.split && o.sub == 0 && o.size.isAtomic
    && (o.space == .global || o.space == .scratch || o.space == .pen)
    && o.b % 2 == 0 && o.d % (if o.size == .b64 && dcas then 4 else 2) == 0

def MOp.wfPref (o : MOp) : Bool :=
  o.base && o.scope == .grp && o.d == 0 && o.b == 0 && o.size == .z8 && !o.split && o.sub < 2
    && (o.space == .global || o.space == .const)

def MOp.wfLine (o : MOp) (subs : Nat) : Bool :=
  o.base && o.scope == .grp && o.d == 0 && o.b == 0 && o.size == .z8 && !o.split && o.sub < subs
    && o.space == .global && o.hint == .normal

def MOp.wfFence (o : MOp) : Bool :=
  o.hd.guard.wf && o.d == 0 && o.a == 0 && o.b == 0 && o.off == 0 && o.space == .global && o.hint == .normal
    && o.size == .z8 && !o.split && !o.basek && o.sub == 0

/-- Format J (R377). -/
def JOp.wf (o : JOp) (always pair target prio kinds : Bool) : Bool :=
  o.hd.guard.wf && (!always || o.hd.guard == .always)
    && (if pair then Cls.pair.ok o.d else o.d == 0)
    && (target || (o.loff == 0 && o.tslot == 0)) && o.tslot < 8
    && (prio || o.prio == 0) && o.prio < 256 && (kinds || o.kind == .perLane)

/-- The command codes each queue register admits, and `.v` with them (R394, R452); q12-q15 are not checked. -/
def cmdOk (qn cmd : Nat) (v : Bool) : Bool :=
  if qn < 4 then cmd == 0x01 && !v
  else if qn < 8 then (0x10 ≤ cmd && cmd ≤ 0x12) && !v
  else if qn < 12 then cmd == 0 || ((0x20 ≤ cmd && cmd ≤ 0x23) && !v)
  else decide (cmd < 256)

def QOp.base (o : QOp) : Bool :=
  o.hd.guard.wf && o.qn < 16 && o.ocn < 8 && o.ring < 32 && (o.oce || o.ocn == 0)

def QOp.wfPush (o : QOp) : Bool :=
  o.base && o.a % 8 == 0 && o.a ≤ 248 && o.d == 0 && o.c == 0 && o.sub < 4
    && (if o.sub % 2 == 1 then Cls.v.ok o.b else o.b == 0) && (o.sub / 2 == 1 || o.ring == 0)
    && cmdOk o.qn o.cmd (o.sub % 2 == 1)

def QOp.plain (o : QOp) : Bool := o.base && !o.oce && o.cmd == 0

def QOp.wfPop (o : QOp) : Bool :=
  o.plain && o.d < 1024 && o.d % 4 == 0 && o.a == 0 && o.b == 0 && o.c == 0 && o.ring == 0 && o.sub == 0
def QOp.wfTry (o : QOp) : Bool :=
  o.plain && o.d < 1024 && o.d % 4 == 0 && o.a == 0 && o.b == 0 && Cls.pred.ok o.c && o.ring == 0 && o.sub == 0
def QOp.wfCopy (o : QOp) : Bool :=
  o.base && (o.qn < 4 || 12 ≤ o.qn) && o.a % 8 == 0 && o.a ≤ 232 && o.d == 0 && o.b == 0 && o.c == 0
    && o.cmd == 0 && o.sub == 0
def QOp.wfRawait (o : QOp) : Bool :=
  o.plain && Cls.v.ok o.d && o.a == 0 && o.b == 0 && o.c == 0 && o.qn == 0 && o.sub == 0
def QOp.wfRarel (o : QOp) (init : Bool) : Bool :=
  o.plain && o.d == 0 && o.b == 0 && o.c == 0 && o.qn == 0
    && (if init then Cls.kpair.ok o.a && o.sub == 1 else o.a == 0 && o.sub == 0)

/-- The barrier numbers of each level (R135). -/
def Level.count : Level → Nat
  | .grp => 4 | .blk => 16 | .gang => 8 | .grid => 4

def BOp.wfBar (o : BOp) : Bool := o.hd.guard == .always && o.barn < o.level.count && o.ocn == 0 && o.thr == 0
def BOp.wfWait (o : BOp) : Bool :=
  o.hd.guard == .always && o.level == .grp && o.act == .arv && o.barn == 0 && o.ocn < 8 && o.thr < 65536

/-- Format S with the operand classes given and every other field zero. -/
def SOp.adm (o : SOp) (d a b : Cls) (sub mode : Nat) : Bool :=
  o.hd.guard.wf && d.ok o.d && a.ok o.a && b.ok o.b && o.c == 0 && o.sub == sub && o.mode == mode

def SOp.noCsr (o : SOp) : Bool := o.csr == 0
def SOp.noImm (o : SOp) : Bool := o.imm == 0

/-- The level a 2-bit code names (R135). -/
def Level.ofCode (n : Nat) : Level :=
  match n % 4 with
  | 0 => .grp | 1 => .blk | 2 => .gang | _ => .grid

def SOp.wfRbind (o : SOp) : Bool :=
  let i := o.imm.toNat
  o.adm .k .kpair .kpair 0 0 && o.noCsr && i < 256 && i / 64 != 3 && i % 16 < (Level.ofCode (i / 16)).count
def SOp.wfRunbind (o : SOp) : Bool :=
  let i := o.imm.toNat
  o.adm .k .kpair .zero 0 0 && o.noCsr && i < 256 && i / 64 != 3 && i % 64 == 0
def SOp.wfPlace (o : SOp) : Bool :=
  o.adm .k .kpair .k 0 0 && o.noCsr && o.noImm && o.b % 4 == 0
def SOp.wfCsrr (o : SOp) : Bool :=
  o.noImm && csrOk o.csr && (o.adm .v .zero .zero 0 0 || o.adm .k .zero .zero 1 0)
def SOp.wfCsrw (o : SOp) : Bool :=
  o.noImm && csrOk o.csr && (o.adm .zero .v .zero 0 0 || o.adm .zero .k .zero 1 0)
def SOp.wfDbgw (o : SOp) : Bool :=
  o.noCsr && o.imm.toNat < 32 && o.imm.toNat % 16 ≤ 10 && (o.adm .zero .v .zero 0 0 || o.adm .zero .k .zero 1 0)

/-- Field ranges of format T: t0-t63 and slots 0-7 (R122, R137). -/
def TOp.base (o : TOp) : Bool :=
  o.d < 64 && o.a < 64 && o.b < 64 && o.c < 64 && o.slot < 8 && o.spn < 16

/-- The plain tile words, which use only the fields named (R256-R260): operands outside the list are zero. -/
def TOp.only (o : TOp) (d a fa fb slot : Bool) : Bool :=
  o.base && (d || o.d == 0) && (a || o.a == 0) && o.b == 0 && o.c == 0 && (fa || o.fa == .f32) && (fb || o.fb == .f32)
    && (slot || o.slot == 0) && o.spn == 0 && o.spm == .m4

/-- The sparsity group length M (R137). -/
def SpM.len : SpM → Nat
  | .m4 => 4 | .m8 => 8 | .m16 => 16

def TOp.wfTmma (o : TOp) : Bool :=
  o.base && o.slot == 0 && o.spn == 0 && o.spm == .m4 && o.timm.toNat < 2 && (o.timm.toNat % 2 == 0 || o.c == 0)
def TOp.wfTmmas (o : TOp) : Bool :=
  o.base && o.slot == 0 && 1 ≤ o.spn && o.spn ≤ o.spm.len / 2 && o.timm.toNat < 2 && (o.timm.toNat % 2 == 0 || o.c == 0)
def TOp.wfTmman (o : TOp) : Bool :=
  o.base && o.slot == 0 && o.spn == 0 && o.spm == .m4 && o.timm.toNat < 64 && (o.timm.toNat % 2 == 0 || o.c == 0)
def TOp.wfSaveLoad (o : TOp) (save : Bool) : Bool :=
  o.only (!save) save true false true && o.timm.toNat < 2
    && (o.fa == .f32 || (o.fa == .f64 && o.timm == 0))

/-- The items of TGET and TSET.set (R258, R275), and those TSET.set may write. -/
def tileItem (n : Nat) : Bool := n ≤ 4 || (0x10 ≤ n && n ≤ 0x15)
def tileItemRw (n : Nat) : Bool := n == 0 || n == 0x10 || n == 0x11 || n == 0x12 || n == 0x14

def TOp.wfTset (o : TOp) : Bool :=
  match o.fb with
  | .f32 | .f64 => o.only true false false true false
  | .f16 => o.only true true false true false
  | .bf16 => o.only false true false true false && o.timm.toNat < 256 && tileItemRw o.timm.toNat
  | _ => false
def TOp.wfTget (o : TOp) : Bool :=
  o.only true false false false false && o.timm.toNat < 256 && tileItem o.timm.toNat

/-- The field values each instruction admits. An event has no instruction word: `false`. -/
def Instr.wf : Instr → Bool
  | .iadd o | .isub o => o.wfArith [0, 1] true
  | .iaddI o | .isubI o => o.adm { d := .v, a := .v, tys := [.i8, .i16, .i32], ocs := ocK, minors := [0, 1], sat := true }
  | .imul o => o.adm { d := if minorWide o.minor then .pair else .v, a := .v, b := .v, tys := [.i32], ocs := ocAll, minors := [0, 1, 2, 3, 4, 5] }
  | .imulI o => o.adm { d := if minorWide o.minor then .pair else .v, a := .v, tys := [.i32], ocs := ocK, minors := [0, 1, 2, 3, 4, 5] }
  | .imad o =>
    let w := if minorWide o.minor then Cls.pair else .v
    o.adm { d := w, a := .v, b := .v, c := w, tys := [.i32], ocs := ocAll, minors := [0, 1, 4, 5], sat := !minorWide o.minor }
  | .imin o | .imax o => o.wfArith [0, 1] false
  | .iabs o | .ineg o => o.wfArith1
  | .idiv o | .irem o => o.adm { d := .v, a := .v, b := .v, tys := [.i32], ocs := ocB, minors := [0, 1] }
  | .shl o | .shr o | .sar o => o.adm { d := Cls.ofTy o.ty, a := Cls.ofTy o.ty, b := .v, tys := [.i32, .i64], ocs := ocAll }
  | .shlI o | .shrI o | .sarI o => o.adm { d := Cls.ofTy o.ty, a := Cls.ofTy o.ty, tys := [.i32, .i64], ocs := ocK }
  | .shf o => o.adm { d := .v, a := .v, b := .v, c := .v, tys := [.i32], ocs := ocAll, minors := [0, 2, 4, 6] }
  | .and o | .or o | .xor o =>
    o.adm { d := Cls.ofTy o.ty, a := Cls.ofTy o.ty, b := Cls.ofTy o.ty, tys := [.i32, .i64], ocs := ocAll }
  | .andI o | .orI o | .xorI o => o.adm { d := Cls.ofTy o.ty, a := Cls.ofTy o.ty, tys := [.i32, .i64], ocs := ocK }
  | .not o => o.adm { d := Cls.ofTy o.ty, a := Cls.ofTy o.ty, tys := [.i32, .i64], ocs := ocK }
  | .lop3 o => o.adm { d := .v, a := .v, b := .v, c := .v, tys := [.i32], ocs := ocAll, ext := fun e => e < 256 }
  | .popc o | .clz o | .ctz o | .brev o => o.adm { d := .v, a := .v, tys := [.i32], ocs := ocK }
  | .bfx o => o.adm { d := .v, a := .v, tys := [.i32], ocs := ocK, minors := [0, 1], ext := bfOk }
  | .bfi o => o.adm { d := .v, a := .v, b := .v, tys := [.i32], ocs := ocAll, ext := bfOk }
  | .bperm o => o.adm { d := .v, a := .v, b := .v, c := .v, tys := [.i32], ocs := ocAll }
  | .sel o => o.adm { d := Cls.ofTy o.ty, a := Cls.ofTy o.ty, b := Cls.ofTy o.ty, tys := [.i32, .i64], ocs := ocB,
                      ext := fun e => e < 128 && e % 64 < 48 }
  | .iset o => o.adm { d := .pred, a := Cls.ofTy o.ty, b := Cls.ofTy o.ty, tys := [.i32, .i64], ocs := ocB,
                       minors := [0, 1, 2, 3, 4, 5, 6, 7, 8, 9, 10, 11] }
  | .mov o => o.wfMov
  | .movToQueue o => o.wfMovQueue true
  | .movFromQueue o => o.wfMovQueue false
  | .movi o => o.adm { d := Cls.ofTy o.ty, a := .zero, tys := [.i32, .i64, .f32, .f64], ocs := ocK, minors := [0, 1] }
      && (o.minor == 0 || o.ty.isInt)
  | .cvt o => o.wfCvt
  | .lea o => o.adm { d := .pair, a := .pair, b := .v, tys := [.i64], ocs := ocAll, minors := [0, 1], ext := fun e => e < 8 }
  | .iadd64 o => o.adm { d := .pair, a := .pair, b := .pair, tys := [.i64], ocs := ocAll }
  | .dp8 o => o.adm { d := .v, a := .v, b := .v, c := .v, tys := [.i8], ocs := ocB, minors := [0, 1, 2, 3], sat := true }
  | .dp4 o => o.adm { d := .v, a := .v, b := .v, c := .v, tys := [.i4], ocs := ocB, minors := [0, 1, 2, 3], sat := true }
  | .unpk o => o.wfUnpk
  | .pack o => o.wfPack
  | .fadd o | .fsub o | .fmul o =>
    o.adm { d := Cls.ofTy o.ty, a := Cls.ofTy o.ty, b := Cls.ofTy o.ty, tys := tyF4, ocs := ocB, rnd := true, cv := true, nt := true, sat := true }
  | .faddI o | .fsubI o | .fmulI o =>
    o.adm { d := Cls.ofTy o.ty, a := Cls.ofTy o.ty, tys := tyF4, rnd := true, cv := true, sat := true }
  | .fma o =>
    o.adm { d := Cls.ofTy o.ty, a := Cls.ofTy o.ty, b := Cls.ofTy o.ty, c := Cls.ofTy o.ty, tys := tyF4, ocs := ocB,
            rnd := true, cv := true, nt := true, sat := true }
  | .fmin o | .fmax o => o.adm { d := Cls.ofTy o.ty, a := Cls.ofTy o.ty, b := Cls.ofTy o.ty, tys := tyF4, ocs := ocB, minors := [0, 2] }
  | .fabs o | .fneg o | .fclass o => o.adm { d := Cls.ofTy o.ty, a := Cls.ofTy o.ty, tys := tyF4 }
  | .fcmp o => o.adm { d := .pred, a := Cls.ofTy o.ty, b := Cls.ofTy o.ty, tys := tyF2, ocs := ocB,
                       minors := [0, 1, 2, 3, 4, 5, 6, 7, 8, 9, 10, 11, 12, 13, 14, 15], cv := decide (8 ≤ o.minor) }
      && (o.minor < 8 || o.d != 47)
  | .fcmpI o => o.adm { d := .pred, a := Cls.ofTy o.ty, tys := tyF2,
                        minors := [0, 1, 2, 3, 4, 5, 6, 7, 8, 9, 10, 11, 12, 13, 14, 15], cv := decide (8 ≤ o.minor) }
      && (o.minor < 8 || o.d != 47)
  | .fdiv o => o.adm { d := Cls.ofTy o.ty, a := Cls.ofTy o.ty, b := Cls.ofTy o.ty, tys := tyF2, ocs := ocB, rnd := true, cv := true, nt := true, sat := true }
  | .fsqrt o | .frcp o | .frsq o | .fexp2 o | .flog2 o | .fsin2pi o | .fcos2pi o =>
    o.adm { d := Cls.ofTy o.ty, a := Cls.ofTy o.ty, tys := tyF2, rnd := true, nt := true, sat := true }
  | .frnd o => o.adm { d := Cls.ofTy o.ty, a := Cls.ofTy o.ty, tys := tyF4, rnd := true, nt := true }
  | .cvtF o => o.wfCvtF
  | .fscale o => o.adm { d := Cls.ofTy o.ty, a := Cls.ofTy o.ty, b := .v, tys := tyF4, ocs := ocB, rnd := true, nt := true, sat := true }
  | .dp8F o => o.adm { d := .v, a := .v, b := .v, c := .v, tys := [.f32], ocs := ocB, minors := [0, 1, 2, 3], rnd := true, cv := true, nt := true, sat := true }
  | .dp4F o => o.adm { d := .v, a := .v, b := .v, c := .v, tys := [.f32], ocs := ocB, rnd := true, cv := true, nt := true, sat := true }
  | .dvar o | .dstd o => o.adm { d := .v, a := .v, tys := [.f32] }
  | .dset o => o.adm { d := if o.minor == 1 then .pair else .v, a := if o.minor == 1 then .pair else .v, b := .v,
                       tys := [.f32, .uv24], ocs := ocB, minors := [0, 1] }
  | .dsetI o => o.adm { d := if o.minor == 1 then .pair else .v, a := if o.minor == 1 then .pair else .v,
                        tys := [.f32, .uv24], minors := [0, 1] }
      && (o.ty != .uv24 || o.imm.toNat < 2 ^ 24)
  | .dtag o => o.adm { d := if o.minor == 1 then .pair else .v, a := if o.minor == 1 then .pair else .v, b := .v,
                       tys := [.i32], ocs := ocB, minors := [0, 1] }
  | .dtagI o => o.adm { d := if o.minor == 1 then .pair else .v, a := if o.minor == 1 then .pair else .v,
                        tys := [.i32], minors := [0, 1] } && o.imm.toNat < 256
  | .dclr o => o.adm { d := if o.minor == 1 then .pair else .v, a := if o.minor == 1 then .pair else .v, tys := [.f32], minors := [0, 1] }
  | .sample o | .gumb o => o.adm { d := .v, a := .v, tys := [.f32] }
  | .rndu o => o.adm { d := .v, a := .zero, tys := [.f32, .i32] }
  | .rndn o => o.adm { d := .v, a := .zero, tys := [.f32] }
  | .qmean o | .qvar o => o.adm { d := Cls.ofTy o.ty, a := Cls.ofTy o.ty, tys := tyF2 }
  | .sctr o => o.adm { d := .zero, a := .v, b := if o.minor == 0 then .v else .zero, tys := [.i32], minors := [0, 2, 4] }
  | .shfl o => o.adm { d := Cls.ofTy o.ty, a := Cls.ofTy o.ty, b := .v, tys := [.i32, .i64], minors := [0, 2, 4, 6],
                       ext := fun e => e < 512 && shflOk e }
  | .shflI o => o.adm { d := Cls.ofTy o.ty, a := Cls.ofTy o.ty, tys := [.i32, .i64], minors := [0, 2, 4, 6] }
      && o.imm.toNat < 2 ^ 17 && shflOk (o.imm.toNat / 256)
  | .vote o => o.adm { d := if o.minor < 4 then .pred else if o.minor == 4 then .pair else .v, a := .pred, tys := [.f32],
                       minors := [0, 2, 4, 6], ext := fun e => e < 2 }
  | .matchLanes o => o.adm { d := if o.minor == 0 then .pair else if o.minor == 2 then .pred else .v, a := Cls.ofTy o.ty,
                             tys := [.i32, .i64], minors := [0, 2, 4] }
  | .qswap o => o.adm { d := Cls.ofTy o.ty, a := Cls.ofTy o.ty, tys := [.i32, .i64], minors := [0, 2, 4] }
  | .qbcast o => o.adm { d := Cls.ofTy o.ty, a := Cls.ofTy o.ty, tys := [.i32, .i64], ext := fun e => e < 4 }
  | .qred o => o.adm { d := .v, a := .v, tys := [.i32], minors := [0, 1, 2, 3, 4, 5, 6, 7, 8, 9, 10, 11] }
  | .srd o => o.adm { d := .v, a := .zero, tys := [.i32], ocs := ocK } && srdSel o.imm.toNat
      && (o.oc != .uniform || srdSelUniform o.imm.toNat)
  | .ld o => o.wfLd
  | .st o => o.wfSt
  | .ald o => o.wfAld
  | .ast o => o.wfAst
  | .atom o => o.wfAtom
  | .dcas o => o.wfTwo true
  | .amov o => o.wfTwo false
  | .pref o => o.wfPref
  | .cwb o => o.wfLine 1
  | .cinv o => o.wfLine 2
  | .fence o => o.wfFence
  | .bra o => o.wf false false true true true
  | .brx o | .ret o => o.wf false true false true false
  | .call o => o.wf false true true true false
  | .mjoin o => o.wf true false true true false
  | .join o | .yieldHint o => o.wf true false false false false
  | .exit o | .nop o => o.wf false false false false false
  | .rgn o => o.adm { d := .zero, a := .zero, tys := [.f32] } && o.hd.guard == .always && !o.hd.sw && o.imm.toNat % 8 == 0
  | .qpush o => o.wfPush
  | .qpop o => o.wfPop
  | .qtry o => o.wfTry
  | .copy o => o.wfCopy
  | .rawait o => o.wfRawait
  | .rarel o => o.wfRarel false
  | .rarelInit o => o.wfRarel true
  | .bar o => o.wfBar
  | .wait o => o.wfWait
  | .tlbinvPage o => o.adm .zero .kpair .zero 0 0 && o.noCsr && o.noImm
  | .tlbinvAsid o => o.adm .zero .zero .zero 1 0 && o.noCsr && o.noImm
  | .pmap o => o.adm .k .kpair .zero 0 0 && o.noCsr && o.imm.toNat < 4
  | .pdrop o => o.adm .k .kpair .k 0 0 && o.noCsr && o.imm.toNat < 4
  | .rbind o => o.wfRbind
  | .runbind o => o.wfRunbind
  | .place o => o.wfPlace
  | .trap o | .bpt o => o.adm .zero .zero .zero 0 0 && o.noCsr
  | .trapPost o => o.adm .k .zero .zero 1 0 && o.noCsr
  | .rtrRestart o => o.adm .zero .zero .zero 0 0 && o.noCsr && o.noImm
  | .rtrNext o => o.adm .zero .zero .zero 0 1 && o.noCsr && o.noImm
  | .rtrKill o => o.adm .zero .zero .zero 0 2 && o.noCsr && o.noImm
  | .csrr o => o.wfCsrr
  | .csrw o => o.wfCsrw
  | .dbgw o => o.wfDbgw
  | .tmma o => o.wfTmma
  | .tmmas o => o.wfTmmas
  | .tmman o => o.wfTmman
  | .tzero o => o.only true false true false false && (o.fa == .f32 || o.fa == .f64) && o.timm == 0
  | .tzeroSlot o => o.only false false false false true && o.timm == 1
  | .tsave o => o.wfSaveLoad true
  | .tload o => o.wfSaveLoad false
  | .tbar o => o.only false false false false false && o.timm.toNat < 48
  | .tset o => o.wfTset
  | .tget o => o.wfTget
  | .tmon o => o.only false true false false false && o.timm.toNat < 64
  | .tloop o => o.only true false false false false
  | .tjmp o => o.only false false false false false
  | .tend o => o.only false false false false false && o.timm == 0
  | .matrixWritePoint .. | .tmmanPassEnd .. | .lineFetch .. | .variableLatencyReturn .. | .switchMarkerRelease ..
  | .splitDivision .. | .splitLateWake .. | .atomicTakeEffect .. | .trapEntry .. | .groupArrivalCount ..
  | .barrierInstanceComplete .. | .copyStart .. | .copyComplete .. | .engineCommandStart .. | .engineCompletion ..
  | .drain .. | .cset .. | .bready .. | .cfree .. | .uconf .. | .uinit .. | .ucommit .. | .uclean .. | .ufree ..
  | .resetRelease | .stageComplete .. | .planTimeout | .joinStart | .planrdy | .planinStore ..
  | .planoutRemove .. | .ageingReplan .. | .throttleBubble | .atgo .. | .attestationDone | .atnonceWrite ..
  | .lidRead .. | .lidWrite .. | .launchTake .. | .launchAdmit .. | .gangPlace .. | .gangSetAside .. | .gangRestore ..
  | .suspend | .resume | .cancel | .launchComplete .. | .stagedSetRelease .. | .signatureCompare ..
  | .gangContainment .. | .dieFence .. | .trapQueueRemove .. | .trapQueueReply .. | .attach .. | .detach ..
  | .select .. | .halt .. | .debugResume .. | .step .. | .stepDone .. | .rdreg .. | .wrreg .. | .setbrk ..
  | .setwatch .. | .mailboxDataRead .. | .eccWriteback .. | .l2Fill .. | .hostAccess .. | .hswpcmd ..
  | .sweepComplete .. | .mcmdgo .. | .migrationCopyDone .. | .accessResend .. | .fwcfgWrite .. | .fwDisableDone ..
  | .poolDisable .. | .ttcommit .. | .cgtdataWrite .. | .uemodeWrite .. | .flitArrival .. | .flitReorderDeliver ..
  | .fabricAck .. | .retransmitTimeout .. | .fabricIncomingAccess .. | .errCounterRead .. | .fwclampRead ..
  | .fbdropRead .. | .registerWrite .. | .deviceReset | .arithmeticClock | .portClock .. | .linkRetry ..
  | .unallocatedOpcode .. | .mailboxErrRead .. | .wordPairLatchRead .. | .undefinedDebugCommand ..
  | .undefinedLaunchCommand .. => false

end Sys2Proof
end

