-- ==== Sys2Proof/Decode.lean ====
section
/-! DEFINITION. The decoder of the 96-bit instruction word, total on any word, and the encoder written from the same
encoding tables (04_encoding R120-R140). A word that is no instruction is refused by name; a word whose major opcode is
unallocated decodes to `unallocatedOpcode`, the row of the table that raises FLT_ENCODING (R139). -/

namespace Sys2Proof

/-- Why a word is no instruction; each is FLT_ENCODING (R121, R123, R128, R129, R132, R136, R139). -/
inductive DecodeError where
  | guard | rounding | space | scope | size | kind | action | sparsity | tileHead | minor | field | reserved
deriving DecidableEq, Repr

/-- Lay out fields, lowest first, each with its width. -/
def packFields : List (Nat × Nat) → Nat
  | [] => 0
  | (w, v) :: r => v + 2 ^ w * packFields r

/-- Read fields of the widths given, lowest first. -/
def unpackFields : List Nat → Nat → List Nat
  | [], _ => []
  | w :: r, n => n % 2 ^ w :: unpackFields r (n / 2 ^ w)

/-- Field i of a list, 0 where there is none. -/
def fieldAt (l : List Nat) (i : Nat) : Nat := l.getD i 0

def boolCode (b : Bool) : Nat := if b then 1 else 0

def Rnd.code : Rnd → Nat
  | .dyn => 0 | .rn => 1 | .rz => 2 | .ru => 3 | .rd => 4 | .ra => 5 | .sr => 6
def Rnd.ofCode : Nat → Option Rnd
  | 0 => some .dyn | 1 => some .rn | 2 => some .rz | 3 => some .ru | 4 => some .rd | 5 => some .ra | 6 => some .sr | _ => none
def Cv.code : Cv → Nat
  | .indep => 0 | .cor => 1 | .anti => 2 | .tagged => 3
def Cv.ofCode : Nat → Cv
  | 0 => .indep | 1 => .cor | 2 => .anti | _ => .tagged
def Oc.code : Oc → Nat
  | .plain => 0 | .bUniform => 1 | .uniform => 2 | .queue => 3
def Oc.ofCode : Nat → Oc
  | 0 => .plain | 1 => .bUniform | 2 => .uniform | _ => .queue
def Space.code : Space → Nat
  | .global => 0 | .scratch => 1 | .pen => 2 | .fabric => 3 | .const => 4
def Space.ofCode : Nat → Option Space
  | 0 => some .global | 1 => some .scratch | 2 => some .pen | 3 => some .fabric | 4 => some .const | _ => none
def Hint.code : Hint → Nat
  | .normal => 0 | .evictFirst => 1 | .evictLast => 2 | .streaming => 3
def Hint.ofCode : Nat → Hint
  | 0 => .normal | 1 => .evictFirst | 2 => .evictLast | _ => .streaming
def Scope.code : Scope → Nat
  | .grp => 0 | .blk => 1 | .gang => 2 | .die => 3 | .dev => 4 | .fab => 5
def Scope.ofCode : Nat → Option Scope
  | 0 => some .grp | 1 => some .blk | 2 => some .gang | 3 => some .die | 4 => some .dev | 5 => some .fab | _ => none
def Size.code : Size → Nat
  | .z8 => 0 | .s8 => 1 | .z16 => 2 | .s16 => 3 | .b32 => 4 | .b64 => 5 | .b96 => 6 | .b128 => 7
def Size.ofCode : Nat → Option Size
  | 0 => some .z8 | 1 => some .s8 | 2 => some .z16 | 3 => some .s16 | 4 => some .b32 | 5 => some .b64 | 6 => some .b96
  | 7 => some .b128 | _ => none
def Kind.code : Kind → Nat
  | .perLane => 0 | .any => 1 | .all => 2
def Kind.ofCode : Nat → Option Kind
  | 0 => some .perLane | 1 => some .any | 2 => some .all | _ => none
def Level.code : Level → Nat
  | .grp => 0 | .blk => 1 | .gang => 2 | .grid => 3
def BarAct.code : BarAct → Nat
  | .arv => 0 | .wait => 1 | .sync => 2
def BarAct.ofCode : Nat → Option BarAct
  | 0 => some .arv | 1 => some .wait | 2 => some .sync | _ => none
def SpM.code : SpM → Nat
  | .m4 => 0 | .m8 => 1 | .m16 => 2
def SpM.ofCode : Nat → Option SpM
  | 0 => some .m4 | 1 => some .m8 | 2 => some .m16 | _ => none

/-- PRED in [94:89] and PNEG in [88] (R120, R121). -/
def Guard.predCode : Guard → Nat
  | .always => 63 | .pred n _ => n
def Guard.negCode : Guard → Nat
  | .always => 0 | .pred _ g => boolCode g
def Guard.ofCode (p n : Nat) : Option Guard :=
  if p < 48 then some (.pred p (n == 1)) else if p = 63 ∧ n = 0 then some .always else none

/-- The widths of each format, lowest field first (R120, R124, R130, R131, R133-R137). -/
def widthsV : List Nat := [20, 8, 1, 1, 2, 3, 4, 10, 10, 10, 10, 9, 1, 6, 1]
def widthsI : List Nat := [9, 1, 8, 2, 3, 4, 32, 10, 10, 9, 1, 6, 1]
def widthsM : List Nat := [3, 8, 1, 1, 4, 3, 2, 3, 24, 10, 10, 10, 9, 1, 6, 1]
def widthsJ : List Nat := [28, 3, 8, 3, 27, 10, 9, 1, 6, 1]
def widthsQ : List Nat := [9, 8, 8, 5, 1, 3, 1, 4, 10, 10, 10, 10, 9, 1, 6, 1]
def widthsB : List Nat := [12, 16, 3, 4, 2, 2, 40, 9, 1, 6, 1]
def widthsS : List Nat := [16, 8, 3, 12, 10, 10, 10, 10, 9, 1, 6, 1]
def widthsT : List Nat := [6, 16, 2, 4, 3, 4, 4, 10, 10, 10, 10, 9, 1, 6, 1]

/-- The word whose fields are given, lowest first. -/
def wordOf (widths vals : List Nat) : IWord := BitVec.ofNat 96 (packFields (widths.zip vals))

def encV (op : Nat) (o : VOp) : IWord :=
  wordOf widthsV [o.ext, o.minor + 64 * o.oc.code, boolCode o.sat, boolCode o.nt, o.cv.code, o.rnd.code, o.ty.code,
    o.c, o.b, o.a, o.d, op, o.hd.guard.negCode, o.hd.guard.predCode, boolCode o.hd.sw]
def encI (op : Nat) (o : IOp) : IWord :=
  wordOf widthsI [0, boolCode o.sat, o.minor + 64 * o.oc.code, o.cv.code, o.rnd.code, o.ty.code, o.imm.toNat,
    o.a, o.d, op, o.hd.guard.negCode, o.hd.guard.predCode, boolCode o.hd.sw]
def encM (op : Nat) (o : MOp) : IWord :=
  wordOf widthsM [0, o.sub, boolCode o.basek, boolCode o.split, o.size.code, o.scope.code, o.hint.code, o.space.code,
    o.off.toNat, o.b, o.a, o.d, op, o.hd.guard.negCode, o.hd.guard.predCode, boolCode o.hd.sw]
def encJ (op : Nat) (o : JOp) : IWord :=
  wordOf widthsJ [0, o.kind.code, o.prio, o.tslot, o.loff.toNat, o.d, op, o.hd.guard.negCode, o.hd.guard.predCode, boolCode o.hd.sw]
def encQ (op : Nat) (o : QOp) : IWord :=
  wordOf widthsQ [0, o.sub, o.cmd, o.ring, 0, o.ocn, boolCode o.oce, o.qn, o.c, o.b, o.a, o.d, op,
    o.hd.guard.negCode, o.hd.guard.predCode, boolCode o.hd.sw]
def encB (op : Nat) (o : BOp) : IWord :=
  wordOf widthsB [0, o.thr, o.ocn, o.barn, o.act.code, o.level.code, 0, op, o.hd.guard.negCode, o.hd.guard.predCode, boolCode o.hd.sw]
def encS (op : Nat) (o : SOp) : IWord :=
  wordOf widthsS [o.imm.toNat, o.sub, o.mode, o.csr, o.c, o.b, o.a, o.d, op, o.hd.guard.negCode, o.hd.guard.predCode, boolCode o.hd.sw]
def encT (op : Nat) (o : TOp) : IWord :=
  wordOf widthsT [0, o.timm.toNat, o.spm.code, o.spn, o.slot, o.fb.code, o.fa.code, o.c, o.b, o.a, o.d, op, 0, 63, 0]

/-- Guard and switch marker, from the three top fields (R120, R121). -/
def decHd (neg pred sw : Nat) : Except DecodeError Hd :=
  match Guard.ofCode pred neg with
  | some g => .ok { sw := sw == 1, guard := g }
  | none => .error .guard

def decV (n : Nat) : Except DecodeError VOp :=
  let f := fieldAt (unpackFields widthsV n)
  match decHd (f 12) (f 13) (f 14), Rnd.ofCode (f 5) with
  | .ok h, some r =>
    .ok { hd := h, d := f 10, a := f 9, b := f 8, c := f 7, ty := Ty.ofCode (f 6), rnd := r, cv := Cv.ofCode (f 4),
          nt := f 3 == 1, sat := f 2 == 1, oc := Oc.ofCode (f 1 / 64), minor := f 1 % 64, ext := f 0 }
  | .ok _, none => .error .rounding
  | .error e, _ => .error e

def decI (n : Nat) : Except DecodeError IOp :=
  let f := fieldAt (unpackFields widthsI n)
  if f 0 ≠ 0 then .error .reserved else
  match decHd (f 10) (f 11) (f 12), Rnd.ofCode (f 4) with
  | .ok h, some r =>
    .ok { hd := h, d := f 8, a := f 7, imm := BitVec.ofNat 32 (f 6), ty := Ty.ofCode (f 5), rnd := r, cv := Cv.ofCode (f 3),
          oc := Oc.ofCode (f 2 / 64), minor := f 2 % 64, sat := f 1 == 1 }
  | .ok _, none => .error .rounding
  | .error e, _ => .error e

def decM (n : Nat) : Except DecodeError MOp :=
  let f := fieldAt (unpackFields widthsM n)
  if f 0 ≠ 0 then .error .reserved else
  match decHd (f 13) (f 14) (f 15) with
  | .error e => .error e
  | .ok h =>
  match Space.ofCode (f 7), Scope.ofCode (f 5), Size.ofCode (f 4) with
  | some sp, some sc, some sz =>
    .ok { hd := h, d := f 11, a := f 10, b := f 9, off := BitVec.ofNat 24 (f 8), space := sp, hint := Hint.ofCode (f 6),
          scope := sc, size := sz, split := f 3 == 1, basek := f 2 == 1, sub := f 1 }
  | none, _, _ => .error .space
  | some _, none, _ => .error .scope
  | some _, some _, none => .error .size

def decJ (n : Nat) : Except DecodeError JOp :=
  let f := fieldAt (unpackFields widthsJ n)
  if f 0 ≠ 0 then .error .reserved else
  match decHd (f 7) (f 8) (f 9), Kind.ofCode (f 1) with
  | .ok h, some k => .ok { hd := h, d := f 5, loff := BitVec.ofNat 27 (f 4), tslot := f 3, prio := f 2, kind := k }
  | .ok _, none => .error .kind
  | .error e, _ => .error e

def decQ (n : Nat) : Except DecodeError QOp :=
  let f := fieldAt (unpackFields widthsQ n)
  if f 0 ≠ 0 ∨ f 4 ≠ 0 then .error .reserved else
  match decHd (f 13) (f 14) (f 15) with
  | .ok h => .ok { hd := h, d := f 11, a := f 10, b := f 9, c := f 8, qn := f 7, oce := f 6 == 1, ocn := f 5, ring := f 3,
                   cmd := f 2, sub := f 1 }
  | .error e => .error e

def decB (n : Nat) : Except DecodeError BOp :=
  let f := fieldAt (unpackFields widthsB n)
  if f 0 ≠ 0 ∨ f 6 ≠ 0 then .error .reserved else
  match decHd (f 8) (f 9) (f 10), BarAct.ofCode (f 4) with
  | .ok h, some a => .ok { hd := h, level := Level.ofCode (f 5), act := a, barn := f 3, ocn := f 2, thr := f 1 }
  | .ok _, none => .error .action
  | .error e, _ => .error e

def decS (n : Nat) : Except DecodeError SOp :=
  let f := fieldAt (unpackFields widthsS n)
  match decHd (f 9) (f 10) (f 11) with
  | .ok h => .ok { hd := h, d := f 7, a := f 6, b := f 5, c := f 4, csr := f 3, mode := f 2, sub := f 1, imm := BitVec.ofNat 16 (f 0) }
  | .error e => .error e

def decT (n : Nat) : Except DecodeError TOp :=
  let f := fieldAt (unpackFields widthsT n)
  if f 0 ≠ 0 then .error .reserved else
  if f 12 ≠ 0 ∨ f 13 ≠ 63 ∨ f 14 ≠ 0 then .error .tileHead else
  match SpM.ofCode (f 2) with
  | some m => .ok { d := f 10, a := f 9, b := f 8, c := f 7, fa := Ty.ofCode (f 6), fb := Ty.ofCode (f 5), slot := f 4,
                    spn := f 3, spm := m, timm := BitVec.ofNat 16 (f 1) }
  | none => .error .sparsity

/-- Opcodes of format V (R138). -/
def ctorV (op : Nat) (o : VOp) : Option Instr :=
  match op with
  | 0x000 => some (.iadd o)
  | 0x002 => some (.isub o)
  | 0x004 => some (.imul o)
  | 0x006 => some (.imad o)
  | 0x007 => some (.imin o)
  | 0x008 => some (.imax o)
  | 0x009 => some (.iabs o)
  | 0x00A => some (.ineg o)
  | 0x00B => some (.idiv o)
  | 0x00C => some (.irem o)
  | 0x00D => some (.shl o)
  | 0x00E => some (.shr o)
  | 0x00F => some (.sar o)
  | 0x013 => some (.shf o)
  | 0x014 => some (.and o)
  | 0x016 => some (.or o)
  | 0x018 => some (.xor o)
  | 0x01A => some (.not o)
  | 0x01B => some (.lop3 o)
  | 0x01C => some (.popc o)
  | 0x01D => some (.clz o)
  | 0x01E => some (.ctz o)
  | 0x01F => some (.brev o)
  | 0x020 => some (.bfx o)
  | 0x021 => some (.bfi o)
  | 0x022 => some (.bperm o)
  | 0x023 => some (.sel o)
  | 0x024 => some (.iset o)
  | 0x027 => some (.cvt o)
  | 0x028 => some (.lea o)
  | 0x029 => some (.iadd64 o)
  | 0x02A => some (.dp8 o)
  | 0x02B => some (.dp4 o)
  | 0x02C => some (.unpk o)
  | 0x02D => some (.pack o)
  | 0x040 => some (.fadd o)
  | 0x042 => some (.fsub o)
  | 0x044 => some (.fmul o)
  | 0x046 => some (.fma o)
  | 0x047 => some (.fmin o)
  | 0x048 => some (.fmax o)
  | 0x049 => some (.fabs o)
  | 0x04A => some (.fneg o)
  | 0x04B => some (.fcmp o)
  | 0x04D => some (.fdiv o)
  | 0x04E => some (.fsqrt o)
  | 0x04F => some (.frcp o)
  | 0x050 => some (.frsq o)
  | 0x051 => some (.fexp2 o)
  | 0x052 => some (.flog2 o)
  | 0x053 => some (.fsin2pi o)
  | 0x054 => some (.fcos2pi o)
  | 0x055 => some (.frnd o)
  | 0x056 => some (.cvtF o)
  | 0x057 => some (.fclass o)
  | 0x058 => some (.fscale o)
  | 0x059 => some (.dp8F o)
  | 0x05A => some (.dp4F o)
  | 0x0C0 => some (.dvar o)
  | 0x0C1 => some (.dset o)
  | 0x0C3 => some (.dtag o)
  | 0x0C5 => some (.dclr o)
  | 0x0C6 => some (.dstd o)
  | 0x0C7 => some (.sample o)
  | 0x0C8 => some (.rndu o)
  | 0x0C9 => some (.rndn o)
  | 0x0CA => some (.gumb o)
  | 0x0CB => some (.qmean o)
  | 0x0CC => some (.qvar o)
  | 0x0CD => some (.sctr o)
  | 0x0E0 => some (.shfl o)
  | 0x0E2 => some (.vote o)
  | 0x0E3 => some (.matchLanes o)
  | 0x0E4 => some (.qswap o)
  | 0x0E5 => some (.qbcast o)
  | 0x0E6 => some (.qred o)
  | 0x025 => some (if o.oc = .queue then (if isQueueField o.d then .movToQueue o else .movFromQueue o) else .mov o)
  | _ => none

/-- Opcodes of format I (R138). -/
def ctorI (op : Nat) (o : IOp) : Option Instr :=
  match op with
  | 0x001 => some (.iaddI o)
  | 0x003 => some (.isubI o)
  | 0x005 => some (.imulI o)
  | 0x010 => some (.shlI o)
  | 0x011 => some (.shrI o)
  | 0x012 => some (.sarI o)
  | 0x015 => some (.andI o)
  | 0x017 => some (.orI o)
  | 0x019 => some (.xorI o)
  | 0x026 => some (.movi o)
  | 0x041 => some (.faddI o)
  | 0x043 => some (.fsubI o)
  | 0x045 => some (.fmulI o)
  | 0x04C => some (.fcmpI o)
  | 0x0C2 => some (.dsetI o)
  | 0x0C4 => some (.dtagI o)
  | 0x0E1 => some (.shflI o)
  | 0x0E7 => some (.srd o)
  | 0x147 => some (.rgn o)
  | _ => none

/-- Opcodes of format M (R138). -/
def ctorM (op : Nat) (o : MOp) : Option Instr :=
  match op with
  | 0x100 => some (.ld o)
  | 0x101 => some (.st o)
  | 0x102 => some (.ald o)
  | 0x103 => some (.ast o)
  | 0x104 => some (.atom o)
  | 0x105 => some (.dcas o)
  | 0x106 => some (.amov o)
  | 0x107 => some (.pref o)
  | 0x108 => some (.cwb o)
  | 0x109 => some (.cinv o)
  | 0x10A => some (.fence o)
  | _ => none

/-- Opcodes of format J (R138). -/
def ctorJ (op : Nat) (o : JOp) : Option Instr :=
  match op with
  | 0x140 => some (.bra o)
  | 0x141 => some (.brx o)
  | 0x142 => some (.call o)
  | 0x143 => some (.ret o)
  | 0x144 => some (.mjoin o)
  | 0x145 => some (.join o)
  | 0x146 => some (.exit o)
  | 0x148 => some (.nop o)
  | 0x149 => some (.yieldHint o)
  | _ => none

/-- Opcodes of format Q (R138). -/
def ctorQ (op : Nat) (o : QOp) : Option Instr :=
  match op with
  | 0x160 => some (.qpush o)
  | 0x161 => some (.qpop o)
  | 0x162 => some (.qtry o)
  | 0x163 => some (.copy o)
  | 0x164 => some (.rawait o)
  | 0x165 => if o.sub = 0 then some (.rarel o) else if o.sub = 1 then some (.rarelInit o) else none
  | _ => none

/-- Opcodes of format B (R138). -/
def ctorB (op : Nat) (o : BOp) : Option Instr :=
  match op with
  | 0x180 => some (.bar o)
  | 0x181 => some (.wait o)
  | _ => none

/-- Opcodes of format S (R138). -/
def ctorS (op : Nat) (o : SOp) : Option Instr :=
  match op with
  | 0x1A1 => some (.pmap o)
  | 0x1A2 => some (.pdrop o)
  | 0x1A3 => some (.rbind o)
  | 0x1A4 => some (.runbind o)
  | 0x1A5 => some (.place o)
  | 0x1C2 => some (.csrr o)
  | 0x1C3 => some (.csrw o)
  | 0x1C4 => some (.bpt o)
  | 0x1C5 => some (.dbgw o)
  | 0x1A0 => if o.sub = 0 then some (.tlbinvPage o) else if o.sub = 1 then some (.tlbinvAsid o) else none
  | 0x1C0 => if o.sub = 0 then some (.trap o) else if o.sub = 1 then some (.trapPost o) else none
  | 0x1C1 => if o.mode = 0 then some (.rtrRestart o) else if o.mode = 1 then some (.rtrNext o)
             else if o.mode = 2 then some (.rtrKill o) else none
  | _ => none

/-- Opcodes of format T (R138). -/
def ctorT (op : Nat) (o : TOp) : Option Instr :=
  match op with
  | 0x1E0 => some (.tmma o)
  | 0x1E1 => some (.tmmas o)
  | 0x1E2 => some (.tmman o)
  | 0x1E4 => some (.tsave o)
  | 0x1E5 => some (.tload o)
  | 0x1E6 => some (.tbar o)
  | 0x1E7 => some (.tset o)
  | 0x1E8 => some (.tget o)
  | 0x1E9 => some (.tmon o)
  | 0x1EA => some (.tloop o)
  | 0x1EB => some (.tjmp o)
  | 0x1EC => some (.tend o)
  | 0x1E3 => if o.timm = 0 then some (.tzero o) else if o.timm = 1 then some (.tzeroSlot o) else none
  | _ => none

/-- The formats of the opcode map (R138). -/
inductive Fmt where
  | v | i | m | j | q | b | s | t
deriving DecidableEq, Repr

/-- The format of a major opcode, `none` where it is unallocated (R138, R139). -/
def fmtOf (op : Nat) : Option Fmt :=
  match op with
  | 0x000 | 0x002 | 0x004 | 0x006 | 0x007 | 0x008 | 0x009 | 0x00A | 0x00B | 0x00C | 0x00D | 0x00E | 0x00F
  | 0x013 | 0x014 | 0x016 | 0x018 | 0x01A | 0x01B | 0x01C | 0x01D | 0x01E | 0x01F | 0x020 | 0x021 | 0x022
  | 0x023 | 0x024 | 0x025 | 0x027 | 0x028 | 0x029 | 0x02A | 0x02B | 0x02C | 0x02D | 0x040 | 0x042 | 0x044
  | 0x046 | 0x047 | 0x048 | 0x049 | 0x04A | 0x04B | 0x04D | 0x04E | 0x04F | 0x050 | 0x051 | 0x052 | 0x053
  | 0x054 | 0x055 | 0x056 | 0x057 | 0x058 | 0x059 | 0x05A | 0x0C0 | 0x0C1 | 0x0C3 | 0x0C5 | 0x0C6 | 0x0C7
  | 0x0C8 | 0x0C9 | 0x0CA | 0x0CB | 0x0CC | 0x0CD | 0x0E0 | 0x0E2 | 0x0E3 | 0x0E4 | 0x0E5 | 0x0E6 => some .v
  | 0x001 | 0x003 | 0x005 | 0x010 | 0x011 | 0x012 | 0x015 | 0x017 | 0x019 | 0x026 | 0x041 | 0x043 | 0x045
  | 0x04C | 0x0C2 | 0x0C4 | 0x0E1 | 0x0E7 | 0x147 => some .i
  | 0x100 | 0x101 | 0x102 | 0x103 | 0x104 | 0x105 | 0x106 | 0x107 | 0x108 | 0x109 | 0x10A => some .m
  | 0x140 | 0x141 | 0x142 | 0x143 | 0x144 | 0x145 | 0x146 | 0x148 | 0x149 => some .j
  | 0x160 | 0x161 | 0x162 | 0x163 | 0x164 | 0x165 => some .q
  | 0x180 | 0x181 => some .b
  | 0x1A0 | 0x1A1 | 0x1A2 | 0x1A3 | 0x1A4 | 0x1A5 | 0x1C0 | 0x1C1 | 0x1C2 | 0x1C3 | 0x1C4 | 0x1C5 => some .s
  | 0x1E0 | 0x1E1 | 0x1E2 | 0x1E3 | 0x1E4 | 0x1E5 | 0x1E6 | 0x1E7 | 0x1E8 | 0x1E9 | 0x1EA | 0x1EB | 0x1EC => some .t
  | _ => none

/-- A constructor and its operands are an instruction when the fields are admitted (R123, R139). -/
def checkWf (i : Option Instr) : Except DecodeError Instr :=
  match i with
  | some i => if i.wf then .ok i else .error .field
  | none => .error .minor

/-- Decode a 96-bit word of group code or of a tile stream (R120-R140). [log 139 DESIGN CHOICE] -/
def decode (w : IWord) : Except DecodeError Instr :=
  let n := w.toNat
  let op := n / 2 ^ 79 % 2 ^ 9
  match fmtOf op with
  | none => .ok (.unallocatedOpcode w)
  | some .v => (decV n).bind fun o => checkWf (ctorV op o)
  | some .i => (decI n).bind fun o => checkWf (ctorI op o)
  | some .m => (decM n).bind fun o => checkWf (ctorM op o)
  | some .j => (decJ n).bind fun o => checkWf (ctorJ op o)
  | some .q => (decQ n).bind fun o => checkWf (ctorQ op o)
  | some .b => (decB n).bind fun o => checkWf (ctorB op o)
  | some .s => (decS n).bind fun o => checkWf (ctorS op o)
  | some .t => (decT n).bind fun o => checkWf (ctorT op o)

/-- The word of an instruction (R120-R138); an event has none and gives the zero word, which no statement uses.
[log 139 DESIGN CHOICE] -/
def encode : Instr → IWord
  | .iadd o => encV 0x000 o
  | .iaddI o => encI 0x001 o
  | .isub o => encV 0x002 o
  | .isubI o => encI 0x003 o
  | .imul o => encV 0x004 o
  | .imulI o => encI 0x005 o
  | .imad o => encV 0x006 o
  | .imin o => encV 0x007 o
  | .imax o => encV 0x008 o
  | .iabs o => encV 0x009 o
  | .ineg o => encV 0x00A o
  | .idiv o => encV 0x00B o
  | .irem o => encV 0x00C o
  | .shl o => encV 0x00D o
  | .shr o => encV 0x00E o
  | .sar o => encV 0x00F o
  | .shlI o => encI 0x010 o
  | .shrI o => encI 0x011 o
  | .sarI o => encI 0x012 o
  | .shf o => encV 0x013 o
  | .and o => encV 0x014 o
  | .andI o => encI 0x015 o
  | .or o => encV 0x016 o
  | .orI o => encI 0x017 o
  | .xor o => encV 0x018 o
  | .xorI o => encI 0x019 o
  | .not o => encV 0x01A o
  | .lop3 o => encV 0x01B o
  | .popc o => encV 0x01C o
  | .clz o => encV 0x01D o
  | .ctz o => encV 0x01E o
  | .brev o => encV 0x01F o
  | .bfx o => encV 0x020 o
  | .bfi o => encV 0x021 o
  | .bperm o => encV 0x022 o
  | .sel o => encV 0x023 o
  | .iset o => encV 0x024 o
  | .mov o => encV 0x025 o
  | .movToQueue o => encV 0x025 o
  | .movFromQueue o => encV 0x025 o
  | .movi o => encI 0x026 o
  | .cvt o => encV 0x027 o
  | .lea o => encV 0x028 o
  | .iadd64 o => encV 0x029 o
  | .dp8 o => encV 0x02A o
  | .dp4 o => encV 0x02B o
  | .unpk o => encV 0x02C o
  | .pack o => encV 0x02D o
  | .fadd o => encV 0x040 o
  | .faddI o => encI 0x041 o
  | .fsub o => encV 0x042 o
  | .fsubI o => encI 0x043 o
  | .fmul o => encV 0x044 o
  | .fmulI o => encI 0x045 o
  | .fma o => encV 0x046 o
  | .fmin o => encV 0x047 o
  | .fmax o => encV 0x048 o
  | .fabs o => encV 0x049 o
  | .fneg o => encV 0x04A o
  | .fcmp o => encV 0x04B o
  | .fcmpI o => encI 0x04C o
  | .fdiv o => encV 0x04D o
  | .fsqrt o => encV 0x04E o
  | .frcp o => encV 0x04F o
  | .frsq o => encV 0x050 o
  | .fexp2 o => encV 0x051 o
  | .flog2 o => encV 0x052 o
  | .fsin2pi o => encV 0x053 o
  | .fcos2pi o => encV 0x054 o
  | .frnd o => encV 0x055 o
  | .cvtF o => encV 0x056 o
  | .fclass o => encV 0x057 o
  | .fscale o => encV 0x058 o
  | .dp8F o => encV 0x059 o
  | .dp4F o => encV 0x05A o
  | .dvar o => encV 0x0C0 o
  | .dset o => encV 0x0C1 o
  | .dsetI o => encI 0x0C2 o
  | .dtag o => encV 0x0C3 o
  | .dtagI o => encI 0x0C4 o
  | .dclr o => encV 0x0C5 o
  | .dstd o => encV 0x0C6 o
  | .sample o => encV 0x0C7 o
  | .rndu o => encV 0x0C8 o
  | .rndn o => encV 0x0C9 o
  | .gumb o => encV 0x0CA o
  | .qmean o => encV 0x0CB o
  | .qvar o => encV 0x0CC o
  | .sctr o => encV 0x0CD o
  | .shfl o => encV 0x0E0 o
  | .shflI o => encI 0x0E1 o
  | .vote o => encV 0x0E2 o
  | .matchLanes o => encV 0x0E3 o
  | .qswap o => encV 0x0E4 o
  | .qbcast o => encV 0x0E5 o
  | .qred o => encV 0x0E6 o
  | .srd o => encI 0x0E7 o
  | .ld o => encM 0x100 o
  | .st o => encM 0x101 o
  | .ald o => encM 0x102 o
  | .ast o => encM 0x103 o
  | .atom o => encM 0x104 o
  | .dcas o => encM 0x105 o
  | .amov o => encM 0x106 o
  | .pref o => encM 0x107 o
  | .cwb o => encM 0x108 o
  | .cinv o => encM 0x109 o
  | .fence o => encM 0x10A o
  | .bra o => encJ 0x140 o
  | .brx o => encJ 0x141 o
  | .call o => encJ 0x142 o
  | .ret o => encJ 0x143 o
  | .mjoin o => encJ 0x144 o
  | .join o => encJ 0x145 o
  | .exit o => encJ 0x146 o
  | .rgn o => encI 0x147 o
  | .nop o => encJ 0x148 o
  | .yieldHint o => encJ 0x149 o
  | .qpush o => encQ 0x160 o
  | .qpop o => encQ 0x161 o
  | .qtry o => encQ 0x162 o
  | .copy o => encQ 0x163 o
  | .rawait o => encQ 0x164 o
  | .rarel o => encQ 0x165 o
  | .rarelInit o => encQ 0x165 o
  | .bar o => encB 0x180 o
  | .wait o => encB 0x181 o
  | .tlbinvPage o => encS 0x1A0 o
  | .tlbinvAsid o => encS 0x1A0 o
  | .pmap o => encS 0x1A1 o
  | .pdrop o => encS 0x1A2 o
  | .rbind o => encS 0x1A3 o
  | .runbind o => encS 0x1A4 o
  | .place o => encS 0x1A5 o
  | .trap o => encS 0x1C0 o
  | .trapPost o => encS 0x1C0 o
  | .rtrRestart o => encS 0x1C1 o
  | .rtrNext o => encS 0x1C1 o
  | .rtrKill o => encS 0x1C1 o
  | .csrr o => encS 0x1C2 o
  | .csrw o => encS 0x1C3 o
  | .bpt o => encS 0x1C4 o
  | .dbgw o => encS 0x1C5 o
  | .tmma o => encT 0x1E0 o
  | .tmmas o => encT 0x1E1 o
  | .tmman o => encT 0x1E2 o
  | .tzero o => encT 0x1E3 o
  | .tzeroSlot o => encT 0x1E3 o
  | .tsave o => encT 0x1E4 o
  | .tload o => encT 0x1E5 o
  | .tbar o => encT 0x1E6 o
  | .tset o => encT 0x1E7 o
  | .tget o => encT 0x1E8 o
  | .tmon o => encT 0x1E9 o
  | .tloop o => encT 0x1EA o
  | .tjmp o => encT 0x1EB o
  | .tend o => encT 0x1EC o
  | .unallocatedOpcode w => w
  | .matrixWritePoint .. | .tmmanPassEnd .. | .lineFetch .. | .variableLatencyReturn .. | .switchMarkerRelease ..
  | .splitDivision .. | .splitLateWake .. | .atomicTakeEffect .. | .trapEntry .. | .groupArrivalCount ..
  | .barrierInstanceComplete .. | .copyStart .. | .copyComplete .. | .engineCommandStart .. | .engineCompletion ..
  | .drain .. | .cset .. | .bready .. | .cfree .. | .uconf .. | .uinit .. | .ucommit .. | .uclean .. | .ufree ..
  | .resetRelease | .stageComplete .. | .planTimeout | .joinStart | .planrdy | .planinStore ..
  | .planoutRemove .. | .ageingReplan .. | .throttleBubble | .atgo .. | .attestationDone | .atnonceWrite ..
  | .lidRead .. | .lidWrite .. | .launchTake .. | .launchAdmit .. | .gangPlace .. | .gangSetAside .. | .gangRestore ..
  | .suspend | .resume | .cancel | .launchComplete .. | .stagedSetRelease .. | .signatureCompare ..
  | .gangContainment .. | .dieFence .. | .trapQueueRemove .. | .trapQueueReply .. | .attach .. | .detach ..
  | .select .. | .halt .. | .debugResume .. | .step .. | .stepDone .. | .rdreg .. | .wrreg .. | .setbrk ..
  | .setwatch .. | .mailboxDataRead .. | .eccWriteback .. | .l2Fill .. | .hostAccess .. | .hswpcmd ..
  | .sweepComplete .. | .mcmdgo .. | .migrationCopyDone .. | .accessResend .. | .fwcfgWrite .. | .fwDisableDone ..
  | .poolDisable .. | .ttcommit .. | .cgtdataWrite .. | .uemodeWrite .. | .flitArrival .. | .flitReorderDeliver ..
  | .fabricAck .. | .retransmitTimeout .. | .fabricIncomingAccess .. | .errCounterRead .. | .fwclampRead ..
  | .fbdropRead .. | .registerWrite .. | .deviceReset | .arithmeticClock | .portClock .. | .linkRetry ..
  | .mailboxErrRead .. | .wordPairLatchRead .. | .undefinedDebugCommand .. | .undefinedLaunchCommand .. => 0

/-- The bytes of a word as the memory holds them, lowest address first (R5, R113). -/
def wordBytes (w : IWord) : List Byte := (List.range 12).map fun i => w.extractLsb' (8 * i) 8

/-- A word from its twelve bytes, lowest address first (R5, R113). -/
def wordOfBytes (l : List Byte) : IWord :=
  BitVec.ofNat 96 (l.foldr (fun b n => b.toNat + 256 * n) 0)

/-- The instruction the decoder reads from bits numbered as the opcode table numbers them: an instruction word is one
96-bit word, whose bit 0 is bit 0 of its first byte (R113). A row of the table gives no bits, so the bits above `nbits` are
0; the word goes through its bytes in memory, as a fetch does. -/
def decodeTableWord (nbits w : Nat) : Option Instr :=
  match decode (wordOfBytes (wordBytes (BitVec.ofNat 96 (w % 2 ^ nbits)))) with
  | .ok i => some i
  | .error _ => none

end Sys2Proof
end

