-- ==== Sys2Proof/Config.lean ====
section
/-! DEFINITION. What an implementation fixes and the spec does not: constants of the part and the FREE VALUES of the
model. An `opaque` constant has no body, so nothing can be proved about its value (notes/assumptions). -/

namespace Sys2Proof

/-- The four ordering codes (00_scope R1). -/
inductive Part where
  | bx2400P | bx2400M | bx2176P | bx2176M
deriving DecidableEq, Repr

/-- The harvested bin (R3). -/
def Part.harvested : Part → Bool
  | .bx2400P | .bx2400M => false
  | .bx2176P | .bx2176M => true

/-- Logical pens of each die (R3, R4). -/
def Part.pensPerDie (p : Part) : Nat := if p.harvested then 11 else 12
/-- Logical cores of each die, and of the package (R1, R20). -/
def Part.coresPerDie (p : Part) : Nat := 8 * p.pensPerDie
def Part.cores (p : Part) : Nat := 2 * p.coresPerDie
/-- The code of the attestation report (R564). -/
def Part.code : Part → Nat
  | .bx2400P => 0 | .bx2400M => 1 | .bx2176P => 2 | .bx2176M => 3

namespace Config

/-- FREE VALUE. The n-th value the machine leaves open in a run: contents of copy elements at or above a fault (R406),
outcomes of parity-broken predicates and the like. -/
opaque freeBits : Nat → Nat
/-- FREE VALUE. The L2 set a line of a slice falls in (R314 gives the number of sets and not the mapping). -/
opaque l2Set : Nat → Nat
/-- FREE VALUE. Where, in the range R101 allows, the bound on |x - y| of a correctly rounded function lies. -/
opaque errSlack : Nat → Nat → Nat → Nat
/-- FREE VALUE. Where, in the range R102 allows, the bound on an irrational gradient factor lies. -/
opaque factorSlack : Nat → Nat → Nat
/-- FREE VALUE. Firmware digest (R559), byte by byte. -/
opaque firmwareDigest : Nat → Byte
/-- FREE VALUE. The 64-bit device id (R559). -/
opaque deviceId : DWord
/-- FREE VALUE. The RSA-3072 signature under the identity key, which never leaves the device (R559): byte i of the signature
of a digest. -/
opaque identitySign : List Byte → Nat → Byte

/-- FREE VALUE. How many arithmetic clocks after reset release a core's own first clock in stage A comes (R543, R545). -/
opaque startSkew : Nat → Nat
/-- FREE VALUE. The rail ceiling, in mV, at which a pen's voltage offset makes it weak (R560). -/
opaque railCeiling : Int

/-- FREE VALUE. What participants of a collective on other devices contribute, and whether they agree (R411-R413): by collective,
bucket, round, rank and byte. -/
opaque remoteByte : List Nat → Byte

end Config

end Sys2Proof
end

