-- ==== Sys2Proof/Machine/Bits.lean ====
section
/-! DEFINITION. Bit fields, sign extension and byte order (00_scope R5, 02_formats R63, R64). -/

namespace Sys2Proof.Machine

/-- Bits [lo + len - 1 : lo] of a word, as a number. -/
def fieldOf {n : Nat} (w : BitVec n) (lo len : Nat) : Nat := (w.toNat >>> lo) % 2 ^ len

/-- Bit i of a word. -/
def bitOf {n : Nat} (w : BitVec n) (i : Nat) : Bool := w.toNat.testBit i

/-- A word with bits [lo + len - 1 : lo] replaced. -/
def setField {n : Nat} (w : BitVec n) (lo len v : Nat) : BitVec n :=
  let m := (2 ^ len - 1) <<< lo
  BitVec.ofNat n ((w.toNat ^^^ (w.toNat &&& m)) ||| ((v % 2 ^ len) <<< lo))

/-- Element i of width w of a register word (R63). -/
def elemOf (x : Word) (w i : Nat) : Nat := fieldOf x (w * i) w
def setElem (x : Word) (w i v : Nat) : Word := setField x (w * i) w v

/-- The value of a pair: the low word in the lower register (R64). -/
def pairOf (lo hi : Word) : DWord := hi ++ lo
def loWord (d : DWord) : Word := d.extractLsb' 0 32
def hiWord (d : DWord) : Word := d.extractLsb' 32 32

/-- Two's complement reading of the low w bits of a number (R60). -/
def signedOf (w n : Nat) : Int :=
  let m := n % 2 ^ w
  if 2 ^ (w - 1) ≤ m then (m : Int) - (2 ^ w : Nat) else (m : Int)

/-- The low w bits of an integer (R180). -/
def wrapTo (w : Nat) (x : Int) : Nat := (x % ((2 ^ w : Nat) : Int)).toNat

/-- Clamp to a range. -/
def clampInt (lo hi x : Int) : Int := if x < lo then lo else if hi < x then hi else x

/-- Bytes of a number, lowest address first (R5). -/
def bytesOf (n len : Nat) : List Byte := (List.range len).map fun i => BitVec.ofNat 8 (n >>> (8 * i))
/-- A number from its bytes, lowest address first (R5). -/
def ofBytes (l : List Byte) : Nat := l.foldr (fun b n => b.toNat + 256 * n) 0

/-- The lanes of a mask below w, ascending (R9). -/
def lanesOf (m : LaneMask) : List Nat := (List.range 64).filter fun l => bitOf m l
def laneBit (l : Nat) : LaneMask := BitVec.ofNat 64 (2 ^ l)
def maskOf (ls : List Nat) : LaneMask := ls.foldl (fun m l => m ||| laneBit l) 0
def lowLane (m : LaneMask) : Option Nat := (lanesOf m).head?

/-- Number of ones in the low n bits. -/
def popCount (x n : Nat) : Nat := (List.range n).foldl (fun c i => if x.testBit i then c + 1 else c) 0

/-- ceil(a / b). -/
def ceilDiv (a b : Nat) : Nat := (a + b - 1) / b

end Sys2Proof.Machine
end

