-- ==== Sys2Proof/Machine/Cells.lean ====
section
/-! DEFINITION. Finite maps as plain lists. `Cells` reads a default where nothing is listed and keeps one canonical form:
keys strictly rising, no entry equal to the default. `Table` holds records under unique keys. -/

namespace Sys2Proof.Machine

/-- Sparse storage with a default: memories and register files. -/
abbrev Cells (α : Type) := List (Nat × α)

/-- What key k reads as. -/
def cget {α : Type} (dflt : α) : Cells α → Nat → α
  | [], _ => dflt
  | (j, v) :: r, k => if j = k then v else cget dflt r k

/-- Put an entry at its place, replacing one of the same key. -/
def cput {α : Type} : Cells α → Nat → α → Cells α
  | [], k, v => [(k, v)]
  | (j, w) :: r, k, v =>
    if j < k then (j, w) :: cput r k v
    else if j = k then (k, v) :: r
    else (k, v) :: (j, w) :: r

/-- Remove every entry of a key. -/
def cdel {α : Type} (m : Cells α) (k : Nat) : Cells α := m.filter fun e => e.1 ≠ k

/-- Write: the default removes the entry. -/
def cset {α : Type} [DecidableEq α] (dflt : α) (m : Cells α) (k : Nat) (v : α) : Cells α :=
  if v = dflt then cdel m k else cput m k v

/-- Keys strictly rising. -/
def keysRising {α : Type} : Cells α → Bool
  | [] => true
  | [_] => true
  | (j, _) :: (k, v) :: r => j < k && keysRising ((k, v) :: r)

/-- The canonical form. -/
def cellsWf {α : Type} [DecidableEq α] (dflt : α) (m : Cells α) : Bool :=
  keysRising m && m.all fun e => e.2 ≠ dflt

/-- Records by key. -/
abbrev Table (α : Type) := List (Nat × α)

def tget {α : Type} : Table α → Nat → Option α
  | [], _ => none
  | (j, v) :: r, k => if j = k then some v else tget r k

def tset {α : Type} (m : Table α) (k : Nat) (v : α) : Table α := cput m k v
def tdel {α : Type} (m : Table α) (k : Nat) : Table α := cdel m k
def tmod {α : Type} (m : Table α) (k : Nat) (f : α → α) : Table α :=
  match tget m k with
  | some v => cput m k (f v)
  | none => m

/-- Replace element i of a list. -/
def lset {α : Type} : List α → Nat → α → List α
  | [], _, _ => []
  | _ :: r, 0, v => v :: r
  | x :: r, n + 1, v => x :: lset r n v

def lmod {α : Type} : List α → Nat → (α → α) → List α
  | [], _, _ => []
  | x :: r, 0, f => f x :: r
  | x :: r, n + 1, f => x :: lmod r n f

/-- Remove element i of a list. -/
def lrem {α : Type} : List α → Nat → List α
  | [], _ => []
  | _ :: r, 0 => r
  | x :: r, n + 1 => x :: lrem r n

end Sys2Proof.Machine
end

