-- ==== Sys2Proof/Machine/Num.lean ====
section
/-! DEFINITION. Exact numbers and the number formats of 02_formats: values of the encodings (R54-R59), rounding in the six
modes (R65-R69), overflow, tiny results and the flush (R67, R72, R74). -/

namespace Sys2Proof.Machine

/-- An exact rational: (-1)^neg * num / den with den > 0. Zero keeps its sign. -/
structure Ex where
  neg : Bool
  num : Nat
  den : Nat
deriving DecidableEq, Repr

def exZero : Ex := ⟨false, 0, 1⟩
def exOne : Ex := ⟨false, 1, 1⟩
def exNat (n : Nat) : Ex := ⟨false, n, 1⟩
def exInt (z : Int) : Ex := ⟨z < 0, z.natAbs, 1⟩
def Ex.isZero (x : Ex) : Bool := x.num == 0
def Ex.abs (x : Ex) : Ex := { x with neg := false }
def Ex.negate (x : Ex) : Ex := { x with neg := !x.neg }

/-- 2^k for any integer k. -/
def pow2 (k : Int) : Ex := if 0 ≤ k then ⟨false, 2 ^ k.toNat, 1⟩ else ⟨false, 1, 2 ^ (-k).toNat⟩

/-- m * 2^k, kept small. -/
def dyadic (neg : Bool) (m : Nat) (k : Int) : Ex :=
  if 0 ≤ k then ⟨neg, m * 2 ^ k.toNat, 1⟩ else ⟨neg, m, 2 ^ (-k).toNat⟩

def Ex.mul (x y : Ex) : Ex := ⟨x.neg != y.neg, x.num * y.num, x.den * y.den⟩
/-- Division by a non-zero number. -/
def Ex.div (x y : Ex) : Ex := ⟨x.neg != y.neg, x.num * y.den, x.den * y.num⟩
def Ex.sq (x : Ex) : Ex := ⟨false, x.num * x.num, x.den * x.den⟩

/-- Bring two numbers to one denominator, without growth where one denominator divides the other. -/
def Ex.align (x y : Ex) : Nat × Nat × Nat :=
  if x.den = y.den then (x.num, y.num, x.den)
  else if y.den % x.den = 0 then (x.num * (y.den / x.den), y.num, y.den)
  else if x.den % y.den = 0 then (x.num, y.num * (x.den / y.den), x.den)
  else (x.num * y.den, y.num * x.den, x.den * y.den)

/-- Exact sum; an exact zero sum of unlike signs is +0, zeros of like sign keep it (R81 adjusts for RD). -/
def Ex.add (x y : Ex) : Ex :=
  let (a, b, d) := x.align y
  if x.neg = y.neg then ⟨x.neg, a + b, d⟩
  else if b < a then ⟨x.neg, a - b, d⟩
  else if a < b then ⟨y.neg, b - a, d⟩
  else ⟨false, 0, 1⟩
def Ex.sub (x y : Ex) : Ex := x.add y.negate

/-- Exact comparison; the two zeros are equal. -/
def Ex.lt (x y : Ex) : Bool :=
  let (a, b, _) := x.align y
  if x.neg = y.neg then (if x.neg then decide (b < a) else decide (a < b))
  else if x.neg then decide (0 < a + b) else false
def Ex.eqv (x y : Ex) : Bool := !x.lt y && !y.lt x
def Ex.le (x y : Ex) : Bool := !y.lt x
def Ex.max (x y : Ex) : Ex := if x.lt y then y else x

/-- floor(log2 |x|) for x ≠ 0. -/
def Ex.ilog2 (x : Ex) : Int :=
  let k : Int := (Nat.log2 x.num : Int) - (Nat.log2 x.den : Int)
  if (x.abs).lt (pow2 k) then k - 1 else if (pow2 (k + 1)).le x.abs then k + 1 else k

/-- Integer square root, bit by bit from bit k. -/
def isqrtGo (n : Nat) : Nat → Nat → Nat
  | 0, r => if (r + 1) * (r + 1) ≤ n then r + 1 else r
  | k + 1, r =>
    let t := r + 2 ^ (k + 1)
    isqrtGo n k (if t * t ≤ n then t else r)
def isqrt (n : Nat) : Nat := if n = 0 then 0 else isqrtGo n (Nat.log2 n / 2 + 1) 0

/-- √x to at least p significant bits, with a sticky half unit when it is inexact: it rounds as √x does to any precision
below p - 1 bits. The flag says exact. -/
def sqrtSticky (p : Nat) (x : Ex) : Ex × Bool :=
  if x.num = 0 then (exZero, true) else
  let k := p + Nat.log2 x.den / 2 + 2
  let n := x.num * 4 ^ k
  let r := isqrt (n / x.den)
  let ex : Bool := decide (r * r * x.den = n)
  (⟨false, 2 * r + (if ex then 0 else 1), 2 ^ (k + 1)⟩, ex)

/-- The six rounding modes (R65). -/
inductive Rm where
  | rn | rz | ru | rd | ra | sr
deriving DecidableEq, Repr

/-- How a format treats its top exponent (R54, R55). -/
inductive FpKind where
  | ieee | e4m3 | e2m1 | uns | e8m0
deriving DecidableEq, Repr

/-- Layout of a floating-point or scale format (R54). -/
structure FpFmt where
  eb : Nat
  mb : Nat
  bias : Nat
  kind : FpKind
deriving DecidableEq, Repr

def fF64 : FpFmt := ⟨11, 52, 1023, .ieee⟩
def fF32 : FpFmt := ⟨8, 23, 127, .ieee⟩
def fF16 : FpFmt := ⟨5, 10, 15, .ieee⟩
def fBF16 : FpFmt := ⟨8, 7, 127, .ieee⟩
def fE5M2 : FpFmt := ⟨5, 2, 15, .ieee⟩
def fE4M3 : FpFmt := ⟨4, 3, 7, .e4m3⟩
def fE2M1 : FpFmt := ⟨2, 1, 1, .e2m1⟩
def fE8M0 : FpFmt := ⟨8, 0, 127, .e8m0⟩
def fUV24 : FpFmt := ⟨8, 16, 127, .uns⟩
def fVE8 : FpFmt := ⟨5, 3, 15, .uns⟩

/-- The layout of a floating-point or scale format code; the integer codes read as FP32, and no caller asks for them. -/
def fmtOfTy : Ty → FpFmt
  | .f64 => fF64 | .f16 => fF16 | .bf16 => fBF16 | .e5m2 => fE5M2 | .e4m3 => fE4M3 | .e2m1 => fE2M1 | .e8m0 => fE8M0
  | .uv24 => fUV24 | .ve8 => fVE8 | _ => fF32

def FpFmt.signed (f : FpFmt) : Bool := f.kind != .uns && f.kind != .e8m0
def FpFmt.topExp (f : FpFmt) : Nat := 2 ^ f.eb - 1
/-- Exponent of the largest finite value (R56). -/
def FpFmt.emax (f : FpFmt) : Int :=
  match f.kind with
  | .ieee | .uns | .e8m0 => (f.topExp : Int) - 1 - f.bias
  | .e4m3 | .e2m1 => (f.topExp : Int) - f.bias
/-- Exponent of the smallest normal, and of the smallest subnormal (R56). -/
def FpFmt.emin (f : FpFmt) : Int := 1 - (f.bias : Int)
def FpFmt.qmin (f : FpFmt) : Int := f.emin - f.mb
/-- Significand of the largest finite value, in units of its last place (R56). -/
def FpFmt.maxSig (f : FpFmt) : Nat :=
  match f.kind with
  | .e4m3 => 2 ^ (f.mb + 1) - 2
  | _ => 2 ^ (f.mb + 1) - 1
def FpFmt.maxFin (f : FpFmt) : Ex := dyadic false f.maxSig (f.emax - f.mb)

/-- What an encoding stands for. A NaN keeps its sign and its fraction left-aligned to 52 bits (R80). -/
inductive FpVal where
  | nan (neg : Bool) (frac : Nat) (sig : Bool)
  | inf (neg : Bool)
  | fin (x : Ex)
deriving DecidableEq, Repr

/-- The value of an encoding (R55, R57-R59). -/
def decodeFp (f : FpFmt) (bits : Nat) : FpVal :=
  let fr := bits % 2 ^ f.mb
  let e := (bits >>> f.mb) % 2 ^ f.eb
  let s := f.signed && (bits >>> (f.mb + f.eb)) % 2 == 1
  let num : Ex := if e = 0 then dyadic s fr f.qmin else dyadic s (2 ^ f.mb + fr) ((e : Int) - f.bias - f.mb)
  match f.kind with
  | .ieee =>
    if e = f.topExp then
      (if fr = 0 then .inf s else .nan s (fr * 2 ^ (52 - f.mb)) (fr < 2 ^ (f.mb - 1)))
    else .fin num
  | .e4m3 => if e = 15 ∧ fr = 7 then .nan s (2 ^ 51) false else .fin num
  | .e2m1 => .fin num
  | .uns => if e = f.topExp then .inf false else .fin num
  | .e8m0 => if e = 255 then .nan false (2 ^ 51) false else .fin (pow2 ((e : Int) - 127))

/-- Sign bit at the top of a signed format. -/
def signBits (f : FpFmt) (neg : Bool) : Nat := if neg && f.signed then 2 ^ (f.eb + f.mb) else 0

/-- Encoding of an infinity in a format that has one (R57, R59). -/
def infBits (f : FpFmt) (neg : Bool) : Nat := signBits f neg + f.topExp * 2 ^ f.mb

/-- Encoding of a quiet NaN with the payload given (R79, R80). [log 176 DESIGN CHOICE] -/
def nanBits (f : FpFmt) (neg : Bool) (frac : Nat) : Nat :=
  match f.kind with
  | .e4m3 => signBits f neg + 127
  | .e8m0 => 255
  | _ => signBits f neg + f.topExp * 2 ^ f.mb + ((frac / 2 ^ (52 - f.mb)) ||| 2 ^ (f.mb - 1))

/-- The default NaN (R79). -/
def defaultNan (f : FpFmt) : Nat := nanBits f false 0

/-- Encoding of a finite magnitude m * 2^q that the format represents exactly. -/
def finBits (f : FpFmt) (neg : Bool) (m : Nat) (q : Int) : Nat :=
  if m < 2 ^ f.mb then signBits f neg + m
  else
    let up : Nat := if 2 ^ (f.mb + 1) ≤ m then 1 else 0
    let m' := m / 2 ^ up
    signBits f neg + ((q + up + f.mb + f.bias).toNat * 2 ^ f.mb + (m' - 2 ^ f.mb))

/-- Largest finite value of a sign (R67). [log 15 DEDUCED] -/
def maxBits (f : FpFmt) (neg : Bool) : Nat := finBits f neg f.maxSig (f.emax - f.mb)

/-- Flags in FPSR order (R166). -/
abbrev Flg := BitVec 6
def fIV : Flg := 1
def fDZ : Flg := 2
def fOF : Flg := 4
def fUF : Flg := 8
def fIX : Flg := 16
def fUD : Flg := 32

/-- Round up the magnitude, given quotient, remainder and divisor (R65, R69); `w` is the random word of SR.
[log 175 DESIGN CHOICE] -/
def stepUp (mode : Rm) (neg : Bool) (w lo r d : Nat) : Bool :=
  match mode with
  | .rn => decide (d < 2 * r) || (decide (2 * r = d) && lo % 2 == 1)
  | .ra => decide (d ≤ 2 * r)
  | .rz => false
  | .ru => !neg && decide (r ≠ 0)
  | .rd => neg && decide (r ≠ 0)
  | .sr =>
    let x := r * 65536
    let dd := x / d
    let dd := if x % d ≠ 0 ∧ dd % 2 = 0 then dd + 1 else dd
    decide (65536 ≤ dd + w)

/-- Magnitude of x in units of 2^q, rounded (R65): the multiple, and whether it is exact; then g as a fraction. -/
def quantise (mode : Rm) (neg : Bool) (w : Nat) (x : Ex) (q : Int) : Nat × Bool × Nat × Nat :=
  let n := if 0 ≤ q then x.num else x.num * 2 ^ (-q).toNat
  let d := if 0 ≤ q then x.den * 2 ^ q.toNat else x.den
  let lo := n / d
  let r := n % d
  (if stepUp mode neg w lo r d then lo + 1 else lo, r == 0, r, d)

/-- What a rounding delivers: the encoding, the flags of R67, R72 and R74, and what R100 asks about it. -/
structure Rounded where
  bits : Nat
  flags : Flg
  inexact : Bool
  overflow : Bool
  flushed : Bool
  y : Ex
  ulp : Int
  gNum : Nat
  gDen : Nat
deriving DecidableEq, Repr

/-- An exact delivery. -/
def exactly (bits : Nat) (y : Ex) : Rounded := ⟨bits, 0, false, false, false, y, 0, 0, 1⟩

/-- Exponent of ulp(y) in a format. -/
def ulpExp (f : FpFmt) (y : Ex) : Int := if y.isZero then f.qmin else max (y.ilog2 - f.mb) f.qmin

/-- Overflow (R67, R82, R210): the infinity, the largest finite value or, in a format without infinity, what R82 gives. -/
def overflowed (f : FpFmt) (mode : Rm) (neg sat : Bool) : Rounded :=
  let toInf := match mode with
    | .rn | .ra | .sr => true
    | .rz => false
    | .ru => !neg
    | .rd => neg
  let max : Rounded := { exactly (maxBits f neg) { f.maxFin with neg := neg } with flags := fOF ||| fIX, inexact := true, overflow := true }
  if f.kind == .uns then { max with bits := infBits f false }
  else if sat || !toInf || f.kind == .e2m1 then max
  else if f.kind == .e4m3 then { max with bits := nanBits f neg 0 }
  else { max with bits := infBits f neg }

/-- Round a non-zero or zero exact value into a format (R65, R67, R69, R72, R74). Where subnormal results are flushed they are not
kept, so the neighbours have an unbounded exponent (R65) and the flush tests that rounding (R72). [log 175 DESIGN CHOICE] -/
def roundFin (f : FpFmt) (mode : Rm) (w : Nat) (flush sat : Bool) (x : Ex) : Rounded :=
  if x.isZero then exactly (signBits f x.neg) { x with num := 0, den := 1 } else
  let e := x.ilog2
  let q := if flush then e - f.mb else max (e - f.mb) f.qmin
  -- R67: between the largest finite value and 2^(emax+1), SR steps to 2^(emax+1)
  let top := pow2 (f.emax + 1)
  if mode = .sr ∧ f.maxFin.lt x.abs = true ∧ x.abs.lt top = true then
    let gap := top.sub f.maxFin
    let g := (x.abs.sub f.maxFin).div gap
    if stepUp .sr x.neg w 0 g.num g.den then { overflowed f mode x.neg sat with gNum := g.num, gDen := g.den, ulp := f.emax - f.mb }
    else { exactly (maxBits f x.neg) { f.maxFin with neg := x.neg } with
             flags := fIX, inexact := true, ulp := f.emax - f.mb, gNum := g.num, gDen := g.den }
  else
  let (m, ex, gn, gd) := quantise mode x.neg w x q
  let y := dyadic x.neg m q
  if f.maxFin.lt y.abs then { overflowed f mode x.neg sat with gNum := gn, gDen := gd, ulp := f.emax - f.mb }
  else
  let minNormal := pow2 f.emin
  let tiny : Bool :=
    if e < f.emin then
      let (mu, _, _, _) := quantise mode x.neg w x (e - f.mb)
      (dyadic false mu (e - f.mb)).lt minNormal
    else false
  if flush && m != 0 && y.abs.lt minNormal then
    { bits := signBits f x.neg, flags := fUF ||| fIX, inexact := true, overflow := false, flushed := true,
      y := ⟨x.neg, 0, 1⟩, ulp := f.emin, gNum := gn, gDen := gd }
  else
    { bits := finBits f x.neg m q, flags := if ex then 0 else if tiny then fUF ||| fIX else fIX, inexact := !ex,
      overflow := false, flushed := false, y := y, ulp := ulpExp f y, gNum := gn, gDen := gd }

/-- Round to an integer in a mode (R68): the integer and whether it is exact. -/
def roundInt (mode : Rm) (w : Nat) (x : Ex) : Int × Bool :=
  let (m, ex, _, _) := quantise mode x.neg w x 0
  (if x.neg then -(m : Int) else (m : Int), ex)

/-- A conversion between floating-point formats or out of one (R80-R82, R85): infinities, NaNs, then one rounding.
[log 176 DESIGN CHOICE, 178 DESIGN CHOICE] -/
def convertFp (f : FpFmt) (mode : Rm) (w : Nat) (flush sat : Bool) (v : FpVal) : Rounded :=
  match v with
  | .nan neg frac sig =>
    match f.kind with
    | .e2m1 => { exactly 0 exZero with flags := fIV }
    | .uns => { exactly (infBits f false) exZero with flags := fIV }
    | _ => { exactly (nanBits f neg frac) exZero with flags := if sig then fIV else 0 }
  | .inf neg =>
    match f.kind with
    | .uns => { exactly (infBits f false) exZero with flags := if neg then fIV else 0 }
    | .e4m3 => if sat then { exactly (maxBits f neg) { f.maxFin with neg := neg } with flags := fIX }
               else { exactly (nanBits f neg 0) exZero with flags := fIV }
    | .e2m1 => { exactly (maxBits f neg) { f.maxFin with neg := neg } with flags := if sat then fIX else fIV }
    | _ => if sat then { exactly (maxBits f neg) { f.maxFin with neg := neg } with flags := fIX }
           else exactly (infBits f neg) exZero
  | .fin x =>
    match f.kind with
    | .uns =>
      if x.isZero then exactly 0 exZero
      else if x.neg then { exactly (infBits f false) exZero with flags := fIV }
      else roundFin f .ru 0 false false x
    | _ => roundFin f mode w flush sat x

/-- A conversion from a floating-point value to an integer of w bits (R81, R83): the bits and the flags. -/
def convertToInt (w : Nat) (uns : Bool) (mode : Rm) (word : Nat) (sat : Bool) (v : FpVal) : Nat × Flg :=
  let lo : Int := if uns then 0 else -((2 ^ (w - 1) : Nat) : Int)
  let hi : Int := if uns then ((2 ^ w : Nat) : Int) - 1 else ((2 ^ (w - 1) : Nat) : Int) - 1
  let bad : Int := if uns then 0 else lo
  match v with
  | .nan _ _ _ => (0, fIV)
  | .inf neg => if sat then (wrapTo w (if neg then lo else hi), fIX) else (wrapTo w bad, fIV)
  | .fin x =>
    let (z, ex) := roundInt mode word x
    if lo ≤ z ∧ z ≤ hi then (wrapTo w z, if ex then 0 else fIX)
    else if sat then (wrapTo w (clampInt lo hi z), fIX) else (wrapTo w bad, fIV)

/-- A small helper: the value of a UV24 variance, `none` for +infinity (R54, R59). -/
def uvVal (bits : Nat) : Option Ex :=
  match decodeFp fUV24 (bits % 2 ^ 24) with
  | .fin x => some x
  | _ => none

/-- A variance total into UV24, toward +infinity (R85, R102). -/
def uvOf (v : Option Ex) : Nat :=
  match v with
  | none => 0xFF0000
  | some x => if x.neg || x.isZero then 0 else (roundFin fUV24 .ru 0 false false x).bits

end Sys2Proof.Machine
end

