-- ==== Sys2Proof/Machine/Scale.lean ====
section
/-! DEFINITION. Block-scaled narrowing (02_formats R86, R87) and ternary bytes (R61, R62). -/

namespace Sys2Proof.Machine

/-- Exponent of the largest element of a narrowing target, and that element (R86). -/
def narrowEmax : Ty → Int
  | .t5 => 0
  | t => (fmtOfTy t).emax
def narrowMax : Ty → Ex
  | .t5 => exOne
  | t => (fmtOfTy t).maxFin

/-- One narrowed element: its code (a ternary digit 0, 1, 2 for T5), its value, whether it was clamped. -/
structure NElem where
  code : Nat
  val : Ex
  clamped : Bool
  exact : Bool
  ulp : Int
deriving DecidableEq, Repr

/-- Narrow one scaled value y (R87): clamp, then RN; T5 rounds to the nearest of -1, 0, 1 with ties to 0. -/
def narrowElem (t : Ty) (y : Ex) : NElem :=
  let cl := (narrowMax t).lt y.abs
  let y' : Ex := if cl then { narrowMax t with neg := y.neg } else y
  match t with
  | .t5 =>
    let one := (pow2 (-1)).lt y'.abs
    let v : Ex := if one then { exOne with neg := y'.neg } else exZero
    { code := if one then (if y'.neg then 2 else 1) else 0, val := v, clamped := cl, exact := v.eqv y, ulp := 0 }
  | _ =>
    let r := roundFin (fmtOfTy t) .rn 0 false false y'
    { code := r.bits, val := r.y, clamped := cl, exact := !r.inexact && !cl, ulp := ulpExp (fmtOfTy t) r.y }

/-- Narrow a block (R87): the scale, and the elements; a NaN or an infinity gives scale 0xFF and zero elements. [log 94 DEDUCED] -/
def narrowBlock (t : Ty) (xs : List FpVal) : Nat × List NElem :=
  let fins := xs.filterMap fun v => match v with
    | .fin x => some x
    | _ => none
  if fins.length < xs.length then
    (0xFF, xs.map fun _ => { code := 0, val := exZero, clamped := false, exact := false, ulp := 0 })
  else
    let amax := fins.foldl (fun m x => m.max x.abs) exZero
    let e : Int := if amax.isZero then 0 else clampInt (-127) 127 (amax.ilog2 - narrowEmax t)
    ((e + 127).toNat, fins.map fun x => narrowElem t (x.mul (pow2 (-e))))

/-- The five ternary digits of a T5 byte, element 0 first: digit 0 for 0, 1 for +1, 2 for -1 (R61). A reserved byte decodes as
five zeros (R62). -/
def t5Reserved (b : Nat) : Bool := 243 ≤ b
def t5Digits (b : Nat) : List Nat :=
  if t5Reserved b then [0, 0, 0, 0, 0] else [b % 3, b / 3 % 3, b / 9 % 3, b / 27 % 3, b / 81 % 3]
/-- The value of a ternary digit, and the byte of five digits. -/
def t5Val (d : Nat) : Int := if d = 1 then 1 else if d = 2 then -1 else 0
def t5Byte (ds : List Nat) : Nat := ds.foldr (fun d n => d + 3 * n) 0

end Sys2Proof.Machine
end

