-- ==== Sys2Proof/Machine/State.lean ====
section
/-! DEFINITION. The state of the machine as plain data: every piece of state the spec gives the BX-2400 (INVENTORY.md), the
model's own bookkeeping (named as such), the reasons a step can stop, and the state right after reset. -/

namespace Sys2Proof.Machine

/-- Why the machine stops with a fault. Both are SAFE: the model stops where the hardware has nothing to do. -/
inductive Fault where
  /-- `exec` was asked to run a word of group code or of a tile stream while no resident entry or block is named to issue
  it. Raised by every such meaning; never by `step`, which names the issuer first. Safe. -/
  | noIssuer
  /-- An event names a party (a group, a block, a launch, a move, a request) that does not exist or is not in the state the
  event needs. Raised by the event meanings when `exec` is called on them directly; `step` skips such an event. Safe. -/
  | notEnabled
deriving DecidableEq, Repr

/-- Why the machine refuses. -/
inductive Refusal where
  /-- An instruction without a meaning in this model; only `exec` answers with it. Safe. -/
  | notModelled (mnemonic : String)
deriving DecidableEq, Repr

/-- Value modes (R25). -/
inductive Mode where
  | point | dist | samples
deriving DecidableEq, Repr

/-- Progress classes (R32). -/
inductive Progress where
  | weak | parallel | concurrent
deriving DecidableEq, Repr

/-- A launch record, as the dispatcher read it (R421); the resolved LANES; DEP0-DEP3 with their valid bits. -/
structure Rec where
  kaddr : DWord
  cseg : DWord
  cseglen : Nat
  gx : Nat
  gy : Nat
  gz : Nat
  dbgen : Bool
  rel : Bool
  red : Bool
  det : Bool
  prog : Progress
  mode : Mode
  gang : Nat
  lanes : Nat
  groups : Nat
  width : Nat
  sys : Bool
  ringn : Nat
  tslotn : Nat
  regs : Nat
  scratch : Nat
  fpcr : Word
  tbarm : Nat
  trsn : Nat
  trsb : Nat
  tstr : DWord
  thnd : DWord
  stream : DWord
  bindp : DWord
  bindn : Nat
  asid : Nat
  ser : Bool
  reln : Nat
  deps : List (Nat × Nat)
  savep : DWord
  savelen : Nat
  cpla : DWord
  handle : Word
  args : List Word
deriving DecidableEq, Repr

/-- Spaces of a binding (R346). -/
inductive BindSpace where
  | global | scratch | fabric
deriving DecidableEq, Repr

/-- One entry of a region binding table (R346). -/
structure Binding where
  space : BindSpace
  base : Nat
  len : Nat
  level : Level
  barn : Nat
deriving DecidableEq, Repr

/-- A hardware barrier (R525-R527): the current instance, the members counted at it, and each member's latest recorded
instance plus one (0: none). At GRP a member is a lane; at BLK a group index, 16 the tile sequencer; at GANG a member index;
at GRID a linear block index. -/
structure Bar where
  inst : Nat := 0
  arrived : List Nat := []
  recs : List (Nat × Nat) := []
deriving DecidableEq, Repr

/-- A record of the rejoin stack (R381). -/
structure Rejoin where
  pc : DWord
  mask : LaneMask
  prio : Nat
deriving DecidableEq, Repr

/-- Why a frontier entry is parked (R370). Trap entry's own parking is not listed: it is every entry but the handler
entries while TM is set (R283). -/
inductive Park where
  /-- At a switch marker (R375). -/
  | marker
  /-- The late part of a `.split` division, with the lanes' destination registers pending (R332). -/
  | splitLate
  /-- At a JOIN (R382). -/
  | join
  /-- In BAR until instance `inst` of the barrier completes; `redo` says BAR executes afterwards (an arrival that waited
  for an incomplete instance), otherwise the entry moves on (R534). -/
  | barrier (level : Level) (barn inst : Nat) (redo : Bool)
  /-- Before issue: a queue, a ring, a counter, a full mailbox word, an absent scratchpad line, a ticket, trap-queue space
  (R388, R392, R399, R400, R535, R300, R310, R436, R448). Issue is tried again. -/
  | retry
  /-- For a TRAP.post reply of this tag into a uniform register (R289). -/
  | reply (tag : Word) (reg : Nat)
  /-- For an operation of the group to end: PLACE (its move), FENCE, a redundant comparison (R494, R340, R439). -/
  | busy
deriving DecidableEq, Repr

/-- A frontier entry (R39, R40, R43, R44, R368). `lidp` is the descriptor address; `snapTime` orders snapshots (R372);
`irr` says the last instruction issued was irrevocable, and is set at group start, whose first instruction is RGN (R43, R154);
`counted` is the flag of R44. -/
structure Entry where
  pc : DWord
  prio : Nat
  mask : LaneMask
  rstart : DWord
  lidp : DWord
  snapStack : List Rejoin
  snapTime : Nat
  irr : Bool
  counted : Bool
  age : Nat
  park : Option Park
  handler : Bool
deriving DecidableEq, Repr

/-- A poison record in use (R163); `own` names the instruction whose access filled it, 0 for none: the model's own. -/
structure PRec where
  addr : Nat
  kind : Nat
  pair : Bool
  prd : Bool
  reg : Nat
  mask : LaneMask
  own : Nat := 0
deriving DecidableEq, Repr

/-- The guard report of a group (R279). -/
structure GuardRep where
  offset : Nat
  wr : Bool
  more : Bool
  core : Nat
  bank : Nat
  lanes : LaneMask
deriving DecidableEq, Repr

/-- Where a variable-latency write goes. -/
inductive Dest where
  | vec (reg lane : Nat) (data side : Word) (poison : Bool)
  | pred (reg lane : Nat) (val poison : Bool)
  | uni (reg : Nat) (data : Word)
deriving DecidableEq, Repr

/-- A result on its way back (R172): its pending vector registers and predicates (a uniform destination has no pending bit), its
lanes, what it writes and the flags it ORs in (R291). `ready` is false while a request or a remote reply still has to come; `req`
names the instruction; `split` marks a `.split` load that may still divide its entry, `late` the late part of one, pending for its
own lanes only (R332). `commit` is the region commit that comes once the home slices have performed the operation (R42, R44): the
lanes, the pc of the following RGN and its descriptor. -/
structure Inflight where
  vregs : List Nat
  pregs : List Nat
  kregs : List Nat := []
  lanes : LaneMask
  writes : List Dest
  flags : List (Nat × Flg)
  ready : Bool
  req : Nat
  split : Bool := false
  late : Bool
  commit : Option (LaneMask × DWord × DWord) := none
deriving DecidableEq, Repr

/-- A command that has entered a queue register (R388, R389): `code` is CMD, 256 for a slice of COPY; `args` its argument block or
record, followed for CSET by the nodes it read (R512); `seq` counts the pushes before it; `oc` and `ocSeq` its outstanding counter;
`ring` and `slot` where it completes; `order` numbers the starts; `result` its four completion words once its effects are done; `shadow` marks the other copy's
part of a command entered once for two (R440). `time` is the issue stamp of the push; `landing` are the tags of writes of the command
to other devices. -/
structure Cmd where
  code : Nat
  args : List Word
  payload : List (Word × Word)
  pmask : LaneMask
  seq : Nat
  oc : Option Nat
  ocSeq : Nat
  ring : Option Nat
  core : Nat
  started : Bool
  order : Nat
  slot : Nat
  result : Option (List Word)
  shadow : Bool
  time : Nat := 0
  landing : List Nat := []
deriving DecidableEq, Repr

/-- A queue register (R366, R387-R389): commands entered and not completed in entry order, completions to pop, push count; `past` are the
shared commands of a redundant launch completed since the checkpoint, with their completion words (R439, R440). -/
structure QReg where
  cmds : List Cmd := []
  comps : List (List Word) := []
  pushes : Nat := 0
  past : List Cmd := []
deriving DecidableEq, Repr

/-- A cached translation (R480): the fields of a lane's last-page register, and of a TLB entry with its context. -/
structure Xlat where
  asid : Nat
  vpn : Nat
  sz : Nat
  lo : DWord
  plw : Word
  attr : Word
deriving DecidableEq, Repr

/-- A fault as taken (R281): code, TVAL, TMASK, PRQI, FLAGS, IMPR and the pc. -/
structure Trap where
  code : Nat
  tval : Nat := 0
  tmask : LaneMask := 0
  prqi : Nat := 0
  flags : Nat := 0
  impr : Bool := false
  pc : DWord := 0
deriving DecidableEq, Repr

/-- What an issue attempt changed before the instruction was found to park before issue, so that it is taken back (R373, R385): the
ages, the entry that issued last, the one that yielded, and the counts of the performance counters. The model's own.
[log 154 DEDUCED] -/
structure Pass where
  ages : List (Nat × Nat)
  last : Nat
  yielded : Option Nat
  pmc : Cells Nat
  tally : Cells Nat
deriving DecidableEq, Repr

/-- A resident (or set-aside) group. Register files are sparse maps keyed by 64 * register + lane. `waitTrap` is a trap
decided outside the group's own issue that waits for TRAP_ENTRY (R249); `brkSkip` lets STEP pass a breakpoint (R297); `rtime`
holds the time each lane entered its region (R47); `sitOut` says the group sits out its next opportunity after YIELD (R385); `fence` is an entry that holds the whole group: its FENCE,
TRAP.post, PLACE or DBGW waits (R289, R300, R340, R494); `rgi` the resident group index (R177). -/
structure Group where
  bid : Nat
  gidx : Nat
  slot : Nat
  lofs : Nat
  entries : Table Entry
  nextEid : Nat
  lastEid : Nat
  v : Cells Word
  vp : Cells Bool
  side : Cells Word
  p : Cells Bool
  pp : Cells Bool
  k : Cells Word
  oc : Cells Nat
  ocDone : List (Nat × Nat)
  ocIssued : Cells Nat
  fpcr : Cells Word
  fpsr : Cells Word
  drc : Cells Word
  src : Cells Word
  sri : Cells Nat
  snapDrc : Cells Word
  snapSrc : Cells Word
  snapSri : Cells Nat
  rtime : Cells Nat
  rejoin : List Rejoin
  exited : LaneMask
  tcause : Word
  tpc : DWord
  tval : BitVec 128
  tmask : LaneMask
  tm : Bool
  retained : Option Nat
  waitTrap : Option Trap
  prq : Table PRec
  guardRep : Option GuardRep
  cych : Word
  bars : Table Bar
  qs : Table QReg
  inflight : List Inflight
  lastPage : Table Xlat
  yielded : Option Nat
  fence : Option Nat
  badLine : Option Nat
  halted : Bool
  haltReason : Nat
  haltWhich : Nat
  haltCode : Nat
  haltReq : Bool
  stepping : Option Nat
  brkSkip : Bool
  done : Bool
  rgi : Nat := 0
  sitOut : Bool := false
deriving DecidableEq, Repr

/-- Where the lines of a page lie: a plain line by its storage key; a line of a format window by the storage of its image
data and of its scale; a line of another device (R476, R479, R499). -/
inductive LineLoc where
  | plain (key : Nat)
  | view (key : Nat) (skey : Option Nat) (die wid : Nat)
  | remote (dev addr lanes : Nat)
deriving DecidableEq, Repr

/-- The place where an access takes effect (R341): bytes of a located line, or of a block's allocation; or bytes of another device's
memory under their fabric address. -/
inductive Tgt where
  | line (loc : LineLoc) (off : Nat)
  | sp (bid x : Nat)
  | far (fa : DWord)
deriving DecidableEq, Repr

/-- A staged access (R338, R432), in staging order: its operation as R438 codes it, its space and address, its data or operand
bytes and, of an atomic, the type; its replacement class (R315). `part` counts the release points its lane has arrived at that are
not released yet: 0 for the current set (R362). `time` is the stamp it was staged at, and `itime` that of its instruction, which a copy's
writes follow (R408, R438). -/
structure Staged where
  gidx : Nat
  lane : Nat
  time : Nat
  op : Nat
  fabric : Bool
  va : Nat
  size : Nat
  data : List Byte
  aty : Nat
  spilled : Bool
  part : Nat
  cls : Nat := 0
  itime : Nat := 0
deriving DecidableEq, Repr

/-- One 16-byte item of a store stream (R438), with the lane and time of its instruction and the part of `Staged`. -/
structure SigItem where
  gidx : Nat
  lane : Nat
  time : Nat
  addr : Nat
  op : Nat
  data : Word
  mask : Nat
  part : Nat
deriving DecidableEq, Repr

/-- A ring object (R397). -/
structure Ring where
  base : Nat
  cfg : Bool
  nm1 : Nat
  sm1 : Nat
  cnt : Nat
  wp : Nat
  rp : Nat
deriving DecidableEq, Repr

/-- A started copy of a block (R402): one slice of 24 record words per group that entered one, its ring and slot, and the counters
to decrement. `code` is its completion code as far as known at the start; `lines` are the scratchpad lines it makes absent, as
(block, line); `result` its completion words once its elements are moved; `landing` the tags of its writes to other devices; `time` the issue stamp
of the COPY of its lowest group (R408); `names` the rings its slices name (R400). -/
structure Copy where
  q : Nat
  slices : List (Nat × List Word)
  counted : List (Nat × Nat × Nat)
  seqs : List (Nat × Nat)
  ring : Nat
  slot : Nat
  lines : List (Nat × Nat)
  code : Nat
  result : Option (List Word)
  landing : List Nat
  time : Nat := 0
  names : List Nat := []
deriving DecidableEq, Repr

/-- A register write a tile instruction makes at its write point (R244): `data` none keeps data and poison. -/
structure TileWrite where
  gid : Nat
  reg : Nat
  lane : Nat
  data : Option Word
  side : Word
deriving DecidableEq, Repr

/-- One pass of a matrix instruction (R252, R266) and what its write point does. -/
structure TilePass where
  writes : List TileWrite
  flags : List (Nat × Nat × Flg)
  rsvd : Bool
  rung : Nat
  sat : Nat
  und : Nat
  can : Nat
  exceed : Bool
  bd : Bool
deriving DecidableEq, Repr

/-- A matrix instruction between its read point and its write point. `passes` has the squashed passes first. -/
structure TileJob where
  narrow : Bool
  passes : List TilePass
  made : Nat
  why : Nat
  fmtA : Nat
  fmtB : Nat
deriving DecidableEq, Repr

/-- A tile fault (R248, R249); of one of poison, the group and the record index it found (R250). -/
structure TileFault where
  code : Nat
  word : IWord
  line : DWord
  slot : Nat
  pgid : Nat
  rec0 : Nat
deriving DecidableEq, Repr

/-- The tile sequencer of a block (R168, R234-R237, R256, R258, R275). `slots` is keyed
4096 * slot + 64 * row + column; `badSlots` are the words that are uncorrectable (R320). -/
structure Tile where
  pc : DWord
  t : Cells Word
  tst : Word
  slots : Cells Word
  badSlots : List Nat
  kinds : Nat
  nbud : Word
  nctl : Word
  nbnd : Word
  nmon : Word
  nrep : Word
  nout : Word
  ended : Bool
  fault : Option TileFault
  badLine : Option Nat
  job : Option TileJob
  barWait : Option (Nat × Nat)
deriving DecidableEq, Repr

/-- A checkpoint of a redundant copy (R439): its groups, its block state, what it had staged and not released, and what it had recorded
at gang and grid barriers: level, barrier and its groups' records. -/
structure Ckpt where
  groups : List (Nat × Group)
  spad : Cells Byte
  tile : Tile
  bars : Table Bar
  rings : Table Ring
  gdep : Nat
  epoch : Nat
  staged : List Staged
  sigs : List SigItem
  arr : List (Level × Nat × List (Nat × Nat)) := []
deriving DecidableEq, Repr

/-- A block (R18, R23, R301, R306, R310, R433, R436, R439). `base` is the array offset of its allocation and `asize` its
bytes n (R305). `direct` is direct release (R436); `divided` says extra release points cut the current set (R437). `extra` names the entry parked at an extra release point and
`granted` lets it go on, `asked` are the items of its instruction (R440), and `full` says that it stands there for room in the buffer
(R437); `matched` says the set's signatures agreed, `released` that the set of the release point the block
stands at has taken effect, and `ckptDue` that a checkpoint is to be taken (R439).
`ticket` is the entry, or the copy, for whose access the parked block waits for its ticket (R37, R338, R436). -/
structure Block where
  gang : Nat
  index : Nat
  core : Nat
  groups : List Nat
  base : Nat
  asize : Nat
  spad : Cells Byte
  badWords : List Nat
  tile : Tile
  bars : Table Bar
  rings : Table Ring
  copies : List Copy
  exited : Bool
  gdep : Nat
  epoch : Nat
  staged : List Staged
  sigs : List SigItem
  direct : Bool
  divided : Bool
  extra : Option (Nat × Nat)
  granted : Bool
  matched : Bool
  released : Bool
  reruns : Nat
  ckpt : Option Ckpt
  ckptDue : Bool
  ticket : Option (Nat × Nat) := none
  full : Bool := false
  asked : List SigItem := []
deriving DecidableEq, Repr

/-- Where a gang stands (R24, R427, R429, R443). -/
inductive GangSt where
  | resident | setAside | retired | killed
deriving DecidableEq, Repr

/-- A gang, or one of the two copies of a redundant gang (R22, R428). -/
structure Gang where
  lid : Nat
  index : Nat
  copy : Nat
  st : GangSt
  pen : Nat
  blocks : List Nat
  bars : Table Bar
  relaunches : Nat
  forfeit : Bool
deriving DecidableEq, Repr

/-- Where a launch stands: taken and not admitted, admitted, set aside as a whole by SUSPEND (R425, R431). -/
inductive LaunchSt where
  | taken | running | suspended
deriving DecidableEq, Repr

/-- A launch (R418-R426, R433, R504). `place` lists the gangs still to place, with the copy; `posted` says its completion record was
sent to another device and is not yet there (R426). -/
structure Launch where
  queue : Nat
  seq : Nat
  prio : Nat
  rec0 : Rec
  st : LaunchSt
  binds : List Binding
  place : List (Nat × Nat)
  relaunched : List (Nat × Nat)
  bars : Table Bar
  kills : Nat
  relaunches : Nat
  sigt : Nat
  ovf : Nat
  first : Option (Nat × Word × DWord)
  tilef : Word
  forfeits : Nat
  gkills : Nat
  status : Nat
  seenCores : List Nat
  attached : Option Nat
  brks : Table DWord
  watches : Table (Nat × Nat × Nat × Nat)
  posted : Bool := false
deriving DecidableEq, Repr

/-- An L1 line (R312): the context and address it was read through, its storage, its class, the format window it was read through
(16 times the die plus the window, R498), its bytes, the groups whose own atomics have written the line since, which the copy
serves no more (R344), and its words that are uncorrectable (R320). -/
structure L1Line where
  asid : Nat
  vline : Nat
  line : Nat
  cls : Nat
  win : Option Nat
  bytes : List Byte
  late : List Nat
  bad : List Nat := []
deriving DecidableEq, Repr

/-- A line held by an L2 slice (R314, R315), most recent first in its list; `win` is the format window it is a view of (R500), as in
L1Line. [log 19 DESIGN CHOICE, 20 DESIGN CHOICE] -/
structure L2Line where
  slice : Nat
  line : Nat
  cls : Nat
  dirty : Bool
  win : Option Nat := none
deriving DecidableEq, Repr

/-- An atomic request on its way to its home slice or array (R316, R317, R334-R337): the issuing party, the operation and
one or two addresses with operands. `kind`: 0 ATOM, 1 AST, 2 ALD, 3 DCAS, 4 AMOV; 5 an LD (`op` its form, as in FWait, and the
operands its registers) and 6 an ST (the operands its bytes) that wait for an absent line, a closed page or an earlier request. `id` names its instruction, whose in-flight result
carries the same name (of both copies, in a redundant launch); `closed` says it was returned (R493). `cls` and `cls2` are the
replacement classes at its addresses (R315); `whole` says it waits till every line its instruction touches is present (R310); `laid` are the lane's own staged bytes that
an LD shows over the bytes it reads (R328). -/
structure AReq where
  id : Nat
  gid : Nat
  lane : Nat
  kind : Nat
  op : Nat
  ty : Nat
  size : Nat
  space : Space
  addr : DWord
  addr2 : DWord
  opnd : List Nat
  ret : Bool
  dreg : Nat
  det : Bool
  closed : Bool
  cls : Nat := 0
  cls2 : Nat := 0
  whole : Bool := true
  laid : List (Nat × Byte) := []
deriving DecidableEq, Repr

/-- The half of a DCAS or AMOV at a location of this device while the other half is performed at another device (R337, R478): the
location, locked; whether X is this half; its old value; whether the remote value `cmp` (or, without one, any) makes the write of
`new` (or, without one, of the remote value) take place; when the operation came by the fabric itself, who is answered, with which
congestion mark; and the class of the half here. -/
structure Hold where
  t : Tgt
  first : Bool
  two : Bool
  old : Nat
  go : Bool
  cmp : Option Nat
  new : Option Nat
  back : Option (Nat × Nat × Bool × FabAccess)
  cls : Nat := 0
deriving DecidableEq, Repr

/-- A fabric access of this device that another has not answered (R519, R521): `tag` is 64 times the name of its instruction,
plus the lane. `form` says what comes back: 0 nothing (a write, done when acknowledged); 1 a load; 2 and 3 a load extended from 8
and 16 bits; 4 a load with sidecars (R331); 5 an atomic's value and its flags; 6 the remote half of `hold`; 7 nothing, of an AST; 8 a
piece of `fars`. `va` is the address of the lane (R163); `laid` as in AReq. `got` and `more` are of a constant load of several pieces: the
bytes that have come, and the address and length of each piece after this one. -/
structure FWait where
  tag : Nat
  gid : Nat
  lane : Nat
  dev : Nat
  addr : Nat
  size : Nat
  regs : List Nat
  form : Nat
  va : Nat := 0
  laid : List (Nat × Byte) := []
  hold : Option Hold := none
  got : List Byte := []
  more : List (Nat × Nat) := []
deriving DecidableEq, Repr

/-- A piece of another device's memory that a fetch, a descriptor read, an engine or the dispatcher reads by a fabric access (R479): who
reads it, its fabric address and length, the tag of the access, and once that has come its poison kind, 0 for none, and bytes. -/
structure Far where
  owner : List Nat
  fa : DWord
  n : Nat
  tag : Nat
  back : Option (Nat × List Byte)
deriving DecidableEq, Repr

/-- A usable map window: its base, pages, level, pool, permissions and attributes (R486). -/
structure MapWin where
  base : Nat
  pages : Nat
  level : Nat
  pool : Nat
  perm : Nat
  attr : Word
deriving DecidableEq, Repr

/-- A PDROP in progress that waits (R487, R489, R490): the entry that issued it, its context, and the window as it found it. -/
structure Drop where
  gid : Nat
  eid : Nat
  asid : Nat
  win : Option MapWin
deriving DecidableEq, Repr

/-- A sweep in progress (R482, R483): its context, its page or the whole context, and who started it (a group's TLBINV
counted on oc7, or the host port). -/
structure Sweep where
  asid : Nat
  va : Option Nat
  gid : Option Nat
  ocSeq : Nat
deriving DecidableEq, Repr

/-- A move of a page (R492): `old` and `new` are the leaves; `attempt` is 0 while it waits for the engine, 9 in its write-stall copy;
`ver` the counters read at the start of the attempt, `slot` its number on the engine. -/
structure Mig where
  die : Nat
  slot : Nat
  asid : Nat
  va : Nat
  pte : Nat
  old : Nat
  new : Nat
  sz : Nat
  attempt : Nat
  ver : List Nat
  closed : Bool
  gid : Option Nat
  twin : Option Nat
  dreg : Nat
deriving DecidableEq, Repr

/-- A write-version entry of a slice (R541); `bank` is the arrangement its channel-local bytes are counted in (R477); `over_` says that
the counter would have passed 0xFFFF since the last comparison (R492). -/
structure WVer where
  slice : Nat
  closed : Bool
  die : Nat
  mig : Nat
  stk : Nat
  chan : Nat
  ver : Nat
  base : Nat
  ext : Nat
  bank : Nat
  over_ : Bool := false
deriving DecidableEq, Repr

/-- An entry of the stream reservation table (R508). -/
structure Srt where
  key : DWord
  tidn : Nat
  handle : Word
  lid : Nat
deriving DecidableEq, Repr

/-- A registered collective (R410-R412, R512). `hdr` holds the words the participants compare; `given` this participant's
contributions, by bucket and round; `done` the buckets and rounds completed; `mism` what the comparison showed (0 not made, 1 equal,
2 unequal); `key` names the data of participants on other devices. -/
structure Coll where
  die : Nat
  lid : Nat
  cid : Nat
  op : Nat
  tree : Bool
  p : Nat
  nb : Nat
  me : Nat
  buf : Nat
  bsz : Nat
  nbkt : Nat
  nodes : List Word
  hdr : List Word
  given : List (Nat × Nat × List Byte)
  done : List (Nat × Nat)
  mism : Nat
  key : Nat
deriving DecidableEq, Repr

/-- A sequence context of an unmasking engine (R449). -/
structure UCtx where
  die : Nat
  ctx : Nat
  asid : Nat
  n : Nat
  l : Nat
  area : Nat
  sketch : Nat
  cur : Nat
  pcur : Nat
deriving DecidableEq, Repr

/-- The source side of a flow (R518-R520); `queued` are the accesses, with the congestion mark they carry, that wait for the flow to hold
fewer unacknowledged flits. -/
structure FlowOut where
  flow : Flow
  seq : BitVec 16
  ent : BitVec 8
  unacked : List (BitVec 16 × FabAccess × Bool × Nat)
  lastEnt : Nat
  queued : List (Bool × FabAccess) := []
deriving DecidableEq, Repr

/-- The destination side of a flow in its home port's reorder buffer (R518). -/
structure FlowIn where
  port : Nat
  flow : Flow
  next : BitVec 16
  held : List (BitVec 16 × FabAccess × Bool)
deriving DecidableEq, Repr

/-- A debug mailbox and what its port attaches to (R293-R296). -/
structure Dbg where
  data : List Word
  full : Nat
  cmd : Word
  dargl : Word
  dargh : Word
  busy : Bool
  err : Bool
  lid : Option Nat
  blk : Nat
  grp : Nat
deriving DecidableEq, Repr

/-- Who issues now: a frontier entry of a group, or the sequencer of a block; and the word it issues (R281).
[log 137 DESIGN CHOICE] -/
structure Cursor where
  tile : Bool
  gid : Nat
  eid : Nat
  word : IWord
deriving DecidableEq, Repr

/-- What happens next: a group issues, a sequencer issues, an entry parked before issue is tried again, or an event (of the outside
world, or one the machine makes on its own) takes place. -/
inductive Act where
  | issue (gid : Nat)
  | tile (bid : Nat)
  | wake (gid eid : Nat)
  | event (i : Instr)
deriving DecidableEq, Repr

/-- The machine. The fields `agenda`, `turn`, `free`, `stamp`, `nextId`, `cur` and `pass` are the MODEL'S OWN: the inputs to come and
the order of otherwise unordered events; the scheduler's position; the counter of free values; a clock of issue order; fresh
names; the issuer of the instruction in execution; what its issue attempt changed. `vcq` holds the flits that wait to leave by a port
and VC, `vcin` those that came by a port (32: of this device itself) and found the queue they go to full (R366); `rounds` what each
port has sent in its round (R416); `replan` the pens whose ageing plan is due, and `ticks` the clocks since reset (R545, R560); `poolOff`
the pools whose EN is to clear once no `drops` on them goes on (R487); `fars` the pieces of other devices' memory that are being read
(R479); `cleanViews` the view lines, by image and scale, that were written whole after a line of theirs was poisoned (R320, R500).
[log 136 DESIGN CHOICE] -/
structure State where
  part : Part
  cur : Option Cursor
  agenda : List Act
  turn : Nat
  free : Nat
  stamp : Nat
  nextId : Nat
  running : Bool
  stage : Nat
  stageFail : Bool
  fcode : Nat
  planTo : Bool
  planRdy : Bool
  joinReq : Bool
  fwBad : Bool
  hreg : Cells Word
  lids : Cells Nat
  tieReg : Bool
  tieLid : Bool
  tieAttach : Bool
  latch : Table Word
  launches : Table Launch
  gangs : Table Gang
  blocks : Table Block
  groups : Table Group
  served : Table Nat
  mem : Cells Byte
  badLines : List Nat
  l1 : Table (List L1Line)
  l2 : List L2Line
  backed : Bool
  coreTlb : Table (List Xlat)
  dieTlb : Table (List Xlat)
  areqs : List AReq
  sweeps : List Sweep
  migs : List Mig
  vers : List WVer
  cyc : Cells DWord
  pmc : Cells Nat
  tally : Cells Nat
  portClk : Cells Word
  page : Cells DWord
  trapq : List (List Word)
  posts : Word
  srt : List Srt
  ttStaged : Cells Word
  ttActive : Cells Word
  cgt : Cells Word
  colls : List Coll
  uctx : List UCtx
  flowsOut : List FlowOut
  flowsIn : List FlowIn
  vcq : List (Nat × Nat × Flit)
  fwaits : List FWait
  dbg : Table Dbg
  fenced : List Nat
  atRep : List Word
  atSig : List Byte
  plansIn : Table (List Word)
  planOut : List (List Word)
  vcin : List (Nat × Nat × Flit) := []
  rounds : Table (Nat × Nat) := []
  pass : Option Pass := none
  replan : List Nat := []
  ticks : Nat := 0
  poolOff : List Nat := []
  drops : List Drop := []
  fars : List Far := []
  cleanViews : List (Nat × Option Nat) := []
deriving DecidableEq, Repr

/-- Register offsets of the host register space (R564). -/
def rPLANIN (i : Nat) : Nat := 0x40 + 4 * i
def rPLANCNT : Nat := 0x50
def rLCMDH : Nat := 0x84
def rLCMDST : Nat := 0x88
def rUEMODE : Nat := 0xC0
def rATNONCE (i : Nat) : Nat := 0x100 + 4 * i
def rATSTAT : Nat := 0x124
def rLQBASEL (q : Nat) : Nat := 0x1000 + 0x20 * q
def rLQBASEH (q : Nat) : Nat := 0x1004 + 0x20 * q
def rLQCFG (q : Nat) : Nat := 0x1008 + 0x20 * q
def rLQTAIL (q : Nat) : Nat := 0x100C + 0x20 * q
def rLQHEAD (q : Nat) : Nat := 0x1010 + 0x20 * q
def rLQDONE (q : Nat) : Nat := 0x1014 + 0x20 * q
def rTQRVAL : Nat := 0x2080
def rTQERR : Nat := 0x2088
def rSRTSTAT : Nat := 0x3000
def rSRTLOGA : Nat := 0x3004
def rSRTLOGB : Nat := 0x3008
def rSRTLOGKL : Nat := 0x300C
def rSRTLOGKH : Nat := 0x3010
def rTTSEL : Nat := 0x3100
def rTTSTAT : Nat := 0x3110
def rHSWPVAL : Nat := 0x3200
def rHSWPVAH : Nat := 0x3204
def rHSWPCMD : Nat := 0x3208
def rCTXROOTL (a : Nat) : Nat := 0x4000 + 0x80 * a
def rCTXROOTH (a : Nat) : Nat := 0x4004 + 0x80 * a
def rCTXCFG (a : Nat) : Nat := 0x4008 + 0x80 * a
def rMW (a w r : Nat) : Nat := 0x4040 + 0x80 * a + 0x10 * w + 4 * r
def rPPBASEL (p : Nat) : Nat := 0x6000 + 0x20 * p
def rPPBASEH (p : Nat) : Nat := 0x6004 + 0x20 * p
def rPPCFG (p : Nat) : Nat := 0x6008 + 0x20 * p
def rPPCAP (p : Nat) : Nat := 0x600C + 0x20 * p
def rPPCNT (p : Nat) : Nat := 0x6010 + 0x20 * p
def rFBID : Nat := 0x7000
def rFBWIN : Nat := 0x7004
def rFBTO : Nat := 0x7008
def rFBDROP : Nat := 0x700C
def rCGTSEL : Nat := 0x7010
def rLOC (j : Nat) : Nat := 0x7100 + 4 * j
def rPORTCFG (k : Nat) : Nat := 0x7200 + 4 * k
def rPORTW (k : Nat) : Nat := 0x7300 + 4 * k
def rROUTEM (c : Nat) : Nat := 0x8000 + 4 * c
def rROUTEN (c : Nat) : Nat := 0x9000 + 4 * c
def rUEPEER (e w : Nat) : Nat := 0xA000 + 0x20 * e + 4 * w
def rDie (d : Nat) : Nat := 0x100000 * (d + 1)
def rFWCFG (d i : Nat) : Nat := rDie d + 4 * i
def rFWCLAMP (d i : Nat) : Nat := rDie d + 0x40 + 4 * i
def rRMPEN (d p : Nat) : Nat := rDie d + 0x100 + 4 * p
def rRMCORE (d p : Nat) : Nat := rDie d + 0x140 + 4 * p
def rERRT (d i : Nat) : Nat := rDie d + 0x300 + 4 * i
def rERRL (d i : Nat) : Nat := rDie d + 0x340 + 4 * i
def rSUSP (d w : Nat) : Nat := rDie d + 0x380 + 4 * w
def rMCMD (d i : Nat) : Nat := rDie d + 0x400 + 4 * i
def rPMSEL (d c n : Nat) : Nat := rDie d + 0x10000 + 0x100 * c + 4 * n

/-- A mailbox at reset (R295). -/
def Dbg.reset : Dbg :=
  { data := List.replicate 11 0, full := 0, cmd := 0, dargl := 0, dargh := 0, busy := false, err := false, lid := none,
    blk := 0, grp := 0 }

/-- The remap fuses of the part (R506): logical pen p is physical pen p of its die and logical core i physical core i, a
DESIGN CHOICE that satisfies R507 (log entry 4). [log 4 DESIGN CHOICE] -/
def remapFuses (part : Part) : List (Nat × Word) :=
  (List.range 2).flatMap fun d =>
    (List.range part.pensPerDie).map (fun p => (rRMPEN d p, (0x80000000 : Word) + BitVec.ofNat 32 p))
      ++ (List.range part.pensPerDie).map (fun p => (rRMCORE d p, (0x76543210 : Word)))

/-- The ordering code modelled (log entry 3). [log 3 DESIGN CHOICE] -/
def thePart : Part := .bx2400P

/-- A device of an ordering code right after reset, as it stands until reset release: nothing runs, every register at its reset value,
memory with nothing listed (R1, R301, R366, R467, R525, R554). -/
def State.resetOf (part : Part) : State :=
  { part := part, cur := none, agenda := [], turn := 0, free := 0, stamp := 1, nextId := 1, running := false, stage := 0,
    stageFail := false, fcode := 0, planTo := false, planRdy := false, joinReq := false,
    fwBad := false,
    hreg := (rFBTO, (0x00100000 : Word)) :: (List.range 32).map (fun k => (rPORTW k, (0x44 : Word))) ++ remapFuses part,
    lids := [], tieReg := true, tieLid := true, tieAttach := true, latch := [], launches := [], gangs := [], blocks := [],
    groups := [], served := [], mem := [], badLines := [], l1 := [], l2 := [], backed := false, coreTlb := [], dieTlb := [],
    areqs := [], sweeps := [], migs := [], vers := [], cyc := [], pmc := [], tally := [],
    portClk := [], page := [], trapq := [], posts := 0, srt := [], ttStaged := [], ttActive := [], cgt := [], colls := [],
    uctx := [], flowsOut := [], flowsIn := [], vcq := [], fwaits := [], dbg := [(0, Dbg.reset), (1, Dbg.reset)],
    fenced := [], atRep := [], atSig := [], plansIn := [], planOut := [] }
/-- The machine right after reset: the part the model starts with. [log 3 DESIGN CHOICE, 4 DESIGN CHOICE, 136 DESIGN CHOICE] -/
def State.reset : State := State.resetOf thePart

/-- What an unlisted byte of memory reads as: storage is undefined until written (R301); the model reads 0, a DESIGN CHOICE
(log entry 1). [log 1 DESIGN CHOICE] -/
def memDefault : Byte := 0

/-- The canonical form of memory: addresses strictly rising, no entry equal to the unlisted value. [log 1 DESIGN CHOICE] -/
abbrev Memory.wf (m : List Host.Cell) : Prop := cellsWf memDefault m = true

end Sys2Proof.Machine
end

