-- ==== Sys2Proof/Machine/Mem.lean ====
section
/-! DEFINITION. Memory: storage, page tables and placement (40_translation R468-R480), format windows (41_tables R497-R502),
lines at the L2 slices and in L1 (20_memories R312-R320), the scratchpad (R305-R308), and host registers (R563). -/

namespace Sys2Proof.Machine

namespace State

/-- Host registers (R563, R564). -/
def rdReg (s : State) (off : Nat) : Word := cget 0 s.hreg off
def wrReg (s : State) (off : Nat) (v : Word) : State := { s with hreg := cset 0 s.hreg off v }
def setRegBits (s : State) (off lo len v : Nat) : State := s.wrReg off (setField (s.rdReg off) lo len v)

/-- Count an error event on a die, saturating (R547). -/
def countErr (s : State) (lasting : Bool) (die i : Nat) : State :=
  let r := if lasting then rERRL die i else rERRT die i
  if s.rdReg r = 0xFFFFFFFF then s else s.wrReg r (s.rdReg r + 1)

/-- The next free value (the model's own counter). [log 7 DESIGN CHOICE] -/
def fresh (s : State) : Nat × State := (Config.freeBits s.free, { s with free := s.free + 1 })

/-- Bytes of storage, lowest first; an unlisted byte reads `memDefault`. -/
def rdMem (s : State) (key n : Nat) : List Byte := (List.range n).map fun i => cget memDefault s.mem (key + i)
/-- Bytes as a part of the device reads them that can hold no poison (R320): those of an uncorrectable line are free values, and the machine
goes on. [log 104 DESIGN CHOICE] -/
def rdLossy (s : State) (key n : Nat) : List Byte :=
  if s.badLines.isEmpty then s.rdMem key n
  else (List.range n).map fun i =>
    if s.badLines.contains ((key + i) / 128 * 128) then BitVec.ofNat 8 (Config.freeBits (s.free + i)) else cget memDefault s.mem (key + i)
def wrMem (s : State) (key : Nat) (bs : List Byte) : State :=
  { s with mem := (bs.zipIdx).foldl (fun m b => cset memDefault m (key + b.2) b.1) s.mem }

/-- Tally a PMU event of a core since the last clock (R550). -/
def bump (s : State) (core evt n : Nat) : State :=
  { s with tally := cset 0 s.tally (256 * core + evt) (cget 0 s.tally (256 * core + evt) + n) }

end State

/-- A local physical address names storage (R468). -/
def paOk (pa : Nat) : Bool := pa < 2 ^ 40 && pa / 2 ^ 36 < 12
/-- Storage of a byte as the PA it has under BANK 10 (R477, R478). -/
def storageKey (st ch a bank : Nat) : Nat :=
  let l := a / 128
  let l' := match bank with
    | 2 => l
    | 1 => l % 8 + l / 2 ^ 22 % 4 * 8 + l / 8 % 2 ^ 19 * 32
    | _ => l % 2 + l / 2 ^ 22 % 4 * 2 + l / 2 ^ 20 % 4 * 8 + l / 2 % 2 ^ 19 * 32
  st * 2 ^ 36 + ch * 2 ^ 31 + l' * 128 + a % 128
/-- The channel-local byte A that a storage key is under a bank arrangement. -/
def bankLocal (key bank : Nat) : Nat :=
  let a := key % 2 ^ 31
  let l' := a / 128
  let l := match bank with
    | 2 => l'
    | 1 => l' % 8 + l' / 32 % 2 ^ 19 * 8 + l' / 8 % 4 * 2 ^ 22
    | _ => l' % 2 + l' / 32 % 2 ^ 19 * 2 + l' / 8 % 4 * 2 ^ 20 + l' / 2 % 4 * 2 ^ 22
  l * 128 + a % 128
/-- A storage key lies among the bytes a version entry stands for. [log 128 DEDUCED] -/
def WVer.has (v : WVer) (key : Nat) : Bool :=
  v.stk == key / 2 ^ 36 % 16 && v.chan == key / 2 ^ 31 % 32 && decide (v.base ≤ bankLocal key v.bank)
    && decide (bankLocal key v.bank < v.base + v.ext)
/-- The home slice of a storage key (R313), and its die. -/
def homeSlice (key : Nat) : Nat :=
  let st := key / 2 ^ 36 % 16
  64 * (st / 6) + (32 * st + key / 2 ^ 31 % 32) % 64
def keyDie (key : Nat) : Nat := key / 2 ^ 36 % 16 / 6

/-- Why a translation fails: the kinds of R163, and an invalid placement (R473). -/
inductive XErr where
  | notMapped | permission | unreachable | placement
deriving DecidableEq, Repr

/-- The KIND code of a failure (R163, R406). -/
def XErr.kind : XErr → Nat
  | .notMapped => 1 | .permission => 2 | .unreachable => 3 | .placement => 6

/-- A leaf found by a walk (R470, R471): its bits, its level, and the storage of its entry. -/
structure Leaf where
  lo : DWord
  plw : Word
  attr : Word
  level : Nat
  pte : Nat
deriving DecidableEq, Repr

def Leaf.r (l : Leaf) : Bool := bitOf l.lo 2
def Leaf.w (l : Leaf) : Bool := bitOf l.lo 3
def Leaf.x (l : Leaf) : Bool := bitOf l.lo 4
def Leaf.a (l : Leaf) : Bool := bitOf l.lo 5
def Leaf.valid (l : Leaf) : Bool := bitOf l.lo 0
def Leaf.cls (l : Leaf) : Nat := fieldOf l.attr 0 2
def Leaf.wen (l : Leaf) : Bool := bitOf l.attr 2
def Leaf.wid (l : Leaf) : Nat := fieldOf l.attr 3 4
def Leaf.mlock (l : Leaf) : Bool := bitOf l.attr 7

/-- Page size of a leaf by level (R470), the size code of R480, and the index of a VA at a level. -/
def pageBits (level : Nat) : Nat := if level = 3 then 30 else if level = 4 then 21 else 16
def szLevel (sz : Nat) : Nat := if sz = 2 then 3 else if sz = 1 then 4 else 5
def levelSz (level : Nat) : Nat := if level = 3 then 2 else if level = 4 then 1 else 0
def vaIndex (va level : Nat) : Nat :=
  match level with
  | 1 => va / 2 ^ 48 % 256
  | 2 => va / 2 ^ 39 % 512
  | 3 => va / 2 ^ 30 % 512
  | 4 => va / 2 ^ 21 % 512
  | _ => va / 2 ^ 16 % 32
/-- Alignment of the table of a level. -/
def tableBytes (level : Nat) : Nat := if level = 1 then 4096 else if level = 5 then 512 else 8192

/-- Fields of a placement word (R474). -/
def plwKind (p : Word) : Nat := fieldOf p 30 2
def plwDev (p : Word) : Nat := fieldOf p 16 14
def plwStack (p : Word) : Nat := fieldOf p 18 12
def plwChw (p : Word) : Nat := fieldOf p 15 3
def plwBase (p : Word) : Nat := fieldOf p 10 5
def plwBank (p : Word) : Nat := fieldOf p 8 2
def plwGran (p : Word) : Nat := fieldOf p 4 4

/-- A leaf's bits are malformed at a level (R472); a leaf of KIND 11 is judged on its reserved bits and level only. -/
def leafMalformed (lo : DWord) (plw attr : Word) (level : Nat) : Bool :=
  fieldOf attr 8 24 != 0 || fieldOf lo 50 14 != 0 || fieldOf lo 6 3 != 0 || level ≤ 2
    || (plwKind plw ≤ 1 && (fieldOf lo 31 19 != 0 || fieldOf lo 9 22 * 512 % (256 * 2 ^ plwGran plw) != 0))
    || (plwKind plw == 2 && fieldOf lo 9 7 != 0)

/-- A table entry is malformed (R472): `level` is its own. -/
def tableMalformed (lo : DWord) (plw attr : Word) (level : Nat) : Bool :=
  let pa := fieldOf lo 9 41 * 512
  fieldOf attr 8 24 != 0 || fieldOf lo 50 14 != 0 || fieldOf lo 6 3 != 0 || level == 5
    || fieldOf lo 2 4 != 0 || plw != 0 || fieldOf attr 0 3 != 0 || bitOf attr 7 || pa % tableBytes (level + 1) != 0 || !paOk pa

/-- One 16-byte entry of a page table. -/
def rdEntry (s : State) (pa : Nat) : DWord × Word × Word :=
  let n := ofBytes (s.rdMem pa 16)
  (BitVec.ofNat 64 n, BitVec.ofNat 32 (n >>> 64), BitVec.ofNat 32 (n >>> 96))

/-- Where a walk ends. -/
inductive Walk where
  | leaf (l : Leaf)
  | invalid (pte level : Nat)
  | malformed (level : Nat)
  | badLine
deriving DecidableEq, Repr

/-- Walk from the table at `pa` of `level`; `fuel` is the levels left (R470, R472). A table on a fenced die cannot be read (R444). -/
def walkFrom (s : State) (va : Nat) : Nat → Nat → Nat → Walk
  | 0, level, _ => .malformed level
  | n + 1, level, pa =>
    if !paOk pa || s.fenced.contains (keyDie pa) then .malformed level else
    let at_ := pa + 16 * vaIndex va level
    if s.badLines.contains (at_ / 128 * 128) then .badLine else
    let (lo, plw, attr) := rdEntry s at_
    if !bitOf lo 0 then .invalid at_ level
    else if bitOf lo 1 then
      if leafMalformed lo plw attr level then .malformed level else .leaf ⟨lo, plw, attr, level, at_⟩
    else if tableMalformed lo plw attr level then .malformed level
    else walkFrom s va n (level + 1) (fieldOf lo 9 41 * 512)

/-- The lines of the entries a walk reads. [log 166 DESIGN CHOICE] -/
def walkLines (s : State) (va : Nat) : Nat → Nat → Nat → List Nat
  | 0, _, _ => []
  | n + 1, level, pa =>
    if !paOk pa || s.fenced.contains (keyDie pa) then [] else
    let at_ := pa + 16 * vaIndex va level
    let lo := (rdEntry s at_).1
    at_ / 128 * 128 :: if s.badLines.contains (at_ / 128 * 128) || !bitOf lo 0 || bitOf lo 1 then []
      else walkLines s va n (level + 1) (fieldOf lo 9 41 * 512)
/-- The root table of a context (R469). -/
def rootOf (s : State) (asid : Nat) : Nat :=
  fieldOf (s.rdReg (rCTXROOTL asid)) 12 20 * 4096 + fieldOf (s.rdReg (rCTXROOTH asid)) 0 18 * 2 ^ 32

/-- Walk the tables of a context (R469, R470). -/
def walk (s : State) (asid va : Nat) : Walk :=
  if !bitOf (s.rdReg (rCTXCFG asid)) 31 then .invalid 0 0
  else walkFrom s va 5 1 (rootOf s asid)

/-- fold of R476. -/
def fold3 (x : Nat) : Nat := (x % 256) ^^^ (x / 256 % 256) ^^^ (x / 65536 % 256)

/-- Stacks of a mask, ascending. -/
def stacksOf (m : Nat) : List Nat := (List.range 12).filter fun i => m.testBit i

/-- Storage of byte offset o of a page image of size `size` with base b (R476). -/
def placeByte (plw : Word) (b o : Nat) : Nat :=
  let ss := stacksOf (plwStack plw)
  let n := ss.length
  let w := 2 ^ plwChw plw
  let g := 256 * 2 ^ plwGran plw
  let i := o / g
  let q := i / (n * w)
  let t := (i + fold3 q) % (n * w)
  storageKey (ss.getD (t % n) 0) (plwBase plw + t / n) (b + q * g + o % g) (plwBank plw)

/-- E of R476. -/
def placeExtent (plw : Word) (size : Nat) : Nat :=
  let n := (stacksOf (plwStack plw)).length
  let w := 2 ^ plwChw plw
  let g := 256 * 2 ^ plwGran plw
  g * ceilDiv size (n * w * g)

/-- A placement word is invalid for a page (image) of a size and base (R475). -/
def plwInvalid (plw : Word) (b size : Nat) : Bool :=
  match plwKind plw with
  | 3 => true
  | 2 => fieldOf plw 0 12 != 0
  | k =>
    fieldOf plw 0 4 != 0 || plwStack plw == 0 || (k == 1 && (stacksOf (plwStack plw)).length != 1)
      || decide (5 < plwChw plw) || plwBase plw % 2 ^ plwChw plw != 0 || plwBank plw == 3 || decide (8 < plwGran plw)
      || decide (2 ^ 31 < b + placeExtent plw size)

/-- A format window: enabled, width of its storage format, scaled, saturating, rounding, format (R497). -/
def fwOn (s : State) (die i : Nat) : Bool := bitOf (s.rdReg (rFWCFG die i)) 31 && !bitOf (s.rdReg (rFWCFG die i)) 30
def fwTy (s : State) (die i : Nat) : Ty := Ty.ofCode (fieldOf (s.rdReg (rFWCFG die i)) 12 4)
def fwScaled (s : State) (die i : Nat) : Bool := bitOf (s.rdReg (rFWCFG die i)) 11
def fwSat (s : State) (die i : Nat) : Bool := bitOf (s.rdReg (rFWCFG die i)) 10
def fwRm (s : State) (die i : Nat) : Rm :=
  match fieldOf (s.rdReg (rFWCFG die i)) 8 2 with
  | 0 => .rn | 1 => .rz | 2 => .ru | _ => .rd

/-- Membership of the connected group, and window length (R514); this device itself is reached without a member entry only
if it has one. [log 130 DEDUCED] -/
def cgMember (s : State) (d : Nat) : Bool := bitOf (cget 0 s.cgt d) 31
def cgWindow (s : State) (d : Nat) : Nat := fieldOf (cget 0 s.cgt d) 0 24 * 65536
def myId (s : State) : Nat := fieldOf (s.rdReg rFBID) 0 14

/-- A device's memory can be reached: this device has joined (R555), and the other is a member (R329). [log 130 DEDUCED] -/
def cgReach (s : State) (d : Nat) : Bool := cgMember s d && decide (4 ≤ s.stage)

/-- The line of a page that holds page offset o, decided from its leaf (R473 item 2, R476, R479, R498, R499). The die of a
windowed line is that of its image line; a window is looked up on it. -/
def lineOf (s : State) (l : Leaf) (o : Nat) : Except XErr LineLoc :=
  let size := 2 ^ pageBits l.level
  let b := fieldOf l.lo 9 22 * 512
  match plwKind l.plw with
  | 2 =>
    if plwInvalid l.plw 0 0 then .error .placement
    else .ok (.remote (plwDev l.plw) (fieldOf l.lo 16 34 * 65536 + o / 128 * 128) (fieldOf l.plw 12 4))
  | _ =>
    if plwInvalid l.plw b 0 then .error .placement
    else if !l.wen then
      if plwInvalid l.plw b size then .error .placement else .ok (.plain (placeByte l.plw b (o / 128 * 128)))
    else
      -- the window of the die that holds the line; where the two dies' windows differ each line follows its own die
      let try_ (die : Nat) : Option (Except XErr LineLoc) :=
        let ws := (fwTy s die l.wid).bits
        let j := o / 128
        let scaled := fwScaled s die l.wid
        let key := placeByte l.plw b (j * 4 * ws)
        if keyDie key ≠ die then none
        else if !fwOn s die l.wid then some (.error .placement)
        else if plwInvalid l.plw b (size * ws / 32 + (if scaled then size / 128 else 0)) then some (.error .placement)
        else some (.ok (.view key (if scaled then some (placeByte l.plw b (size * ws / 32 + j)) else none) die l.wid))
      match try_ 0 with
      | some r => r
      | none => match try_ 1 with
        | some r => r
        | none => .error .placement

/-- A cached translation covers a VA (R480). -/
def xlatHit (x : Xlat) (asid va : Nat) : Bool :=
  x.asid == asid && x.vpn * 65536 == va / 2 ^ pageBits (szLevel x.sz) * 2 ^ pageBits (szLevel x.sz)
def xlatLeaf (x : Xlat) : Leaf := ⟨x.lo, x.plw, x.attr, szLevel x.sz, 0⟩
def leafXlat (asid va : Nat) (l : Leaf) : Xlat :=
  ⟨asid, va / 2 ^ pageBits l.level * 2 ^ pageBits l.level / 65536, levelSz l.level, l.lo, l.plw, l.attr⟩

/-- Find a leaf: the lane's register, the core TLB, the die TLB, then a walk (R480, R481). An uncorrectable entry fails as
NOTMAPPED (R472); its lasting error is counted by the caller. -/
def findLeaf (s : State) (asid core die : Nat) (lane : Option Xlat) (va : Nat) : Except Bool Leaf :=
  match lane.filter (fun x => xlatHit x asid va) with
  | some x => .ok (xlatLeaf x)
  | none =>
    match ((tget s.coreTlb core).getD []).find? (fun x => xlatHit x asid va) with
    | some x => .ok (xlatLeaf x)
    | none =>
      match ((tget s.dieTlb die).getD []).find? (fun x => xlatHit x asid va) with
      | some x => .ok (xlatLeaf x)
      | none =>
        match walk s asid va with
        | .leaf l => .ok l
        | .badLine => .error true
        | _ => .error false

/-- Put a translation into a TLB of a capacity; the oldest entry leaves. [log 18 DESIGN CHOICE] -/
def tlbPut (cap : Nat) (l : List Xlat) (x : Xlat) : List Xlat :=
  if l.contains x then l else (x :: l).take cap

/-- Record a successful translation in the TLBs (R480). [log 18 DESIGN CHOICE] -/
def cacheLeaf (s : State) (asid core die va : Nat) (l : Leaf) : State :=
  let x := leafXlat asid va l
  { s with coreTlb := tset s.coreTlb core (tlbPut 512 ((tget s.coreTlb core).getD []) x),
           dieTlb := tset s.dieTlb die (tlbPut 16384 ((tget s.dieTlb die).getD []) x) }

/-- What an access needs (R327). -/
inductive Need where
  | read | write | exec | atomic
deriving DecidableEq, Repr

def Leaf.allows (l : Leaf) : Need → Bool
  | .read => l.r
  | .write => l.w
  | .exec => l.x
  | .atomic => l.r && l.w && l.a

/-- The L2 set of a line. -/
def l2SetOf (line : Nat) : Nat := Config.l2Set line % 1536

/-- Before stage B completes, a slice has no backing: a new line fails when its set is full (R556). -/
def noRoom (s : State) (line : Nat) : Bool :=
  !s.backed && !(s.l2.any fun x => x.line == line)
    && decide (16 ≤ (s.l2.filter fun x => x.slice == homeSlice line && l2SetOf x.line == l2SetOf line).length)

/-- The storage line an access of a located line meets at its slice. -/
def LineLoc.line : LineLoc → Nat
  | .plain k => k
  | .view k _ _ _ => k / 128 * 128
  | .remote _ a _ => a

/-- The line that holds the scale of a located line (R499). -/
def LineLoc.scale : LineLoc → Option Nat
  | .view _ sk _ _ => sk.map fun k => k / 128 * 128
  | _ => none

/-- Translate one access (R473, R498): the leaf and the line, or the first failure. Storage of a fenced die, whose traffic is dropped
(R444), cannot be reached. [log 152 DESIGN CHOICE] -/
def translate (s : State) (asid core die : Nat) (lane : Option Xlat) (va : Nat) (need : Need) :
    Except XErr (Leaf × LineLoc) :=
  match findLeaf s asid core die lane va with
  | .error _ => .error .notMapped
  | .ok l =>
    match lineOf s l (va % 2 ^ pageBits l.level) with
    | .error e => .error e
    | .ok loc =>
      if !l.allows need then .error .permission
      else match loc with
        | .remote d _ _ => if cgReach s d then .ok (l, loc) else .error .unreachable
        | _ => if s.fenced.contains (keyDie loc.line) then .error .unreachable
          else if noRoom s loc.line || loc.scale.any (noRoom s) then .error .notMapped else .ok (l, loc)

/-- Replacement rank (R315): the lowest goes first. -/
def clsRank : Nat → Nat
  | 3 => 1 | 1 => 2 | 2 => 4 | _ => 3

/-- Make room in a full set: the victim has the lowest rank, and of these the least recent (R315). -/
def evictOne (ls : List L2Line) (slice set : Nat) : List L2Line :=
  let inSet := ls.filter fun x => x.slice == slice && l2SetOf x.line == set
  if inSet.length < 16 then ls
  else
    let low := inSet.foldl (fun m x => Nat.min m (clsRank x.cls)) 9
    match (inSet.filter fun x => clsRank x.cls == low).getLast? with
    | some v => ls.filter fun x => x.line != v.line
    | none => ls

/-- A 13th evict-last line of a set demotes the least recent of them to normal (R315). -/
def demote (ls : List L2Line) (slice set : Nat) : List L2Line :=
  let el := ls.filter fun x => x.slice == slice && l2SetOf x.line == set && x.cls == 2
  if el.length ≤ 12 then ls
  else match el.getLast? with
    | some v => ls.map fun x => if x.line = v.line then { x with cls := 0 } else x
    | none => ls

/-- The format window a line is read through: 16 times its die plus its number (R498). -/
def l1Win (loc : LineLoc) : Option Nat :=
  match loc with
  | .view _ _ d w => some (16 * d + w)
  | _ => none

/-- An access reaches a line at its home slice with a class (R314, R315); without backing a full set takes no further line (R556). A streaming read hit leaves the line least recent.
[log 19 DESIGN CHOICE] -/
def touchL2 (s : State) (line cls : Nat) (write : Bool) (win : Option Nat := none) : State :=
  let sl := homeSlice line
  let old := s.l2.find? fun x => x.line == line
  if noRoom s line then s else
  let new : L2Line := ⟨sl, line, cls, write || (old.map (·.dirty)).getD false, win⟩
  let rest := s.l2.filter fun x => x.line != line
  let kept := if old.isSome then rest else evictOne rest sl (l2SetOf line)
  let ls := if cls == 3 && !write && old.isSome then kept ++ [new] else new :: kept
  { s with l2 := demote ls sl (l2SetOf line) }

/-- An access reaches a located line; without backing, the line of its scale as well, which stands nowhere else then (R556). -/
def touchLoc (s : State) (loc : LineLoc) (cls : Nat) (write : Bool) : State :=
  let s1 := touchL2 s loc.line cls write (l1Win loc)
  if s.backed then s1 else (loc.scale.toList).foldl (fun s k => touchL2 s k cls write) s1
/-- A walk, when no cached translation saves it, reads its entries at their slices (R302, R314, R480), with the default class, which no
page gives. [log 166 DESIGN CHOICE] -/
def noteWalk (s : State) (asid core die : Nat) (lane : Option Xlat) (va : Nat) : State :=
  let hit (t : List Xlat) : Bool := t.any fun x => xlatHit x asid va
  if hit lane.toList || hit ((tget s.coreTlb core).getD []) || hit ((tget s.dieTlb die).getD []) || !bitOf (s.rdReg (rCTXCFG asid)) 31 then s
  else (walkLines s va 5 1 (rootOf s asid)).foldl (fun s k => touchL2 s k 0 false) s
/-- A failed walk reads its entries; one of them uncorrectable is a lasting error of source 9 (R472, R547). -/
def walkErr (s : State) (asid core die : Nat) (lane : Option Xlat) (va : Nat) : State :=
  match findLeaf s asid core die lane va with
  | .error true => (noteWalk s asid core die lane va).countErr true die 9
  | .error false => noteWalk s asid core die lane va
  | .ok _ => s

/-- The elements of a view line, decoded from its image (R500): 32 FP32 words. -/
def viewWords (s : State) (key : Nat) (skey : Option Nat) (die wid : Nat) : List Word :=
  let t := fwTy s die wid
  let img := ofBytes (s.rdMem key (4 * t.bits))
  let sc : Nat := match skey with
    | some k => (cget memDefault s.mem k).toNat
    | none => 127
  (List.range 32).map fun i =>
    if sc = 0xFF then 0x7FC00000 else
    match decodeFp (fmtOfTy t) ((img >>> (t.bits * i)) % 2 ^ t.bits) with
    | .nan neg _ _ => BitVec.ofNat 32 (nanBits fF32 neg 0)
    | .inf neg => BitVec.ofNat 32 (infBits fF32 neg)
    | .fin x => BitVec.ofNat 32 (roundFin fF32 .rn 0 false false (x.mul (pow2 ((sc : Int) - 127)))).bits

/-- The 128 bytes of a line as its slice shows them (R500); a line of another device holds nothing here. -/
def lineBytes (s : State) (loc : LineLoc) : List Byte :=
  match loc with
  | .plain k => s.rdMem k 128
  | .view k sk d w => (viewWords s k sk d w).flatMap fun x => bytesOf x.toNat 4
  | .remote _ _ _ => List.replicate 128 0

/-- Encode a view line: every element, or the scaled block (R501), and how many elements were clamped or overflowed. -/
def encodeView (s : State) (key : Nat) (skey : Option Nat) (die wid : Nat) (ws : List Word) : State :=
  let t := fwTy s die wid
  let vals := ws.map fun w => decodeFp fF32 w.toNat
  let (sc, codes, bad) : Nat × List Nat × Nat := match skey with
    | some _ =>
      let (sc, es) := narrowBlock t vals
      (sc, es.map (·.code), (es.filter (·.clamped)).length)
    | none =>
      let rs := vals.map fun v => convertFp (fmtOfTy t) (fwRm s die wid) 0 false (fwSat s die wid) v
      (127, rs.map (·.bits), (rs.filter (·.overflow)).length)
  let img := codes.foldr (fun c n => c + 2 ^ t.bits * n) 0
  let s1 := s.wrMem key (bytesOf img (4 * t.bits))
  let s2 := match skey with
    | some k => s1.wrMem k [BitVec.ofNat 8 sc]
    | none => s1
  let c := (s.rdReg (rFWCLAMP die wid)).toNat
  if bad = 0 then s2 else s2.wrReg (rFWCLAMP die wid) (BitVec.ofNat 32 (Nat.min 0xFFFFFFFF (c + bad)))

/-- Replace bytes of a list from an offset. -/
def spliceBytes (l : List Byte) (off : Nat) (bs : List Byte) : List Byte :=
  l.take off ++ bs ++ l.drop (off + bs.length)

/-- A write at the storage of a registered page counts in its slice's version entry (R492, R541). [log 86 DEDUCED] -/
def countVersion (s : State) (key n : Nat) : State :=
  { s with vers := s.vers.map fun v => if v.has key then
             { v with ver := Nat.min 0xFFFF (v.ver + n), over_ := v.over_ || decide (0xFFFF < v.ver + n) }
           else v }

/-- A line turns out uncorrectable (R320): every view of it is poisoned again. -/
def poisonLine (s : State) (k : Nat) : State :=
  { s with badLines := if s.badLines.contains k then s.badLines else s.badLines ++ [k],
           cleanViews := s.cleanViews.filter fun v => v.1 / 128 * 128 != k && v.2.all fun x => x / 128 * 128 != k }
/-- A view line has been written whole, so that it is poisoned no more (R320, R500). -/
def cleanView (s : State) (k : Nat) (sk : Option Nat) : State :=
  if s.badLines.isEmpty || s.cleanViews.contains (k, sk) then s else { s with cleanViews := s.cleanViews ++ [(k, sk)] }

/-- A write takes effect at the home slice of a line (R341, R501): bytes `bs` from offset `off` of the line. A write of all 128
bytes repairs a poisoned line (R320). -/
def writeLine (s : State) (loc : LineLoc) (off : Nat) (bs : List Byte) : State :=
  match loc with
  | .remote _ _ _ => s
  | .plain k =>
    let s := countVersion (s.wrMem (k + off) bs) (k + off) 1
    if off = 0 ∧ bs.length = 128 then { s with badLines := s.badLines.filter fun x => x != k } else s
  | .view k sk d w =>
    let bytes := spliceBytes (lineBytes s loc) off bs
    let words := (List.range 32).map fun i => BitVec.ofNat 32 (ofBytes ((bytes.drop (4 * i)).take 4))
    let s1 := countVersion (encodeView s k sk d w words) k 1
    if off = 0 ∧ bs.length = 128 then cleanView s1 k sk else s1

/-- A located line is poisoned (R320, R500). -/
def lineBad (s : State) (loc : LineLoc) : Bool :=
  match loc with
  | .remote _ _ _ => false
  | .plain k => s.badLines.contains k
  | .view k sk _ _ => !s.cleanViews.contains (k, sk)
    && (s.badLines.contains (k / 128 * 128) || sk.any fun x => s.badLines.contains (x / 128 * 128))

/-- The identity of a located line in L1. -/
def l1Id (loc : LineLoc) : Nat :=
  match loc with
  | .plain k => k
  | .view k _ _ _ => k
  | .remote _ a _ => a

/-- The footprint of a block (R305), the scratchpad portion P of a core (R304) and the L1 lines left. -/
def footprint (asize : Nat) : Nat := if asize = 0 then 0 else asize + 512
def portion (f : Nat) : Nat := 131072 * Nat.max 1 (ceilDiv f 131072)
/-- Blocks whose footprint is placed on a core: they keep it until gang exit (R309). -/
def placedBlocks (s : State) (core : Nat) : List (Nat × Block) :=
  s.blocks.filter fun b => b.2.core == core &&
    match tget s.gangs b.2.gang with
    | some g => g.st == .resident
    | none => false
def coreFoot (s : State) (core : Nat) : Nat := (placedBlocks s core).foldl (fun n b => n + footprint b.2.asize) 0
def l1Lines (s : State) (core : Nat) : Nat := (1048576 - portion (coreFoot s core)) / 128

/-- A core's L1. -/
def l1Of (s : State) (core : Nat) : List L1Line := (tget s.l1 core).getD []
def setL1 (s : State) (core : Nat) (l : List L1Line) : State :=
  { s with l1 := if l.isEmpty then tdel s.l1 core else tset s.l1 core l }

/-- A held copy reads the storage line of a location, through whatever address or window. -/
def L1Line.overlaps (x : L1Line) (loc : LineLoc) : Bool := x.line / 128 == l1Id loc / 128
/-- The copy of a line that a group may be served from (R344): none that an atomic of its own has made too old.
[log 17 DESIGN CHOICE] -/
def l1Copy (s : State) (core gid asid vline : Nat) (loc : LineLoc) : Option L1Line :=
  (l1Of s core).find? fun x => x.asid == asid && x.vline == vline && x.line == l1Id loc && x.win == l1Win loc && !x.late.contains gid
/-- Bytes of a held copy lie in an uncorrectable word of the array (R320). -/
def L1Line.badAt (x : L1Line) (off n : Nat) : Bool := x.bad.any fun w => decide (4 * w < off + n) && decide (off < 4 * w + 4)
/-- Read a global or constant line through L1 (R312, R315, R344): a held copy is returned as it stands; otherwise the home
slice answers, and the line is allocated, in place of other copies of its storage, unless it is poisoned, remote or streaming.
[log 17 DESIGN CHOICE] -/
def readL1 (s : State) (core gid asid va cls : Nat) (loc : LineLoc) : List Byte × State :=
  let vline := va / 128
  let ls := l1Of s core
  match l1Copy s core gid asid vline loc with
  | some x =>
    (x.bytes, (setL1 s core ({ x with cls := cls } :: ls.filter fun y => !(y.asid == asid && y.vline == vline))).bump core 0x09 1)
  | none =>
    let bytes := lineBytes s loc
    let s1 := (touchL2 s loc.line cls false (l1Win loc)).bump core 0x0A 1
    let keep := !lineBad s loc && cls != 3 && (match loc with
      | .remote _ _ _ => false
      | _ => true)
    if keep then
      let x : L1Line := ⟨asid, vline, l1Id loc, cls, l1Win loc, bytes, [], []⟩
      let rest := (ls.filter fun y => !(y.asid == asid && y.vline == vline) && !y.overlaps loc).take (l1Lines s core - 1)
      (bytes, setL1 s1 core (if cls == 1 then rest ++ [x] else x :: rest))
    else (bytes, s1)

/-- A store updates the bytes it stores in its core's held copy of the line (R312, R341), in a format window the block as its slice has
encoded it (R501), and replaces words of it that were
uncorrectable (R320); copies of the storage under another window
leave. -/
def updateL1 (s : State) (core : Nat) (loc : LineLoc) (off : Nat) (bs : List Byte) : State :=
  let ls := l1Of s core
  if ls.any (·.overlaps loc) then
    setL1 s core ((ls.filter fun x => !x.overlaps loc || (x.line == l1Id loc && x.win == l1Win loc)).map fun x =>
      if x.overlaps loc then
        { x with bytes := (match loc with
                   | .view _ _ _ _ => lineBytes s loc
                   | _ => spliceBytes x.bytes off bs),
                 bad := x.bad.filter fun w => !(decide (off ≤ 4 * w) && decide (4 * w + 4 ≤ off + bs.length)) }
      else x)
  else s
/-- An atomic of a group has written a line: its core's copies stay as they are (R312), and serve the group no more (R344). -/
def lateL1 (s : State) (core gid : Nat) (loc : LineLoc) : State :=
  let ls := l1Of s core
  if ls.any (·.overlaps loc) then
    setL1 s core (ls.map fun x => if x.overlaps loc then { x with late := gid :: x.late } else x)
  else s

/-- Drop lines of every L1, or of one core, that meet a condition. -/
def dropL1 (s : State) (core : Option Nat) (p : L1Line → Bool) : State :=
  { s with l1 := (s.l1.map fun e =>
      if core = none ∨ core = some e.1 then (e.1, e.2.filter fun x => !p x) else e).filter fun e => !e.2.isEmpty }

/-- Scratchpad: how a byte offset falls in an allocation of n bytes (R307). -/
inductive SpRange where
  | inside | guard | outside
deriving DecidableEq, Repr

def spByte (n x : Nat) : SpRange :=
  if n = 0 then .outside
  else if x < n then .inside
  else if x < n + 256 ∨ (2 ^ 32 - 256 ≤ x ∧ x < 2 ^ 32) then .guard
  else .outside

/-- The bytes of an access: offsets x to x + size - 1. A byte at 2^32 or beyond lies outside. [log 146 DEDUCED] -/
def spOffsets (x size : Nat) : List Nat := (List.range size).map fun i => x + i

def spOutside (n x size : Nat) : Bool := (spOffsets x size).any fun o => spByte n o == .outside
/-- The first byte that touches a guard granule. -/
def spGuard (n x size : Nat) : Option Nat := (spOffsets x size).find? fun o => spByte n o == .guard

def Block.rdSp (b : Block) (x size : Nat) : List Byte :=
  (spOffsets x size).map fun o => if spByte b.asize o = .inside then cget 0 b.spad o else 0
def Block.wrSp (b : Block) (x : Nat) (bs : List Byte) : Block :=
  { b with
    spad := ((spOffsets x bs.length).zip bs).foldl
      (fun m e => if spByte b.asize e.1 = .inside then cset 0 m e.1 e.2 else m) b.spad,
    badWords := b.badWords.filter fun w => !(decide (x ≤ 4 * w) && decide (4 * w + 4 ≤ x + bs.length)) }

/-- The array offset of a guard byte, and its bank (R279, R303, R306): the granules lie before and after the allocation. -/
def guardArray (b : Block) (x : Nat) : Nat := if x < 2 ^ 31 then b.base + x else b.base + x - 2 ^ 32
def bankOf (off : Nat) : Nat := off / 4 % 32

/-- The lines of an access, and whether a running copy makes one of them absent (R310). -/
def absentLine (s : State) (bid x size : Nat) : Bool :=
  s.blocks.any fun b => b.2.copies.any fun c => c.lines.any fun l =>
    l.1 == bid && (spOffsets x size).any fun o => o / 128 == l.2

end Sys2Proof.Machine
end

