-- ==== Sys2Proof/Machine/Fabric.lean ====
section
/-! DEFINITION. The Sumir fabric at this device: hash lanes, hops, flows and the accesses a source sends (41_tables R513-R520,
50_counters R544). -/

namespace Sys2Proof.Machine

open Sys2Proof

/-- The hash lane of an access (R516): `lanes` is the LANES field of a remote page's placement word, 0 for fabric space. -/
def hashLane (addr : DWord) (lanes : Nat) : Nat :=
  let a := fieldOf addr 7 43
  ((a % 16) ^^^ (a / 16 % 16) ^^^ (a / 256 % 16) ^^^ (a / 4096 % 16) ^^^ fieldOf addr 50 4) &&& (15 ^^^ (lanes % 16))

/-- The ports of a set. -/
def portsOf (set : Word) : List Nat := (List.range 32).filter fun k => bitOf set k
/-- The ports of a set that are up and carry Sumir traffic (R517, R523); those of a fenced die, sixteen each, carry none (R444).
[log 152 DESIGN CHOICE] -/
def usablePorts (s : State) (set : Word) : List Nat :=
  (List.range 32).filter fun k => bitOf set k && bitOf (s.rdReg (rPORTCFG k)) 31 && !bitOf (s.rdReg (rPORTCFG k)) 29
    && !s.fenced.contains (k / 16)
/-- Set bit number (H mod popcount(P)) of P. -/
def choosePort (ports : List Nat) (h : Nat) : Option Nat := ports[h % ports.length]?
/-- The VC of a class after g global hops (R517). -/
def vcOf (c : FlitClass) (g : Nat) : Nat :=
  match c with
  | .request => g
  | .response => 3 + g
  | .control => 6
/-- Flits waiting in a port's VC queue. -/
def vcLen (s : State) (port vc : Nat) : Nat := (s.vcq.filter fun q => q.1 == port && q.2.1 == vc).length
/-- Global hops after leaving by a port. -/
def hopsBy (s : State) (port g : Nat) : Nat := if bitOf (s.rdReg (rPORTCFG port)) 30 then g + 1 else g
/-- H of R517. -/
def entHash (f : Flit) : Nat := f.ent.toNat ^^^ (f.flow.dst % 256) ^^^ (f.flow.dst / 256 % 64)

/-- The port a hop chooses for a flit that is not for this device (R517): the sets decide between minimal and non-minimal routes as they
stand, and the ports that are up of the one taken carry it; none when the flit is lost. -/
def routePort (s : State) (f : Flit) : Option Nat :=
  let d := f.flow.dst
  let h := entHash f
  if d / 16 = myId s / 16 then choosePort (usablePorts s (s.rdReg (rLOC (d % 16)))) h
  else
    let len (k : Nat) : Nat := vcLen s k (vcOf f.flow.cls (hopsBy s k f.hops))
    let mn := s.rdReg (rROUTEM (d / 16))
    let nm := s.rdReg (rROUTEN (d / 16))
    let turn := f.flow.cls == .request && f.hops == 0 && match choosePort (portsOf mn) h, choosePort (portsOf nm) h with
      | some a, some b => decide (24 ≤ len a) && decide (len b ≤ 8)
      | _, _ => false
    choosePort (usablePorts s (if turn then nm else mn)) h

/-- Flits a VC queue holds (R366). -/
def vcCap : Nat := 32
/-- A hop sends a flit on (R517, R520): it joins a VC queue of its port, marked if a request meets 24 flits there; without a
port, or beyond two global hops, it is lost; none while the queue is full. -/
def hopFlit (s : State) (f : Flit) : Option State :=
  match routePort s f with
  | none => some s
  | some k =>
    let g := hopsBy s k f.hops
    if 2 < g then some s
    else
      let vc := vcOf f.flow.cls g
      if vcCap ≤ vcLen s k vc then none
      else
        let full := decide (f.flow.cls = .request) && decide (24 ≤ vcLen s k vc)
        some { s with vcq := s.vcq ++ [(k, vc, { f with hops := g, mark := f.mark || full })] }
/-- Flits that wait in the queue of a port and VC they came by (R366). -/
def vcInLen (s : State) (port vc : Nat) : Nat := (s.vcin.filter fun q => q.1 == port && q.2.1 == vc).length
/-- A flit that came by a port, 32 for this device's own, goes on, or waits there behind others that do (R366). -/
def routeFrom (s : State) (port : Nat) (f : Flit) : State :=
  let vc := vcOf f.flow.cls f.hops
  match (if vcInLen s port vc = 0 then hopFlit s f else none) with
  | some s1 => s1
  | none => { s with vcin := s.vcin ++ [(port, vc, f)] }
/-- This device sends a flit. [log 47 DESIGN CHOICE, 49 DEDUCED] -/
def routeFlit (s : State) (f : Flit) : State := routeFrom s 32 f
/-- The waiting flits are tried again, the oldest first. -/
def rejoinFlits (s : State) : State :=
  s.vcin.foldl (fun s q => routeFrom s q.1 q.2.2) { s with vcin := [] }

/-- A port's clock with the port's number above it, as time-outs and rate limits measure it (R544). -/
def portStamp (s : State) (f : Flit) : Nat :=
  match routePort s f with
  | some k => k * 2 ^ 32 + (cget 0 s.portClk k).toNat
  | none => (cget 0 s.portClk 0).toNat
/-- Port clocks passed since a stamp, on its own port. -/
def clocksSince (s : State) (stamp : Nat) : Nat :=
  (cget 0 s.portClk (stamp / 2 ^ 32) - BitVec.ofNat 32 stamp).toNat

/-- The entropy a flow starts with (R520). -/
def entStart (d hl : Nat) : BitVec 8 := BitVec.ofNat 8 ((d % 256) ^^^ (hl * 16))
/-- The source side of a flow; a new one starts at SEQ 0 (R518). -/
def flowOut (s : State) (fl : Flow) : FlowOut :=
  (s.flowsOut.find? fun f => f.flow == fl).getD ⟨fl, 0, entStart fl.dst fl.hl, [], 0, []⟩
def setFlowOut (s : State) (f : FlowOut) : State :=
  { s with flowsOut := (s.flowsOut.filter fun x => x.flow != f.flow) ++ [f] }

/-- The flow an access of this device takes to another (R516, R518). -/
def flowTo (s : State) (cls : FlitClass) (addr : DWord) (dst lanes : Nat) : Flow := ⟨myId s, dst, hashLane addr lanes, cls⟩
/-- A flow holds as many unacknowledged flits as it may (R518). -/
def flowFull (s : State) (fl : Flow) : Bool := decide (32768 ≤ (flowOut s fl).unacked.length)

/-- A flit leaves with its flow's next SEQ, and is kept until it is acknowledged (R517, R518). -/
def sendNow (s : State) (f : FlowOut) (mark : Bool) (acc : FabAccess) : State :=
  let flit : Flit := ⟨f.flow, f.seq, acc, 0, f.ent, mark⟩
  routeFlit (setFlowOut s { f with seq := f.seq + 1, unacked := f.unacked ++ [(f.seq, acc, false, portStamp s flit)] }) flit
/-- Send an access or a reply (R517, R518): behind those that wait, while its flow holds all the unacknowledged flits it may. -/
def sendAccess (s : State) (fl : Flow) (mark : Bool) (acc : FabAccess) : State :=
  let f := flowOut s fl
  if flowFull s fl || f.queued != [] then setFlowOut s { f with queued := f.queued ++ [(mark, acc)] } else sendNow s f mark acc
/-- Waiting accesses of a flow leave while there is room (R518). -/
def sendQueued (s : State) (fl : Flow) : State :=
  (flowOut s fl).queued.foldl (fun s x =>
    let f := flowOut s fl
    if flowFull s fl then s else sendNow s { f with queued := f.queued.tail } x.1 x.2) s

/-- A marked response changes the entropy of its flow, at most once per 256 port clocks (R520); `lastEnt` is one more than
the stamp of the last change. [log 49 DEDUCED] -/
def entropyUpdate (s : State) (fl : Flow) : State :=
  match s.flowsOut.find? fun f => f.flow == fl with
  | none => s
  | some f =>
    let stamp := portStamp s ⟨fl, f.seq, ⟨.barrier, 0, 0, [], 0⟩, 0, f.ent, false⟩
    if f.lastEnt ≠ 0 ∧ clocksSince s (f.lastEnt - 1) < 256 then s
    else setFlowOut s { f with ent := f.ent + 0x35, lastEnt := stamp + 1 }

end Sys2Proof.Machine
end

