-- ==== Sys2Proof/Machine/Fp.lean ====
section
/-! DEFINITION. Floating-point arithmetic on decoded values: NaN rules, sums, products and fused products, quotients, square
roots, minimum and maximum, and their flags (02_formats R72-R81, 12_float R209, R213). -/

namespace Sys2Proof.Machine

/-- How one rounding is made: mode, random word of SR, flush of subnormal results, saturation. -/
structure Renv where
  rm : Rm
  w : Nat
  flush : Bool
  sat : Bool
deriving DecidableEq, Repr

/-- RN with subnormals kept, as atomics, collectives and the tile engine round (R335, R412, R238). -/
def envRN : Renv := ⟨.rn, 0, false, false⟩

def FpVal.isNan : FpVal → Bool
  | .nan _ _ _ => true
  | _ => false
def FpVal.isSig : FpVal → Bool
  | .nan _ _ sg => sg
  | _ => false
def FpVal.isInf : FpVal → Bool
  | .inf _ => true
  | _ => false
def FpVal.neg : FpVal → Bool
  | .nan n _ _ => n
  | .inf n => n
  | .fin x => x.neg
def FpVal.isZero : FpVal → Bool
  | .fin x => x.isZero
  | _ => false
def FpVal.flip : FpVal → FpVal
  | .nan n f sg => .nan n f sg
  | .inf n => .inf (!n)
  | .fin x => .fin x.negate

/-- An operand as read under FPCR.SUB (R72): a subnormal reads as a zero of its sign. -/
def readSub (f : FpFmt) (zeroSub : Bool) (v : FpVal) : FpVal :=
  match v with
  | .fin x => if zeroSub && !x.isZero && x.abs.lt (pow2 f.emin) then .fin ⟨x.neg, 0, 1⟩ else v
  | _ => v

/-- The NaN an operation delivers, and IV for a signalling operand (R75, R79): the first NaN operand, quietened. -/
def nanResult (f : FpFmt) (vs : List FpVal) : Option Rounded :=
  match vs.find? (·.isNan) with
  | some (.nan n fr _) =>
    some { exactly (nanBits f n fr) exZero with flags := if vs.any (·.isSig) then fIV else 0 }
  | _ => none
/-- An invalid operation delivers the default NaN (R79). -/
def invalidResult (f : FpFmt) : Rounded := { exactly (defaultNan f) exZero with flags := fIV }
def infResult (f : FpFmt) (neg : Bool) : Rounded := exactly (infBits f neg) exZero
/-- A quotient by zero and its relatives (R75). -/
def divZeroResult (f : FpFmt) (neg : Bool) : Rounded := { exactly (infBits f neg) exZero with flags := fDZ }

def rnd (f : FpFmt) (e : Renv) (x : Ex) : Rounded := roundFin f e.rm e.w e.flush e.sat x

/-- An exact sum with the sign rule of R81: an exact zero sum of unlike signs is -0 under RD. -/
def sumEx (e : Renv) (a b : Ex) : Ex :=
  let s := a.add b
  if s.isZero && a.neg != b.neg then { s with neg := e.rm == .rd } else s

/-- a + b. -/
def fpAdd (f : FpFmt) (e : Renv) (a b : FpVal) : Rounded :=
  match nanResult f [a, b] with
  | some r => r
  | none =>
    match a, b with
    | .fin x, .fin y => rnd f e (sumEx e x y)
    | .inf n, .inf m => if n = m then infResult f n else invalidResult f
    | .inf n, _ => infResult f n
    | _, b => infResult f b.neg

/-- a * b. -/
def fpMul (f : FpFmt) (e : Renv) (a b : FpVal) : Rounded :=
  match nanResult f [a, b] with
  | some r => r
  | none =>
    match a, b with
    | .fin x, .fin y => rnd f e (x.mul y)
    | a, b => if a.isZero || b.isZero then invalidResult f else infResult f (a.neg != b.neg)

/-- a * b + c with one rounding. -/
def fpFma (f : FpFmt) (e : Renv) (a b c : FpVal) : Rounded :=
  let bad := (a.isInf && b.isZero) || (a.isZero && b.isInf)
  match nanResult f [a, b, c] with
  | some r => if bad then { r with flags := r.flags ||| fIV } else r
  | none =>
    if bad then invalidResult f else
    match a, b, c with
    | .fin x, .fin y, .fin z => rnd f e (sumEx e (x.mul y) z)
    | .fin _, .fin _, c => infResult f c.neg
    | a, b, .inf n => if n = (a.neg != b.neg) then infResult f n else invalidResult f
    | a, b, _ => infResult f (a.neg != b.neg)

/-- a / b. -/
def fpDiv (f : FpFmt) (e : Renv) (a b : FpVal) : Rounded :=
  let neg := a.neg != b.neg
  match nanResult f [a, b] with
  | some r => r
  | none =>
    match a, b with
    | .inf _, .inf _ => invalidResult f
    | .inf _, _ => infResult f neg
    | _, .inf _ => exactly (signBits f neg) ⟨neg, 0, 1⟩
    | .fin x, .fin y =>
      if y.isZero then (if x.isZero then invalidResult f else divZeroResult f neg)
      else rnd f e (x.div y)
    | _, _ => invalidResult f

/-- Order of two values that are not NaN; -0 below +0 when `zeros` says so. -/
def fpLt (zeros : Bool) (a b : FpVal) : Bool :=
  match a, b with
  | .inf n, .inf m => n && !m
  | .inf n, _ => n
  | _, .inf m => !m
  | .fin x, .fin y => x.lt y || (zeros && x.isZero && y.isZero && x.neg && !y.neg)
  | _, _ => false
def fpEq (a b : FpVal) : Bool :=
  match a, b with
  | .inf n, .inf m => n == m
  | .fin x, .fin y => x.eqv y
  | _, _ => false

/-- Which operand FMIN or FMAX returns (R213): true for B; `num` ignores a NaN beside a number. [log 159 DESIGN CHOICE] -/
def pickB (max : Bool) (a b : FpVal) : Bool := if max then fpLt true a b else fpLt true b a

/-- minimumNumber and maximumNumber on encodings of one format, with flags (R79, R335). -/
def fpMinMaxNum (f : FpFmt) (max : Bool) (ab bb : Nat) : Nat × Flg :=
  let a := decodeFp f ab
  let b := decodeFp f bb
  let fl : Flg := if a.isSig || b.isSig then fIV else 0
  if a.isNan && b.isNan then (match nanResult f [a, b] with
    | some r => (r.bits, fl)
    | none => (ab, fl))
  else if a.isNan then (bb, fl)
  else if b.isNan then (ab, fl)
  else (if pickB max a b then bb else ab, fl)

/-- The operation of an atomic on its location (R335): the new value and the flags. `ty`: 0 signed, 1 unsigned, 2 floating. -/
def atomOp (op ty w old b b2 : Nat) : Nat × Flg :=
  let m := 2 ^ w
  let f := if w = 64 then fF64 else fF32
  let lt (x y : Nat) : Bool := if ty = 0 then decide (signedOf w x < signedOf w y) else decide (x < y)
  match op with
  | 0 => if ty = 2 then
      let r := fpAdd f envRN (decodeFp f old) (decodeFp f b)
      (r.bits, r.flags)
    else ((old + b) % m, 0)
  | 1 => ((old + m - b % m) % m, 0)
  | 2 => if ty = 2 then fpMinMaxNum f false old b else (if lt b old then b else old, 0)
  | 3 => if ty = 2 then fpMinMaxNum f true old b else (if lt old b then b else old, 0)
  | 4 => (old &&& b, 0)
  | 5 => (old ||| b, 0)
  | 6 => (old ^^^ b, 0)
  | 7 => (b, 0)
  | 8 => (if old = b then b2 else old, 0)
  | 9 => (if b ≤ old then 0 else old + 1, 0)
  | 10 => (if old = 0 ∨ b < old then b else old - 1, 0)
  | _ => (Nat.max old b, 0)

/-- A router may merge two requests of an operation (R317). -/
def mergeable (op ty size : Nat) (det1 det2 : Bool) : Bool :=
  match op with
  | 0 => ty ≤ 1 || (ty == 2 && size == 4 && !det1 && !det2)
  | 2 | 3 => ty ≤ 1
  | 4 | 5 | 6 | 11 => true
  | _ => false

end Sys2Proof.Machine
end

