-- ==== Sys2Proof/Machine/Operands.lean ====
section
/-! DEFINITION. The register files of a group and the operand forms: vector, pair, predicate, uniform and uniform pair,
sidecars and poison (10_registers R155-R161, 03_distributions R89-R91, R105, 11_integer R182-R184, 04_encoding R122, R129,
R130). -/

namespace Sys2Proof.Machine

/-- The key of a lane's element in a per-lane register file. -/
def lkey (reg lane : Nat) : Nat := 64 * reg + lane

/-- The payload of poison that names a record (R159), and the sidecar of a poisoned register (R105). -/
def poisonWord (i : Nat) : Word := 0x7FF80000 ||| BitVec.ofNat 32 (i % 64)
def poisonSide : Word := 0x00FF0000
/-- The record index a poisoned word carries (R159). -/
def poisonIdx (w : Word) : Nat := fieldOf w 0 6
/-- The index a poisoned predicate reports (R161, R182). [log 120 DEDUCED] -/
def predPoison : Nat := 0x3F

namespace Group

def rdV (g : Group) (reg lane : Nat) : Word := cget 0 g.v (lkey reg lane)
def rdVP (g : Group) (reg lane : Nat) : Bool := cget false g.vp (lkey reg lane)
def rdSide (g : Group) (reg lane : Nat) : Word := cget 0 g.side (lkey reg lane)
def rdP (g : Group) (reg lane : Nat) : Bool := cget false g.p (lkey reg lane)
def rdPP (g : Group) (reg lane : Nat) : Bool := cget false g.pp (lkey reg lane)
def rdK (g : Group) (reg : Nat) : Word := cget 0 g.k reg
/-- A uniform pair (R64). -/
def rdK2 (g : Group) (reg : Nat) : DWord := pairOf (g.rdK reg) (g.rdK (reg + 1))
def rdV2 (g : Group) (reg lane : Nat) : DWord := pairOf (g.rdV reg lane) (g.rdV (reg + 1) lane)
def rdFpcr (g : Group) (lane : Nat) : Word := cget 0 g.fpcr lane
def rdFpsr (g : Group) (lane : Nat) : Word := cget 0 g.fpsr lane

/-- Write a vector register of a lane: data, sidecar and poison bit as one unit (R94, R159). A mode without sidecars discards
the sidecar (R26). -/
def wrV (g : Group) (dist : Bool) (reg lane : Nat) (data side : Word) (poison : Bool) : Group :=
  { g with v := cset 0 g.v (lkey reg lane) data,
           vp := cset false g.vp (lkey reg lane) poison,
           side := if dist then cset 0 g.side (lkey reg lane) side else g.side }
/-- Write a predicate of a lane; a poisoned predicate holds 0 (R159). -/
def wrP (g : Group) (reg lane : Nat) (val poison : Bool) : Group :=
  { g with p := cset false g.p (lkey reg lane) (val && !poison), pp := cset false g.pp (lkey reg lane) poison }
def wrK (g : Group) (reg : Nat) (data : Word) : Group := { g with k := cset 0 g.k reg data }
def orFpsr (g : Group) (lane : Nat) (f : Flg) : Group :=
  { g with fpsr := cset 0 g.fpsr lane (g.rdFpsr lane ||| f.setWidth 32) }

/-- Perform one register write (R172: at issue for a fixed-latency result, at its return for a variable-latency one). -/
def put (g : Group) (dist : Bool) : Dest → Group
  | .vec r l d sd p => g.wrV dist r l d sd p
  | .pred r l x p => g.wrP r l x p
  | .uni r d => g.wrK r d
def putAll (g : Group) (dist : Bool) (ws : List Dest) : Group := ws.foldl (fun g w => g.put dist w) g
def orAll (g : Group) (fs : List (Nat × Flg)) : Group := fs.foldl (fun g x => g.orFpsr x.1 x.2) g

end Group

/-- An operand as the instruction names it: a vector register or pair, a predicate, a uniform register or pair, or a value in
the instruction word (R122, R130). -/
inductive Opnd where
  | v (r : Nat)
  | pair (r : Nat)
  | pred (r : Nat)
  | k (r : Nat)
  | kpair (r : Nat)
  | imm (n : Nat)
  | none
deriving DecidableEq, Repr

namespace Opnd

/-- The vector registers and predicates an operand names. -/
def vregs : Opnd → List Nat
  | .v r => [r]
  | .pair r => [r, r + 1]
  | _ => []
def pregs : Opnd → List Nat
  | .pred r => [r]
  | _ => []

/-- The value a lane reads. -/
def val (o : Opnd) (g : Group) (lane : Nat) : Nat :=
  match o with
  | .v r => (g.rdV r lane).toNat
  | .pair r => (g.rdV2 r lane).toNat
  | .pred r => if g.rdP r lane then 1 else 0
  | .k r => (g.rdK r).toNat
  | .kpair r => (g.rdK2 r).toNat
  | .imm n => n
  | .none => 0

/-- The record index of a poisoned operand; of a pair, the lower register's when both are poisoned (R160, R182). -/
def poison (o : Opnd) (g : Group) (lane : Nat) : Option Nat :=
  match o with
  | .v r => if g.rdVP r lane then some (poisonIdx (g.rdV r lane)) else Option.none
  | .pair r =>
    if g.rdVP r lane then some (poisonIdx (g.rdV r lane))
    else if g.rdVP (r + 1) lane then some (poisonIdx (g.rdV (r + 1) lane)) else Option.none
  | .pred r => if g.rdPP r lane then some predPoison else Option.none
  | _ => Option.none

/-- The sidecar of an operand: a predicate, a uniform register or an immediate is a point of tag 0 (R90, R91). -/
def side (o : Opnd) (g : Group) (lane : Nat) : Word :=
  match o with
  | .v r | .pair r => g.rdSide r lane
  | _ => 0

/-- Writes of a value of an operand's width to a destination, with its sidecar (R91: the upper register of a pair takes 0). -/
def dests (o : Opnd) (lane : Nat) (data : Nat) (sd : Word) : List Dest :=
  match o with
  | .v r => [.vec r lane (BitVec.ofNat 32 data) sd false]
  | .pair r => [.vec r lane (BitVec.ofNat 32 data) sd false, .vec (r + 1) lane (BitVec.ofNat 32 (data >>> 32)) 0 false]
  | .pred r => [.pred r lane (data % 2 == 1) false]
  | .k r => [.uni r (BitVec.ofNat 32 data)]
  | .kpair r => [.uni r (BitVec.ofNat 32 data), .uni (r + 1) (BitVec.ofNat 32 (data >>> 32))]
  | _ => []

/-- The writes that poison a destination (R159, R160); of a pair, the sidecar of the value is in the lower register (R91). -/
def poisoned (o : Opnd) (lane : Nat) (idx : Nat) : List Dest :=
  match o with
  | .v r => [.vec r lane (poisonWord idx) poisonSide true]
  | .pair r => [.vec r lane (poisonWord idx) poisonSide true, .vec (r + 1) lane (poisonWord idx) 0 true]
  | .pred r => [.pred r lane false true]
  | _ => []

end Opnd

/-- The first poisoned source in operand order (R160). -/
def firstPoison (os : List Opnd) (g : Group) (lane : Nat) : Option Nat := os.findSome? fun o => o.poison g lane

/-- The operand a field names under an operand class. -/
def clsOpnd (c : Cls) (n : Nat) : Opnd :=
  match c with
  | .zero => .none
  | .v => .v n
  | .pair => .pair n
  | .pred => .pred n
  | .k => .k n
  | .kpair => .kpair n

/-- Operands of a V-format word: the classes of A, B, C and D with OC's replacements (R129, R183, R184). -/
def vopA (o : VOp) (c : Cls) : Opnd := clsOpnd (if o.oc == .uniform then c.toUniform else c) o.a
def vopB (o : VOp) (c : Cls) : Opnd := clsOpnd (if o.oc == .uniform || o.oc == .bUniform then c.toUniform else c) o.b
def vopC (o : VOp) (c : Cls) : Opnd := clsOpnd (if o.oc == .uniform then c.toUniform else c) o.c
def vopD (o : VOp) (c : Cls) : Opnd := clsOpnd (if o.oc == .uniform then c.toUniform else c) o.d
def iopA (o : IOp) (c : Cls) : Opnd := clsOpnd (if o.oc == .uniform then c.toUniform else c) o.a
def iopD (o : IOp) (c : Cls) : Opnd := clsOpnd (if o.oc == .uniform then c.toUniform else c) o.d

/-- An FP32 value widened exactly to FP64 (R130); a NaN keeps its sign and fraction, so a signaling one stays signaling.
[log 149 DEDUCED] -/
def widen32 (w : Nat) : Nat :=
  match decodeFp fF32 w with
  | .nan _ _ _ => (w / 2 ^ 31 % 2) * 2 ^ 63 + 0x7FF * 2 ^ 52 + (w % 2 ^ 23) * 2 ^ 29
  | v => (convertFp fF64 .rn 0 false false v).bits

/-- IMM32 as operand B, read under TYPE (R130): FP64 takes the FP32 value exactly, INT64 extends the word by its sign, or by
zeros under U; packed formats take the word as it stands. -/
def immVal (o : IOp) (uns : Bool) : Nat :=
  match o.ty with
  | .f64 => widen32 o.imm.toNat
  | .i64 => if uns then o.imm.toNat else wrapTo 64 (signedOf 32 o.imm.toNat)
  | _ => o.imm.toNat

/-- Helper lanes and absent lanes of a group of the launch (R11, R12). -/
def isHelper (r : Rec) (gidx lane : Nat) : Bool :=
  let i := gidx * r.width + lane
  decide (r.lanes ≤ i) && decide (i / 4 = (r.lanes - 1) / 4) && decide (lane < r.width)
def isAbsent (r : Rec) (gidx lane : Nat) : Bool :=
  !decide (gidx * r.width + lane < r.lanes ∧ lane < r.width) && !isHelper r gidx lane
def helperMask (r : Rec) (gidx : Nat) : LaneMask := maskOf ((List.range 64).filter fun l => isHelper r gidx l)
def startMask (r : Rec) (gidx : Nat) : LaneMask := maskOf ((List.range 64).filter fun l => !isAbsent r gidx l)

/-- The lanes for which a guard holds (R121); a poisoned one holds in no lane, as a helper lane falls through a branch whose condition
is poisoned (R13). [log 142 DEDUCED] -/
def guardMask (g : Group) : Guard → LaneMask
  | .always => BitVec.allOnes 64
  | .pred n neg => maskOf ((List.range 64).filter fun l => g.rdP n l != neg && !g.rdPP n l)

/-- The lanes of a mask whose guard predicate is poisoned. [log 120 DEDUCED] -/
def guardPoison (g : Group) (m : LaneMask) : Guard → List Nat
  | .always => []
  | .pred n _ => (lanesOf m).filter fun l => g.rdPP n l

/-- The thread id of a lane (R14). -/
def threadId (r : Rec) (blk gidx lane : Nat) : Nat := blk * 1024 + gidx * r.width + lane

end Sys2Proof.Machine
end

