-- ==== Sys2Proof/Machine/Access.lean ====
section
/-! DEFINITION. Where an access lands and what an atomic request does when it takes effect (20_memories R316-R318,
21_memory_instr R321, R327-R329, R333-R337, 22_ordering R341-R343, 40_translation R493). -/

namespace Sys2Proof.Machine

/-- The party an access comes from: its group, block, launch, core and die. -/
structure Party where
  gid : Nat
  g : Group
  b : Block
  ga : Gang
  l : Launch
deriving DecidableEq, Repr

/-- The party of a group. -/
def party? (s : State) (gid : Nat) : Option Party :=
  match tget s.groups gid with
  | none => none
  | some g =>
    match tget s.blocks g.bid with
    | none => none
    | some b =>
      match tget s.gangs b.gang with
      | none => none
      | some ga =>
        match tget s.launches ga.lid with
        | none => none
        | some l => some ⟨gid, g, b, ga, l⟩

/-- The die of a logical core, and its pen (R4, R20). -/
def coreDie (s : State) (core : Nat) : Nat := core / s.part.coresPerDie
def corePen (core : Nat) : Nat := core / 8

/-- The dist mode of a party's launch: sidecars exist (R25). -/
def Party.dist (p : Party) : Bool := p.l.rec0.mode == .dist
/-- Its accesses to global and fabric space are staged (R338). -/
def Party.staged (p : Party) : Bool := p.l.rec0.det || p.l.rec0.red || p.l.rec0.rel

/-- The block of gang member m (R22, R308). -/
def memberBlock (p : Party) (m : Nat) : Option Nat := p.ga.blocks[m]?

/-- The blocks of a launch by linear index (both copies of a redundant one). -/
def blocksAt (s : State) (lid index : Nat) : List (Nat × Block) :=
  s.blocks.filter fun b => b.2.index == index && match tget s.gangs b.2.gang with
    | some g => g.lid == lid
    | none => false
/-- The group of a block by index. -/
def Block.gid (b : Block) (gidx : Nat) : Nat := b.groups.getD gidx 0
/-- The block of the other copy of a redundant block, and the other copy's group (R428). -/
def twinBlock (s : State) (bid : Nat) : Option Nat :=
  match tget s.blocks bid with
  | none => none
  | some b => match tget s.gangs b.gang with
    | none => none
    | some g => ((blocksAt s g.lid b.index).find? fun x => x.1 != bid && match tget s.gangs x.2.gang with
        | some h => h.copy != g.copy && h.st == .resident
        | none => false).map (·.1)
def twinGroup (s : State) (gid : Nat) : Option Nat :=
  (tget s.groups gid).bind fun g => (twinBlock s g.bid).bind fun tb => (tget s.blocks tb).map fun b => b.gid g.gidx

/-- The core whose cycle counter a block reads (R171): for the second copy of a redundant block that of the first, so that nothing tells
them apart (R428). [log 44 DEDUCED, 157 DEDUCED] -/
def clockCore (s : State) (bid core : Nat) : Nat :=
  match (tget s.blocks bid).bind fun b => tget s.gangs b.gang with
  | some ga => if ga.copy = 0 then core else (((twinBlock s bid).bind (tget s.blocks)).map (·.core)).getD core
  | none => core

/-- A group with its core, and in a redundant launch the other copy with its own (R428). -/
def copiesOf (s : State) (gid : Nat) : List (Nat × Nat) :=
  (gid :: (twinGroup s gid).toList).filterMap fun k => (party? s k).map fun p => (k, p.b.core)

/-- Failures of an access (R324): an address outside its space, or a translation failure. -/
inductive AErr where
  | address
  | xl (e : XErr)
deriving DecidableEq, Repr

/-- A pen-remote address names a member and an offset (R308). -/
def penTarget (p : Party) (addr : DWord) : Option (Nat × Nat) :=
  if fieldOf addr 35 29 ≠ 0 then none
  else match memberBlock p (fieldOf addr 32 3) with
    | some bid => some (bid, fieldOf addr 0 32)
    | none => none

/-- A fabric address is valid (R321, R514): within its device's window when the device is a member. -/
def fabDev (addr : DWord) : Nat := fieldOf addr 50 14
def fabOff (addr : DWord) : Nat := fieldOf addr 0 50
/-- The fabric address of a remote line (R479). -/
def fabAddr (dev off : Nat) : DWord := BitVec.ofNat 64 (dev * 2 ^ 50 + off)

/-- Translate a fabric address at this device, its destination (R521): as a virtual address under FBWIN.ASID. [log 24 DEDUCED] -/
def incomingTgt (s : State) (addr : DWord) (need : Need) : Except XErr Tgt :=
  if fieldOf (s.rdReg rFBWIN) 0 24 * 65536 ≤ fabOff addr then .error .notMapped
  else
    match translate s (fieldOf (s.rdReg rFBWIN) 24 6) (2 ^ 20) 0 none (fieldOf addr 0 56) need with
    | .error e => .error e
    | .ok (_, .remote _ _ _) => .error .unreachable
    | .ok (_, loc) => .ok (.line loc (fieldOf addr 0 7))

/-- Locate an access of a lane (R321, R327, R329). A global access to a remote page, or a fabric access, answers the fabric
address in the second component; one that names this device loops back. -/
def locate (s : State) (p : Party) (lane : Option Nat) (space : Space) (addr : DWord) (size : Nat) (need : Need) :
    Except AErr (Tgt × Option DWord) :=
  match space with
  | .scratch =>
    if spOutside p.b.asize (fieldOf addr 0 32) size then .error .address else .ok (.sp p.g.bid (fieldOf addr 0 32), none)
  | .pen =>
    match penTarget p addr with
    | none => .error .address
    | some (bid, x) =>
      match tget s.blocks bid with
      | none => .error .address
      | some b => if spOutside b.asize x size then .error .address else .ok (.sp bid x, none)
  | .global | .const =>
    let va := if space = .const then fieldOf p.l.rec0.cseg 0 64 + fieldOf addr 0 32 else addr.toNat
    if space = .const ∧ p.l.rec0.cseglen < fieldOf addr 0 32 + size then .error .address
    else if 2 ^ 56 ≤ va then .error .address
    else
      match translate s p.l.rec0.asid p.b.core (coreDie s p.b.core) (lane.bind fun l => tget p.g.lastPage l) va need with
      | .error e => .error (.xl e)
      | .ok (_, .remote d a n) => .ok (.line (.remote d a n) (va % 128), some (fabAddr d (a + va % 128)))
      | .ok (_, loc) => .ok (.line loc (va % 128), none)
  | .fabric =>
    let d := fabDev addr
    if !cgReach s d then .error (.xl .unreachable)
    else if cgWindow s d ≤ fabOff addr then .error .address
    else .ok (.line (.remote d (fabOff addr / 128 * 128) 0) (fieldOf addr 0 7), some addr)

/-- The replacement class an access without a hint carries: the default class of its page (R315). -/
def pageCls (s : State) (asid core die : Nat) (lane : Option Xlat) (va : Nat) : Nat :=
  match findLeaf s asid core die lane va with
  | .ok l => l.cls
  | .error _ => 0
/-- The class of an access that came by the fabric. -/
def incomingCls (s : State) (addr : DWord) : Nat :=
  pageCls s (fieldOf (s.rdReg rFBWIN) 24 6) (2 ^ 20) 0 none (fieldOf addr 0 56)

/-- Read and write the bytes of a target. Another device's memory holds free values. -/
def readTgt (s : State) (t : Tgt) (n : Nat) : List Byte :=
  match t with
  | .line loc off => ((lineBytes s loc).drop off).take n
  | .sp bid x => match tget s.blocks bid with
    | some b => b.rdSp x n
    | none => List.replicate n 0
  | .far fa => (List.range n).map fun i => Config.remoteByte [fa.toNat + i, s.stamp]
def writeTgtAs (s : State) (cls : Nat) (t : Tgt) (bs : List Byte) : State :=
  match t with
  | .line loc off => touchLoc (writeLine s loc off bs) loc cls true
  | .sp bid x => { s with blocks := tmod s.blocks bid fun b => b.wrSp x bs }
  | .far _ => s
def writeTgt (s : State) (t : Tgt) (bs : List Byte) : State := writeTgtAs s 0 t bs
/-- A read reaches the slice of its line with its class (R302, R314, R315). -/
def touchTgt (s : State) (cls : Nat) (t : Tgt) : State :=
  match t with
  | .line (.remote _ _ _) _ => s
  | .line loc _ => touchLoc s loc cls false
  | _ => s
/-- One write, of several pieces, that covers all 128 bytes of a poisoned line, or of a view of one, repairs it (R320). -/
def repairLines (s : State) (ws : List (Tgt × Nat)) : State :=
  let whole (loc : LineLoc) : Bool := (List.range 128).all fun i => ws.any fun w => match w.1 with
    | .line l off => l == loc && decide (off ≤ i) && decide (i < off + w.2)
    | _ => false
  if s.badLines.isEmpty then s
  else
    let s1 := { s with badLines := s.badLines.filter fun k => !whole (.plain k) }
    ((ws.filterMap fun w => match w.1 with
      | .line (.view k sk d n) _ => some (LineLoc.view k sk d n)
      | _ => none).eraseDups).foldl (fun s l => match l with
        | .view k sk _ _ => if whole l then cleanView s k sk else s
        | _ => s) s1
/-- A target is an uncorrectable line or word (R320). -/
def tgtBad (s : State) (t : Tgt) (n : Nat) : Bool :=
  match t with
  | .line loc _ => lineBad s loc
  | .sp bid x => match tget s.blocks bid with
    | some b => (spOffsets x n).any fun o => b.badWords.contains (o / 4)
    | none => false
  | .far _ => false
/-- A target's page is closed by a move at its home slice (R493). -/
def keyClosed (s : State) (key : Nat) : Bool :=
  s.vers.any fun v => v.closed && v.has key
/-- A line is locked by a DCAS or AMOV whose other half is under way (R316, R337). -/
def lineLocked (s : State) (loc : LineLoc) : Bool :=
  s.fwaits.any fun w => w.hold.any fun h => match h.t with
    | .line l _ => l.line / 128 == loc.line / 128
    | _ => false
/-- An access cannot take effect at a target now: its page is closed by a move (R493), or its line is locked (R316). -/
def tgtClosed (s : State) (t : Tgt) : Bool :=
  match t with
  | .line (.remote _ _ _) _ => false
  | .line loc _ => keyClosed s loc.line || lineLocked s loc
  | _ => false

def modGroup (s : State) (gid : Nat) (f : Group → Group) : State := { s with groups := tmod s.groups gid f }
def modBlock (s : State) (bid : Nat) (f : Block → Block) : State := { s with blocks := tmod s.blocks bid f }
def modGang (s : State) (k : Nat) (f : Gang → Gang) : State := { s with gangs := tmod s.gangs k f }
def modLaunch (s : State) (lid : Nat) (f : Launch → Launch) : State := { s with launches := tmod s.launches lid f }

/-- Allocate a poison record for an access (R162, R163): the lowest free entry, or entry 63 as overflow. An address has 56 bits.
[log 170 DESIGN CHOICE] -/
def addRecord (g : Group) (r : PRec) : Nat × Group :=
  match (List.range 64).find? fun i => (tget g.prq i).isNone with
  | some i => (i, { g with prq := tset g.prq i { r with addr := r.addr % 2 ^ 56 } })
  | none => (63, { g with prq := tmod g.prq 63 fun x => { x with mask := x.mask ||| r.mask, kind := 0xF } })

/-- Lanes of a register hold poison of kind UNCORRECTABLE (R164, R320). -/
def poisonLanes (dist : Bool) (g : Group) (part : RegPart) (reg : Nat) (lanes : LaneMask) : Group :=
  let (i, g1) := addRecord g ⟨reg, 4, false, part == .pred, reg, lanes, 0⟩
  match part with
  | .pred => (lanesOf lanes).foldl (fun g l => g.wrP reg l false true) g1
  | _ => (lanesOf lanes).foldl (fun g l => g.wrV dist reg l (poisonWord i) poisonSide true) g1

/-- The record of one lane of an access (R162): lanes of one access that fail with one kind share an entry. [log 33 DEDUCED] -/
def laneRecord (g : Group) (r : PRec) : Nat × Group :=
  match g.prq.find? fun q => q.2.own == r.own && q.2.kind == r.kind with
  | some (i, _) => (i, { g with prq := tmod g.prq i fun q => { q with mask := q.mask ||| r.mask } })
  | none => addRecord g r

/-- Registers that hold an atomic's value: one, or a pair (R334, R337). -/
def valueDests (reg lane size n : Nat) : List Dest :=
  if size = 8 then [.vec reg lane (BitVec.ofNat 32 n) 0 false, .vec (reg + 1) lane (BitVec.ofNat 32 (n >>> 32)) 0 false]
  else [.vec reg lane (BitVec.ofNat 32 n) 0 false]
/-- Register numbers from here on name uniform registers, in the lists of a load (R330). -/
def uniBase : Nat := 65536
/-- The writes that poison a lane's destination registers (R160); the upper registers of pairs have sidecar 0 (R91). Poison that
would reach a uniform register is kept as a write of its number, which LD turns into a trap (R161, R330). -/
def regsPoison (pair : Bool) (regs : List Nat) (lane idx : Nat) : List Dest :=
  (regs.zipIdx).map fun r => .vec r.1 lane (poisonWord idx) (if pair && r.2 % 2 == 1 then 0 else poisonSide) true
/-- What a load writes (R322, R331): `form` as in FWait, `data` the bytes moved. -/
def loadWrites (form : Nat) (regs : List Nat) (lane : Nat) (data : List Byte) : List Dest :=
  let word (i : Nat) : Nat := ofBytes ((data.drop (4 * i)).take 4)
  (regs.zipIdx).map fun (r, i) =>
    let x : Word := match form with
      | 2 => BitVec.ofNat 32 (wrapTo 32 (signedOf 8 (word 0)))
      | 3 => BitVec.ofNat 32 (wrapTo 32 (signedOf 16 (word 0)))
      | _ => BitVec.ofNat 32 (word i)
    let sd : Word := if form = 4 ∧ !(regs.length == 2 && i == 1) then BitVec.ofNat 32 (word (regs.length + i)) else 0
    if uniBase ≤ r then .uni (r - uniBase) x else .vec r lane x sd false

def modEntry (g : Group) (eid : Nat) (f : Entry → Entry) : Group := { g with entries := tmod g.entries eid f }
/-- Lanes enter a region (R40): the region start, the descriptor and the snapshot of DRC, SRC, SRI and the rejoin stack; `from_` is
the time from which accesses belong to it (R47). [log 131 DEDUCED] -/
def enterRegion (g : Group) (eid : Nat) (rstart lidp : DWord) (now from_ : Nat) : Group :=
  let ls := match tget g.entries eid with
    | some e => lanesOf e.mask
    | none => []
  let snap {α : Type} [DecidableEq α] (d : α) (cur old : Cells α) : Cells α := ls.foldl (fun c l => cset d c l (cget d cur l)) old
  modEntry { g with snapDrc := snap 0 g.drc g.snapDrc, snapSrc := snap 0 g.src g.snapSrc, snapSri := snap 0 g.sri g.snapSri,
                    rtime := ls.foldl (fun c l => cset 0 c l from_) g.rtime } eid fun e =>
    { e with rstart := rstart, lidp := lidp, snapStack := g.rejoin, snapTime := now }

/-- The entry that issued an irrevocable instruction commits its region now that it has taken effect (R42, R44), unless it has entered
the next region already. -/
def commitLate (s : State) (g : Group) : Option (LaneMask × DWord × DWord) → Group
  | none => g
  | some (m, pc, lidp) =>
    (g.entries.filter fun e => e.2.mask &&& m != 0 && e.2.pc == pc && e.2.irr).foldl (fun g e =>
      enterRegion g e.1 pc lidp s.stamp (s.stamp + 1)) g

/-- The groups that wait for an instruction's result: its own, and in a redundant launch that of the other copy (R338). -/
def waiters (s : State) (id : Nat) : List Nat := (s.groups.filter fun g => g.2.inflight.any fun x => x.req == id).map (·.1)
/-- Flags of an atomic go to the lane's FPSR as it takes effect: it returns no register, or its block is in direct release (R335, R575). -/
def flagsNow (s : State) (gid : Nat) (x : Inflight) : Bool :=
  (x.vregs.isEmpty && x.pregs.isEmpty) || (party? s gid).any fun p => p.staged && p.b.direct
/-- One lane of an instruction completes: its writes and flags join its in-flight result, which is ready once no request and
no fabric access of the instruction is left (R335, R521). -/
def giveLane (s : State) (id lane : Nat) (ws : List Dest) (fl : Flg) : State :=
  let left := (s.areqs.any fun q => q.id == id) || (s.fwaits.any fun w => w.tag / 64 == id)
  (waiters s id).foldl (fun s gid => modGroup s gid fun g =>
    let h := if left then g
      else (g.inflight.filter fun x => x.req == id).foldl (fun g x => commitLate s g x.commit) g
    let now := g.inflight.any fun x => x.req == id && bitOf x.lanes lane && flagsNow s gid x
    let h := if now && fl != 0 then h.orFpsr lane fl else h
    { h with inflight := g.inflight.map fun x =>
        if (x.req = id ∧ bitOf x.lanes lane) then
          { x with writes := x.writes ++ ws, flags := if fl = 0 || now then x.flags else x.flags ++ [(lane, fl)], ready := !left }
        else x }) s
/-- One lane completes with poison of a kind (R162, R325, R329). [log 13 DEDUCED] -/
def poisonLane (s : State) (id lane addr kind : Nat) (pair : Bool) (regs : List Nat) : State :=
  let s1 := (waiters s id).foldl (fun s gid => modGroup s gid fun g =>
    let (i, g') := laneRecord g ⟨addr, kind, pair, false, regs.headD 0 % uniBase, laneBit lane, id⟩
    { g' with inflight := g'.inflight.map fun x =>
        if (x.req = id ∧ bitOf x.lanes lane) then { x with writes := x.writes ++ regsPoison pair regs lane i } else x }) s
  giveLane s1 id lane [] 0

/-- A destination is a pair (R163): of a load with sidecars two registers, else eight bytes. -/
def isPair (form size : Nat) (regs : List Nat) : Bool := if form = 4 then regs.length == 2 else size == 8
/-- The destination registers of a request (R334, R337), and whether they are pairs. -/
def AReq.pair (r : AReq) : Bool := isPair (if r.kind = 5 then r.op else 0) r.size r.opnd
def AReq.regs (r : AReq) : List Nat :=
  if !r.ret then [] else if r.kind = 5 then r.opnd else (List.range ((if r.kind = 3 then 2 * r.size else r.size) / 4)).map fun i => r.dreg + i
def giveResult (s : State) (r : AReq) (ws : List Dest) (fl : Flg) : State :=
  giveLane s r.id r.lane (if r.ret then ws else []) fl
/-- The virtual address of a request, as a poison record holds it (R163). -/
def reqVa (s : State) (r : AReq) : Nat :=
  if r.space = .const then match party? s r.gid with
    | some p => p.l.rec0.cseg.toNat + fieldOf r.addr 0 32
    | none => fieldOf r.addr 0 32
  else fieldOf r.addr 0 56
/-- Poison a request's destination with a record of a kind (R162, R320, R329). -/
def givePoison (s : State) (r : AReq) (kind : Nat) : State :=
  if r.ret then poisonLane s r.id r.lane (reqVa s r) kind r.pair r.regs else giveResult s r [] 0

/-- The permission a request needs (R327). -/
def reqNeed (kind : Nat) : Need :=
  if kind = 1 ∨ kind = 6 then .write else if kind = 2 ∨ kind = 5 then .read else .atomic

/-- Where an access ends up: at this device, or at another one under its fabric address. -/
inductive Landing where
  | here (t : Tgt)
  | there (fa : DWord) (lanes : Nat)
  | fails (kind : Nat)
deriving DecidableEq, Repr

/-- Kinds of poison an access meets at its destination device (R521). -/
def XErr.incomingKind : XErr → Nat
  | .permission => 2 | _ => 1

/-- A located access lands; a fabric address of this device loops back (R321, R479, R521). -/
def land (s : State) (r : Tgt × Option DWord) (need : Need) : Landing :=
  match r with
  | (.line (.remote d _ n) _, some fa) =>
    if d = myId s then match incomingTgt s fa need with
      | .ok t => .here t
      | .error e => .fails e.incomingKind
    else .there fa n
  | (t, _) => .here t

/-- Where the address of a request lands. -/
def reqLand (s : State) (r : AReq) (addr : DWord) : Landing :=
  match party? s r.gid with
  | none => .fails 1
  | some p =>
    match locate s p (some r.lane) r.space addr r.size (reqNeed r.kind) with
    | .error .address => .fails 1
    | .error (.xl e) => .fails e.kind
    | .ok x => land s x (reqNeed r.kind)

/-- Remove a request (by instruction and lane). -/
def dropReq (s : State) (r : AReq) : State := { s with areqs := s.areqs.filter fun q => !(q.id == r.id && q.lane == r.lane) }

/-- An atomic operation at its location (R335): the old value and the flags. -/
def atomAt (s : State) (cls : Nat) (t : Tgt) (op ty size b b2 : Nat) : State × Nat × Flg :=
  let old := ofBytes (readTgt s t size)
  let (new, fl) := atomOp op ty (8 * size) old b b2
  (writeTgtAs s cls t (bytesOf new size), old, fl)
/-- DCAS at its two locations, each of its own class (R315, R337): both old values. -/
def dcasAt (s : State) (cls cls2 : Nat) (t t2 : Tgt) (size cx nx cy ny : Nat) : State × Nat × Nat :=
  let x := ofBytes (readTgt s t size)
  let y := ofBytes (readTgt s t2 size)
  (if x = cx ∧ y = cy then writeTgtAs (writeTgtAs s cls t (bytesOf nx size)) cls2 t2 (bytesOf ny size)
   else touchTgt (touchTgt s cls t) cls2 t2, x, y)
/-- AMOV at its two locations, each of its own class (R315, R337): the old value of X. -/
def amovAt (s : State) (cls cls2 : Nat) (t t2 : Tgt) (size repl : Nat) : State × Nat :=
  let x := ofBytes (readTgt s t size)
  (writeTgtAs (writeTgtAs s cls2 t2 (bytesOf x size)) cls t (bytesOf repl size), x)

/-- Send one lane's access to another device and wait for what comes back (R518, R521); `va` is the address its lane gave. -/
def sendWait (s : State) (gid id lane : Nat) (fa : DWord) (lanes : Nat) (kind : FabKind) (size : Nat) (data : List Byte)
    (regs : List Nat) (form : Nat) (va : Nat) (laid : List (Nat × Byte) := []) (hold : Option Hold := none) : State :=
  let w : FWait := ⟨64 * id + lane, gid, lane, fabDev fa, fieldOf fa 0 56, size, regs, form, va, laid, hold, [], []⟩
  sendAccess { s with fwaits := s.fwaits ++ [w] } (flowTo s .request fa (fabDev fa) lanes) false ⟨kind, fa, size, data, w.tag⟩

/-- The piece of another device's memory a reader has or waits for (R479). -/
def farOf (s : State) (owner : List Nat) (fa : DWord) (n : Nat) : Option Far :=
  s.fars.find? fun f => f.owner == owner && f.fa == fa && f.n == n
/-- Read a piece of another device's memory: a load leaves for it, once (R479). -/
def askFar (s : State) (owner : List Nat) (fa : DWord) (lanes n : Nat) : State :=
  if (farOf s owner fa n).isSome then s
  else
    let id := s.nextId
    sendWait { s with nextId := id + 1, fars := s.fars ++ [⟨owner, fa, n, 64 * id, none⟩] } 0 id 0 fa lanes .load n [] [] 8 (fieldOf fa 0 56)
/-- A reader needs its pieces no more. -/
def dropFars (s : State) (owner : List Nat) : State := { s with fars := s.fars.filter fun f => f.owner != owner }

/-- A request that another device serves leaves this one. [log 63 DESIGN CHOICE] -/
def sendReq (s : State) (r : AReq) (fa : DWord) (lanes : Nat) (fa2 : DWord) : State :=
  if flowFull s (flowTo s .request fa (fabDev fa) lanes) then s
  else
    let s := dropReq s r
    let args := r.opnd.flatMap fun a => bytesOf a r.size
    let send (kind : FabKind) (data : List Byte) (regs : List Nat) (form : Nat) : State :=
      sendWait s r.gid r.id r.lane fa lanes kind r.size data regs form (reqVa s r) r.laid
    match r.kind with
    | 0 => send (.atom r.op r.ty) args r.regs 5
    | 1 => send .store args [] 7
    | 2 => send .load [] r.regs 1
    | 5 => send .load [] r.regs r.op
    | 6 => send .store (r.opnd.map fun b => BitVec.ofNat 8 b) [] 0
    | 3 => send (.atom 0x22 0) (bytesOf fa2.toNat 8 ++ args) r.regs 5
    | _ => send (.atom 0x23 0) (bytesOf fa2.toNat 8 ++ args) r.regs 5
/-- A request with both locations at other devices leaves for the one that ranks lower by DEV (R478); when that is Y's, the access says so
with type 1 and carries X's address. [log 46 DEDUCED] -/
def sendBoth (s : State) (r : AReq) (fa : DWord) (n : Nat) (fa2 : DWord) (n2 : Nat) : State :=
  if fabDev fa ≤ fabDev fa2 then sendReq s r fa n fa2
  else if flowFull s (flowTo s .request fa2 (fabDev fa2) n2) then s
  else
    sendWait (dropReq s r) r.gid r.id r.lane fa2 n2 (.atom (if r.kind = 3 then 0x22 else 0x23) 1) r.size
      (bytesOf fa.toNat 8 ++ r.opnd.flatMap fun a => bytesOf a r.size) r.regs 5 (reqVa s r)

/-- The remote half of a DCAS or AMOV with one location at this device (R337, R478), for the operation `two` (DCAS) or not: the access
to send and the half that stays here, locked till the other is done. `first` says X is here; `args` are the operands.
[log 46 DEDUCED] -/
def splitTwo (s : State) (dcas first : Bool) (t : Tgt) (size : Nat) (args : List Nat) (cls : Nat)
    (back : Option (Nat × Nat × Bool × FabAccess)) :
    FabKind × List Byte × Hold :=
  let arg (i : Nat) : Nat := args.getD i 0
  let old := ofBytes (readTgt s t size)
  if dcas then
    let (mine, theirs) := if first then ((arg 0, arg 1), (arg 2, arg 3)) else ((arg 2, arg 3), (arg 0, arg 1))
    let go := old == mine.1
    (if go then .atom 8 0 else .load, if go then bytesOf theirs.1 size ++ bytesOf theirs.2 size else [],
     ⟨t, first, true, old, go, some theirs.1, some mine.2, back, cls⟩)
  else (.atom 7 0, bytesOf (if first then old else arg 0) size,
    ⟨t, first, false, old, true, none, if first then some (arg 0) else none, back, cls⟩)


/-- A request at a closed page is returned to its core (R493). -/
def returnReq (s : State) (r : AReq) : State :=
  { s with areqs := s.areqs.map fun q => if q.id = r.id ∧ q.lane = r.lane then { q with closed := true } else q }

/-- A scratchpad target lies in an absent line, so its access waits (R310). -/
def tgtAbsent (s : State) (t : Tgt) (n : Nat) : Bool :=
  match t with
  | .sp bid x => absentLine s bid x n
  | _ => false

/-- After a write of a group's atomic at a target: its core's copies of the line serve the group no more (R312, R344); in a redundant
launch the same of the other copy, whose write it is too. -/
def ownAtomic (s : State) (gid : Nat) (t : Tgt) : State :=
  match t with
  | .line loc _ => (copiesOf s gid).foldl (fun s x => lateL1 s x.2 x.1 loc) s
  | _ => s
/-- After a store of a group at a target: its core's L1, and the other copy's, show the bytes stored (R312, R341, R344). -/
def storeL1 (s : State) (gid : Nat) (t : Tgt) (bs : List Byte) : State :=
  match t with
  | .line loc off => (copiesOf s gid).foldl (fun s x => updateL1 s x.2 loc off bs) s
  | _ => s

/-- A lane's own staged bytes over the bytes a load read (R328, R338, R364), by offset. -/
def layBytes (laid : List (Nat × Byte)) (bs : List Byte) : List Byte :=
  (bs.zipIdx).map fun b => ((laid.filter fun x => x.1 == b.2).getLast?.map (·.2)).getD b.1

/-- Send the remote half of a request with two locations, one of them here; the group's L1 serves it the line here no more (R344). -/
def sendTwo (s : State) (r : AReq) (first : Bool) (t : Tgt) (fa : DWord) (lanes : Nat) : State :=
  if flowFull s (flowTo s .request fa (fabDev fa) lanes) then s
  else
    let cls := if first then r.cls else r.cls2
    let (kind, data, h) := splitTwo s (r.kind == 3) first t r.size r.opnd cls none
    sendWait (ownAtomic (touchTgt (dropReq s r) cls t) r.gid t) r.gid r.id r.lane fa lanes kind r.size data r.regs 6 (reqVa s r) [] (some h)

/-- A request with one location takes effect there (R316, R335). An LD that waited has read the slice, and the group's L1 shows it nothing
older after that (R344). -/
def performAt (s : State) (r : AReq) (t : Tgt) : State :=
  match r.kind with
  | 0 =>
    let (s1, old, fl) := atomAt s r.cls t r.op r.ty r.size (r.opnd.getD 0 0) (r.opnd.getD 1 0)
    giveResult (ownAtomic s1 r.gid t) r (valueDests r.dreg r.lane r.size old) fl
  | 1 => giveResult (ownAtomic (writeTgtAs s r.cls t (bytesOf (r.opnd.getD 0 0) r.size)) r.gid t) r [] 0
  | 2 => giveResult (touchTgt s r.cls t) r (valueDests r.dreg r.lane r.size (ofBytes (readTgt s t r.size))) 0
  | 5 => giveResult (ownAtomic (touchTgt s r.cls t) r.gid t) r (loadWrites r.op r.regs r.lane (layBytes r.laid (readTgt s t r.size))) 0
  | _ =>
    let bs := r.opnd.map fun b => BitVec.ofNat 8 b
    giveResult (storeL1 (writeTgtAs s r.cls t bs) r.gid t bs) r [] 0

/-- A request with two locations takes effect at both (R337). -/
def performTwo (s : State) (r : AReq) (t t2 : Tgt) : State :=
  let arg (i : Nat) : Nat := r.opnd.getD i 0
  if r.kind = 3 then
    let (s1, x, y) := dcasAt s r.cls r.cls2 t t2 r.size (arg 0) (arg 1) (arg 2) (arg 3)
    giveResult (ownAtomic (ownAtomic s1 r.gid t) r.gid t2) r
      (valueDests r.dreg r.lane r.size x ++ valueDests (r.dreg + r.size / 4) r.lane r.size y) 0
  else
    let (s1, x) := amovAt s r.cls r.cls2 t t2 r.size (arg 0)
    giveResult (ownAtomic (ownAtomic s1 r.gid t) r.gid t2) r (valueDests r.dreg r.lane r.size x) 0

/-- Two targets of n and m bytes share a byte; two readings of one line are taken to. -/
def tgtMeet (t : Tgt) (n : Nat) (u : Tgt) (m : Nat) : Bool :=
  let near (x y : Nat) : Bool := decide (x < y + m) && decide (y < x + n)
  match t, u with
  | .line a x, .line b y => a.line == b.line && (a != b || near x y)
  | .sp a x, .sp b y => a == b && near x y
  | .far a, .far b => fabDev a == fabDev b
  | _, _ => false
/-- The places a request acts on. -/
def reqTgts (s : State) (r : AReq) : List Tgt :=
  (r.addr :: if r.kind = 3 ∨ r.kind = 4 then [r.addr2] else []).filterMap fun a => match reqLand s r a with
    | .here t => some t
    | .there fa _ => some (.far fa)
    | .fails _ => none
/-- The earlier accesses of a request's group that take effect before it: those to a location of it, those to its destination
device, and of its own two-address instruction the lower lanes (R328, R337, R360). -/
def reqAfter (s : State) (r : AReq) : List AReq :=
  let ts := reqTgts s r
  (s.areqs.takeWhile fun q => q != r).filter fun q => q.gid == r.gid
    && ((q.id == r.id && (r.kind == 3 || r.kind == 4)) || (reqTgts s q).any fun t => ts.any fun u => tgtMeet t q.size u r.size)
/-- A request waits behind earlier accesses of its group: those above, and lower lanes of a two-address instruction that another
device has not answered (R328, R337). -/
def reqBehind (s : State) (r : AReq) : Bool :=
  !(reqAfter s r).isEmpty || ((r.kind == 3 || r.kind == 4) && s.fwaits.any fun w => w.tag / 64 == r.id && w.gid == r.gid)
/-- A write whose fabric address names this device and fails here, its destination: it is discarded and counted (R521). -/
def loopLost (s : State) (r : AReq) : Bool :=
  (r.kind == 1 || r.kind == 6) && match party? s r.gid with
    | none => false
    | some p => match locate s p (some r.lane) r.space r.addr r.size .write with
      | .ok _ => true
      | .error _ => false
/-- A walk of a lane's that an uncorrectable entry stopped counts as a lasting error (R472). -/
def laneWalkErr (s : State) (r : AReq) (addr : DWord) : State :=
  if r.space ≠ .global then s
  else match party? s r.gid with
    | none => s
    | some p => walkErr s p.l.rec0.asid p.b.core (coreDie s p.b.core) (tget p.g.lastPage r.lane) addr.toNat
/-- A request that fails with a kind where it arrives: its destination is poisoned, a write is discarded (R162, R329, R521). -/
def failReq (s : State) (r : AReq) (addr : DWord) (k : Nat) : State :=
  let s1 := laneWalkErr (if loopLost s r then s.wrReg rFBDROP (s.rdReg rFBDROP + 1) else s) r addr
  givePoison (dropReq s1 r) r k
/-- The pieces of a byte range that lie in one line each: address and length. -/
def linePieces (va n : Nat) : List (Nat × Nat) :=
  if n = 0 then [] else
  (List.range ((va + n - 1) / 128 - va / 128 + 1)).map fun i =>
    let a := Nat.max va ((va / 128 + i) * 128)
    (a, Nat.min (va + n) ((va / 128 + i + 1) * 128) - a)
/-- The pieces of a constant load, one after the other (R321, R479): one here is read through L1, for one at another device an access
leaves, and the load goes on when that has come; at a page closed by a move it begins anew (R493). -/
def loadParts : List (Nat × Nat) → State → FWait → List Byte → State
  | [], s, w, got => giveLane s (w.tag / 64) w.lane (loadWrites w.form w.regs w.lane (layBytes w.laid got)) 0
  | q :: rest, s, w, got => match party? s w.gid with
    | none => s
    | some p =>
      let asid := p.l.rec0.asid
      let die := coreDie s p.b.core
      let lane := tget p.g.lastPage w.lane
      let fail (s : State) (k : Nat) : State := poisonLane s (w.tag / 64) w.lane w.va k (isPair w.form w.size w.regs) w.regs
      match translate s asid p.b.core die lane q.1 .read with
      | .error e => fail (walkErr s asid p.b.core die lane q.1) e.kind
      | .ok (l, .remote d a k) => match land s (.line (.remote d a k) (q.1 % 128), some (fabAddr d (a + q.1 % 128))) .read with
        | .fails e => fail s e
        | .here t => if tgtBad s t q.2 then fail s 4 else loadParts rest (touchTgt s l.cls t) w (got ++ readTgt s t q.2)
        | .there fa n =>
          let s1 := sendWait s w.gid (w.tag / 64) w.lane fa n .load q.2 [] w.regs w.form w.va w.laid
          { s1 with fwaits := s1.fwaits.map fun x => if x.tag = w.tag then { x with size := w.size, got := got, more := rest } else x }
      | .ok (l, loc) =>
        let t : Tgt := .line loc (q.1 % 128)
        let held := l1Copy s p.b.core w.gid asid (q.1 / 128) loc
        if held.isNone && tgtClosed s t then
          { s with areqs := s.areqs ++ [⟨w.tag / 64, w.gid, w.lane, 5, w.form, 0, w.size, .const,
            BitVec.ofNat 64 (w.va - p.l.rec0.cseg.toNat), 0, w.regs, true, 0, false, false, 0, 0, true, w.laid⟩] }
        else if (match held with
          | some x => x.badAt (q.1 % 128) q.2
          | none => lineBad s loc) then fail (touchTgt s l.cls t) 4
        else
          let (line, s1) := readL1 s p.b.core w.gid asid q.1 l.cls loc
          loadParts rest s1 w (got ++ (line.drop (q.1 % 128)).take q.2)
/-- A waiting constant load that lies in more than one line. -/
def constParts (s : State) (r : AReq) : List (Nat × Nat) :=
  if r.kind = 5 ∧ r.space = .const then
    let ps := linePieces (reqVa s r) r.size
    if ps.length ≤ 1 then [] else ps
  else []

/-- A line that a request, or a lane of its instruction that waits with it, touches is absent (R310). -/
def reqAbsent (s : State) (r : AReq) : Bool :=
  (s.areqs.filter fun q => q == r || (r.whole && q.id == r.id)).any fun q => (reqTgts s q).any fun t => tgtAbsent s t q.size

/-- The lanes of a store that wait before one poisoned line write it together, and repair it when they cover it whole (R320). -/
def storeTogether (s : State) (r : AReq) (t : Tgt) : State :=
  let beside (u : Tgt) : Bool := match t, u with
    | .line a _, .line b _ => a.line == b.line
    | _, _ => t == u
  let mine := (s.areqs.filter fun q => q.id == r.id && q.gid == r.gid && q.kind == 6).filterMap fun q => match reqLand s q q.addr with
    | .here u => if beside u then some (q, u) else none
    | _ => none
  repairLines (mine.foldl (fun s x => performAt (dropReq s x.1) x.1 x.2) s) (mine.map fun x => (x.2, x.1.size))
/-- A request reaches its location or locations (R316, R335, R337): it takes effect and returns. One behind an earlier access of its
group or at an absent line waits, one at a closed page is returned (R310, R328, R493). An uncorrectable line returns poison and an atomic is not performed on it (R320). A
two-address request leaves for another device when both locations lie there; with one of them here, that half is locked while the
other is done (R337, R478). -/
def performReq (s : State) (r : AReq) : State :=
  let two := r.kind = 3 ∨ r.kind = 4
  let bad (cls : Nat) (t : Tgt) : State := givePoison (touchTgt (dropReq s r) cls t) r 4
  if reqBehind s r || reqAbsent s r then s
  else if constParts s r != [] then
    loadParts (constParts s r) (dropReq s r) ⟨64 * r.id + r.lane, r.gid, r.lane, 0, 0, r.size, r.regs, r.op, reqVa s r, r.laid, none, [], []⟩ []
  else match reqLand s r r.addr, (if two then reqLand s r r.addr2 else .fails 0) with
  | .fails k, _ => failReq s r r.addr k
  | .there fa n, .there fa2 n2 => sendBoth s r fa n fa2 n2
  | .there fa n, .fails k => if two then failReq s r r.addr2 k else sendReq s r fa n 0
  | .there fa n, .here t =>
    if tgtClosed s t then returnReq s r
    else if tgtBad s t r.size then bad r.cls2 t else sendTwo s r false t fa n
  | .here t, l2 =>
    if tgtClosed s t then returnReq s r
    else if r.kind = 6 ∧ tgtBad s t r.size then storeTogether s r t
    else if !two then
      if r.kind ≠ 1 ∧ r.kind ≠ 6 ∧ tgtBad s t r.size then bad r.cls t else performAt (dropReq s r) r t
    else match l2 with
      | .fails e => failReq s r r.addr2 e
      | .there fa2 n => if tgtBad s t r.size then bad r.cls t else sendTwo s r true t fa2 n
      | .here t2 =>
        if tgtClosed s t2 then returnReq s r
        else if tgtBad s t r.size || tgtBad s t2 r.size then givePoison (touchTgt (touchTgt (dropReq s r) r.cls t) r.cls2 t2) r 4
        else performTwo (dropReq s r) r t t2

/-- The positions a merge names; the requests at them. -/
def mergeIdx : Merge → List Nat
  | .one i => [i]
  | .two a b => mergeIdx a ++ mergeIdx b
/-- The operand of a merged request, with the flags of its additions (R318). -/
def mergeOperand (rs : List AReq) (op ty w : Nat) : Merge → Nat × Flg
  | .one i => (((rs[i]?).bind fun r => r.opnd.head?).getD 0, 0)
  | .two a b =>
    let (x, f) := mergeOperand rs op ty w a
    let (y, g) := mergeOperand rs op ty w b
    let (z, h) := atomOp op ty w x y 0
    (z, f ||| g ||| h)
/-- What each request of a merge gets back (R318): `m` is the value the merged request met. -/
def mergeGive (rs : List AReq) (op ty w : Nat) (fl : Flg) : Merge → Nat → State → State
  | .one i, m, s => match rs[i]? with
    | some r => giveResult s r (valueDests r.dreg r.lane r.size m) fl
    | none => s
  | .two a b, m, s =>
    mergeGive rs op ty w fl b (atomOp op ty w m (mergeOperand rs op ty w a).1 0).1 (mergeGive rs op ty w fl a m s)

/-- Two requests may merge (R317, R502): ATOM to one global location here, with the same operation, size and type. -/
def mayMerge (s : State) (a b : AReq) : Bool :=
  a.kind == 0 && b.kind == 0 && a.space == .global && b.space == .global && a.op == b.op && a.ty == b.ty && a.size == b.size
    && mergeable a.op a.ty a.size a.det b.det && (match reqLand s a a.addr, reqLand s b b.addr with
      | .here (.line (.view _ _ _ _) _), _ => false
      | .here x, .here y => x == y
      | _, _ => false)

/-- Merged requests take effect as one (R318); at a closed page or a poisoned line they are the separate requests they were made
of (R320, R493). -/
def performMerged (s : State) (m : Merge) : State :=
  let rs := s.areqs
  let mine := (mergeIdx m).filterMap fun i => rs[i]?
  match mine with
  | [] => s
  | a :: _ =>
    match reqLand s a a.addr with
    | .here t =>
      if tgtClosed s t || tgtBad s t a.size then mine.foldl performReq s
      else
        let w := 8 * a.size
        let s := mine.foldl dropReq s
        let old := ofBytes (readTgt s t a.size)
        let (c, f1) := mergeOperand rs a.op a.ty w m
        let (new, f2) := atomOp a.op a.ty w old c 0
        mergeGive rs a.op a.ty w (f1 ||| f2) m old (mine.foldl (fun s r => ownAtomic s r.gid t) (writeTgtAs s a.cls t (bytesOf new a.size)))
    | _ => mine.foldl performReq s

/-- Perform a group's own outstanding requests in issue order: an access of a group to a location follows its earlier ones
(R328, R343). Requests at closed pages stay. [log 36 DESIGN CHOICE] -/
def drainReqs (s : State) (gid : Nat) : State :=
  (s.areqs.filter fun r => r.gid == gid).foldl performReq s

/-- An access that came by the fabric takes effect at this device, its destination (R521): what goes back to the source, as a
poison kind and bytes (an atomic's old value or values, then its flags). None while its page is closed (R493). -/
def performFab (s : State) (a : FabAccess) : Option (State × Nat × List Byte) :=
  let n := a.size
  let arg (off i : Nat) : Nat := ofBytes ((a.data.drop (off + n * i)).take n)
  let need : Need := match a.kind with
    | .load => .read
    | .store => .write
    | _ => .atomic
  let dropped (s : State) : State := s.wrReg rFBDROP (s.rdReg rFBDROP + 1)
  let missed := walkErr s (fieldOf (s.rdReg rFBWIN) 24 6) (2 ^ 20) 0 none (fieldOf a.addr 0 56)
  let cls := incomingCls s a.addr
  match a.kind, incomingTgt s a.addr need with
  | .reply _, _ => some (s, 0, [])
  | .barrier, _ => some (s, 0, [])
  | .store, .error _ => some (dropped missed, 0, [])
  | _, .error e => some (missed, e.incomingKind, [])
  | .load, .ok t =>
    if tgtClosed s t then none else if tgtBad s t n then some (touchTgt s cls t, 4, [])
    else some (touchTgt s cls t, 0, readTgt s t n)
  | .store, .ok t => if tgtClosed s t then none else some (writeTgtAs s cls t a.data, 0, [])
  | .atom op ty, .ok t =>
    if tgtClosed s t then none else if tgtBad s t n then some (touchTgt s cls t, 4, [])
    else if op < 0x20 then
      let (s1, old, fl) := atomAt s cls t op ty n (arg 0 0) (arg 0 1)
      some (s1, 0, bytesOf old n ++ bytesOf fl.toNat 1)
    else
      let y := BitVec.ofNat 64 (ofBytes (a.data.take 8))
      match (if fabDev y = myId s then incomingTgt s y .atomic else .error .unreachable) with
      | .error e => some (s, e.incomingKind, [])
      | .ok t2 =>
        let cls2 := incomingCls s y
        let (tx, ty', cx, cy) := if ty = 0 then (t, t2, cls, cls2) else (t2, t, cls2, cls)
        if tgtClosed s t2 then none else if tgtBad s t2 n then some (touchTgt s cls2 t2, 4, [])
        else if op = 0x22 then
          let (s1, x, z) := dcasAt s cx cy tx ty' n (arg 8 0) (arg 8 1) (arg 8 2) (arg 8 3)
          some (s1, 0, bytesOf x n ++ bytesOf z n ++ [0])
        else
          let (s1, x) := amovAt s cx cy tx ty' n (arg 8 0)
          some (s1, 0, bytesOf x n ++ [0])

/-- A DCAS or AMOV that came by the fabric with its second address at a further device (R337, R478): the location here, X for type 0 and
else Y, is locked while the half at the other device is done, and the source is answered then, with the mark that came (R520). None for
any other access; no state while it must wait. -/
def relayTwo (s : State) (src hl : Nat) (a : FabAccess) (op ty : Nat) (mark : Bool) : Option (Option State) :=
  let y := BitVec.ofNat 64 (ofBytes (a.data.take 8))
  let args := (List.range (if op = 0x22 then 4 else 1)).map fun i => ofBytes ((a.data.drop (8 + a.size * i)).take a.size)
  if fabDev y = myId s ∨ op < 0x22 ∨ !cgReach s (fabDev y) ∨ cgWindow s (fabDev y) ≤ fabOff y then none
  else match incomingTgt s a.addr .atomic with
    | .error _ => none
    | .ok t =>
      if tgtBad s t a.size then none
      else if tgtClosed s t || flowFull s (flowTo s .request y (fabDev y) 0) then some none
      else
        let cls := incomingCls s a.addr
        let (kind, data, h) := splitTwo s (op == 0x22) (ty == 0) t a.size args cls (some (src, hl, mark, a))
        some (some (sendWait (touchTgt { s with nextId := s.nextId + 1 } cls t) 0 s.nextId 0 y 0 kind a.size data [] 6
          (fieldOf y 0 56) [] (some h)))

/-- Both halves of a DCAS or AMOV are done (R337): the half here is written when the operation says so, and the two old values, or
AMOV's one, are the result. `kind` is the poison kind of a remote half that failed, which leaves both locations as they are. -/
def finishTwo (s : State) (w : FWait) (h : Hold) (kind : Nat) (data : List Byte) : State :=
  let far := ofBytes (data.take w.size)
  let write := kind = 0 ∧ h.go ∧ h.cmp.all (· == far)
  let s1 := if write then ownAtomic (writeTgtAs s h.cls h.t (bytesOf (h.new.getD far) w.size)) w.gid h.t else s
  let vals := if h.two then (if h.first then [h.old, far] else [far, h.old]) else [if h.first then h.old else far]
  match h.back with
  | some (src, hl, mark, a) =>
    sendAccess s1 ⟨myId s1, src, hl, .response⟩ mark
      ⟨.reply kind, a.addr, a.size, if kind = 0 then vals.flatMap (fun v => bytesOf v w.size) ++ [0] else [], a.tag⟩
  | none =>
    if kind ≠ 0 then poisonLane s1 (w.tag / 64) w.lane w.va kind (isPair 0 w.size w.regs) w.regs
    else giveLane s1 (w.tag / 64) w.lane (loadWrites 1 w.regs w.lane (vals.flatMap fun v => bytesOf v w.size)) 0

/-- A reply comes back to its lane (R325, R335, R521). -/
def receiveReply (s : State) (tag kind : Nat) (data : List Byte) : State :=
  match s.fwaits.find? fun w => w.tag == tag with
  | none => s
  | some w =>
    let s := { s with fwaits := s.fwaits.filter fun x => x.tag != tag }
    let id := tag / 64
    match w.hold with
    | some h => finishTwo s w h kind data
    | none =>
      if w.form = 8 then { s with fars := s.fars.map fun f => if f.tag = tag then { f with back := some (kind, data) } else f }
      else if kind = 0 ∧ (w.more ≠ [] ∨ w.got ≠ []) then loadParts w.more s w (w.got ++ (data.take (w.size - w.got.length)))
      else if kind ≠ 0 ∧ w.regs ≠ [] then poisonLane s id w.lane w.va kind (isPair w.form w.size w.regs) w.regs
      else
        let fl : Flg := if w.form = 5 then (data.getLast?.getD 0).setWidth 6 else 0
        giveLane s id w.lane (loadWrites w.form w.regs w.lane (layBytes w.laid data)) fl

/-- A device is lost to this one (R519): it leaves the connected group; loads and atomics waiting for it return poison of kind
UNREACHABLE; writes to it are discarded. -/
def loseDevice (s : State) (d : Nat) : State :=
  let c := cget 0 s.cgt d
  let s1 := { s with cgt := cset 0 s.cgt d (setField (setField c 31 1 0) 30 1 1),
                     flowsOut := s.flowsOut.map fun (f : FlowOut) => if f.flow.dst = d then { f with unacked := [], queued := [] } else f }
  (s1.fwaits.filter fun (w : FWait) => w.dev == d).foldl (fun s (w : FWait) => receiveReply s w.tag 3 []) s1

/-- One piece of a range, located at its home slice or at another device; the failure's KIND (R163, R406). A write that loops
back and fails here is located as one that fails at its destination (R521). -/
def locatePiece (s : State) (asid die va : Nat) (need : Need) : Except Nat Landing :=
  if 2 ^ 56 ≤ va then .error 1 else
  match translate s asid (2 ^ 20) die none va need with
  | .error e => .error e.kind
  | .ok (_, loc) =>
    let r : Tgt × Option DWord := match loc with
      | .remote d a _ => (.line loc (va % 128), some (fabAddr d (a + va % 128)))
      | _ => (.line loc (va % 128), none)
    match land s r need with
    | .fails k => if need = .write then .ok (.fails k) else .error k
    | l => .ok l

/-- Failed walks of a range by the dispatcher or an engine are counted when they read an uncorrectable entry (R472). -/
def walkErrs (s : State) (asid die va n : Nat) : State :=
  (linePieces va n).foldl (fun s q => walkErr s asid (2 ^ 20) die none q.1) s
/-- The lines that a read of a range by the dispatcher or an engine reaches at their slices (R302, R314). -/
def touchVirt (s : State) (asid die va n : Nat) : State :=
  (linePieces va n).foldl (fun s q => match locatePiece s asid die q.1 .read with
    | .ok (.here t) => touchTgt (noteWalk s asid (2 ^ 20) die none q.1) (pageCls s asid (2 ^ 20) die none q.1) t
    | _ => s) s
/-- Why a read by an engine or the dispatcher gives no bytes: it fails with a KIND; or it waits, for a page closed by a move, or for a
piece of another device's memory that is still to ask for or to come. -/
inductive ReadErr where
  | fails (kind : Nat)
  | asks
  | waits
deriving DecidableEq, Repr
/-- What a reader gets of another device's memory (R479, R521). -/
def farBytes (s : State) (owner : List Nat) (fa : DWord) (n : Nat) : Except ReadErr (List Byte) :=
  match farOf s owner fa n with
  | none => .error .asks
  | some f => match f.back with
    | none => .error .waits
    | some (0, bs) => .ok ((List.range n).map fun i => bs.getD i 0)
    | some (k, _) => .error (.fails k)
/-- Bytes read at virtual addresses of a context, as the dispatcher and the engines read them at the home slices; those of another
device's memory are what `owner` has read there by fabric accesses (R479). -/
def readVirt (s : State) (owner : List Nat) (asid die va n : Nat) : Except ReadErr (List Byte) :=
  (linePieces va n).foldl (fun acc q => match acc with
    | .error k => .error k
    | .ok bs => match locatePiece s asid die q.1 .read with
      | .error k => .error (.fails k)
      | .ok (.here t) =>
        if tgtClosed s t then .error .waits else if tgtBad s t 1 then .error (.fails 4) else .ok (bs ++ readTgt s t q.2)
      | .ok (.there fa _) => (farBytes s owner fa q.2).map fun x => bs ++ x
      | .ok (.fails k) => .error (.fails k)) (.ok [])
/-- The pieces of a range at other devices are asked for (R479). -/
def askVirt (s : State) (owner : List Nat) (asid die va n : Nat) : State :=
  (linePieces va n).foldl (fun s q => match locatePiece s asid die q.1 .read with
    | .ok (.there fa k) => askFar s owner fa k q.2
    | _ => s) s
/-- Bytes written at virtual addresses of a context by a group's engine, or by none (0): every piece translates first, then all are
written (R501). The group's L1 shows it nothing older after that (R344, R358); a write that fails at its destination is discarded and
counted (R521). -/
def writeVirt (s : State) (gid asid die va : Nat) (bs : List Byte) : Except Nat State :=
  (linePieces va bs.length).foldl (fun acc q => match acc with
    | .error k => .error k
    | .ok s1 =>
      let part := (bs.drop (q.1 - va)).take q.2
      match locatePiece s asid die q.1 .write with
      | .error k => .error k
      | .ok (.here t) => .ok (ownAtomic (writeTgtAs s1 (pageCls s asid (2 ^ 20) die none q.1) t part) gid t)
      | .ok (.there fa k) => .ok (sendWait { s1 with nextId := s1.nextId + 1 } gid s1.nextId 0 fa k .store q.2 part [] 0 q.1)
      | .ok (.fails _) => .ok (s1.wrReg rFBDROP (s1.rdReg rFBDROP + 1))) (.ok s)
/-- A write to a range waits: a page of it is closed by a move (R493). -/
def virtClosed (s : State) (asid die va n : Nat) (need : Need) : Bool :=
  (linePieces va n).any fun q => match locatePiece s asid die q.1 need with
    | .ok (.here t) => tgtClosed s t
    | _ => false

end Sys2Proof.Machine
end

