-- ==== Sys2Proof/Machine/Fetch.lean ====
section
/-! DEFINITION. Fetch lines: layout, parity and fetching (04_encoding R113-R118, R143, 40_translation R484). -/

namespace Sys2Proof.Machine

/-- A fetch line in memory (R113): its five words and its line word. -/
structure Line where
  words : List IWord
  lw : Word
deriving DecidableEq, Repr

/-- The parity checks of a line (R115). -/
def lineParity (l : Line) : Bool :=
  popCount l.lw.toNat 32 % 2 == 0 &&
    (l.words.zipIdx).all fun x => (popCount x.1.toNat 96 + (if bitOf l.lw (9 + x.2) then 1 else 0)) % 2 == 0
def lineTgt (l : Line) (slot : Nat) : Bool := bitOf l.lw slot

def parseLine (bs : List Byte) : Line :=
  { words := (List.range 5).map fun i => wordOfBytes ((bs.drop (12 * i)).take 12), lw := BitVec.ofNat 32 (ofBytes (bs.drop 60)) }

/-- Why a line cannot be used: its translation failed (no error counted), its parity failed twice (R116, R118, R484), or it is not here:
its page is closed by a move, or it is read from another device, for which an access is still to leave or to return. -/
inductive FetchErr where
  | xlat | parity | waits
  | asks (fa : DWord) (lanes : Nat)
deriving DecidableEq, Repr

/-- Fetch a line as it stands at its home slice (R143, R341); an uncorrectable line fails as its parity does. A line of a remote page
is fetched by a fabric access of `own`, a group or a sequencer (R479), which loops back under FBWIN.ASID when the page names this
device (R521). [log 153 DESIGN CHOICE] -/
def fetchLine (s : State) (own asid core va : Nat) : Except FetchErr Line :=
  match translate s asid core (coreDie s core) none va .exec with
  | .error _ => .error .xlat
  | .ok (_, loc) =>
    let r : Tgt × Option DWord := match loc with
      | .remote d a _ => (.line loc (va % 128), some (fabAddr d (a + va % 128)))
      | _ => (.line loc (va % 128), none)
    let checked (bs : List Byte) : Except FetchErr Line :=
      let l := parseLine bs
      if lineParity l then .ok l else .error .parity
    match land s r .exec with
    | .fails k => .error (if k = 4 then .parity else .xlat)
    | .there fa n => match farBytes s [0, own] fa 64 with
      | .ok bs => checked bs
      | .error .asks => .error (.asks fa n)
      | .error .waits => .error .waits
      | .error (.fails k) => .error (if k = 4 then .parity else .xlat)
    | .here t => if tgtClosed s t then .error .waits else if tgtBad s t 1 then .error .parity else checked (readTgt s t 64)
/-- Lines of other devices' memory a group or a sequencer holds at once, the newest: as many as one instruction can need (R143: code is
not written while it runs). -/
def farLines : Nat := 66
/-- A fetch that needs a line of another device asks for it (R479). -/
def askLine (s : State) (own : Nat) (e : FetchErr) : State :=
  match e with
  | .asks fa n =>
    let mine := s.fars.filter fun f => f.owner == [0, own]
    askFar { s with fars := (s.fars.filter fun f => f.owner != [0, own]) ++ mine.drop (mine.length + 1 - farLines) } [0, own] fa n 64
  | _ => s
/-- A fetch has to wait. -/
def FetchErr.later : FetchErr → Bool
  | .waits | .asks _ _ => true
  | _ => false

/-- A fetched line's translation is recorded, and its slice reached with the class of its page (R302, R315, R480). -/
def reachLine (s : State) (asid core va : Nat) : State :=
  let die := coreDie s core
  match translate s asid core die none va .exec with
  | .error _ => s
  | .ok (l, loc) =>
    let s1 := cacheLeaf (noteWalk s asid core die none va) asid core die va l
    match loc with
    | .remote _ _ _ => s1
    | _ => touchLoc s1 loc l.cls false
/-- A fetch records its translation; a parity failure counts as lasting on the core's die (R116, R480). -/
def noteFetch (s : State) (asid core va : Nat) (r : Except FetchErr Line) : State :=
  match r with
  | .error .parity => (reachLine s asid core va).countErr true (coreDie s core) 5
  | .error .xlat => walkErr s asid core (coreDie s core) none va
  | .ok _ => reachLine s asid core va
  | .error _ => s

/-- A word of the tile stream's opcodes (R138). -/
def tileWord (w : IWord) : Bool := decide (0x1E0 ≤ fieldOf w 79 9)

end Sys2Proof.Machine
end

