-- ==== Sys2Proof/Machine/Ops.lean ====
section
/-! DEFINITION. The shared operations of execution: the issuing entry, pc and frontier, returns of variable-latency results,
lane exits, TAKING A TRAP and returning from one, kills and containment (10_registers R172, 15_traps R277-R288, 30_issue
R366-R386, 01_work R13, R39-R44, 32_launch R442, R443, R446). -/

namespace Sys2Proof.Machine

/-- The issuing entry with everything above it. -/
structure Ctx where
  p : Party
  eid : Nat
  e : Entry
  word : IWord
deriving DecidableEq, Repr

/-- The entry named by the cursor. -/
def ctx? (s : State) : Option Ctx :=
  match s.cur with
  | some ⟨false, gid, eid, w⟩ =>
    match party? s gid with
    | none => none
    | some p =>
      match tget p.g.entries eid with
      | none => none
      | some e => some ⟨p, eid, e, w⟩
  | _ => none

def Ctx.gid (c : Ctx) : Nat := c.p.gid
def Ctx.helpers (c : Ctx) : LaneMask := helperMask c.p.l.rec0 c.p.g.gidx
/-- Lanes of the entry whose guard holds (R9, R121), and those of them that are no helper lanes. -/
def Ctx.active (c : Ctx) (hd : Hd) : LaneMask := c.e.mask &&& guardMask c.p.g hd.guard
def Ctx.real (c : Ctx) (hd : Hd) : LaneMask := c.active hd &&& ~~~c.helpers
/-- The entry's lanes that are no helper lanes. -/
def Ctx.lanes (c : Ctx) : LaneMask := c.e.mask &&& ~~~c.helpers
def Ctx.tid (c : Ctx) (lane : Nat) : Nat := threadId c.p.l.rec0 c.p.b.index c.p.g.gidx lane
def Ctx.core (c : Ctx) : Nat := c.p.b.core

/-- The pc of the next instruction: slot 4 is followed by slot 0 of the next line (R114). -/
def nextPc (pc : DWord) : DWord := if fieldOf pc 0 3 = 4 then pc + 60 else pc + 1
/-- The line and slot of a pc, and the pcs that may be executed (R114). -/
def pcLine (pc : DWord) : Nat := pc.toNat / 64 * 64
def pcSlot (pc : DWord) : Nat := fieldOf pc 0 3
def pcLegal (pc : DWord) : Bool := fieldOf pc 56 8 == 0 && fieldOf pc 3 3 == 0 && fieldOf pc 0 3 ≤ 4

/-- Two entries are in states that merge: both eligible, or both parked at the same JOIN (R372). In trap mode every entry but the
handler's is parked by trap entry (R283), so only those of the handler merge. -/
def parksMerge (a b : Option Park) : Bool :=
  match a, b with
  | none, none => true
  | some .join, some .join => true
  | _, _ => false
def entriesMerge (tm : Bool) (a b : Entry) : Bool :=
  (!tm || a.handler) && a.pc == b.pc && a.rstart == b.rstart && a.counted == b.counted && a.handler == b.handler && parksMerge a.park b.park
/-- The merged entry (R372). -/
def mergeTwo (a b : Entry) : Entry :=
  let old := if a.snapTime ≤ b.snapTime then a else b
  { a with mask := a.mask ||| b.mask, prio := Nat.max a.prio b.prio, age := Nat.max a.age b.age, irr := a.irr || b.irr,
           snapStack := old.snapStack, snapTime := old.snapTime }
/-- Merge one entry into a table, at the first entry it merges with. -/
def mergeInto (tm : Bool) : Table Entry → Nat → Entry → Table Entry
  | [], k, e => [(k, e)]
  | (j, a) :: r, k, e => if entriesMerge tm a e then (j, mergeTwo a e) :: r else (j, a) :: mergeInto tm r k e
/-- Merge all entries of a group, in trap mode or not, dropping those whose mask is empty (R368, R372). -/
def mergeEntries (tm : Bool) (t : Table Entry) : Table Entry :=
  (t.filter fun x => x.2.mask != 0).foldl (fun acc x => mergeInto tm acc x.1 x.2) []

/-- Entries of a group do not merge now, but those of a handler (R372): in trap mode, where trap entry parks all others (R283), and while
a trap waits to be entered, when none is eligible and the trapping entry is to be retained. -/
def Group.still (g : Group) : Bool := g.tm || g.waitTrap.isSome
/-- A number no entry of a group has. -/
def freshEid (g : Group) : Nat := g.entries.foldl (fun n x => Nat.max n (x.1 + 1)) g.nextEid

/-- Lanes held by the frontier outside handler entries: the live lanes (R368). -/
def liveLanes (g : Group) : LaneMask := (g.entries.filter fun x => !x.2.handler).foldl (fun m x => m ||| x.2.mask) 0

/-- Release JOINs whose record is covered by the lanes parked at it and the lanes that exited (R382), newest first. -/
def joinRelease : Nat → Group → Group
  | 0, g => g
  | n + 1, g =>
    match g.rejoin with
    | [] => g
    | t :: rest =>
      let here := g.entries.filter fun x => x.2.park == some .join && x.2.pc == t.pc
      let cover := here.foldl (fun m x => m ||| x.2.mask) g.exited
      if t.mask &&& ~~~cover = 0 then
        let es := g.entries.map fun x =>
          if x.2.park = some .join ∧ x.2.pc = t.pc then
            (x.1, { x.2 with pc := nextPc x.2.pc, prio := t.prio, age := 0, park := none })
          else x
        joinRelease n { g with rejoin := rest, entries := mergeEntries g.still es }
      else g

/-- Helper lanes that retire with these: every non-helper lane of their quad has exited (R13). [log 53 DEDUCED, 55 DEDUCED] -/
def helperRetire (r : Rec) (gidx : Nat) (exited : LaneMask) : LaneMask :=
  maskOf ((List.range 64).filter fun l => isHelper r gidx l &&
    ((List.range 4).all fun i => isHelper r gidx (l / 4 * 4 + i) || bitOf exited (l / 4 * 4 + i)))

/-- Retire lanes of a group (R383): they leave every entry for good, and JOINs they were awaited at may release. -/
def retire (r : Rec) (g : Group) (lanes : LaneMask) : Group :=
  let x1 := g.exited ||| lanes
  let x := x1 ||| helperRetire r g.gidx x1
  let es := g.entries.map fun e => (e.1, { e.2 with mask := e.2.mask &&& ~~~x })
  joinRelease 33 { g with exited := x, entries := mergeEntries g.still es }

/-- Pending registers of an in-flight result apply to every entry, or for a late `.split` part to its own lanes (R172). -/
def pendFor (x : Inflight) (m : LaneMask) : Bool := !x.late || (x.lanes &&& m) != 0
def pendingV (g : Group) (m : LaneMask) (r : Nat) : Bool := g.inflight.any fun x => pendFor x m && x.vregs.contains r
def pendingP (g : Group) (m : LaneMask) (r : Nat) : Bool := g.inflight.any fun x => pendFor x m && x.pregs.contains r
/-- The switch-marker wait: a variable-latency register write of the group is incomplete in a lane of the entry (R375); one with no
active lane, whose pending bit is set all the same (R172), is waited for as well. [log 141 DEDUCED] -/
def markerWaits (g : Group) (m : LaneMask) : Bool :=
  g.inflight.any fun x => (x.vregs != [] || x.pregs != [] || x.kregs != []) && (x.lanes == 0 || (x.lanes &&& m) != 0)

/-- A result of a uniform load that waits for its entry to take it (R330). -/
def Inflight.held (x : Inflight) : Bool := x.kregs != [] && x.req != 0
/-- Deliver one in-flight result: its registers are written and its flags ORed in (R172, R291). -/
def deliverOne (dist : Bool) (g : Group) (x : Inflight) : Group := (g.putAll dist x.writes).orAll x.flags
/-- Deliver every result that has come back. -/
def deliverReady (dist : Bool) (g : Group) : Group :=
  let h := (g.inflight.filter fun x => x.ready && !x.held).foldl (deliverOne dist) g
  { h with inflight := g.inflight.filter fun x => !(x.ready && !x.held) }

/-- Sets, launches and gangs that report. -/
def tcauseOf (t : Trap) : Word :=
  BitVec.ofNat 32 (t.code + (if t.impr then 256 else 0) + (t.prqi % 64) * 1024 + (t.flags % 32) * 65536)

/-- Post an entry to the trap queue (R446); a KILL or FENCE entry that finds it full is dropped (R448). -/
def postEntry (s : State) (ws : List Word) : State :=
  if s.trapq.length < 256 then { s with trapq := s.trapq ++ [ws] } else s

/-- The sixteen words of a trap-queue entry (R446). -/
def trapEntry (kind imm : Nat) (tcause : Word) (tpc : DWord) (tval : BitVec 128) (tmask : LaneMask) (blk die core grp : Nat)
    (handle tag : Word) (aux : Nat) : List Word :=
  [BitVec.ofNat 32 (kind * 2 ^ 28 + imm % 65536), tcause, loWord tpc, hiWord tpc, tval.extractLsb' 0 32, tval.extractLsb' 32 32,
   tval.extractLsb' 64 32, tval.extractLsb' 96 32, loWord tmask, hiWord tmask, BitVec.ofNat 32 blk,
   BitVec.ofNat 32 (blk / 2 ^ 32), BitVec.ofNat 32 (die * 65536 + core * 256 + grp), handle, tag, BitVec.ofNat 32 aux]

/-- A gang retires when its blocks have exited and, in a staged launch, their sets are released (R23, R24, R362). -/
def settleGang (s : State) (k : Nat) : State :=
  match tget s.gangs k with
  | none => s
  | some ga =>
    match tget s.launches ga.lid with
    | none => s
    | some l =>
      let ended (bid : Nat) : Bool := match tget s.blocks bid with
        | some b => b.exited && (b.released || !(l.rec0.det || l.rec0.red || l.rec0.rel))
        | none => true
      if ga.st = .resident ∧ ga.blocks.all ended then modGang s k fun g => { g with st := .retired } else s

/-- Word 3 of TVAL of FLT_TILE (R249): subcode, line offset from TSTR and slot. -/
def tileWord3 (r : Rec) (f : TileFault) : Nat :=
  f.code % 16 * 2 ^ 28 + (f.line.toNat - r.tstr.toNat) / 64 % 2 ^ 25 * 8 + f.slot % 8

/-- A group has no live lane: it exits, its block exits with its last group, and the sequencer stops once the instruction it is
in completes (R23, R235, R383); its rings serve the commands still to complete (R398). A tile fault no group has taken is kept for the completion record (R249, R426). -/
def settleBlock (s : State) (bid : Nat) : State :=
  match tget s.blocks bid with
  | none => s
  | some b =>
    if b.exited then s
    else if (b.groups.all fun gid => ((tget s.groups gid).map (·.done)).getD true) then
      let s1 := modBlock s bid fun b =>
        { b with exited := true, tile := { b.tile with ended := true, barWait := none, tst := setField b.tile.tst 0 4 0 } }
      let s2 := match b.tile.fault, tget s.gangs b.gang with
        | some f, some ga => modLaunch s1 ga.lid fun l =>
            if l.tilef = 0 then { l with tilef := BitVec.ofNat 32 (tileWord3 l.rec0 f) } else l
        | _, _ => s1
      settleGang s2 b.gang
    else s
def settleGroup (s : State) (gid : Nat) : State :=
  match tget s.groups gid with
  | none => s
  | some g => if liveLanes g = 0 ∧ !g.done then settleBlock (modGroup s gid fun g => { g with done := true }) g.bid else s

/-- Record the first kill of a launch (R426). [log 167 DESIGN CHOICE] -/
def noteKill (l : Launch) (blk : Nat) (tcause : Word) (tpc : DWord) : Launch :=
  if l.first.isSome then l else { l with first := some (blk, tcause, tpc) }

/-- Kill a group (R282, R285, R288): every lane exits, a KILL entry is posted, GKILLS counts it. -/
def killGroup (s : State) (p : Party) (code : Nat) (tcause : Word) (tpc : DWord) (tval : BitVec 128) (tmask : LaneMask)
    (aux : Nat) : State :=
  let tc := setField tcause 0 8 code
  let s1 := modGroup s p.gid fun g =>
    retire p.l.rec0 { g with tm := false, retained := none, waitTrap := none,
                             entries := g.entries.filter fun e => !e.2.handler } (BitVec.allOnes 64)
  let s2 := postEntry s1 (trapEntry 2 0 tc tpc tval tmask p.b.index (coreDie s p.b.core) p.b.core p.g.gidx
    p.l.rec0.handle 0 aux)
  let s3 := modLaunch s2 p.ga.lid fun l =>
    { noteKill l p.b.index tc tpc with gkills := Nat.min 0xFFFFFFFF (l.gkills + 1) }
  settleGroup s3 p.gid

/-- Enter the handler (R283): the trap registers are written, the trapping entry is retained, every entry is parked by TM, and
a handler entry starts at THND. Without a handler the group is killed with the fault's code (R282); in trap mode it is killed,
with the first fault's TCAUSE and TPC and the second's code (R285). [log 177 DESIGN CHOICE] -/
def enterTrap (s : State) (p : Party) (eid : Nat) (t : Trap) : State :=
  if p.g.tm then killGroup s p 0x22 p.g.tcause p.g.tpc p.g.tval p.g.tmask t.code
  else if p.l.rec0.thnd = 0 then killGroup s p t.code (tcauseOf t) t.pc (BitVec.ofNat 128 t.tval) t.tmask 0
  else modGroup s p.gid fun g =>
    let m := match tget g.entries eid with
      | some e => e.mask
      | none => 0
    let h : Entry := { pc := p.l.rec0.thnd, prio := 0, mask := m, rstart := p.l.rec0.thnd, lidp := 0, snapStack := [],
                       snapTime := 0, irr := false, counted := false, age := 0, park := none, handler := true }
    { g with tcause := tcauseOf t, tpc := t.pc, tval := BitVec.ofNat 128 t.tval, tmask := t.tmask, retained := some eid,
             tm := true, waitTrap := none, fence := none, entries := tset g.entries (freshEid g) h, nextEid := freshEid g + 1 }

/-- TAKE A TRAP, for every fault of a group (R277, R283): the instructions it issued before complete, its outstanding requests
are performed and returned results delivered; the handler is entered once no register write is pending. A result that waits for
another device keeps the group waiting, and TRAP_ENTRY enters the handler when it has come. -/
def takeTrap (s : State) (gid eid : Nat) (t : Trap) : State :=
  let s1 := drainReqs s gid
  match party? s1 gid with
  | none => s1
  | some p =>
    let g := deliverReady p.dist p.g
    let s2 := { s1 with groups := tset s1.groups gid g }
    if (g.inflight.any fun x => x.vregs != [] || x.pregs != []) then
      modGroup s2 gid fun g => { g with waitTrap := some t, retained := some eid }
    else enterTrap s2 { p with g := g } eid t

/-- RETURN FROM A TRAP (R288): TM is cleared, the handler entries are discarded, and the retained entry goes on at `pc`, with
what `f` restores. [log 75 DEDUCED] -/
def leaveTrap (g : Group) (f : Entry → Entry) : Group :=
  let es := g.entries.filter fun e => !e.2.handler
  let es := match g.retained with
    | some eid => tmod es eid fun e => { f e with age := 0 }
    | none => es
  { g with tm := false, retained := none, entries := mergeEntries false es }

/-- A request that is irrevocable completes though its gang is killed (R42, R442). -/
def AReq.irrevocable (r : AReq) : Bool := r.kind == 0 || r.kind == 1 || r.kind == 3 || r.kind == 4 || (r.kind == 6 && r.space == .fabric)
/-- A piece of another device's memory that one of some groups, blocks or launches reads. -/
def ownedBy (ids : List Nat) (f : Far) : Bool :=
  match f.owner with
  | kind :: id :: _ => kind != 3 && ids.contains id
  | _ => false
/-- What a gang holds on its cores ends: its blocks exit, its groups are done, its staged sets are discarded. Its irrevocable requests
and the commands its engines accepted go on (R42, R426, R442, R443). -/
def clearGang (s : State) (ga : Gang) : State :=
  let gids := ga.blocks.flatMap fun bid => match tget s.blocks bid with
    | some b => b.groups
    | none => []
  let s1 := { s with groups := s.groups.map fun (e : Nat × Group) =>
      if gids.contains e.1 then
        (e.1, { e.2 with
          entries := [], done := true, exited := BitVec.allOnes 64, inflight := [], fence := none, waitTrap := none, tm := false,
          retained := none })
      else e,
                     areqs := s.areqs.filter fun r => r.irrevocable || !gids.contains r.gid,
                     drops := s.drops.filter fun d => !gids.contains d.gid,
                     fars := s.fars.filter fun f => !ownedBy gids f && !ownedBy ga.blocks f }
  { s1 with blocks := s1.blocks.map fun (e : Nat × Block) =>
      if ga.blocks.contains e.1 then
        (e.1, { e.2 with
          exited := true, staged := [], sigs := [], extra := none, granted := false, ticket := none,
          tile := { e.2.tile with ended := true, job := none } })
      else e }

/-- Put the gangs of an index back among those still to place, which stand in ascending index (R427). -/
def placeAgain (place new : List (Nat × Nat)) : List (Nat × Nat) :=
  let i := (new.head?.map (·.1)).getD 0
  (place.filter fun x => decide (x.1 < i)) ++ new ++ place.filter fun x => decide (i ≤ x.1)
/-- GANG CONTAINMENT (R442, R443): irrevocable instructions in progress complete, staged sets not released are discarded, the
cores are freed and a KILL entry is posted. A relaunchable gang that has relaunches left and has not forfeited them is placed
again as a fresh gang; otherwise the launch counts a kill. Both copies of a redundant gang go together. -/
def containGang (s : State) (lid index : Nat) (code : Nat) (tcause : Word) (tpc : DWord) (blk core grp : Nat) : State :=
  match tget s.launches lid with
  | none => s
  | some l =>
    let mine := s.gangs.filter fun g => g.2.lid == lid && g.2.index == index && g.2.st != .retired && g.2.st != .killed
    match mine with
    | [] => s
    | (_, ga) :: _ =>
      let gids := (mine.flatMap fun g => g.2.blocks).flatMap fun bid => match tget s.blocks bid with
        | some b => b.groups
        | none => []
      let s0 := gids.foldl drainReqs s
      let s1 := mine.foldl (fun s g => clearGang s g.2) s0
      let s2 := { s1 with gangs := s1.gangs.map fun (g : Nat × Gang) =>
        if (mine.any fun m => m.1 == g.1) then (g.1, { g.2 with st := .killed }) else g }
      let s3 := postEntry s2 (trapEntry 2 0 (setField tcause 0 8 code) tpc 0 0 blk (coreDie s core) core grp l.rec0.handle 0 0)
      modLaunch s3 lid fun l =>
        let l1 := noteKill l blk (setField tcause 0 8 code) tpc
        if l.rec0.rel && decide (ga.relaunches < l.rec0.reln + 1) && !ga.forfeit then
          { l1 with relaunches := l.relaunches + 1, place := placeAgain l1.place (mine.map fun m => (index, m.2.copy)),
                    relaunched := l1.relaunched ++ [(index, ga.relaunches + 1)] }
        else { l1 with kills := l.kills + 1 }

/-- Consumption of UNCORRECTABLE poison (R161): the gang of the group is contained. The kill carries the code of the fault the
consumption would have raised. [log 23 DEDUCED] -/
def contain (s : State) (p : Party) (pc : DWord) : State :=
  containGang s p.ga.lid p.ga.index 0x09 (BitVec.ofNat 32 0x09) pc p.b.index p.b.core p.g.gidx

/-- What a body answers: the next state; a fault precisely raised; gang containment; or the entry parks before issue. -/
inductive Res where
  | done (s : State)
  | trap (t : Trap)
  | contain
  | park (k : Park)
deriving DecidableEq, Repr

/-- A fault whose TVAL is the instruction word (R281). -/
def Ctx.wordTrap (c : Ctx) (code : Nat) (m : LaneMask) : Trap := { code := code, tval := c.word.toNat, tmask := m, pc := c.e.pc }
/-- FLT_PRIVILEGE in the lanes given (R284, R292). [log 73 DEDUCED] -/
def Ctx.privilege (c : Ctx) (m : LaneMask) : Res := .trap (c.wordTrap 0x07 m)

/-- Consumption of poison in lanes, each with its record's index (R161): FLT_PAGE for the lowest lane, or containment when a
record is UNCORRECTABLE; a predicate's poison carries no index, so the record that names predicates in the lane decides (R164).
[log 23 DEDUCED, 162 DESIGN CHOICE] -/
def Ctx.consume (c : Ctx) (ls : List (Nat × Nat)) : Option Res :=
  match ls with
  | [] => none
  | (_, i) :: _ =>
    let bad (x : Nat × Nat) : Bool := (tget c.p.g.prq x.2).any (fun r => r.kind == 4)
      || (x.2 == predPoison && c.p.g.prq.any fun r => r.2.kind == 4 && r.2.prd && bitOf r.2.mask x.1)
    if ls.any bad then some .contain
    else
      let addr := match tget c.p.g.prq i with
        | some r => r.addr
        | none => 0
      some (.trap { code := 0x09, tval := addr, tmask := maskOf (ls.map (·.1)), prqi := i, pc := c.e.pc })

/-- What an instruction touches, for the issue checks. -/
structure Touch where
  vr : List Nat := []
  vw : List Nat := []
  pr : List Nat := []
  pw : List Nat := []
  irr : Bool := false
  rgn : Bool := false
deriving DecidableEq, Repr

def guardRegs : Guard → List Nat
  | .always => []
  | .pred n _ => [n]

/-- The first register read or written while pending: predicates as 1024 + n (R172, R281). A guard is read for every lane of
the entry, other registers for the active lanes; helper lanes alone raise nothing (R13). [log 21 DEDUCED] -/
def hazardReg (c : Ctx) (hd : Hd) (t : Touch) : Option Nat :=
  let pend (rs : List Nat) := rs.find? fun r => pendingP c.p.g c.e.mask r
  if c.lanes = 0 then none else
  match pend (guardRegs hd.guard) with
  | some r => some (1024 + r)
  | none =>
    if c.real hd = 0 then none else
    match pend (t.pr ++ t.pw) with
    | some r => some (1024 + r)
    | none => (t.vr ++ t.vw).find? fun r => pendingV c.p.g c.e.mask r

/-- The faults of classes 4 to 6 of one issue, in their order (R43, R141, R154, R157, R172). The region rules do not apply in
trap mode (R284). [log 21 DEDUCED] -/
def issueFault (c : Ctx) (hd : Hd) (t : Touch) : Option Trap :=
  if c.e.irr && !t.rgn && !c.p.g.tm then some (c.wordTrap 0x04 c.lanes)
  else if ((t.vr ++ t.vw).any fun r => decide (c.p.l.rec0.regs ≤ r)) then some (c.wordTrap 0x05 c.lanes)
  else match hazardReg c hd t with
    | some r => some { c.wordTrap 0x06 (if c.real hd = 0 then c.lanes else c.real hd) with tval := c.word.toNat + r * 2 ^ 96 }
    | none => none

/-- An entry of helper lanes only retires them instead of taking a fault of classes 1 to 5 (R142). [log 53 DEDUCED] -/
def retireEntry (s : State) (c : Ctx) : State :=
  settleGroup (modGroup s c.gid fun g => retire c.p.l.rec0 g c.e.mask) c.gid

/-- Raise a precise fault of the issuing entry. -/
def raise (s : State) (c : Ctx) (t : Trap) : Host.Outcome State Fault Refusal :=
  if c.lanes = 0 ∧ t.code ≤ 5 then .next (retireEntry s c) else .next (takeTrap s c.gid c.eid t)

/-- An entry parked before issue has not issued: its group's ages, the entry that issued last, the one that stands back after a YIELD
and the performance counts are as they were (R373, R385). [log 154 DEDUCED] -/
def unissue (s : State) (gid : Nat) : State :=
  match s.pass with
  | none => s
  | some x =>
    let age (e : Nat × Entry) : Nat × Entry := match x.ages.find? fun a => a.1 == e.1 with
      | some a => (e.1, { e.2 with age := a.2 })
      | none => e
    modGroup { s with pass := none, pmc := x.pmc, tally := x.tally } gid fun g =>
      { g with entries := g.entries.map age, lastEid := x.last, yielded := x.yielded }
/-- The entry parks before issue (R370). -/
def parkBefore (s : State) (gid eid : Nat) (k : Park) : State :=
  modGroup (unissue s gid) gid fun g => modEntry g eid fun e => { e with park := some k }

/-- Turn a body's answer into the step's outcome. -/
def outcome (s : State) (c : Ctx) : Res → Host.Outcome State Fault Refusal
  | .done s' => .next s'
  | .trap t => raise s c t
  | .contain => .next (contain s c.p c.e.pc)
  | .park k => .next (parkBefore s c.gid c.eid k)

/-- A poisoned guard in a non-helper lane is consumed (R121, R161). -/
def guardTrap (c : Ctx) (hd : Hd) : Option Res :=
  c.consume ((guardPoison c.p.g c.lanes hd.guard).map fun l => (l, predPoison))

/-- RUN ONE INSTRUCTION of group code for the issuing entry: the faults of R141 from class 4 on, the guard's poison, then the
body. -/
def runGroup (s : State) (hd : Hd) (t : Touch) (body : Ctx → Res) : Host.Outcome State Fault Refusal :=
  match ctx? s with
  | none => .fault .noIssuer
  | some c =>
    match issueFault c hd t with
    | some f => raise s c f
    | none =>
      match guardTrap c hd with
      | some r => outcome s c r
      | none => outcome s c (body c)

/-- The group moves on: `f` changes it, the entry's pc advances, and entries merge (R372, R378). `irr` is R43's mark.
[log 135 DEDUCED] -/
def Ctx.advance (c : Ctx) (s : State) (irr : Bool) (f : Group → Group) : State :=
  modGroup s c.gid fun g =>
    let g := f g
    { g with entries := mergeEntries g.tm (tmod g.entries c.eid fun e => { e with pc := nextPc e.pc, irr := irr }) }

/-- The descriptor address of the RGN at a pc of a party's group, when one stands there (R44, R384). -/
def rgnDesc (s : State) (p : Party) (pc : DWord) : Option DWord :=
  match fetchLine s p.gid p.l.rec0.asid p.b.core (pcLine pc) with
  | .ok l => match decode (l.words.getD (pcSlot pc) 0) with
    | .ok (.rgn o) => some (p.l.rec0.cseg + o.imm.setWidth 64)
    | _ => none
  | .error _ => none
def rgnAt (s : State) (c : Ctx) (pc : DWord) : Option DWord := rgnDesc s c.p pc

/-- The commit of a region (R44): its start moves to the following RGN, whose descriptor governs; the snapshot is taken anew, since
what follows begins there. [log 135 DEDUCED] -/
def Ctx.commitRegion (c : Ctx) (s : State) (g : Group) : Group :=
  if g.tm then g
  else
    let pc := nextPc c.e.pc
    enterRegion g c.eid pc ((rgnAt s c pc).getD c.e.lidp) s.stamp (s.stamp + 1)

end Sys2Proof.Machine
end

