-- ==== Sys2Proof/Machine/Flags.lean ====
section
/-! DEFINITION. FPCR and FPSR, the random streams, and how an instruction delivers its lanes' results: flags, FLT_IEEE,
fixed and variable latency (02_formats R66, R70, R72, R75-R77, 10_registers R160, R165, R166, R172, 50_counters R537-R539). -/

namespace Sys2Proof.Machine

/-- FPCR.RM as a mode; the field never holds 000 or 111 (R66, R165). -/
def rmOfCode : Nat → Rm
  | 2 => .rz | 3 => .ru | 4 => .rd | 5 => .ra | 6 => .sr | _ => .rn
def fpcrRm (f : Word) : Rm := rmOfCode (fieldOf f 0 3)
/-- FPCR.SUB (R72): subnormal operands read as zero; subnormal results are flushed. [log 10 DEDUCED] -/
def fpcrZeroSub (f : Word) : Bool := bitOf f 4
def fpcrFlush (f : Word) : Bool := bitOf f 3
def fpcrRv (f : Word) : Bool := bitOf f 5
/-- κ of FPCR.KREF (R107). -/
def fpcrKappa (f : Word) : Nat := fieldOf f 6 2 + 1
/-- The trap enables in FPSR bit order; they read as zero in trap mode (R165, R284). [log 72 DEDUCED] -/
def enables (g : Group) (lane : Nat) : Flg := if g.tm then 0 else BitVec.ofNat 6 (fieldOf (g.rdFpcr lane) 8 5)

/-- The rounding mode an instruction uses in a lane (R66, R128). -/
def rndMode (r : Rnd) (fpcr : Word) : Rm :=
  match r with
  | .dyn => fpcrRm fpcr
  | .rn => .rn | .rz => .rz | .ru => .ru | .rd => .rd | .ra => .ra | .sr => .sr

/-- One round of the Foridal generator (R537). -/
def foridalRound (k0 k1 x0 x1 x2 x3 : Nat) : Nat × Nat × Nat × Nat :=
  let p0 := x0 * 0xD4B56A29
  let p1 := x2 * 0xC9E37191
  ((p1 / 2 ^ 32) ^^^ x1 ^^^ k0, p1 % 2 ^ 32, (p0 / 2 ^ 32) ^^^ x3 ^^^ k1, p0 % 2 ^ 32)
def foridalGo : Nat → Nat → Nat → Nat → Nat → Nat → Nat → Nat × Nat × Nat × Nat
  | 0, _, _, x0, x1, x2, x3 => (x0, x1, x2, x3)
  | n + 1, k0, k1, x0, x1, x2, x3 =>
    let (y0, y1, y2, y3) := foridalRound k0 k1 x0 x1 x2 x3
    foridalGo n ((k0 + 0x9E3779B9) % 2 ^ 32) ((k1 + 0xBB67AE85) % 2 ^ 32) y0 y1 y2 y3
def foridal (k0 k1 c0 c1 c2 c3 : Nat) : Nat × Nat × Nat × Nat := foridalGo 10 k0 k1 c0 c1 c2 c3

/-- The generator's output for a lane of thread id `tid` under a launch's key (R538): w3:w2:w1:w0 as one number. -/
def streamBits (key : DWord) (tid c2 c3 : Nat) : Nat :=
  let (w0, w1, w2, w3) := foridal (fieldOf key 0 32) (fieldOf key 32 32) (tid % 2 ^ 32) (tid / 2 ^ 32) c2 c3
  w0 + w1 * 2 ^ 32 + w2 * 2 ^ 64 + w3 * 2 ^ 96

/-- The i-th 16-bit rounding word from a lane's SRC and SRI (R539). -/
def srWord (c : Ctx) (lane i : Nat) : Nat :=
  let n := cget 0 c.p.g.sri lane + i
  let src := ((cget 0 c.p.g.src lane).toNat + n / 8) % 2 ^ 32
  streamBits c.p.l.rec0.stream (c.tid lane) src 0x80000000 / 2 ^ (16 * (n % 8)) % 65536

/-- Advance a lane's SRC and SRI by n words (R539). -/
def srAdvance (g : Group) (lane n : Nat) : Group :=
  let t := cget 0 g.sri lane + n
  { g with sri := cset 0 g.sri lane (t % 8), src := cset 0 g.src lane (cget 0 g.src lane + BitVec.ofNat 32 (t / 8)) }

/-- Advance a lane's draw counter (R230). -/
def drcAdvance (g : Group) (lane n : Nat) : Group :=
  { g with drc := cset 0 g.drc lane (cget 0 g.drc lane + BitVec.ofNat 32 n) }

/-- What an instruction delivers in one lane: register writes, flags, rounding words and draws taken. -/
structure LaneOut where
  lane : Nat
  ws : List Dest
  flags : Flg := 0
  sr : Nat := 0
  drc : Nat := 0
deriving DecidableEq, Repr

/-- The enabled flags raised in the active lanes that are no helper lanes (R77); none for helper lanes (R13). [log 22 DEDUCED] -/
def ieeeLanes (c : Ctx) (outs : List LaneOut) : List (Nat × Flg) :=
  outs.filterMap fun o =>
    let f := o.flags &&& enables c.p.g o.lane
    if f = 0 ∨ bitOf c.helpers o.lane then none else some (o.lane, f)

/-- FLT_IEEE (R77, R281): the lanes, and in FLAGS the enabled flags they raised. [log 22 DEDUCED] -/
def ieeeTrap (c : Ctx) (outs : List LaneOut) : Option Trap :=
  match ieeeLanes c outs with
  | [] => none
  | ls => some { c.wordTrap 0x08 (maskOf (ls.map (·.1))) with flags := (ls.foldl (fun f x => f ||| x.2) (0 : Flg)).toNat }

/-- Counters a result takes with it at issue. -/
def takeWords (outs : List LaneOut) (g : Group) : Group :=
  outs.foldl (fun g o =>
    let g := if o.sr = 0 then g else srAdvance g o.lane o.sr
    if o.drc = 0 then g else drcAdvance g o.lane o.drc) g

/-- Deliver the lanes of a fixed-latency instruction: registers and flags at once (R172). -/
def putLanes (c : Ctx) (outs : List LaneOut) (g : Group) : Group :=
  outs.foldl (fun g o => ((g.putAll c.p.dist o.ws).orFpsr o.lane o.flags)) (takeWords outs g)

/-- Deliver the lanes of a variable-latency instruction: they are in flight, their destinations pending, until
VARIABLE_LATENCY_RETURN (R172, R291). -/
def flyLanes (vr pr : List Nat) (m : LaneMask) (outs : List LaneOut) (g : Group) : Group :=
  let x : Inflight := { vregs := vr, pregs := pr, lanes := m, writes := outs.flatMap (·.ws),
                        flags := (outs.filter fun o => o.flags != 0).map fun o => (o.lane, o.flags), ready := true, req := 0,
                        late := false }
  let g := takeWords outs g
  { g with inflight := g.inflight ++ [x] }

/-- RUN A LANE INSTRUCTION: `f` says what each active lane delivers; FLT_IEEE comes before any effect (R77). -/
def runLanes (s : State) (hd : Hd) (t : Touch) (variable_ : Bool) (f : Ctx → Nat → LaneOut) :
    Host.Outcome State Fault Refusal :=
  runGroup s hd t fun c =>
    let m := c.active hd
    let outs := (lanesOf m).map (f c)
    match ieeeTrap c outs with
    | some x => .trap x
    | none => .done (c.advance s t.irr (if variable_ then flyLanes t.vw t.pw m outs else putLanes c outs))

/-- What the registers of operands contribute to the issue checks. -/
def touchOf (srcs dsts : List Opnd) : Touch :=
  { vr := srcs.flatMap Opnd.vregs, pr := srcs.flatMap Opnd.pregs, vw := dsts.flatMap Opnd.vregs, pw := dsts.flatMap Opnd.pregs }

/-- A lane of an instruction whose result is poison when a source is (R160): the words of SR are still drawn, the flags are
not raised (R70, R76). -/
def poisonable (srcs dsts : List Opnd) (f : Ctx → Nat → LaneOut) (c : Ctx) (lane : Nat) : LaneOut :=
  match firstPoison srcs c.p.g lane with
  | some i => { f c lane with ws := dsts.flatMap fun d => d.poisoned lane i, flags := 0 }
  | none => f c lane

/-- RUN A UNIFORM INSTRUCTION (R183): once for the entry, when it has an active lane that is no helper lane. -/
def runUniform (s : State) (hd : Hd) (f : Ctx → List Dest) : Host.Outcome State Fault Refusal :=
  runGroup s hd {} fun c =>
    .done (c.advance s false fun g => if c.real hd = 0 then g else g.putAll c.p.dist (f c))

end Sys2Proof.Machine
end

