-- ==== Sys2Proof/Machine/Save.lean ====
section
/-! DEFINITION. What a set-aside or a checkpoint keeps of a group (01_work R40, R41, R47-R51, 31_engines R395, 50_counters
R531, R536), and the restart of a region (R46, R288). -/

namespace Sys2Proof.Machine

open Sys2Proof

/-- The registers a live-in descriptor marks (R41), as bit maps of v, k and p. -/
structure Live where
  v : Nat
  k : Nat
  p : Nat
deriving DecidableEq, Repr

def Live.none : Live := ⟨0, 0, 0⟩
def Live.all : Live := ⟨2 ^ 1024 - 1, 2 ^ 256 - 1, 2 ^ 48 - 1⟩
def Live.or (a b : Live) : Live := ⟨a.v ||| b.v, a.k ||| b.k, a.p ||| b.p⟩
/-- A descriptor from its 168 bytes. -/
def Live.ofBytes (bs : List Byte) : Live :=
  let n := Machine.ofBytes bs
  ⟨n % 2 ^ 1024, n / 2 ^ 1024 % 2 ^ 256, n / 2 ^ 1280 % 2 ^ 48⟩
/-- Its reserved bytes are zero and it names no register beyond the allocation (R41, R157). -/
def Live.ok (bs : List Byte) (regs : Nat) : Bool :=
  let n := Machine.ofBytes bs
  n / 2 ^ 1328 == 0 && n % 2 ^ 1024 < 2 ^ regs

/-- The live registers of one entry, by its descriptor as it stands in memory now; one that cannot be read keeps none, one still to come
from another device all. A group whose
code does not begin with a readable RGN has no descriptor and keeps everything (R154). [log 43 DEDUCED, 155 DESIGN CHOICE] -/
def entryLive (s : State) (p : Party) (e : Entry) : Live :=
  if e.lidp = 0 then Live.all
  else match readVirt s [2, p.gid] p.l.rec0.asid (coreDie s p.b.core) e.lidp.toNat 168 with
    | .ok bs => Live.ofBytes bs
    | .error (.fails _) => Live.none
    | .error _ => Live.all
/-- The descriptors of a group's entries at other devices are asked for (R479), and whether one is still to come. -/
def askDescs (s : State) (p : Party) : State :=
  if p.g.tm then s
  else p.g.entries.foldl (fun s e => if e.2.lidp = 0 then s
    else askVirt s [2, p.gid] p.l.rec0.asid (coreDie s p.b.core) e.2.lidp.toNat 168) s
def descsWait (s : State) (p : Party) : Bool :=
  !p.g.tm && p.g.entries.any fun e => e.2.lidp != 0
    && match readVirt s [2, p.gid] p.l.rec0.asid (coreDie s p.b.core) e.2.lidp.toNat 168 with
      | .error .asks | .error .waits => true
      | _ => false

/-- The tile register set (R234). -/
def inTileSet (r : Rec) (reg : Nat) : Bool := r.tstr != 0 && decide (r.trsb ≤ reg) && decide (reg < r.trsb + r.trsn)

/-- The registers kept of a group: the union of its entries' descriptors and the tile register set; in trap mode, all (R50,
R51). [log 43 DEDUCED, 155 DESIGN CHOICE] -/
def groupLive (s : State) (p : Party) : Live :=
  if p.g.tm then Live.all
  else
    let l := (p.g.entries.map fun e => entryLive s p e.2).foldl Live.or Live.none
    if p.l.rec0.tstr = 0 then l else { l with v := l.v ||| ((2 ^ p.l.rec0.trsn - 1) <<< p.l.rec0.trsb) }

/-- A file of registers with those not kept replaced by free values: `keep` says which keys of the first `n` stay.
[log 27 DESIGN CHOICE] -/
def keepCells {w : Nat} (n base : Nat) (keep : Nat → Bool) (c : Cells (BitVec w)) : Cells (BitVec w) :=
  (List.range n).filterMap fun k =>
    let x := if keep k then cget 0 c k else BitVec.ofNat w (Config.freeBits (base + k))
    if x = 0 then none else some (k, x)
def keepBits (n base : Nat) (keep : Nat → Bool) (c : Cells Bool) : Cells Bool :=
  (List.range n).filterMap fun k =>
    let x := if keep k then cget false c k else (Config.freeBits (base + k)).testBit 0
    if x then some (k, x) else none
/-- Where poison bits came out set in registers not kept, the contents are those of poison (R159). -/
def poisonKept {α : Type} [DecidableEq α] (dflt : α) (keep : Nat → Bool) (bits : Cells Bool) (as : α → α) (c : Cells α) : Cells α :=
  bits.foldl (fun c b => if keep b.1 then c else cset dflt c b.1 (as (cget dflt c b.1))) c

/-- An entry as it is kept: it restarts at its region start, where RGN must stand (R43); one whose BAR.sync was recorded waits on (R44, R48, R51). -/
def keepEntry (e : Entry) : Entry :=
  match e.park, e.counted with
  | some (.barrier _ _ _ false), true => { e with age := 0 }
  | _, _ => { e with pc := e.rstart, age := 0, park := none, irr := true }

/-- The earliest snapshot of the rejoin stack among entries (R51). -/
def earliestStack (es : Table Entry) (dflt : List Rejoin) : List Rejoin :=
  ((es.foldl (fun acc x => match acc with
    | none => some x.2
    | some y => if x.2.snapTime < y.snapTime then some x.2 else some y) (none : Option Entry)).map (·.snapStack)).getD dflt

/-- A group as a set-aside or checkpoint keeps it: results that have come back are written first (R49), and the registers not kept take
free values from number `n0` on, those of lanes the group was not started with excepted (R158). The latched cycle count is the core's (R52, R171).
[log 27 DESIGN CHOICE, 44 DEDUCED, 45 DEDUCED, 174 DESIGN CHOICE] -/
def keepGroup (s : State) (p : Party) (n0 : Nat) : Group :=
  let g := deliverReady p.dist p.g
  let lv := groupLive s p
  let absent (k : Nat) : Bool := !bitOf (startMask p.l.rec0 p.g.gidx) (k % 64)
  let vk (k : Nat) : Bool := lv.v.testBit (k / 64) || absent k
  let pk (k : Nat) : Bool := lv.p.testBit (k / 64) || absent k
  let n := 64 * p.l.rec0.regs
  let vp := keepBits n (n0 + 65536) vk g.vp
  let pp := keepBits 3072 (n0 + 199680) pk g.pp
  let h := { g with
    v := poisonKept 0 vk vp (fun x => poisonWord (x.toNat % 64)) (keepCells n n0 vk g.v), vp := vp,
    side := if p.dist then poisonKept 0 vk vp (fun _ => poisonSide) (keepCells n (n0 + 131072) vk g.side) else g.side,
    p := poisonKept false pk pp (fun _ => false) (keepBits 3072 (n0 + 196608) pk g.p), pp := pp,
    k := keepCells 256 (n0 + 202752) (fun k => lv.k.testBit k) g.k,
    cych := hiWord (cget 0 s.cyc (clockCore s p.g.bid p.b.core)),
    inflight := [], lastPage := [], sitOut := false, guardRep := none, yielded := none, fence := if g.tm then g.fence else none, badLine := none }
  if g.tm then { h with entries := g.entries.map fun e => (e.1, { e.2 with age := 0 }) }
  else { h with entries := mergeEntries false (g.entries.map fun e => (e.1, keepEntry e.2)), drc := g.snapDrc, src := g.snapSrc,
                sri := g.snapSri, rejoin := earliestStack g.entries g.rejoin }
/-- Free values one kept group takes. -/
def keepFree : Nat := 203008

/-- Discard the progress of an entry's lanes since their region start (R40, R46, R47): the counters and the rejoin stack of the
snapshot come back; the entry stands at its region start. [log 131 DEDUCED] -/
def restartEntry (g : Group) (eid : Nat) : Group :=
  match tget g.entries eid with
  | none => g
  | some e =>
    let ls := lanesOf e.mask
    let back {α : Type} [DecidableEq α] (d : α) (now snap : Cells α) : Cells α := ls.foldl (fun c l => cset d c l (cget d snap l)) now
    modEntry { g with drc := back 0 g.drc g.snapDrc, src := back 0 g.src g.snapSrc, sri := back 0 g.sri g.snapSri,
                      rejoin := e.snapStack } eid fun e => { e with pc := e.rstart, irr := true, park := none }
/-- Remove the accesses a group's lanes staged since they entered their regions (R47). -/
def unstage (b : Block) (g : Group) (lanes : LaneMask) : Block :=
  let gone (gidx lane time : Nat) : Bool := gidx == g.gidx && bitOf lanes lane && decide (cget 0 g.rtime lane ≤ time)
  { b with staged := b.staged.filter fun x => !gone x.gidx x.lane x.itime, sigs := b.sigs.filter fun x => !gone x.gidx x.lane x.time }

end Sys2Proof.Machine
end

