-- ==== Sys2Proof/Machine/Barriers.lean ====
section
/-! DEFINITION. Hardware barriers: members, arrivals, instances and departures (50_counters R525-R532, 22_ordering R345-R351,
13_tile R245). -/

namespace Sys2Proof.Machine

open Sys2Proof

/-- The party's scope at a level: its group, block, gang or launch. -/
def Party.scope (p : Party) : Level → Nat
  | .grp => p.gid | .blk => p.g.bid | .gang => p.b.gang | .grid => p.ga.lid

/-- The barriers of a scope; one not listed stands at instance 0 with no arrival (R525). -/
def scopeBars (s : State) (lv : Level) (scope : Nat) : Table Bar :=
  match lv with
  | .grp => ((tget s.groups scope).map (·.bars)).getD []
  | .blk => ((tget s.blocks scope).map (·.bars)).getD []
  | .gang => ((tget s.gangs scope).map (·.bars)).getD []
  | .grid => ((tget s.launches scope).map (·.bars)).getD []
def scopeBar (s : State) (lv : Level) (scope n : Nat) : Bar := (tget (scopeBars s lv scope) n).getD {}
def setBar (s : State) (lv : Level) (scope n : Nat) (b : Bar) : State :=
  match lv with
  | .grp => modGroup s scope fun g => { g with bars := tset g.bars n b }
  | .blk => modBlock s scope fun x => { x with bars := tset x.bars n b }
  | .gang => modGang s scope fun x => { x with bars := tset x.bars n b }
  | .grid => modLaunch s scope fun x => { x with bars := tset x.bars n b }

/-- The latest instance, plus one, at which a lane of a group was recorded (0: none); the sequencer of a block stands as lane 0
of a group of the block's number. -/
def Bar.lane (b : Bar) (gid l : Nat) : Nat := (tget b.recs (lkey gid l)).getD 0
/-- The latest instance, plus one, among some lanes: the current one, which may have wrapped (R527), comes after every other. -/
def Bar.latest (b : Bar) (gid : Nat) (m : LaneMask) : Nat :=
  if (lanesOf m).any fun l => b.lane gid l == b.inst + 1 then b.inst + 1 else (lanesOf m).foldl (fun x l => Nat.max x (b.lane gid l)) 0
/-- Record lanes as arrived at the current instance (R534). -/
def Bar.record (b : Bar) (gid : Nat) (m : LaneMask) : Bar :=
  { b with recs := (lanesOf m).foldl (fun t l => tset t (lkey gid l) (b.inst + 1)) b.recs }

/-- Bytes of a space are bound to a barrier by the entries in force (R346, R505); bytes of the block's own scratchpad that no entry covers
are bound to block barrier 0 (R349). -/
def boundAt (p : Party) (lv : Level) (n : Nat) (space : Space) (addr : DWord) (size : Nat) : Bool :=
  let meets (b : Binding) (x m : Nat) : Bool := decide (b.base < x + m) && decide (x < b.base + b.len)
  let mine (sp : BindSpace) (x : Nat) : Bool := p.l.binds.any fun b => b.space == sp && b.level == lv && b.barn == n && meets b x size
  let scr (x : Nat) (own : Bool) : Bool := mine .scratch x || (lv == .blk && n == 0 && own
    && (List.range size).any fun i => !(p.l.binds.any fun b => b.space == .scratch && meets b (x + i) 1))
  match space with
  | .global | .const => mine .global addr.toNat
  | .fabric => mine .fabric addr.toNat
  | .scratch => scr (fieldOf addr 0 32) true
  | .pen => match penTarget p addr with
    | some (bid, x) => scr x (bid == p.g.bid)
    | none => false
/-- A write of a group that waits to take effect is bound to a barrier (R347). -/
def reqBound (p : Party) (lv : Level) (n : Nat) (r : AReq) : Bool :=
  r.kind != 2 && r.kind != 5 && (boundAt p lv n r.space r.addr r.size
    || ((r.kind == 3 || r.kind == 4) && boundAt p lv n r.space r.addr2 r.size))
/-- So is a write another device has not answered; an atomic's is taken to be when the barrier has an entry of such a space. -/
def waitBound (p : Party) (lv : Level) (n : Nat) (w : FWait) : Bool :=
  if w.form = 0 ∨ w.form = 7 then
    boundAt p lv n .global (BitVec.ofNat 64 w.va) w.size || boundAt p lv n .fabric (BitVec.ofNat 64 (w.dev * 2 ^ 50 + w.addr % 2 ^ 50)) w.size
  else (w.form == 5 || w.form == 6) && p.l.binds.any fun b => b.space != .scratch && b.level == lv && b.barn == n
/-- A barrier's arrivals are release points of a launch (R362): its gang's and its grid's, but not in a relaunchable launch. -/
def needsRelease (r : Rec) (lv : Level) : Bool := (r.det || r.red) && !r.rel && (lv == .gang || lv == .grid)
/-- A group, and in a redundant launch that of the other copy, whose staged writes are performed once for both. -/
def sharers (s : State) (p : Party) : List Nat := p.gid :: (if p.l.rec0.red then (twinGroup s p.gid).toList else [])

/-- The group waits for a register write (R172, R245), or for a write bound to the barrier to take effect (R347, R505); where its arrivals
are release points, for every access of the released sets, whose flags are ORed in then (R362, R575). [log 37 DEDUCED] -/
def writesPending (s : State) (lv : Level) (n gid : Nat) (g : Group) : Bool :=
  (g.inflight.any fun x => x.vregs != [] || x.pregs != [] || x.kregs != []) || match party? s gid with
    | none => false
    | some p =>
      let all_ := needsRelease p.l.rec0 lv
      let ids := sharers s p
      (s.areqs.any fun r => ids.contains r.gid && (all_ || reqBound p lv n r))
        || s.fwaits.any fun w => ids.contains w.gid && (all_ || waitBound p lv n w)

/-- A group has met the conditions of its arrival (R528): every live lane is recorded at the current instance, its writes are
done and its guard report is taken. [log 37 DEDUCED] -/
def groupReady (s : State) (lv : Level) (n : Nat) (b : Bar) (gid : Nat) (g : Group) : Bool :=
  !g.done && ((lanesOf (liveLanes g)).all fun l => b.lane gid l == b.inst + 1) && !writesPending s lv n gid g && g.guardRep.isNone
/-- Each group of a block that has not exited has met them, and the block has not exited (R528). What groups that exited have released is
waited for too (R362). -/
def blockReady (s : State) (lv : Level) (n : Nat) (b : Bar) (blk : Block) : Bool :=
  !blk.exited && blk.groups.all fun gid => match tget s.groups gid with
    | some g => if g.done then !((party? s gid).any fun p => needsRelease p.l.rec0 lv && writesPending s lv n gid g)
      else groupReady s lv n b gid g
    | none => true

def Rec.blocks (r : Rec) : Nat := r.gx * r.gy * r.gz

/-- A block counts as exited (R529): its last group exited, and in a launch whose block exits are release points its set has taken effect
(R362, R575); or its gang was killed. -/
def blockGone (s : State) (b : Block) : Bool :=
  match tget s.gangs b.gang with
  | none => true
  | some g => g.st == .killed || b.exited && !((tget s.launches g.lid).any fun l => needsRelease l.rec0 .grid
    && (!b.released || b.groups.any fun gid => (party? s gid).any fun p =>
      let ids := sharers s p
      (s.areqs.any fun r => ids.contains r.gid) || s.fwaits.any fun w => ids.contains w.gid))

/-- The members of a barrier, which are fixed when its scope starts (R526). -/
def members (s : State) (lv : Level) (scope n : Nat) : List Nat :=
  match lv with
  | .grp => match party? s scope with
    | some p => lanesOf (startMask p.l.rec0 p.g.gidx)
    | none => []
  | .blk => match (tget s.blocks scope).bind fun b => (tget s.gangs b.gang).bind fun g => (tget s.launches g.lid).map fun l => (b, l) with
    | some (b, l) => List.range b.groups.length ++ (if l.rec0.tbarm.testBit n then [16] else [])
    | none => []
  | .gang => List.range (((tget s.gangs scope).map (·.blocks.length)).getD 0)
  | .grid => List.range (((tget s.launches scope).map (·.rec0.blocks)).getD 0)
/-- Those that have not exited (R526, R529). -/
def membersLeft (s : State) (lv : Level) (scope n : Nat) : List Nat :=
  match lv with
  | .grp => match party? s scope with
    | some p => lanesOf (startMask p.l.rec0 p.g.gidx &&& ~~~p.g.exited)
    | none => []
  | .blk => match tget s.blocks scope with
    | some b =>
      let gs := (b.groups.zipIdx.filter fun x => match tget s.groups x.1 with
        | some g => !g.done
        | none => false).map (·.2)
      let seq := match (tget s.gangs b.gang).bind fun g => tget s.launches g.lid with
        | some l => l.rec0.tbarm.testBit n && !b.tile.ended
        | none => false
      gs ++ (if seq then [16] else [])
    | none => []
  | .gang => match tget s.gangs scope with
    | some g => (g.blocks.zipIdx.filter fun x => match tget s.blocks x.1 with
        | some b => !blockGone s b
        | none => false).map (·.2)
    | none => []
  | .grid => match tget s.launches scope with
    | some l => (List.range l.rec0.blocks).filter fun i => !((blocksAt s scope i).all fun b => blockGone s b.2)
    | none => []

/-- ARR (R525, R527): the members counted at the current instance, exited members included. -/
def barArr (s : State) (lv : Level) (scope n : Nat) : Nat :=
  ((members s lv scope n).filter fun m =>
    (scopeBar s lv scope n).arrived.contains m || !(membersLeft s lv scope n).contains m).length
/-- The current instance is complete (R527): ARR is the number of members. One at which nobody arrived changes nothing and is left alone. -/
def instanceDone (s : State) (lv : Level) (scope n : Nat) : Bool :=
  (scopeBar s lv scope n).arrived != [] && barArr s lv scope n == (members s lv scope n).length
/-- INST counts in 32 bits (R525, R527). -/
def nextInst (i : Nat) : Nat := (i + 1) % 2 ^ 32

/-- The groups of a scope. -/
def groupsIn (s : State) (lv : Level) (scope : Nat) : List Nat :=
  (s.groups.filter fun g => (match party? s g.1 with
    | some p => p.scope lv == scope
    | none => false)).map (·.1)

/-- The global ranges a launch has bound to a barrier (R346). -/
def boundRanges (l : Launch) (lv : Level) (n : Nat) : List Binding :=
  l.binds.filter fun b => b.space == .global && b.level == lv && b.barn == n
/-- A departure drops from the core's L1 every line that overlaps a bound global range (R351). -/
def departDrop (s : State) (p : Party) (lv : Level) (n : Nat) : State :=
  match boundRanges p.l lv n with
  | [] => s
  | bs => dropL1 s (some p.b.core) fun x => x.asid == p.l.rec0.asid &&
      bs.any fun b => decide (b.base < (x.vline + 1) * 128) && decide (x.vline * 128 < b.base + b.len)

/-- The entries of a group that wait for an instance go on: BAR is over, or executes again after an incomplete instance (R534). -/
def departEntries (g : Group) (lv : Level) (n inst : Nat) : Group :=
  { g with entries := mergeEntries g.still (g.entries.map fun (x : Nat × Entry) =>
      match x.2.park with
      | some (.barrier l m i redo) =>
        if l = lv ∧ m = n ∧ i = inst then
          (x.1, { x.2 with pc := if redo then x.2.pc else nextPc x.2.pc, park := none, age := 0, counted := false })
        else x
      | _ => x) }
def waitsFor (g : Group) (lv : Level) (n inst : Nat) : Bool :=
  g.entries.any fun x => match x.2.park with
    | some (.barrier l m i _) => l == lv && m == n && i == inst
    | _ => false

/-- The current instance completes: the next one becomes current and the waiting entries depart (R527, R530); those of a halted group
when it resumes (R294). -/
def completeInstance (s : State) (lv : Level) (scope n : Nat) : State :=
  let b := scopeBar s lv scope n
  let s1 := setBar s lv scope n { b with inst := nextInst b.inst, arrived := [] }
  let s2 := (groupsIn s1 lv scope).foldl (fun s gid => match party? s gid with
    | none => s
    | some p =>
      if waitsFor p.g lv n b.inst && !(p.g.halted && p.g.stepping.isNone) then departDrop (modGroup s gid fun g => departEntries g lv n b.inst) p lv n else s) s1
  if lv = .blk then
    modBlock s2 scope fun x =>
      if x.tile.barWait = some (n, b.inst) then
        { x with tile := { x.tile with barWait := none, tst := setField x.tile.tst 0 4 1 } }
      else x
  else s2

end Sys2Proof.Machine
end

