-- ==== Sys2Proof/Machine/Staging.lean ====
section
/-! DEFINITION. Staged launches: staged sets, the ticket, the sieve, release points, store-stream signatures, checkpoints and
the spill area (21_memory_instr R338, 22_ordering R362-R364, 32_launch R432-R441, 72_programs_reduce R575). -/

namespace Sys2Proof.Machine

open Sys2Proof

/-- Insertion by a key, after equal keys: sorting a list in order of arrival is stable. -/
def insertKey {α : Type} (key : α → Nat) (x : α) : List α → List α
  | [] => [x]
  | y :: r => if key x < key y then x :: y :: r else y :: insertKey key x r
def sortKey {α : Type} (key : α → Nat) (l : List α) : List α := l.foldl (fun acc x => insertKey key x acc) []

/-- The words of a staging buffer an access takes (R432). -/
def Staged.words (x : Staged) : Nat := ceilDiv x.data.length 4
def bufferCap : Nat := 16384
/-- Words in a core's staging buffer (R432): those of its resident gangs. -/
def coreStaged (s : State) (core : Nat) : Nat :=
  (s.blocks.filter fun b => b.2.core == core && (tget s.gangs b.2.gang).any fun g => g.st == .resident || g.st == .retired).foldl (fun n b =>
    n + (b.2.staged.filter fun x => !x.spilled).foldl (fun m x => m + x.words) 0) 0

/-- The ticket key of a block's current set (R433), and the lexicographic order. -/
def Block.key (b : Block) (gang : Nat) : List Nat := [b.gdep, gang, b.epoch, b.index]
def keyLt : List Nat → List Nat → Bool
  | a :: r, b :: q => decide (a < b) || (a == b && keyLt r q)
  | _, _ => false

/-- The keys of a launch's sets not yet released: those of blocks that have not exited and been released, and those of gangs not
yet placed (R433, R435). -/
def openKeys (s : State) (lid : Nat) (l : Launch) : List (List Nat) :=
  (s.blocks.filterMap fun b => match tget s.gangs b.2.gang with
    | some g => if g.lid = lid ∧ g.st ≠ .killed ∧ !(b.2.exited && b.2.released) then some (b.2.key g.index) else none
    | none => none)
  ++ l.place.map fun x => [0, x.1, 0, x.1 * l.rec0.gang]
/-- A block's set holds the ticket: no set of a lower key waits (R433). -/
def holdsTicket (s : State) (bid : Nat) : Bool :=
  match tget s.blocks bid with
  | none => false
  | some b =>
    match tget s.gangs b.gang with
    | none => false
    | some g => match tget s.launches g.lid with
      | none => false
      | some l => !l.rec0.det || (openKeys s g.lid l).all fun k => !keyLt k (b.key g.index)

/-- Where a staged access lands now (R338): it is translated again at its release. [log 32 DEDUCED] -/
def landStaged (s : State) (p : Party) (x : Staged) : Landing :=
  let need : Need := if 0x10 ≤ x.op ∧ x.op < 0x20 then .atomic else .write
  match locate s p none (if x.fabric then .fabric else .global) (BitVec.ofNat 64 x.va) x.size need with
  | .error .address => .fails 1
  | .error (.xl e) => .fails e.kind
  | .ok r => land s r need

/-- A staged access whose page cannot be found, or that fails at this device as its own destination, is discarded: the error of the walk
and the write are counted (R472, R484, R521). -/
def stagedLost (s : State) (p : Party) (x : Staged) : State :=
  let s1 := if x.fabric then s else walkErr s p.l.rec0.asid p.b.core (coreDie s p.b.core) none x.va
  match locate s p none (if x.fabric then .fabric else .global) (BitVec.ofNat 64 x.va) x.size .write with
  | .ok _ => if x.op = 0 ∨ x.op = 0x20 then s1.wrReg rFBDROP (s1.rdReg rFBDROP + 1) else s1
  | .error _ => s1
/-- The commit that the effect of a staged AST or ATOM brings (R42, R44, R338), while its entry still stands at the RGN that follows; stores
commit nothing, and an ATOM to fabric space did so when it was staged. -/
def stagedCommit (s : State) (p : Party) (x : Staged) : Option (LaneMask × DWord × DWord) :=
  if p.g.tm || x.op == 0 || (x.fabric && x.op != 0x20) then none
  else (p.g.entries.find? fun e => bitOf e.2.mask x.lane && e.2.irr && decide (cget 0 p.g.rtime x.lane ≤ x.itime)).map fun e =>
    (laneBit x.lane, e.2.pc, (rgnDesc s p e.2.pc).getD e.2.lidp)
def commitStaged (s : State) (gid : Nat) (x : Staged) : State :=
  (copiesOf s gid).foldl (fun s k => match party? s k.1 with
    | some p => modGroup s k.1 fun g => commitLate s g (stagedCommit s p x)
    | none => s) s

/-- Flags of a staged atomic join its lane's FPSR, in both copies of a redundant block (R335, R338). -/
def stagedFlags (s : State) (gid lane : Nat) (fl : Flg) : State :=
  (copiesOf s gid).foldl (fun s x => modGroup s x.1 fun g => g.orFpsr lane fl) s
/-- One staged access takes effect (R363, R484, R575): a failed translation discards it; an atomic's flags join its lane's FPSR, at
once or when its reply returns. [log 32 DEDUCED] -/
def applyStaged (bid : Nat) (s : State) (x : Staged) : State :=
  match (tget s.blocks bid).bind fun b => party? s (b.gid x.gidx) with
  | none => s
  | some p =>
    match landStaged s p x with
    | .fails _ => stagedLost s p x
    | .here t =>
      if x.op = 0 ∨ x.op = 0x20 then
        let s1 := writeTgtAs s x.cls t x.data
        if x.op = 0 then storeL1 s1 p.gid t x.data else commitStaged (ownAtomic s1 p.gid t) p.gid x
      else if tgtBad s t x.size then commitStaged (touchTgt s x.cls t) p.gid x
      else
        let arg (i : Nat) : Nat := ofBytes ((x.data.drop (x.size * i)).take x.size)
        let (s1, _, fl) := atomAt s x.cls t (x.op - 0x10) x.aty x.size (arg 0) (arg 1)
        commitStaged (stagedFlags (ownAtomic s1 p.gid t) p.gid x.lane fl) p.gid x
    | .there fa n =>
      let s1 := { s with nextId := s.nextId + 1 }
      if x.op = 0 then sendWait s1 p.gid s.nextId x.lane fa n .store x.size x.data [] 0 x.va
      else
        let y (k : Party) : Inflight :=
          { vregs := [], pregs := [], lanes := laneBit x.lane, writes := [], flags := [], ready := false,
            req := s.nextId, late := false, commit := stagedCommit s k x }
        let s2 := (copiesOf s1 p.gid).foldl (fun s k => match party? s k.1 with
          | some q => modGroup s k.1 fun g => { g with inflight := g.inflight ++ [y q] }
          | none => s) s1
        if x.op = 0x20 then sendWait s2 p.gid s.nextId x.lane fa n .store x.size x.data [] 7 x.va
        else sendWait s2 p.gid s.nextId x.lane fa n (.atom (x.op - 0x10) x.aty) x.size x.data [] 5 x.va

/-- The sieve (R363): a set in order of group index, lane index and program order. -/
def sieve (l : List Staged) : List Staged := sortKey (fun x => 64 * x.gidx + x.lane) (sortKey (fun x => x.time) l)
/-- An access of a set meets a page closed by a move, so the set waits (R493). -/
def setClosed (s : State) (bid : Nat) (l : List Staged) : Bool :=
  l.any fun x => match (tget s.blocks bid).bind fun b => party? s (b.gid x.gidx) with
    | none => false
    | some p => match landStaged s p x with
      | .here t => tgtClosed s t
      | _ => false
/-- A poisoned line that one store of a set covers whole is repaired (R320): `l` is the set. -/
def repairStaged (bid : Nat) (l : List Staged) (s : State) : State :=
  if s.badLines.isEmpty then s
  else ((l.filter fun x => x.op == 0).map fun x => (x.gidx, x.time)).eraseDups.foldl (fun s k =>
    repairLines s ((l.filter fun x => x.op == 0 && x.gidx == k.1 && x.time == k.2).filterMap fun x =>
      match (tget s.blocks bid).bind fun b => party? s (b.gid x.gidx) with
      | none => none
      | some p => match landStaged s p x with
        | .here t => some (t, x.data.length)
        | _ => none)) s
/-- The accesses of a block's current set that meet `p` take effect, as if whole, and leave the buffer. -/
def drainThose (s : State) (bid : Nat) (p : Staged → Bool) : State :=
  match tget s.blocks bid with
  | none => s
  | some b =>
    let set := b.staged.filter fun x => x.part == 0 && p x
    let s1 := repairStaged bid set ((sieve set).foldl (applyStaged bid) s)
    modBlock s1 bid fun b => { b with staged := b.staged.filter fun x => !(x.part == 0 && p x) }
/-- The current set of a block takes effect whole. -/
def drainSet (s : State) (bid : Nat) : State :=
  modBlock (drainThose s bid fun _ => true) bid fun b => { b with sigs := b.sigs.filter fun x => x.part != 0 }

/-- A release point a block stands at: an extra one for redundancy (R437, R440), a gang or grid barrier, or its exit (R362). -/
inductive Point where
  | extra
  | bar (level : Level) (barn : Nat)
  | exit
deriving DecidableEq, Repr

/-- The barriers whose arrivals are release points (R362); none in a relaunchable launch (R30). -/
def releaseBars (r : Rec) : List (Level × Nat) :=
  if r.rel then [] else (List.range 8).map (fun n => (.gang, n)) ++ (List.range 4).map (fun n => (.grid, n))

/-- The point a block of a staged launch stands at, its set not released yet. A relaunchable gang stands at its exit when all
its blocks have exited (R30). -/
def pointOf (s : State) (bid : Nat) : Option Point :=
  match tget s.blocks bid with
  | none => none
  | some b => match tget s.gangs b.gang with
    | none => none
    | some g => match tget s.launches g.lid with
      | none => none
      | some l =>
        if g.st ≠ .resident then none
        else if b.extra.isSome ∧ !b.granted then some .extra
        else if b.released then none
        else if b.exited then
          if !l.rec0.rel || (g.blocks.all fun k => ((tget s.blocks k).map (·.exited)).getD true) then some .exit else none
        else ((releaseBars l.rec0).find? fun x =>
          let scope := if x.1 = .gang then b.gang else g.lid
          let member := if x.1 = .gang then g.blocks.idxOf bid else b.index
          let bar := scopeBar s x.1 scope x.2
          !bar.arrived.contains member && blockReady s x.1 x.2 bar b && b.groups.any fun gid => match tget s.groups gid with
            | some gr => !gr.done
            | none => false).map fun x => .bar x.1 x.2

/-- After a set's release the block stages its next one (R433, R434, R436): the lanes' arrivals, the key and OVF move on.
[log 38 DEDUCED, 39 DEDUCED] -/
def releaseAt (pt : Point) (det : Bool) (b : Block) : Block :=
  let shift (n : Nat) : Nat := n - 1
  match pt with
  | .extra => b
  | .bar lv _ =>
    { b with
      staged := b.staged.map fun (x : Staged) => { x with part := shift x.part },
      sigs := b.sigs.map fun (x : SigItem) => { x with part := shift x.part },
      gdep := if lv = .grid then b.gdep + 1 else b.gdep, epoch := if lv = .grid then 0 else b.epoch + 1,
      direct := false, divided := false, matched := false, released := true, reruns := 0, ckptDue := det }
  | .exit => { b with direct := false, divided := false, matched := false, released := true, reruns := 0, ckpt := none }

/-- Release a block's set at a barrier or its exit (R434): the set takes effect, once for both copies of a redundant block (R439).
[log 40 DEDUCED] -/
def releaseSet (s : State) (bid : Nat) (pt : Point) : State :=
  match (tget s.blocks bid).bind fun b => (tget s.gangs b.gang).bind fun g => (tget s.launches g.lid).map fun l => (b, g, l) with
  | none => s
  | some (b, g, l) =>
    let s1 := drainSet s bid
    let drop (x : Block) : Block :=
      { x with staged := x.staged.filter fun y => y.part != 0, sigs := x.sigs.filter fun y => y.part != 0 }
    let s2 := match twinBlock s bid with
      | some t => modBlock (modBlock s1 bid (releaseAt pt l.rec0.red)) t fun x => releaseAt pt l.rec0.red (drop x)
      | none => modBlock s1 bid (releaseAt pt l.rec0.red)
    let s3 := if b.direct || b.divided then modLaunch s2 g.lid fun l => { l with ovf := l.ovf + 1 } else s2
    if pt = .exit then
      match twinBlock s bid with
      | some t => settleGang (settleGang s3 b.gang) (((tget s3.blocks t).map (·.gang)).getD 0)
      | none => settleGang s3 b.gang
    else s3

/-- CRC-64 of a store stream (R438). -/
def crcBit (c : DWord) : DWord := if bitOf c 63 then (c <<< 1) ^^^ 0x42F0E1EBA9EA3693 else c <<< 1
def crcByte (c : DWord) (b : Byte) : DWord := (List.range 8).foldl (fun c _ => crcBit c) (c ^^^ (b.setWidth 64 <<< 56))
def crc64 (bs : List Byte) : DWord := bs.foldl crcByte 0xFFFFFFFFFFFFFFFF ^^^ 0xFFFFFFFFFFFFFFFF
/-- The sixteen bytes of an item (R438). -/
def SigItem.bytes (x : SigItem) : List Byte :=
  bytesOf x.addr 7 ++ bytesOf x.op 1 ++ bytesOf x.data.toNat 4 ++ bytesOf (x.mask % 16) 1 ++ [0, 0, 0]
/-- The items of a group in the current part of its block's set (R438): in program order, where a COPY's stand at the COPY, and lanes
ascending. -/
def groupItems (b : Block) (gidx : Nat) : List SigItem :=
  sortKey (fun x => x.time) (sortKey (fun x => x.lane) (b.sigs.filter fun x => x.part == 0 && x.gidx == gidx))
/-- The signature of the part of a set that holds `lens` items of each group, in ascending index, and those of an instruction that asks
(R438, R440). -/
def partSig (b : Block) (lens : List Nat) : DWord :=
  crc64 ((lens.zipIdx).flatMap fun n => ((groupItems b n.2).take n.1 ++ b.asked.filter fun x => x.gidx == n.2).flatMap SigItem.bytes)
/-- The signature of a block's current set (R438). -/
def signature (b : Block) : DWord := partSig b ((List.range b.groups.length).map fun i => (groupItems b i).length)
/-- The items of a staged access: one per word; a word narrower than four bytes carries a byte mask. [log 42 DEDUCED] -/
def Staged.items (x : Staged) : List SigItem :=
  (List.range x.words).map fun i =>
    let a := x.va + 4 * i
    let bs := (x.data.drop (4 * i)).take 4
    let sh := a % 4
    ⟨x.gidx, x.lane, x.itime, a - sh, x.op, BitVec.ofNat 32 (ofBytes bs * 2 ^ (8 * sh)), (2 ^ bs.length - 1) * 2 ^ sh, x.part⟩

/-- The release points a lane has arrived at whose sets are not released yet (R362): what it stages now is of a later set.
[log 39 DEDUCED] -/
def lanePart (s : State) (p : Party) (lane : Nat) : Nat :=
  let n := ((releaseBars p.l.rec0).filter fun x =>
    let bar := scopeBar s x.1 (p.scope x.1) x.2
    let member := if x.1 = .gang then p.ga.blocks.idxOf p.g.bid else p.b.index
    bar.lane p.gid lane == bar.inst + 1 && !bar.arrived.contains member).length
  if p.b.released then n - 1 else n

/-- What a block's groups have recorded at the gang's and the grid's barriers (R526, R527). -/
def blockArr (s : State) (b : Block) : List (Level × Nat × List (Nat × Nat)) :=
  match tget s.gangs b.gang with
  | none => []
  | some g => ((List.range 8).map (fun n => (Level.gang, n)) ++ (List.range 4).map fun n => (Level.grid, n)).map fun x =>
      let bar := scopeBar s x.1 (if x.1 = .gang then b.gang else g.lid) x.2
      (x.1, x.2, bar.recs.filter fun r => b.groups.contains (r.1 / 64))
/-- The records of a block's groups at those barriers become what they were (R439). -/
def setArr (s : State) (b : Block) (l : List (Level × Nat × List (Nat × Nat))) : State :=
  match tget s.gangs b.gang with
  | none => s
  | some g => l.foldl (fun s x =>
      let scope := if x.1 = .gang then b.gang else g.lid
      let bar := scopeBar s x.1 scope x.2.1
      if (bar.recs.filter fun r => b.groups.contains (r.1 / 64)) = x.2.2 then s
      else setBar s x.1 scope x.2.1 { bar with recs := (bar.recs.filter fun r => !b.groups.contains (r.1 / 64)) ++ x.2.2 }) s
/-- The checkpoint of a copy (R439). -/
def takeCkpt (s : State) (bid : Nat) : State :=
  match tget s.blocks bid with
  | none => s
  | some b =>
    let s := b.groups.foldl (fun s gid => modGroup s gid fun g => { g with qs := g.qs.map fun q => (q.1, { q.2 with past := [] }) }) s
    let ps := b.groups.filterMap (party? s)
    let kept := (ps.zipIdx).map fun x => (x.1.gid, keepGroup s x.1 (s.free + keepFree * x.2))
    let left := ps.foldl (fun b p => if p.g.tm then b else unstage b p.g (liveLanes p.g)) b
    modBlock { s with free := s.free + keepFree * b.groups.length } bid fun b =>
      { b with
        ckptDue := false,
        ckpt := some { groups := kept, spad := b.spad, tile := b.tile, bars := b.bars, rings := b.rings, gdep := b.gdep,
                       epoch := b.epoch, staged := left.staged, sigs := left.sigs, arr := blockArr s b } }
/-- A shared command that stood in a checkpoint, as the engine holds it now (R439, R440): what it began or completed since is not done
again. Its start, and the delivery of its completion, follow anew. -/
def carryCmd (now : QReg) (x : Cmd) : Cmd :=
  match (now.cmds ++ now.past).find? fun y => y.seq == x.seq && y.shadow == x.shadow with
  | some y => { y with started := x.started, slot := x.slot }
  | none => x
/-- A group restarts from a checkpoint: the commands it shares with the other copy are in the engines still. -/
def backGroup (now : Option Group) (cych : Word) (g : Group) : Group :=
  let qn (k : Nat) : QReg := (now.bind fun x => tget x.qs k).getD {}
  { g with cych := cych, qs := g.qs.map fun q =>
      (q.1, if q.1 < 4 then q.2 else { q.2 with cmds := q.2.cmds.map (carryCmd (qn q.1)), past := (qn q.1).past }) }
/-- A copy restarts from its checkpoint (R439): the set since then, and what it recorded at barriers, is discarded. -/
def restoreCkpt (s : State) (bid : Nat) : State :=
  match tget s.blocks bid with
  | none => s
  | some b => match b.ckpt with
    | none => s
    | some c =>
      let cych := hiWord (cget 0 s.cyc (clockCore s bid b.core))
      let s1 := { s with groups := c.groups.foldl (fun t g => tset t g.1 (backGroup (tget s.groups g.1) cych g.2)) s.groups,
                         areqs := s.areqs.filter fun r => !b.groups.contains r.gid,
                         sweeps := s.sweeps.filter fun w => !(w.gid.any fun k => b.groups.contains k) }
      modBlock (setArr s1 b c.arr) bid fun b =>
        { b with
          spad := c.spad, tile := c.tile, bars := c.bars, rings := c.rings, gdep := c.gdep, epoch := c.epoch, exited := false,
          copies := [], staged := c.staged, sigs := c.sigs, direct := false, divided := false, extra := none, granted := false,
          matched := false, reruns := b.reruns + 1, ticket := none, full := false, asked := [] }

/-- Stamps of the COPYs of a group whose writes are not staged yet: their items will stand there in its stream (R408, R438). -/
def copyGaps (s : State) (b : Block) (gidx : Nat) : List Nat :=
  let gid := b.gid gidx
  (b.copies.filter fun c => (c.slices.head?.map (·.1)) == some gid && c.result.isNone).map (·.time)
    ++ ((tget s.groups gid).map fun g => g.qs.flatMap fun q => if q.1 < 4 then (q.2.cmds.filter fun x => !x.started).map (·.time) else []).getD []
/-- How far a group's stream is complete. -/
def wholeLen (s : State) (b : Block) (gidx : Nat) : Nat :=
  ((groupItems b gidx).takeWhile fun x => (copyGaps s b gidx).all fun t => decide (x.time < t)).length
/-- What two copies have both staged so far, in items of each group. -/
def commonLens (s : State) (b t : Block) : List Nat :=
  (List.range b.groups.length).map fun i => Nat.min (wholeLen s b i) (wholeLen s t i)
/-- A copy has staged all that another has. -/
def caughtUp (s : State) (b t : Block) : Bool :=
  (List.range b.groups.length).all fun i => decide (wholeLen s b i ≤ wholeLen s t i)
/-- An item, or a staged access, lies in the first `lens` items of each group. -/
def inPart (b : Block) (lens : List Nat) (gidx time : Nat) : Bool :=
  ((groupItems b gidx).take (lens.getD gidx 0)).any fun x => x.time == time
/-- The part of the set that both copies have agreed on at an extra release point is released (R437, R439): it takes effect once. A
relaunchable launch keeps its set. The copies that stood there for it go on; one that was parked elsewhere departs at once.
[log 40 DEDUCED, 168 DESIGN CHOICE] -/
def releasePart (s : State) (bid tid : Nat) (b t : Block) (lens : List Nat) (rel forRoom : Bool) : State :=
  let done (x : Block) (y : Staged) : Bool := inPart x lens y.gidx y.itime
  let leave (x0 x : Block) : Block :=
    if rel then x
    else { x with staged := x.staged.filter fun y => !(y.part == 0 && done x0 y), divided := true,
                  sigs := x.sigs.filter fun y => !(y.part == 0 && inPart x0 lens y.gidx y.time) }
  let grant (x : Block) : Block :=
    if x.extra.isSome && (!forRoom || x.full) then { x with granted := true, matched := false, reruns := 0, asked := [] }
    else { x with reruns := 0, ckptDue := x.ckptDue || x.extra.isNone }
  let s1 := if rel then s else drainThose s bid (done b)
  let wake (s : State) (k : Nat) : State := match (tget s.blocks k).bind fun x => if x.granted then x.extra else none with
    | some (gid, eid) => modGroup s gid fun g => modEntry g eid fun e => { e with park := none }
    | none => s
  wake (wake (modBlock (modBlock s1 bid fun x => grant (leave b x)) tid fun x => grant (leave t x)) bid) tid
/-- The entry of a block that asked for a comparison tries again later: the other copy stands at another instruction first. -/
def askLater (s : State) (bid : Nat) : State :=
  match (tget s.blocks bid).bind (·.extra) with
  | none => s
  | some (gid, eid) =>
    modBlock (modGroup s gid fun g => modEntry g eid fun e => { e with park := none }) bid fun b =>
      { b with extra := none, granted := false, asked := [], full := false }

/-- The bytes a block's state takes in the save area (R51): the model's own count, since the spec gives no layout.
[log 28 DESIGN CHOICE] -/
def saveNeed (s : State) (b : Block) : Nat :=
  b.asize + 32768 + (b.groups.filterMap (party? s)).foldl (fun n p =>
    n + 8192 + 64 * (if p.dist then 8 else 4) * popCount (groupLive s p).v 1024) 0
/-- Spilled words already in a launch's save area; each takes 16 bytes there (the model's own count). -/
def spillUsed (s : State) (lid : Nat) : Nat :=
  (s.blocks.filter fun b => ((tget s.gangs b.2.gang).map (·.lid)) == some lid).foldl (fun n b =>
    n + (b.2.staged.filter (·.spilled)).foldl (fun m x => m + 16 * x.words) 0) 0
/-- The bytes the states of a launch's blocks take, and the space left for spilled words after them (R437). -/
def saveNeeds (s : State) (lid : Nat) : Nat :=
  (s.blocks.filter fun b => ((tget s.gangs b.2.gang).map (·.lid)) == some lid).foldl (fun n b => n + saveNeed s b.2) 0
def spillRoom (s : State) (lid : Nat) (l : Launch) : Nat :=
  if l.rec0.savep = 0 then 0 else l.rec0.savelen - saveNeeds s lid - spillUsed s lid
/-- Spill the oldest `n` words or more that are still in the buffer (R437). -/
def spillOldest : Nat → List Staged → List Staged
  | _, [] => []
  | n, x :: r =>
    if n = 0 then x :: r
    else if x.spilled then x :: spillOldest n r
    else { x with spilled := true } :: spillOldest (n - x.words) r

/-- What becomes of accesses a launch stages (R436, R437). -/
inductive StageOut where
  /-- They are staged. -/
  | staged (s : State)
  /-- The block is in direct release: they take effect as they are issued. -/
  | direct (s : State)
  /-- The entry waits: for the ticket, for a comparison, for a page to reopen. -/
  | wait (s : State)
deriving DecidableEq, Repr

/-- The device writes free values over a part of a launch's save area: the spec gives the state of R51 and the words of R437 no layout
there. [log 28 DESIGN CHOICE] -/
def writeSave (s : State) (r : Rec) (off n : Nat) : State :=
  let bs := (List.range n).map fun i => (BitVec.ofNat 8 (Config.freeBits (s.free + i)) : Byte)
  let s := { s with free := s.free + n }
  match writeVirt s 0 r.asid 0 (r.savep.toNat + off) bs with
  | .ok s1 => s1
  | .error _ => s

/-- Park the issuing entry for a comparison: its block stands at an extra release point, with the instruction's items in its
stream (R437-R440). [log 41 DEDUCED, 65 DEDUCED] -/
def askCompare (s : State) (c : Ctx) (items : List SigItem) (full : Bool) : State :=
  let s1 := parkBefore s c.gid c.eid .busy
  if c.p.b.extra = some (c.gid, c.eid) then s1
  else modBlock s1 c.p.g.bid fun b => { b with extra := some (c.gid, c.eid), granted := false, asked := items, full := full }
/-- The issuing entry, and with it its block, parks for the ticket (R37, R338, R436). -/
def askTicket (s : State) (c : Ctx) : State :=
  modBlock (parkBefore s c.gid c.eid .retry) c.p.g.bid fun b => { b with ticket := some (c.gid, c.eid) }

/-- A copy departs the extra release point of an entry: it takes a checkpoint (R439). -/
def departExtra (own : Nat × Nat) (b : Block) : Block :=
  if b.extra = some own then { b with extra := none, granted := false, full := false, asked := [], ckptDue := true } else b

/-- Enter direct release (R436): the set drains through the sieve, once for both copies of a redundant block. In a relaunchable launch
the gang forfeits its relaunch (R437). [log 38 DEDUCED] -/
def enterDirect (s : State) (p : Party) : State :=
  let open_ (b : Block) : Block :=
    { b with
      direct := true, ticket := none, staged := b.staged.filter fun x => x.part != 0, sigs := b.sigs.filter fun x => x.part != 0 }
  let s1 := modBlock (drainSet s p.g.bid) p.g.bid open_
  let s2 := match (if p.l.rec0.red then twinBlock s p.g.bid else none) with
    | some t => modBlock s1 t open_
    | none => s1
  if p.l.rec0.rel ∧ !p.ga.forfeit then
    let gangs := s2.gangs.map fun (g : Nat × Gang) =>
      if g.2.lid = p.ga.lid ∧ g.2.index = p.ga.index then (g.1, { g.2 with forfeit := true }) else g
    modLaunch { s2 with gangs := gangs } p.ga.lid fun l => { l with forfeits := l.forfeits + 1 }
  else s2

/-- Whether a block's set may go into direct release now (R436, R493). -/
def mayDrain (s : State) (p : Party) : Bool :=
  !setClosed s p.g.bid (p.b.staged.filter fun x => x.part == 0) && holdsTicket s p.g.bid

/-- Stage accesses of a block (R338, R432, R436, R437), with the party that issues them and the entry's name `own`; `wait` says how it
waits for the ticket, `ask` how it asks for a comparison of the copies. In direct release a redundant block compares every access, which
is performed once. What a killed gang still stages is discarded (R442). [log 156 DEDUCED] -/
def stageParty (s : State) (p : Party) (own : Nat × Nat) (xs : List Staged) (wait : State) (ask : List SigItem → Bool → State) : StageOut :=
  let r := p.l.rec0
  let xs := xs.map fun (x : Staged) => { x with part := lanePart s p x.lane }
  let n := xs.foldl (fun n x => n + x.words) 0
  let items := xs.flatMap Staged.items
  let agreed := p.b.granted && p.b.extra == some own
  let put (s : State) : State := modBlock (s.bump p.b.core 0x0C n) p.g.bid fun b =>
    departExtra own { b with ticket := if b.ticket = some own then none else b.ticket, staged := b.staged ++ xs, sigs := if r.red then b.sigs ++ items else b.sigs }
  let over_ := coreStaged s p.b.core + n - bufferCap
  if p.ga.st = .killed then .staged s
  else if p.b.direct then if r.red && !agreed then .wait (ask items false) else .direct s
  else if over_ = 0 ∨ (agreed ∧ p.b.full) then .staged (put s)
  else if r.rel ∧ 16 * over_ ≤ spillRoom s p.ga.lid p.l then
    let s1 := modBlock s p.g.bid fun b => { b with staged := spillOldest over_ b.staged }
    let at_ := spillUsed s p.ga.lid
    .staged (put (writeSave s1 r (saveNeeds s p.ga.lid + at_) (spillUsed s1 p.ga.lid - at_)))
  else if r.red && !(r.rel && agreed) then .wait (ask (if r.rel then items else []) (!r.rel))
  else if !mayDrain s p then .wait wait
  else .direct (enterDirect s p)

/-- Stage accesses of one instruction. -/
def stageAll (s : State) (c : Ctx) (xs : List Staged) : StageOut :=
  stageParty s c.p (c.gid, c.eid) xs (askTicket s c) (askCompare s c)

/-- Stage the writes of a copy of the block (R408): it waits without an entry; a comparison, or the ticket, is asked for in the name of no
entry. Of two copies in direct release the first writes. [log 65 DEDUCED] -/
def noEid : Nat := 2 ^ 32
def stageCopy (s : State) (p : Party) (xs : List Staged) : StageOut :=
  let own := (p.gid, noEid)
  let wait := if p.b.ticket.isSome then s else modBlock s p.g.bid fun b => { b with ticket := some own }
  let ask (items : List SigItem) (full : Bool) : State := if p.b.extra.isSome then s
    else modBlock s p.g.bid fun b => { b with extra := some own, granted := false, asked := items, full := full }
  match stageParty s p own xs wait ask with
  | .direct s1 =>
    let s2 := modBlock s1 p.g.bid (departExtra own)
    if p.l.rec0.red && p.ga.copy != 0 then .staged s2 else .direct s2
  | out => out

/-- The items of an instruction that acts through its operands (R438, R440): one word each. [log 42 DEDUCED] -/
def opItems (s : State) (c : Ctx) (op addr lane : Nat) (ws : List Word) : List SigItem :=
  ws.map fun w => ⟨c.p.g.gidx, lane, s.stamp, addr, op, w, 0xF, lanePart s c.p lane⟩

/-- What an access that returns a value, or an instruction of R440, waits for in a staged launch (R338, R437, R440): `ticket`
says it also waits for the ticket in a deterministic launch. [log 41 DEDUCED, 147 DEDUCED] -/
def gateReturn (s : State) (c : Ctx) (items : List SigItem) (ticket : Bool) : StageOut :=
  let r := c.p.l.rec0
  if r.red then if c.p.b.granted ∧ c.p.b.extra = some (c.gid, c.eid) then .direct s else .wait (askCompare s c items false)
  else if !ticket || !r.det || c.p.b.direct then .direct s
  else if !holdsTicket s c.p.g.bid then .wait (askTicket s c)
  else if r.rel then .direct (modBlock s c.p.g.bid fun b => { b with ticket := none })
  else if !mayDrain s c.p then .wait (askTicket s c)
  else .direct (enterDirect s c.p)

/-- The other copy's entry goes on with this one's result (R338, R440): `f` changes its group, and both blocks leave the extra
release point; each copy takes a checkpoint (R439). An irrevocable instruction commits the region there too (R44), at once where `commit` says so; `park` is what
the entry then waits for. -/
def leaveExtraPark (s : State) (c : Ctx) (park : Option Park) (commit : Bool) (f : Group → Group) : State :=
  if !c.p.l.rec0.red then s
  else
    let s1 := modBlock s c.p.g.bid (departExtra (c.gid, c.eid))
    match twinBlock s1 c.p.g.bid with
    | none => s1
    | some t =>
      let gid := ((tget s1.blocks t).map fun b => b.gid c.p.g.gidx).getD 0
      let eid := (((tget s1.blocks t).bind (·.extra)).map (·.2)).getD 0
      modGroup (modBlock s1 t (departExtra (gid, eid))) gid fun g =>
        let g := f g
        let g := if c.e.irr && commit && !g.tm then
            enterRegion g eid (nextPc c.e.pc) ((rgnAt s c (nextPc c.e.pc)).getD c.e.lidp) s.stamp (s.stamp + 1)
          else g
        { g with
          entries := mergeEntries g.still (tmod g.entries eid fun e => { e with pc := nextPc e.pc, irr := c.e.irr, park := park }),
          fence := if park.isSome then some eid else g.fence }
def leaveExtra (s : State) (c : Ctx) (f : Group → Group) : State := leaveExtraPark s c none true f

/-- The other copy of a block stands at an extra release point for room, and the block has staged all that it has (R437). -/
def twinFull (s : State) (bid : Nat) (b : Block) : Bool :=
  ((twinBlock s bid).bind (tget s.blocks)).any fun t => t.full && t.extra.isSome && !t.granted && caughtUp s t b
/-- A block of a redundant launch does not issue while it stands at a release point, one for the other copy's room among them, or till its
checkpoint is taken (R437, R439). -/
def heldForCompare (s : State) (p : Party) : Bool :=
  p.l.rec0.red && ((pointOf s p.g.bid).isSome || p.b.matched || p.b.ckptDue || twinFull s p.g.bid p.b)

end Sys2Proof.Machine
end

