-- ==== Sys2Proof/Machine/Issue.lean ====
section
/-! DEFINITION. Issue: which entry of a group is offered, fetch lines and their parity, and what comes between the choice of
an entry and the execution of its instruction (04_encoding R113-R117, R140-R143, 30_issue R370-R376, R385, 15_traps R294,
R297, R299). -/

namespace Sys2Proof.Machine

/-- Effective priority (R371). -/
def effPrio (e : Entry) : Nat := if 64 ≤ e.age then 255 else Nat.min e.prio 254
/-- The lowest lane of a mask; 64 for none. -/
def lowBit (m : LaneMask) : Nat := (lowLane m).getD 64
/-- a is offered before b (R371). -/
def before (a b : Entry) : Bool :=
  decide (effPrio b < effPrio a)
    || (effPrio a == effPrio b && (decide (b.age < a.age) || (a.age == b.age && decide (lowBit a.mask < lowBit b.mask))))
/-- An entry is eligible (R370): not parked, and in trap mode a handler entry (R283). -/
def eligible (g : Group) (e : Entry) : Bool := e.park.isNone && (!g.tm || e.handler) && g.waitTrap.isNone
/-- The entry a group offers (R371); one that yielded is offered only when no other is eligible (R385); while a FENCE waits no
other entry issues (R340). -/
def offered (g : Group) : Option (Nat × Entry) :=
  let es := g.entries.filter fun x => eligible g x.2 && (g.fence.all fun e => e == x.1)
  let es' := if es.length ≤ 1 then es else es.filter fun x => g.yielded != some x.1
  es'.foldl (fun acc x => match acc with
    | none => some x
    | some y => if before x.2 y.2 then some x else some y) none

/-- One issue opportunity (R373): the entry that issues drops to age 0, every other eligible entry grows older. -/
def ageOthers (g : Group) (eid : Nat) : Group :=
  { g with entries := g.entries.map fun (x : Nat × Entry) =>
             if x.1 = eid then (x.1, { x.2 with age := 0 })
             else if eligible g x.2 then (x.1, { x.2 with age := Nat.min 255 (x.2.age + 1) }) else x,
           lastEid := eid, yielded := if g.yielded = some eid then g.yielded else none }

/-- The instruction of an entry would wait at its switch marker (R375, R376). -/
def atMarker (s : State) (p : Party) (e : Entry) : Bool :=
  markerWaits p.g e.mask && pcLegal e.pc && match fetchLine s p.gid p.l.rec0.asid p.b.core (pcLine e.pc) with
    | .ok l =>
      let w := l.words.getD (pcSlot e.pc) 0
      bitOf w 95 && (match decode w with
        | .ok _ => true
        | .error _ => false)
    | .error _ => false

/-- What stands between an issue attempt and the execution of an instruction. -/
inductive Prep where
  | stay (s : State)
  | run (i : Instr) (s : State)
deriving DecidableEq, Repr

/-- The group halts for its debugger (R294); a STEP in progress ends (R299). [log 77 DEDUCED] -/
def haltGroup (s : State) (gid reason which code : Nat) : State :=
  let s1 := match party? s gid with
    | some p => if p.g.stepping.isSome then
        { s with dbg := (p.l.attached.toList).foldl (fun t q => tmod t q fun d => { d with busy := false }) s.dbg }
      else s
    | none => s
  modGroup s1 gid fun g => { g with halted := true, haltReason := reason, haltWhich := which, haltCode := code, haltReq := false,
                                    stepping := none, brkSkip := false }

/-- A live PC breakpoint at a pc (R297). [log 29 DEDUCED] -/
def breakAt (l : Launch) (pc : DWord) : Option Nat :=
  if l.attached.isNone then none else (l.brks.find? fun b => b.2 == pc).map (·.1)

/-- Name the issuer and let the others age; what that changes is noted, in case the instruction parks before issue (R373). -/
def beginIssue (s : State) (p : Party) (eid : Nat) (w : IWord) : State :=
  let before : Pass := ⟨p.g.entries.map fun e => (e.1, e.2.age), p.g.lastEid, p.g.yielded, s.pmc, s.tally⟩
  let s1 := modGroup { s with cur := some ⟨false, p.gid, eid, w⟩, stamp := s.stamp + 1, pass := some before } p.gid fun g =>
    ageOthers { g with badLine := none, brkSkip := false } eid
  let older := (p.g.entries.filter fun x => x.1 != eid && eligible p.g x.2 && x.2.age == 63).length
  (s1.bump p.b.core 0x02 1).bump p.b.core 0x04 older

/-- A fault of classes 1 to 3 of an entry's issue (R141, R142); nothing issues. -/
def fetchFault (s : State) (p : Party) (eid : Nat) (e : Entry) (code tval : Nat) : State :=
  let m := e.mask &&& ~~~helperMask p.l.rec0 p.g.gidx
  let s1 := modGroup { s with cur := some ⟨false, p.gid, eid, 0⟩, stamp := s.stamp + 1, pass := none } p.gid fun g =>
    { g with badLine := none, brkSkip := false }
  if m = 0 then settleGroup (modGroup s1 p.gid fun g => retire p.l.rec0 g e.mask) p.gid
  else takeTrap s1 p.gid eid { code := code, tval := tval, tmask := m, pc := e.pc }

/-- A line of another device that the entry goes on to, as the last instruction of this one is offered, is asked for as well: an
irrevocable instruction there takes the descriptor of the RGN that follows it (R43, R44, R479). -/
def nextLine (s : State) (p : Party) (e : Entry) : Option FetchErr :=
  if pcSlot e.pc ≠ 4 then none
  else match fetchLine s p.gid p.l.rec0.asid p.b.core (pcLine e.pc + 64) with
    | .error (.asks fa n) => some (.asks fa n)
    | _ => none
/-- Issue the offered entry: fetch its line, check it, decode the word, wait at a switch marker, and hand the instruction over.
The line's faults come in the order of R141. [log 161 DESIGN CHOICE] -/
def issueEntry (s : State) (p : Party) (eid : Nat) (e : Entry) : Prep :=
  let asid := p.l.rec0.asid
  let va := pcLine e.pc
  let r := if p.g.badLine = some va then .error FetchErr.parity else fetchLine s p.gid asid p.b.core va
  let s0 := if p.g.badLine = some va then s else noteFetch s asid p.b.core va r
  if !pcLegal e.pc then .stay (fetchFault s p eid e 0x02 va) else
  match r with
  | .error x => if x.later then .stay (askLine s p.gid x) else .stay (fetchFault (dropFars s0 [0, p.gid]) p eid e 0x02 va)
  | .ok l =>
    match nextLine s p e with
    | some x => .stay (askLine s p.gid x)
    | none =>
    if fieldOf l.lw 15 17 ≠ 0 then .stay (fetchFault s0 p eid e 0x01 l.lw.toNat)
    else
      let w := l.words.getD (pcSlot e.pc) 0
      if tileWord w then .run (.unallocatedOpcode w) (beginIssue s0 p eid w) else
      match decode w with
      | .error _ => .stay (fetchFault s0 p eid e 0x01 w.toNat)
      | .ok i =>
        if bitOf w 95 && markerWaits p.g e.mask then
          .stay ((modGroup s0 p.gid fun g => modEntry g eid fun e => { e with park := some .marker }).bump p.b.core 0x05 1)
        else .run i (beginIssue s0 p eid w)

/-- A checkpoint that is due is taken once no result and no copy of the block is on its way and its sequencer is in no instruction
(R49, R439), nor a sweep of it; descriptors at other devices are asked for first (R51, R479). -/
def ckptStep (s : State) (p : Party) : State :=
  let ps := p.b.groups.filterMap (party? s)
  if !(p.b.copies.isEmpty && p.b.tile.job.isNone && (ps.all fun q => q.g.inflight.all (·.ready))
      && !(s.sweeps.any fun w => w.gid.any fun k => p.b.groups.contains k)) then s
  else if ps.any (descsWait s) then ps.foldl askDescs s
  else
    let s1 := { s with groups := s.groups.map fun (x : Nat × Group) =>
      if p.b.groups.contains x.1 then (x.1, deliverReady p.dist x.2) else x }
    ps.foldl (fun s q => dropFars s [2, q.gid]) (takeCkpt s1 p.g.bid)

/-- The block lets a group issue: a copy of a redundant block that waits for a comparison does not issue, and after one only the entry
that asked for it goes on (R439); a block parked for its ticket waits with the entry that needs it (R37, R436). -/
def blockIssues (s : State) (p : Party) : Bool :=
  !heldForCompare s p && p.b.extra.all (fun x => x.1 == p.gid)
    && p.b.ticket.all fun x => x.2 != noEid && (x.1 == p.gid || (tget s.groups x.1).all (·.done))
/-- A group may issue: it has not exited, its gang is resident, its launch not suspended (a handler runs on, R50, R431), and no
debugger holds it (R294, R299). -/
def groupIssues (p : Party) : Bool :=
  !p.g.done && p.ga.st == .resident && (p.l.st != .suspended || p.g.tm)
    && !(p.g.halted && p.g.stepping.isNone) && (p.g.stepping.isNone || p.g.brkSkip)
/-- The entry a group is ready to issue from (R371, R376): that of a step, that which its block waits for, else the one it offers. -/
def readyEntry (s : State) (p : Party) : Option (Nat × Entry) :=
  if !blockIssues s p || !groupIssues p then none
  else match (p.g.stepping.or (p.b.extra.map (·.2))).or (p.b.ticket.map (·.2)) with
    | some eid => match tget p.g.entries eid with
      | some e => if eligible p.g e then some (eid, e) else none
      | none => if eid = noEid then none else offered p.g
    | none => offered p.g

/-- A group ready in its slot: its effective priority, resident index and span (R376). -/
structure Cand where
  gid : Nat
  prio : Nat
  rgi : Nat
  lofs : Nat
  width : Nat
deriving DecidableEq, Repr
/-- a ranks before b. -/
def Cand.first (a b : Cand) : Bool := decide (b.prio < a.prio) || (a.prio == b.prio && decide (a.rgi < b.rgi))
def Cand.overlaps (a b : Cand) : Bool := decide (a.lofs < b.lofs + b.width) && decide (b.lofs < a.lofs + a.width)
/-- The ready groups of a slot of a core (R376): not one that sits out after a YIELD (R385), nor one whose instruction waits at its switch
marker. [log 31 DESIGN CHOICE] -/
def slotCands (s : State) (core slot : Nat) : List Cand :=
  (s.groups.filter fun g => g.2.slot == slot && !g.2.done).filterMap fun g => match party? s g.1 with
    | none => none
    | some p =>
      if p.b.core ≠ core || p.g.sitOut then none
      else ((readyEntry s p).filter fun x => !atMarker s p x.2).map fun x => ⟨p.gid, effPrio x.2, p.g.rgi, p.g.lofs, p.l.rec0.width⟩
/-- The groups of a slot's issue set (R19, R178, R376), as the slot takes them in rank while their spans are disjoint; pairing and ports
are timing. [log 31 DESIGN CHOICE] -/
def takeCands : Nat → List Cand → List Cand → List Cand
  | 0, _, taken => taken
  | n + 1, cs, taken =>
    match cs.foldl (fun acc c => match acc with
      | none => some c
      | some b => if c.first b then some c else some b) (none : Option Cand) with
    | none => taken
    | some c => takeCands n (cs.filter fun x => x.gid != c.gid) (if taken.any c.overlaps then taken else taken ++ [c])
def issueSet (s : State) (core slot : Nat) : List Nat :=
  let cs := slotCands s core slot
  (takeCands cs.length cs []).map (·.gid)
/-- A ready group loses its turn to one that ranks before it: its offered entry grows older (R178, R373, R376). -/
def lose (s : State) (core gid eid : Nat) (e : Entry) : State :=
  let s1 := modGroup s gid fun g => modEntry g eid fun e => { e with age := Nat.min 255 (e.age + 1) }
  if e.age = 63 then s1.bump core 0x04 1 else s1

/-- Barrier departures that came while the group was halted take place as it resumes (R294). -/
def departDue (s : State) (p : Party) : Option State :=
  (p.g.entries.findSome? fun e => match e.2.park with
    | some (.barrier lv n i _) => if i ≠ (scopeBar s lv (p.scope lv) n).inst then some (lv, n, i) else none
    | _ => none).map fun x => departDrop (modGroup s p.gid fun g => departEntries g x.1 x.2.1 x.2.2) p x.1 x.2.1

/-- A group that yielded does not issue at its next opportunity, which passes it over (R373, R385). -/
def passOver (s : State) (p : Party) : State :=
  let s1 := modGroup s p.gid fun g => { g with sitOut := false }
  match readyEntry s p with
  | some (eid, e) => if atMarker s p e then s1 else lose s1 p.b.core p.gid eid e
  | none => s1
/-- One issue attempt of a group: a due checkpoint and due departures first (R294, R439), then a halt (R294, R297); a group outside its
slot's issue set loses (R376); a step issues one instruction (R299); else the ready entry issues. -/
def prepareGroup (s : State) (gid : Nat) : Prep :=
  match party? s gid with
  | none => .stay s
  | some p =>
    if p.l.rec0.red && p.b.ckptDue then .stay (ckptStep s p)
    else if p.g.sitOut then .stay (passOver s p)
    else if !blockIssues s p || !groupIssues p then .stay s
    else match departDue s p with
      | some s1 => .stay s1
      | none =>
        if p.g.haltReq && p.l.attached.isSome then .stay (haltGroup s gid 1 0 0)
        else match readyEntry s p with
          | none => .stay s
          | some (eid, e) =>
            if !atMarker s p e && !(issueSet s p.b.core p.g.slot).contains gid then .stay (lose s p.b.core gid eid e)
            else match breakAt p.l e.pc with
              | some n => if p.g.brkSkip then issueEntry s p eid e else .stay (haltGroup s gid 3 n 0)
              | none => issueEntry s p eid e

end Sys2Proof.Machine
end

