-- ==== Sys2Proof/Machine/Control.lean ====
section
/-! DEFINITION. Control flow: branches, the rejoin stack, EXIT, RGN, NOP and YIELD (30_issue R377-R386, 04_encoding R118, 01_work
R13, R40, R41, 15_traps R279, R284). -/

namespace Sys2Proof.Machine

open Sys2Proof

/-- The target of a label field (R133): LOFF lines from this one, slot TSLOT. [log 54 DEDUCED] -/
def jTarget (o : JOp) (pc : DWord) : DWord := (pc &&& ~~~(63 : DWord)) + o.loff.signExtend 64 * 64 + BitVec.ofNat 64 o.tslot

/-- The check of a transfer (R118): FLT_TARGET for an illegal or unmarked target, FLT_FETCH when its line cannot be read.
[log 50 DEDUCED] -/
def targetFault (s : State) (c : Ctx) (pc : DWord) : Option Trap :=
  let unmarked : Trap := { code := 0x03, tval := pc.toNat, pc := c.e.pc }
  if !pcLegal pc then some unmarked
  else match fetchLine s c.gid c.p.l.rec0.asid c.core (pcLine pc) with
    | .error _ => some { code := 0x02, tval := pcLine pc, pc := c.e.pc }
    | .ok l => if lineTgt l (pcSlot pc) then none else some unmarked
/-- Reading the target line: a parity failure is counted, a translation failure is not (R118). [log 54 DEDUCED] -/
def noteTarget (c : Ctx) (s : State) (pc : DWord) : State :=
  if !pcLegal pc then s
  else match fetchLine s c.gid c.p.l.rec0.asid c.core (pcLine pc) with
    | .error .xlat => s
    | r => noteFetch s c.p.l.rec0.asid c.core (pcLine pc) r
/-- A target's line is still to come: from another device, or its page is closed by a move (R479, R493). The entry is tried again. -/
def targetWaits (s : State) (c : Ctx) (pcs : List DWord) : Option State :=
  match pcs.filterMap fun pc => match (if pcLegal pc then fetchLine s c.gid c.p.l.rec0.asid c.core (pcLine pc) else .error .xlat) with
    | .error x => if x.later then some x else none
    | .ok _ => none with
  | [] => none
  | xs => some (xs.foldl (fun s x => askLine s c.gid x) (parkBefore s c.gid c.eid .retry))

/-- Lanes of the entry move to targets, each with the new priority; the others go on to the next instruction; the parts keep the
region and the counted-arrival flag, and merge where they can (R372, R378). -/
def moveLanes (g : Group) (eid : Nat) (prio : Nat) (ms : List (DWord × LaneMask)) : Group :=
  match tget g.entries eid with
  | none => g
  | some e =>
    let ms := ms.filter fun m => m.2 != 0
    let moved := ms.foldl (fun a m => a ||| m.2) (0 : LaneMask)
    let part (m : DWord × LaneMask) : Entry := { e with pc := m.1, mask := m.2, prio := prio, age := 0, irr := false }
    let stay : Entry := { e with pc := nextPc e.pc, mask := e.mask &&& ~~~moved, irr := false }
    let out := (if stay.mask = 0 then [] else [stay]) ++ ms.map part
    let ids := eid :: (List.range ms.length).map fun i => freshEid g + i
    { g with entries := mergeEntries g.tm ((out.zip ids).foldl (fun t x => tset t x.2 x.1) (tdel g.entries eid)),
             nextEid := freshEid g + ms.length }

/-- A branch with one target for all its lanes: the target is checked whatever the guards (R118, R378); helper lanes alone fall
through. `taken` are the lanes that go, and `f` acts on the group before they move. -/
def runBranch (o : JOp) (t : Touch) (taken : Ctx → LaneMask) (f : Ctx → Group → Group) (s : State) :
    Host.Outcome State Fault Refusal :=
  runGroup s o.hd t fun c =>
    let pc := jTarget o c.e.pc
    match targetWaits s c [pc] with
    | some s1 => .done s1
    | none =>
    let s1 := noteTarget c s pc
    match targetFault s c pc with
    | some x =>
      if c.lanes = 0 then .done (c.advance s1 false id) else .done (takeTrap s1 c.gid c.eid { x with tmask := c.real o.hd })
    | none => .done (modGroup s1 c.gid fun g => moveLanes (f c g) c.eid o.prio [(pc, taken c)])

/-- The lanes BRA takes under its KIND (R379). [log 173 DESIGN CHOICE] -/
def braTaken (o : JOp) (c : Ctx) : LaneMask :=
  match o.kind with
  | .perLane => c.active o.hd
  | .any => if c.real o.hd = 0 then 0 else c.e.mask
  | .all => if c.real o.hd = c.lanes then c.e.mask else 0

/-- BRA (R379). [log 50 DEDUCED, 173 DESIGN CHOICE] -/
def execBra (o : JOp) (s : State) : Host.Outcome State Fault Refusal := runBranch o {} (braTaken o) (fun _ g => g) s
/-- CALL (R380): the link is a point, written in every lane that goes. -/
def execCall (o : JOp) (s : State) : Host.Outcome State Fault Refusal :=
  runBranch o { vw := [o.d, o.d + 1] } (fun c => c.active o.hd) (fun c g =>
    (lanesOf (c.active o.hd)).foldl (fun g l => g.putAll c.p.dist ((Opnd.pair o.d).dests l (nextPc c.e.pc).toNat 0)) g) s

/-- A jump to each lane's own target (R378, R380): a poisoned target is consumed, and every target of a lane that is no helper lane
is checked; a helper lane whose target is poisoned or fails falls through. [log 162 DESIGN CHOICE] -/
def runJump (o : JOp) (s : State) : Host.Outcome State Fault Refusal :=
  runGroup s o.hd { vr := [o.d, o.d + 1] } fun c =>
    let src := Opnd.pair o.d
    let dst (l : Nat) : DWord := c.p.g.rdV2 o.d l
    let real := lanesOf (c.real o.hd)
    match c.consume (real.filterMap fun l => (src.poison c.p.g l).map fun i => (l, i)) with
    | some r => r
    | none =>
      let ls := (lanesOf (c.active o.hd)).filter fun l => (src.poison c.p.g l).isNone
      match targetWaits s c ((ls.map dst).eraseDups) with
      | some s1 => .done s1
      | none =>
      let s1 := ((ls.map dst).eraseDups).foldl (noteTarget c) s
      let bad := real.filterMap fun l => (targetFault s c (dst l)).map fun t => (l, t)
      match bad with
      | (_, t) :: _ =>
        .done (takeTrap s1 c.gid c.eid { t with tmask := maskOf ((bad.filter fun x => x.2.code == t.code).map (·.1)) })
      | [] =>
        let go := ls.filter fun l => (targetFault s c (dst l)).isNone
        let ms := ((go.map dst).eraseDups).map fun pc => (pc, maskOf (go.filter fun l => dst l == pc))
        .done (modGroup s1 c.gid fun g => moveLanes g c.eid o.prio ms)
/-- BRX (R380). -/
def execBrx (o : JOp) (s : State) : Host.Outcome State Fault Refusal := runJump o s
/-- RET (R380): BRX under another opcode. -/
def execRet (o : JOp) (s : State) : Host.Outcome State Fault Refusal := runJump o s

/-- MJOIN (R381): a record of the entry's lanes goes onto the rejoin stack; helper lanes alone push nothing. [log 51 DEDUCED] -/
def execMjoin (o : JOp) (s : State) : Host.Outcome State Fault Refusal :=
  runGroup s o.hd {} fun c =>
    let pc := jTarget o c.e.pc
    if c.lanes = 0 then .done (c.advance s false id)
    else if c.p.g.tm then c.privilege c.lanes
    else if 32 ≤ c.p.g.rejoin.length then .trap (c.wordTrap 0x10 c.lanes)
    else match targetWaits s c [pc] with
    | some s1 => .done s1
    | none =>
      let s1 := noteTarget c s pc
      match targetFault s c pc with
      | some t => .done (takeTrap s1 c.gid c.eid { t with tmask := c.lanes })
      | none => .done (c.advance s1 false fun g => { g with rejoin := ⟨pc, c.e.mask, o.prio⟩ :: g.rejoin })

/-- JOIN (R382): the entry parks until the top record is covered; anything but its own record is FLT_DIVERGE. -/
def execJoin (o : JOp) (s : State) : Host.Outcome State Fault Refusal :=
  runGroup s o.hd {} fun c =>
    let mine := match c.p.g.rejoin with
      | [] => false
      | t :: _ => t.pc == c.e.pc && (c.e.mask &&& ~~~t.mask) == 0
    if c.p.g.tm then if c.lanes = 0 then .done (c.advance s false id) else c.privilege c.lanes
    else if !mine then if c.lanes = 0 then .done (c.advance s false id) else .trap (c.wordTrap 0x10 c.lanes)
    else .done (modGroup s c.gid fun g =>
      let g1 := modEntry g c.eid fun e => { e with park := some .join, irr := false }
      joinRelease 33 { g1 with entries := mergeEntries g1.tm g1.entries })

/-- The value FLT_GUARD reports (R279). -/
def guardTval (r : GuardRep) : Nat :=
  r.offset + ((if r.more then 2 ^ 31 else 0) + (if r.wr then 2 ^ 30 else 0) + r.core % 256 * 32 + r.bank % 32) * 2 ^ 32
/-- A pending guard report is taken as FLT_GUARD, which clears it (R279). -/
def takeGuard (s : State) (c : Ctx) (r : GuardRep) : State :=
  takeTrap (modGroup s c.gid fun g => { g with guardRep := none }) c.gid c.eid
    { code := 0x12, tval := guardTval r, tmask := r.lanes, impr := true, pc := c.e.pc }

/-- EXIT (R383): its active lanes retire, helper lanes with them (R13). The EXIT of the last live lanes first takes a pending guard
report (R279). [log 55 DEDUCED] -/
def execExit (o : JOp) (s : State) : Host.Outcome State Fault Refusal :=
  runGroup s o.hd {} fun c =>
    let m := c.active o.hd
    if c.p.g.tm then if c.real o.hd = 0 then .done (c.advance s false id) else c.privilege (c.real o.hd)
    else
      let out (g : Group) : Group := retire c.p.l.rec0 (modEntry g c.eid fun e => { e with pc := nextPc e.pc, irr := false }) m
      match c.p.g.guardRep with
      | some r =>
        if m ≠ 0 ∧ liveLanes (out c.p.g) = 0 then .done (takeGuard s c r)
        else .done (settleGroup (modGroup s c.gid out) c.gid)
      | none => .done (settleGroup (modGroup s c.gid out) c.gid)

/-- How a live-in descriptor is read (R384): its bytes, a fault, an uncorrectable line, or not yet. -/
inductive DescRead where
  | ok (bs : List Byte) (s : State)
  | bad (t : Trap) (s : State)
  | lost
  | waits
deriving DecidableEq, Repr

/-- Read a descriptor as constant-space loads do, through L1 (R312, R327, R384); of a page of another device by a fabric access (R479).
A failed walk over an uncorrectable entry is counted (R472). [log 52 DEDUCED, 153 DESIGN CHOICE] -/
def readDesc (s : State) (c : Ctx) (va : Nat) : DescRead :=
  let asid := c.p.l.rec0.asid
  let die := coreDie s c.core
  (linePieces va 168).foldl (fun acc q => match acc with
    | .ok bs s =>
      let fail (s : State) (code tval : Nat) : DescRead := .bad { code := code, tval := tval, tmask := c.lanes, pc := c.e.pc } s
      if 2 ^ 56 ≤ q.1 then fail s 0x0C va else
      match translate s asid c.core die none q.1 .read with
      | .error .placement =>
        let w : Word := match findLeaf s asid c.core die none q.1 with
          | .ok l => l.plw
          | .error _ => 0
        fail s 0x0B (va + w.toNat * 2 ^ 64)
      | .error e => fail (walkErr s asid c.core die none q.1) 0x0A (va + e.kind * 2 ^ 64)
      | .ok (_, .remote d a k) => match land s (.line (.remote d a k) (q.1 % 128), some (fabAddr d (a + q.1 % 128))) .read with
        | .here t => if tgtClosed s t then .waits else if tgtBad s t q.2 then .lost else .ok (bs ++ readTgt s t q.2) s
        | .there fa _ => match farBytes s [1, c.gid] fa q.2 with
          | .ok x => .ok (bs ++ x) s
          | .error (.fails 4) => .lost
          | .error (.fails k) => fail s 0x0A (va + k * 2 ^ 64)
          | .error _ => .waits
        | .fails k => if k = 4 then .lost else fail s 0x0A (va + k * 2 ^ 64)
      | .ok (l, loc) =>
        let held := l1Copy s c.core c.gid asid (q.1 / 128) loc
        if held.isNone && tgtClosed s (.line loc 0) then .waits
        else if (match held with
          | some x => x.badAt (q.1 % 128) q.2
          | none => lineBad s loc) then .lost
        else
          let s0 := cacheLeaf (noteWalk s asid c.core die none q.1) asid c.core die q.1 l
          let (line, s1) := readL1 s0 c.core c.gid asid q.1 l.cls loc
          .ok (bs ++ (line.drop (q.1 % 128)).take q.2) s1
    | x => x) (.ok [] s)

/-- RGN (R40, R41, R384): the entry enters a region. In trap mode it does nothing; a fault of helper lanes alone retires them.
[log 52 DEDUCED] -/
def execRgn (o : IOp) (s : State) : Host.Outcome State Fault Refusal :=
  runGroup s o.hd { rgn := true } fun c =>
    let va := c.p.l.rec0.cseg.toNat + o.imm.toNat
    let fail (s : State) (t : Trap) : Res := .done (if c.lanes = 0 then retireEntry s c else takeTrap s c.gid c.eid t)
    if c.p.g.tm then .done (c.advance s false id)
    else if c.p.l.rec0.cseglen < o.imm.toNat + 168 then fail s { code := 0x0C, tval := va, tmask := c.lanes, pc := c.e.pc }
    else match readDesc s c va with
      | .waits => .done (askVirt (parkBefore s c.gid c.eid .retry) [1, c.gid] c.p.l.rec0.asid (coreDie s c.core) va 168)
      | .bad t s1 => fail (dropFars s1 [1, c.gid]) t
      | .lost => .contain
      | .ok bs s0 =>
        let s1 := dropFars s0 [1, c.gid]
        if !Live.ok bs c.p.l.rec0.regs then fail s (c.wordTrap 0x05 c.lanes)
        else .done (c.advance s1 false fun g => enterRegion g c.eid c.e.pc (BitVec.ofNat 64 va) s.stamp s.stamp)

/-- NOP (R385). -/
def execNop (o : JOp) (s : State) : Host.Outcome State Fault Refusal := runGroup s o.hd {} fun c => .done (c.advance s false id)
/-- YIELD (R385): the entry stands back until another one of its group issues, and the group does not issue in the next cycle. -/
def execYieldHint (o : JOp) (s : State) : Host.Outcome State Fault Refusal :=
  runGroup s o.hd {} fun c => .done (c.advance s false fun g => { g with yielded := some c.eid, sitOut := true })

end Sys2Proof.Machine
end

