-- ==== Sys2Proof/Machine/BarWait.lean ====
section
/-! DEFINITION. BAR and WAIT, the counting of arrivals and the completion of instances (50_counters R526-R535, 01_work R36,
13_tile R249, R250, 15_traps R280). -/

namespace Sys2Proof.Machine

open Sys2Proof

/-- The tile fault a BAR takes at a barrier of TBARM while the sequencer is halted (R249); for the group that held the poison of
one, FLT_PAGE (R250). [log 95 DEDUCED] -/
def tileTrap (c : Ctx) (f : TileFault) : Trap :=
  if f.code = 0xB ∧ f.pgid = c.gid then
    let addr := match tget c.p.g.prq f.rec0 with
      | some r => r.addr
      | none => 0
    { code := 0x09, tval := addr, tmask := c.lanes, prqi := f.rec0, pc := c.e.pc }
  else { code := 0x11, tval := f.word.toNat + tileWord3 c.p.l.rec0 f * 2 ^ 96, tmask := c.lanes, pc := c.e.pc }

/-- The faults of one BAR beyond those of R141, in their order (R36, R280, R284, R534); helper lanes alone raise none.
[log 95 DEDUCED] -/
def barFault (o : BOp) (s : State) (c : Ctx) : Option Res :=
  if c.lanes = 0 then if c.p.g.tm then some (.done (c.advance s false id)) else none
  else if c.p.g.tm then some (c.privilege c.lanes)
  else if o.level = .grid ∧ c.p.l.rec0.prog ≠ .concurrent then some (.trap (c.wordTrap 0x0F c.lanes))
  else match (if o.act = .wait then none else c.p.g.guardRep) with
    | some r => some (.done (takeGuard s c r))
    | none =>
      if o.level = .blk ∧ c.p.l.rec0.tbarm.testBit o.barn then c.p.b.tile.fault.map fun f => .trap (tileTrap c f) else none

/-- BAR (R534): its lanes are recorded as arrived, unless they stand at an incomplete instance and wait for it first; a wait is for
the latest instance that recorded one of them. -/
def execBar (o : BOp) (s : State) : Host.Outcome State Fault Refusal :=
  runGroup s o.hd { irr := o.act ≠ .wait } fun c =>
    match barFault o s c with
    | some r => r
    | none =>
      let scope := c.p.scope o.level
      let bar := scopeBar s o.level scope o.barn
      let i := bar.latest c.gid c.e.mask
      let s1 := setBar s o.level scope o.barn (bar.record c.gid c.e.mask)
      match o.act with
      | .wait =>
        if i = 0 then .done (c.advance s false id)
        else if i = bar.inst + 1 then
          .done (modGroup s c.gid fun g => modEntry g c.eid fun e => { e with park := some (.barrier o.level o.barn bar.inst false) })
        else .done (c.advance (departDrop s c.p o.level o.barn) false fun g => modEntry g c.eid fun e => { e with counted := false })
      | .arv =>
        if i = bar.inst + 1 then .park (.barrier o.level o.barn bar.inst true)
        else
          let s2 := if i = 0 then s1 else departDrop s1 c.p o.level o.barn
          .done (c.advance s2 true (c.commitRegion s2))
      | .sync =>
        if i = bar.inst + 1 then .park (.barrier o.level o.barn bar.inst true)
        else .done (modGroup s1 c.gid fun g => modEntry (c.commitRegion s1 g) c.eid fun e =>
          { e with park := some (.barrier o.level o.barn bar.inst false), counted := true, irr := true })

/-- WAIT (R535): the entry parks before issue until the counter has come down to the threshold. -/
def execWait (o : BOp) (s : State) : Host.Outcome State Fault Refusal :=
  runGroup s o.hd {} fun c =>
    if o.thr < cget 0 c.p.g.oc o.ocn then .park .retry else .done (c.advance s false id)

/-- The blocks that make up the member of a party at a gang or grid barrier: of a redundant launch at GRID, both copies (R439). -/
def memberBlocks (s : State) (p : Party) (lv : Level) : List (Nat × Block) :=
  if lv = .grid then (blocksAt s p.ga.lid p.b.index).filter fun b => !blockGone s b.2 else [(p.g.bid, p.b)]
/-- The members a group's party can now be counted as (R528). -/
def countable (s : State) (p : Party) (lv : Level) (n : Nat) : List Nat :=
  let bar := scopeBar s lv (p.scope lv) n
  let bs := memberBlocks s p lv
  let ready := bs.all fun b => blockReady s lv n bar b.2 && (b.2.released || !needsRelease p.l.rec0 lv)
  let ms := match lv with
    | .grp =>
      if p.g.done || writesPending s lv n p.gid p.g then [] else (lanesOf (liveLanes p.g)).filter fun l => bar.lane p.gid l == bar.inst + 1
    | .blk => if groupReady s lv n bar p.gid p.g then [p.g.gidx] else []
    | .gang => if p.b.exited || !ready then [] else [p.ga.blocks.idxOf p.g.bid]
    | .grid => if p.b.exited || !ready then [] else [p.b.index]
  ms.filter fun m => !bar.arrived.contains m

/-- GROUP_ARRIVAL_COUNT (R528): an arrival whose conditions are met is counted; a block's release point ends with it (R362). -/
def execGroupArrivalCount (gid : Nat) (level : Level) (barn : Nat) (s : State) : Host.Outcome State Fault Refusal :=
  match party? s gid with
  | none => .fault .notEnabled
  | some p =>
    match countable s p level barn with
    | [] => .fault .notEnabled
    | ms =>
      let scope := p.scope level
      let bar := scopeBar s level scope barn
      let s1 := setBar s level scope barn { bar with arrived := bar.arrived ++ ms }
      .next (if needsRelease p.l.rec0 level then
          (memberBlocks s p level).foldl (fun s b => modBlock s b.1 fun x => { x with released := false }) s1
        else s1)

/-- BARRIER_INSTANCE_COMPLETE (R527): every member has arrived or exited. -/
def execBarrierInstanceComplete (level : Level) (scope barn : Nat) (s : State) : Host.Outcome State Fault Refusal :=
  if barn < level.count ∧ instanceDone s level scope barn then .next (completeInstance s level scope barn) else .fault .notEnabled

end Sys2Proof.Machine
end

