-- ==== Sys2Proof/Machine/Place.lean ====
section
/-! DEFINITION. Placing a loaded launch of one group with one word of code (the model's stand-in for host software that writes
page tables, code and a launch record), and the start values of groups and blocks. -/

namespace Sys2Proof.Machine

/-- The sequencer of a block at its start (R235, R275). -/
def Tile.start (r : Rec) : Tile :=
  { pc := r.tstr &&& ~~~0x3F, t := [], tst := if r.tstr = 0 then 0 else 1, slots := [], badSlots := [], kinds := 0, nbud := 0x00FFFFFF, nctl := 0, nbnd := 0,
    nmon := 0, nrep := 0, nout := 0, ended := r.tstr = 0, fault := none, badLine := none, job := none, barWait := none }

/-- A group at its start (R155, R156, R158, R369). [log 2 DESIGN CHOICE] -/
def Group.start (r : Rec) (bid gidx slot lofs : Nat) : Group :=
  let e : Entry := { pc := r.kaddr, prio := 0, mask := startMask r gidx, rstart := r.kaddr, lidp := 0, snapStack := [],
                     snapTime := 0, irr := true, counted := false, age := 0, park := none, handler := false }
  { bid := bid, gidx := gidx, slot := slot, lofs := lofs, entries := [(0, e)], nextEid := 1, lastEid := 0,
    v := [], vp := [], side := [], p := [], pp := [],
    k := (r.args.zipIdx.filter fun x => x.1 != 0).map fun x => (x.2, x.1),
    oc := [], ocDone := [], ocIssued := [],
    fpcr := (List.range 64).map fun l => (l, r.fpcr),
    fpsr := [], drc := [], src := [], sri := [], snapDrc := [], snapSrc := [], snapSri := [], rtime := [], rejoin := [], exited := 0,
    tcause := 0, tpc := 0, tval := 0, tmask := 0, tm := false, retained := none, waitTrap := none, prq := [],
    guardRep := none, cych := 0, bars := [], qs := [], inflight := [], lastPage := [], yielded := none, fence := none, badLine := none,
    halted := false, haltReason := 0, haltWhich := 0, haltCode := 0, haltReq := false, stepping := none, brkSkip := false,
    done := false }

/-- A block at its start (R301, R311, R397, R433, R526). [log 2 DESIGN CHOICE] -/
def Block.start (r : Rec) (gang index core base : Nat) (groups : List Nat) : Block :=
  { gang := gang, index := index, core := core, groups := groups, base := base,
    asize := if r.scratch = 0 then 0 else 256 * ceilDiv r.scratch 256,
    spad := [], badWords := [], tile := Tile.start r, bars := [], rings := [], copies := [], exited := false, gdep := 0, epoch := 0,
    staged := [], sigs := [], direct := false, divided := false, extra := none, granted := false,
    matched := false, released := false, reruns := 0, ckpt := none, ckptDue := false }

/-- The launch record of a placed word: one 64-lane group in point mode, every register allocated. -/
def placeRec (va : Nat) (tile : Bool) : Rec :=
  { kaddr := BitVec.ofNat 64 va, cseg := BitVec.ofNat 64 va, cseglen := 65536, gx := 1, gy := 1, gz := 1, dbgen := true,
    rel := false, red := false, det := false, prog := .concurrent, mode := .point, gang := 1, lanes := 64, groups := 1, width := 64,
    sys := true, ringn := 32, tslotn := 8, regs := 1024, scratch := 65536, fpcr := 1, tbarm := 0xFFFF, trsn := 1023, trsb := 0,
    tstr := if tile then BitVec.ofNat 64 va else 0, thnd := BitVec.ofNat 64 va, stream := 0, bindp := 0, bindn := 0, asid := 0,
    ser := false, reln := 0, deps := [], savep := 0, savelen := 0, cpla := 0, handle := 0, args := [] }

/-- The parity-correct line that holds a word in slot 0 (R113, R115), every slot a legal target. -/
def placeLine (w : IWord) : List Byte :=
  let par := if popCount w.toNat 96 % 2 = 1 then 0x200 else 0
  let lw := 0x1F + par
  let lw := if popCount lw 32 % 2 = 1 then lw + 0x4000 else lw
  wordBytes w ++ List.replicate 48 0 ++ bytesOf lw 4

/-- The page tables of context 0 for one 1 GiB page at VA 0, on stack 0, channel 0 (R469-R476): storage of the page starts at
0x100000. -/
def placeTables (s : State) : State :=
  let s1 := s.wrMem 0x1000 (bytesOf (0x2000 + 1) 16)
  let s2 := s1.wrMem 0x2000 (bytesOf (0x4000 + 1) 16)
  let s3 := s2.wrMem 0x4000 (bytesOf (0x10003F + 0x40040280 * 2 ^ 64) 16)
  (s3.wrReg (rCTXROOTL 0) 0x1000).wrReg (rCTXCFG 0) 0x80000000

/-- Load one word as the next thing to issue. [log 6 DESIGN CHOICE] -/
def placeWord (s : State) (w : IWord) : State :=
  let n := s.nextId
  let va := 0x40000
  let r := placeRec va (tileWord w)
  let s1 := (placeTables s).wrMem (0x100000 + va) (placeLine w)
  let g := { Group.start r (n + 2) 0 0 0 with entries := (Group.start r (n + 2) 0 0 0).entries.map fun e => (e.1, { e.2 with irr := false }) }
  let l : Launch := { queue := 0, seq := 0, prio := 0, rec0 := r, st := .running, binds := [], place := [], relaunched := [],
                      bars := [], kills := 0, relaunches := 0, sigt := 0, ovf := 0, first := none, tilef := 0, forfeits := 0,
                      gkills := 0, status := 0, seenCores := [0], attached := none, brks := [], watches := [] }
  let ga : Gang := { lid := n, index := 0, copy := 0, st := .resident, pen := 0, blocks := [n + 2], bars := [], relaunches := 0,
                     forfeit := false }
  { s1 with nextId := n + 4, running := true, stage := 4, backed := true, coreTlb := [], dieTlb := [],
            launches := tset s1.launches n l, gangs := tset s1.gangs (n + 1) ga,
            blocks := tset s1.blocks (n + 2) (Block.start r (n + 1) 0 0 256 [n + 3]), groups := tset s1.groups (n + 3) g,
            agenda := [if tileWord w then .tile (n + 2) else .issue (n + 3)] }

/-- The rows of the table that are events (of the outside world, of an engine, or of the machine on its own). -/
def isEvent : Instr → Bool
  | .matrixWritePoint .. | .tmmanPassEnd .. | .lineFetch .. | .variableLatencyReturn .. | .switchMarkerRelease ..
  | .splitDivision .. | .splitLateWake .. | .atomicTakeEffect .. | .trapEntry .. | .groupArrivalCount ..
  | .barrierInstanceComplete .. | .copyStart .. | .copyComplete .. | .engineCommandStart .. | .engineCompletion ..
  | .drain .. | .cset .. | .bready .. | .cfree .. | .uconf .. | .uinit .. | .ucommit .. | .uclean .. | .ufree ..
  | .resetRelease | .stageComplete .. | .planTimeout | .joinStart | .planrdy | .planinStore ..
  | .planoutRemove .. | .ageingReplan .. | .throttleBubble | .atgo .. | .attestationDone | .atnonceWrite ..
  | .lidRead .. | .lidWrite .. | .launchTake .. | .launchAdmit .. | .gangPlace .. | .gangSetAside .. | .gangRestore ..
  | .suspend | .resume | .cancel | .launchComplete .. | .stagedSetRelease .. | .signatureCompare ..
  | .gangContainment .. | .dieFence .. | .trapQueueRemove .. | .trapQueueReply .. | .attach .. | .detach ..
  | .select .. | .halt .. | .debugResume .. | .step .. | .stepDone .. | .rdreg .. | .wrreg .. | .setbrk ..
  | .setwatch .. | .mailboxDataRead .. | .eccWriteback .. | .l2Fill .. | .hostAccess .. | .hswpcmd ..
  | .sweepComplete .. | .mcmdgo .. | .migrationCopyDone .. | .accessResend .. | .fwcfgWrite .. | .fwDisableDone ..
  | .poolDisable .. | .ttcommit .. | .cgtdataWrite .. | .uemodeWrite .. | .flitArrival .. | .flitReorderDeliver ..
  | .fabricAck .. | .retransmitTimeout .. | .fabricIncomingAccess .. | .errCounterRead .. | .fwclampRead ..
  | .fbdropRead .. | .registerWrite .. | .deviceReset | .arithmeticClock | .portClock .. | .linkRetry ..
  | .mailboxErrRead .. | .wordPairLatchRead .. | .undefinedDebugCommand ..
  | .undefinedLaunchCommand .. => true
  | _ => false

end Sys2Proof.Machine
end

