-- ==== Sys2Proof/Machine/Ports.lean ====
section
/-! DEFINITION. The host ports: which of them serve what, and ties between them (32_launch R445, 60_device R555, R557). -/

namespace Sys2Proof.Machine

open Sys2Proof

/-- What a port serves: everything; nothing once its die is fenced or the firmware's signature failed. -/
def portServes (s : State) (p : Nat) : Bool := !s.fenced.contains p && !s.fwBad
/-- The trap queue and the debug mailbox, which a fenced die's port serves too (R445). -/
def portTalks (s : State) (_ : Nat) : Bool := !s.fwBad
/-- The lids, served always (R445, R555). -/
def portLids (_ : State) (_ : Nat) : Bool := true
/-- Attestation and the launch queues, served without good firmware too: every launch is then refused (R555). -/
def portAttests (s : State) (p : Nat) : Bool := !s.fenced.contains p

/-- The ports of an event in the order they are applied: of two, the one that lost the previous tie goes last (R557).
[log 125 DEDUCED] -/
def tieOrder (lost1 : Bool) : Ports → List Nat
  | .p0 => [0]
  | .p1 => [1]
  | .both => if lost1 then [0, 1] else [1, 0]
/-- The port of an event that comes from one. [log 125 DEDUCED] -/
def firstPort : Ports → Nat
  | .p1 => 1
  | _ => 0

/-- The value of a port, of the two that come in one clock (R557). -/
def portVal {α : Type} (p : Nat) (v0 v1 : α) : α := if p = 0 then v0 else v1
/-- The word of a port. -/
def portWord (p : Nat) (vals : PortWords) : Word := portVal p vals.p0 vals.p1
/-- A write by one port, whichever serves it (R445); with none nothing changes. -/
def onSome (s : State) (serves : State → Nat → Bool) (f : State → State) : Host.Outcome State Fault Refusal :=
  if !s.running then .fault .notEnabled else .next (if serves s 0 || serves s 1 then f s else s)
/-- A write of one register through one port or both (R557): a port that does not serve it changes nothing; two that do have a tie. The
device is out of reset. -/
def onWrite (s : State) (ps : Ports) (serves : State → Nat → Bool) (f : Nat → State → State) : Host.Outcome State Fault Refusal :=
  if !s.running then .fault .notEnabled
  else
    let s1 := (tieOrder s.tieReg ps).foldl (fun s p => if serves s p then f p s else s) s
    .next (if ps = .both ∧ serves s 0 = true ∧ serves s 1 = true then { s1 with tieReg := !s1.tieReg } else s1)
/-- A write of START_CTL (R555, R561): JOIN is ignored before stage C, PLANRDY after stage A. -/
def startCtl (s : State) (v : Word) : State :=
  { s with planRdy := s.planRdy || (bitOf v 1 && s.stage == 0), joinReq := s.joinReq || (bitOf v 0 && s.stage == 3) }
/-- A request through one port or both that is no write of one register: no tie arises (R557). -/
def onRead (s : State) (ps : Ports) (serves : State → Nat → Bool) (f : Nat → State → State) : Host.Outcome State Fault Refusal :=
  if !s.running then .fault .notEnabled
  else .next ((tieOrder s.tieReg ps).foldl (fun s p => if serves s p then f p s else s) s)

end Sys2Proof.Machine
end

