-- ==== Sys2Proof/Machine/Queue.lean ====
section
/-! DEFINITION. Queue registers, rings and COPY as a group uses them: QPUSH, QPOP, QTRY, the queue forms of MOV, RAWAIT, RAREL and
COPY; the outstanding-operation counters (31_engines R387-R401, 22_ordering R359, 50_counters R536). -/

namespace Sys2Proof.Machine

open Sys2Proof

/-- A group's queue register. -/
def qreg (g : Group) (q : Nat) : QReg := (tget g.qs q).getD {}
def setQreg (g : Group) (q : Nat) (r : QReg) : Group := { g with qs := tset g.qs q r }
/-- Commands entered and not started (R388). -/
def unstarted (r : QReg) : List Cmd := r.cmds.filter fun x => !x.started
/-- The code that marks a slice of COPY among the commands of a register. -/
def copyCode : Nat := 256

/-- One more operation counted on an outstanding counter (R359): its place in issue order. -/
def countOc (g : Group) (n : Nat) : Nat × Group :=
  let k := cget 0 g.ocIssued n
  (k, { g with oc := cset 0 g.oc n (cget 0 g.oc n + 1), ocIssued := cset 0 g.ocIssued n (k + 1) })
/-- Counters come down in issue order (R359): as long as the next operation in that order has completed. -/
def ocDown : Nat → Nat → Group → Group
  | 0, _, g => g
  | f + 1, n, g =>
    let next := cget 0 g.ocIssued n - cget 0 g.oc n
    if cget 0 g.oc n ≠ 0 ∧ g.ocDone.contains (n, next) then
      ocDown f n { g with oc := cset 0 g.oc n (cget 0 g.oc n - 1), ocDone := g.ocDone.filter fun x => x != (n, next) }
    else g
/-- An operation counted on a counter completes. -/
def completeOc (g : Group) (n seq : Nat) : Group :=
  ocDown (g.ocDone.length + 1) n { g with ocDone := g.ocDone ++ [(n, seq)] }
/-- A counter that cannot take another operation (R359). -/
def ocFull (g : Group) (oc : Option Nat) : Bool := oc.any fun n => 65535 ≤ cget 0 g.oc n

/-- A ring a party may name (R396). -/
def ringOf (p : Party) (k : Nat) : Option Ring :=
  if p.l.rec0.ringn ≤ k then none else (tget p.b.rings k).filter (·.cfg)
/-- Slots of a ring, and the scratchpad offset of one (R397). -/
def Ring.slots (r : Ring) : Nat := r.nm1 + 1
def Ring.stride (r : Ring) : Nat := 16 * (r.sm1 + 1)
def Ring.at (r : Ring) (i : Nat) : Nat := r.base + i * r.stride
/-- Slot RP is filled (R399). -/
def ringFull (b : Block) (r : Ring) : Bool := (ofBytes (b.rdSp (r.at r.rp) 4)).testBit 31

/-- A command enters a register (R42, R388, R389). -/
def enterCmd (time core q code : Nat) (args : List Word) (payload : List (Word × Word)) (pmask : LaneMask) (oc ring : Option Nat)
    (shadow : Bool) (g : Group) : Group :=
  let r := qreg g q
  let (k, g) := match oc with
    | some n => countOc g n
    | none => (0, g)
  let x : Cmd := { code := code, args := args, payload := payload, pmask := pmask, seq := r.pushes, oc := oc, ocSeq := k, ring := ring,
                   core := core, started := false, order := 0, slot := 0, result := none, shadow := shadow,
                   time := time }
  setQreg g q { r with cmds := r.cmds ++ [x], pushes := r.pushes + 1 }

/-- The lane payload (R389): 64 words with their sidecars, zero but for the lanes given. -/
def payloadOf (c : Ctx) (vb : Option Nat) (m : LaneMask) : List (Word × Word) :=
  match vb with
  | none => []
  | some r => (List.range 64).map fun l => if bitOf m l then (c.p.g.rdV r l, if c.p.dist then c.p.g.rdSide r l else 0) else (0, 0)

/-- A push (R391, R440): once for the entry, with an active lane that is no helper lane. The engines that the copies of a redundant
block share take one command for both. [log 58 DEDUCED] -/
def runPush (hd : Hd) (q code : Nat) (args : Ctx → List Word) (vb oc ring : Option Nat) (s : State) : Host.Outcome State Fault Refusal :=
  runGroup s hd { vr := vb.toList, irr := true } fun c =>
    let m := c.real hd
    let go (s : State) (both : Bool) : Res :=
      let enter (shadow : Bool) (g : Group) : Group :=
        enterCmd s.stamp c.core q code (args c) (payloadOf c vb m) (if vb.isSome then m else 0) oc ring shadow g
      let s1 := c.advance s true fun g => c.commitRegion s (enter false g)
      .done (if both then leaveExtra s1 { c with e := { c.e with irr := true } } (enter true) else s1)
    if m = 0 then .done (c.advance s true id)
    else if c.p.g.tm then c.privilege m
    else if 12 ≤ q || (ring.any fun k => (ringOf c.p k).isNone) then .trap (c.wordTrap 0x0E m)
    else match c.consume ((lanesOf m).filterMap fun l => (firstPoison (vb.toList.map Opnd.v) c.p.g l).map fun i => (l, i)) with
    | some r => r
    | none =>
      if 8 ≤ (unstarted (qreg c.p.g q)).length || ocFull c.p.g oc then .park .retry
      else if c.p.l.rec0.red && decide (4 ≤ q) then
        let words := args c ++ (match vb with
          | some _ => (payloadOf c vb m).map (·.1) ++ [loWord m, hiWord m]
          | none => [])
        match gateReturn s c (opItems s c 0x30 c.e.pc.toNat 0 words) false with
        | .wait s1 => .done s1
        | .staged s1 | .direct s1 => go s1 true
      else go s false

/-- QPUSH (R391). -/
def execQpush (o : QOp) (s : State) : Host.Outcome State Fault Refusal :=
  runPush o.hd o.qn o.cmd (fun c => (List.range 8).map fun i => c.p.g.rdK (o.a + i)) (if o.sub % 2 = 1 then some o.b else none)
    (if o.oce then some o.ocn else none) (if o.sub / 2 % 2 = 1 then some o.ring else none) s
/-- MOV to a queue register (R393). -/
def execMovToQueue (o : VOp) (s : State) : Host.Outcome State Fault Refusal :=
  runPush o.hd (o.d - 0x3F0) 0 (fun _ => List.replicate 8 0) (some o.a) none none s

/-- A pop (R392): the oldest completion leaves, and its words go to the registers in the active lanes. Without one, the entry waits,
or under `pred` writes zeros and a false predicate, which takes nothing and commits nothing (R42, R44). [log 56 DEDUCED] -/
def runPop (hd : Hd) (q : Nat) (regs : List Nat) (pred : Option Nat) (s : State) : Host.Outcome State Fault Refusal :=
  runGroup s hd { vw := regs, pw := pred.toList, irr := true } fun c =>
    let m := c.real hd
    if m = 0 then .done (c.advance s true (flyLanes regs pred.toList (c.active hd) []))
    else if c.p.g.tm then c.privilege m
    else if 12 ≤ q then .trap (c.wordTrap 0x0E m)
    else
      let r := qreg c.p.g q
      let give (ws : List Word) (full : Bool) (g : Group) : Group :=
        (if full then c.commitRegion s else id) (flyLanes regs pred.toList (c.active hd) ((lanesOf (c.active hd)).map fun l =>
          { lane := l, ws := (regs.zip ws).map (fun x => Dest.vec x.1 l x.2 0 false) ++ pred.toList.map fun p => Dest.pred p l full false }) g)
      match r.comps, pred with
      | ws :: rest, _ => .done (c.advance s true fun g => give ws true (setQreg g q { r with comps := rest }))
      | [], some _ => .done (c.advance s true (give [0, 0, 0, 0] false))
      | [], none => .park .retry

/-- QPOP (R392). [log 56 DEDUCED] -/
def execQpop (o : QOp) (s : State) : Host.Outcome State Fault Refusal :=
  runPop o.hd o.qn ((List.range 4).map fun i => o.d + i) none s
/-- QTRY (R392). -/
def execQtry (o : QOp) (s : State) : Host.Outcome State Fault Refusal :=
  runPop o.hd o.qn ((List.range 4).map fun i => o.d + i) (some o.c) s
/-- MOV from a queue register (R393): QPOP of word 0. -/
def execMovFromQueue (o : VOp) (s : State) : Host.Outcome State Fault Refusal := runPop o.hd (o.a - 0x3F0) [o.d] none s

/-- RAWAIT (R399): the entry parks until slot RP is filled, and takes its offset. [log 57 DEDUCED] -/
def execRawait (o : QOp) (s : State) : Host.Outcome State Fault Refusal :=
  runGroup s o.hd { vw := [o.d] } fun c =>
    let m := c.real o.hd
    if c.p.g.tm then if m = 0 then .done (c.advance s false id) else c.privilege m
    else match ringOf c.p o.ring with
      | none => if m = 0 then .done (c.advance s false id) else .trap (c.wordTrap 0x0E m)
      | some r =>
        if !ringFull c.p.b r then .park .retry
        else .done (c.advance s false (putLanes c ((lanesOf (c.active o.hd)).map fun l =>
          { lane := l, ws := [.vec o.d l (BitVec.ofNat 32 (r.at r.rp)) 0 false] })))

/-- RAREL (R400): slot RP is released once it is filled. -/
def execRarel (o : QOp) (s : State) : Host.Outcome State Fault Refusal :=
  runGroup s o.hd { irr := true } fun c =>
    let m := c.real o.hd
    if m = 0 then .done (c.advance s true id)
    else if c.p.g.tm then c.privilege m
    else match ringOf c.p o.ring with
      | none => .trap (c.wordTrap 0x0E m)
      | some r =>
        if !ringFull c.p.b r then .park .retry
        else
          let s1 := modBlock s c.p.g.bid fun b =>
            let b := b.wrSp (r.at r.rp) [0, 0, 0, 0]
            { b with rings := tset b.rings o.ring { r with rp := (r.rp + 1) % r.slots, cnt := r.cnt - 1 } }
          .done (c.advance s1 true (c.commitRegion s1))

/-- A command or a copy of the block names a ring and has not completed (R400). -/
def ringNamed (s : State) (p : Party) (k : Nat) : Bool :=
  (p.b.copies.any fun c => c.ring == k || c.names.contains k) || p.b.groups.any fun gid => match tget s.groups gid with
    | some g => g.qs.any fun q => q.2.cmds.any fun x => x.ring == some k
    | none => false

/-- The ring a descriptor in a uniform pair lays out (R397). -/
def ringFrom (w0 w1 : Word) : Ring :=
  { base := fieldOf w0 0 20, cfg := true, nm1 := fieldOf w1 8 6, sm1 := fieldOf w1 0 4, cnt := 0, wp := 0, rp := 0 }
/-- RAREL.init (R400): every check precedes the writes. -/
def execRarelInit (o : QOp) (s : State) : Host.Outcome State Fault Refusal :=
  runGroup s o.hd { irr := true } fun c =>
    let m := c.real o.hd
    let w0 := c.p.g.rdK o.a
    let w1 := c.p.g.rdK (o.a + 1)
    let r := ringFrom w0 w1
    let busy := ((tget c.p.b.rings o.ring).any fun x => x.cnt != 0) || ringNamed s c.p o.ring
    if m = 0 then .done (c.advance s true id)
    else if c.p.g.tm then c.privilege m
    else if decide (c.p.l.rec0.ringn ≤ o.ring) || busy || fieldOf w0 20 12 != 0 || fieldOf w1 14 17 != 0 || fieldOf w1 4 4 != 0 then
      .trap (c.wordTrap 0x0E m)
    else if r.base % 16 ≠ 0 ∨ c.p.b.asize < r.base + r.slots * r.stride then
      .trap { code := 0x0C, tval := r.base, tmask := m, pc := c.e.pc }
    else
      let s1 := modBlock s c.p.g.bid fun b =>
        { (List.range r.slots).foldl (fun b i => b.wrSp (r.at i) [0, 0, 0, 0]) b with rings := tset b.rings o.ring r }
      .done (c.advance s1 true (c.commitRegion s1))

/-- COPY (R401): the group's slice enters, whatever the guards; the entry must hold every live lane of the group.
[log 58 DEDUCED] -/
def execCopy (o : QOp) (s : State) : Host.Outcome State Fault Refusal :=
  runGroup s o.hd { irr := true } fun c =>
    let oc := if o.oce then some o.ocn else none
    if c.lanes = 0 then .done (c.advance s true id)
    else if c.p.g.tm then c.privilege c.lanes
    else if 12 ≤ o.qn then .trap (c.wordTrap 0x0E c.lanes)
    else if liveLanes c.p.g &&& ~~~c.e.mask ≠ 0 then .trap (c.wordTrap 0x10 c.lanes)
    else if (ringOf c.p o.ring).isNone then .trap (c.wordTrap 0x0E c.lanes)
    else if 8 ≤ (unstarted (qreg c.p.g o.qn)).length || ocFull c.p.g oc then .park .retry
    else .done (c.advance s true fun g => c.commitRegion s
      (enterCmd s.stamp c.core o.qn copyCode ((List.range 24).map fun i => c.p.g.rdK (o.a + i)) [] 0 oc (some o.ring) false g))

end Sys2Proof.Machine
end

