-- ==== Sys2Proof/Machine/Engines.lean ====
section
/-! DEFINITION. The copy engine and the collective engine: starts, effects and completions of their commands (31_engines
R388-R390, R395-R398, R402-R417, 22_ordering R356-R359, 41_tables R512). -/

namespace Sys2Proof.Machine

open Sys2Proof

/-- An engine goes on for a group, also when its gang was killed (R442, R443); while the gang is set aside only started collective
commands do (R49, R395). -/
def engineRuns (p : Party) (q : Nat) : Bool :=
  match p.ga.st with
  | .setAside => decide (4 ≤ q) && decide (q < 8)
  | _ => true
/-- Completions are delivered while the gang is not set aside (R395). -/
def delivers (p : Party) : Bool :=
  match p.ga.st with
  | .setAside => false
  | _ => true

/-- A completion's status word (R390). -/
def statusWord (code cmd seq : Nat) : Word := BitVec.ofNat 32 (0x80000000 + code * 65536 + cmd % 256 * 256 + seq % 256)
/-- Fill a ring slot (R398): word 0 stands last in the order of the writes, which one step makes together. -/
def fillSlot (s : State) (bid k slot : Nat) (ws : List Word) : State :=
  modBlock s bid fun b => match tget b.rings k with
    | some r => b.wrSp (r.at slot) (ws.flatMap fun w => bytesOf w.toNat 4)
    | none => b
/-- Take slot WP of a ring (R398); none while it has no room. The rings of a killed gang are gone with its scratchpads: what its
engines still complete needs no slot. -/
def takeSlot (s : State) (bid k : Nat) : Option (Nat × State) :=
  let killed := ((tget s.blocks bid).bind fun b => tget s.gangs b.gang).any fun g => g.st == .killed
  match (tget s.blocks bid).bind fun b => tget b.rings k with
  | none => if killed then some (0, s) else none
  | some r =>
    if killed then some (0, s)
    else if r.slots ≤ r.cnt then none
    else some (r.wp, modBlock s bid fun b => { b with rings := tset b.rings k { r with wp := (r.wp + 1) % r.slots, cnt := r.cnt + 1 } })

/-! Copies. -/

/-- Fields of a tensor layout record (R403). -/
def recWord (w : List Word) (i : Nat) : Word := w.getD i 0
def recEsz (w : List Word) : Nat := 2 ^ fieldOf (recWord w 4) 6 2
def recDims (w : List Word) : Nat := fieldOf (recWord w 4) 4 2 + 1
def recSpace (w : List Word) (dst : Bool) : Nat := fieldOf (recWord w (if dst then 3 else 1)) 28 4
def recBase (w : List Word) (dst : Bool) : Nat :=
  (recWord w (if dst then 2 else 0)).toNat + fieldOf (recWord w (if dst then 3 else 1)) 0 24 * 2 ^ 32
def recE0 (w : List Word) (d : Nat) : Nat := fieldOf (recWord w (7 + d / 2)) (16 * (d % 2)) 16
def recE (w : List Word) (d : Nat) : Nat := if d < recDims w then recE0 w d else 1
def recT (w : List Word) (d : Nat) : Nat := if d < recDims w then (recWord w (9 + d)).toNat else 1
def recO (w : List Word) (d : Nat) : Int := if d < recDims w then signedOf 32 (recWord w (13 + d)).toNat else 0
/-- Byte strides; that of dimension 0 is the element size. -/
def recStride (w : List Word) (dst : Bool) (d : Nat) : Int :=
  if d = 0 then recEsz w else signedOf 32 (recWord w ((if dst then 19 else 16) + d)).toNat
/-- Elements of a slice (R404). -/
def recCount (w : List Word) : Nat := recE w 0 * recE w 1 * recE w 2 * recE w 3
/-- The record is one the engine cannot use (R405). [log 60 DEDUCED] -/
def recBad (w : List Word) : Bool :=
  let e := recEsz w
  let off (n : Nat) : Bool := n % e != 0
  fieldOf (recWord w 1) 24 4 != 0 || fieldOf (recWord w 3) 24 4 != 0 || fieldOf (recWord w 4) 8 24 != 0 || fieldOf (recWord w 4) 0 4 != 0
    || recWord w 23 != 0 || decide (3 < recSpace w false) || decide (3 < recSpace w true)
    || ([0, 1, 2, 3].any fun d => decide (recDims w ≤ d) && (decide (1 < recE0 w d) || decide (1 < (recWord w (9 + d)).toNat)))
    || off (recBase w false) || off (recBase w true) || ((List.range 6).any fun i => off (recWord w (17 + i)).toNat)

/-- One element of a slice (R404): where it goes, and where it comes from unless it lies out of bounds. -/
def recElem (w : List Word) (i : Nat) : Nat × Option Nat :=
  let c (d : Nat) : Nat := match d with
    | 0 => i % recE w 0
    | 1 => i / recE w 0 % recE w 1
    | 2 => i / (recE w 0 * recE w 1) % recE w 2
    | _ => i / (recE w 0 * recE w 1 * recE w 2)
  let x (d : Nat) : Int := recO w d + c d
  let sum (dst : Bool) (f : Nat → Int) : Nat :=
    wrapTo 64 ((recBase w dst : Int) + (([0, 1, 2, 3].map fun d => f d * recStride w dst d).foldl (· + ·) 0))
  let inside := (List.range (recDims w)).all fun d => decide (0 ≤ x d) && decide (x d < recT w d)
  (sum true fun d => c d, if inside then some (sum false x) else none)

/-- A space code of a record. -/
def spaceOfCode : Nat → Space
  | 0 => .global | 1 => .scratch | 2 => .pen | _ => .fabric
/-- Where one side of an element lands (R307, R403, R406): a failure's kind, a place here, or another device. [log 61 DEDUCED] -/
def copyLand (s : State) (p : Party) (space : Space) (addr n : Nat) (need : Need) : Landing :=
  match locate s p none space (BitVec.ofNat 64 addr) n need with
    | .error .address => .fails 5
    | .error (.xl e) => .fails e.kind
    | .ok r => match land s r need with
      | .here (.sp bid x) =>
        if ((tget s.blocks bid).any fun b => (spGuard b.asize x n).isSome) then .fails 5 else .here (.sp bid x)
      | l => l

/-- The replacement class of a copy's access (R315): the page's. -/
def copyCls (s : State) (p : Party) (space : Space) (addr : Nat) : Nat :=
  if space = .global then pageCls s p.l.rec0.asid p.b.core (coreDie s p.b.core) none (addr % 2 ^ 56) else 0
/-- What reading an element gives (R406): bytes, or a failure's kind. What another device holds has been read there by then (R479).
[log 61 DEDUCED] -/
def copyRead (s : State) (p : Party) (owner : List Nat) (space : Space) (addr n : Nat) : Except Nat (List Byte) × State :=
  match copyLand s p space addr n .read with
  | .fails k => (.error k, s)
  | .here t =>
    let s1 := touchTgt s (copyCls s p space addr) t
    if tgtBad s t n then (.error 4, s1) else (.ok (readTgt s t n), s1)
  | .there fa _ => match farBytes s owner fa n with
    | .ok bs => (.ok bs, s)
    | .error (.fails k) => (.error k, s)
    | .error _ => (.error 3, s)

/-- A copy under way: the state, the accesses to stage, tags of writes to other devices, the places written, and the first failing
element with its address, side and kind. -/
structure CopyRun where
  s : State
  staged : List Staged
  landing : List Nat
  wrote : List (Tgt × Nat)
  fail : Option (Nat × Nat × Bool × Nat)
deriving DecidableEq, Repr

/-- A write that fails at this device as its own destination: it is discarded and counted there (R521). -/
def loopWrite (s : State) (p : Party) (space : Space) (addr n : Nat) : Bool :=
  match locate s p none space (BitVec.ofNat 64 addr) n .write with
  | .ok (.line (.remote _ _ _) _, some _) => true
  | _ => false
/-- Move one element (R404, R406): `n` is its linear index, `w` its slice, `i` its index in the slice; `gidx` names the group in
whose name writes are staged at the copy's completion, with the issue stamp of its COPY, if they are (R408). Past the first failure an element is moved or not, a free choice.
[log 62 DESIGN CHOICE] -/
def copyMove (owner : List Nat) (p : Party) (gidx : Option (Nat × Nat)) (w : List Word) (n i : Nat) (a : CopyRun) : CopyRun :=
  let e := recEsz w
  let (dst, src) := recElem w i
  let fill := bytesOf ((recWord w 5).toNat + (recWord w 6).toNat * 2 ^ 32) e
  let (go, s0) := match a.fail with
    | none => (true, a.s)
    | some _ => let (x, s) := a.s.fresh; (x.testBit 0, s)
  if !go then { a with s := s0 } else
  let (r, s1) := match src with
    | none => (Except.ok fill, s0)
    | some x => copyRead s0 p owner (spaceOfCode (recSpace w false)) x e
  let note (addr : Nat) (d : Bool) (k : Nat) (s : State) : CopyRun :=
    let s1 := if recSpace w d = 0 then walkErr s p.l.rec0.asid p.b.core (coreDie s p.b.core) none addr else s
    { a with s := s1, fail := a.fail.or (some (n, addr, d, k)) }
  match r with
  | .error k => note (src.getD 0) false k s1
  | .ok bs =>
    let space := spaceOfCode (recSpace w true)
    match copyLand s1 p space dst e .write with
    | .fails k => if loopWrite s1 p space dst e then { a with s := s1.wrReg rFBDROP (s1.rdReg rFBDROP + 1) } else note dst true k s1
    | l =>
      match gidx, space with
      | some g, .global | some g, .fabric =>
        { a with s := s1, staged := a.staged ++ [⟨g.1, 0, s1.stamp, 0, space == .fabric, dst, e, bs, 0, false, 0, copyCls s1 p space dst, g.2⟩] }
      | _, _ => match l with
        | .here t => { a with s := ownAtomic (writeTgtAs s1 (copyCls s1 p space dst) t bs) p.gid t, wrote := a.wrote ++ [(t, e)] }
        | .there fa lanes =>
          let id := s1.nextId
          { a with s := sendWait { s1 with nextId := id + 1 } p.gid id 0 fa lanes .store e bs [] 0 dst, landing := a.landing ++ [64 * id] }
        | .fails _ => a

/-- Run a copy's slices (R402, R404): the elements of the slices one after the other. A poisoned line that it lands on whole is
repaired (R320). [log 62 DESIGN CHOICE] -/
def copyRun (owner : List Nat) (gidx : Option (Nat × Nat)) (slices : List (Party × List Word)) (s : State) : CopyRun :=
  let r := (slices.foldl (fun (acc : CopyRun × Nat) sl =>
    ((List.range (recCount sl.2)).foldl (fun a i => copyMove owner sl.1 gidx sl.2 (acc.2 + i) i a) acc.1, acc.2 + recCount sl.2))
    (⟨s, [], [], [], none⟩, 0)).1
  { r with s := repairLines r.s r.wrote }

/-- The scratchpad lines a slice's destinations touch, as (block, line) (R310). [log 59 DEDUCED] -/
def sliceLines (s : State) (p : Party) (w : List Word) : List (Nat × Nat) :=
  if recSpace w true ≠ 1 ∧ recSpace w true ≠ 2 then []
  else ((List.range (recCount w)).filterMap fun i =>
    match copyLand s p (spaceOfCode (recSpace w true)) (recElem w i).1 (recEsz w) .write with
    | .here (.sp bid x) => some (bid, x / 128)
    | _ => none).eraseDups

/-- The slices of a block's next copy on a register (R402): of every group its oldest unstarted command, which must be a slice; an
exited group that has none contributes none. [log 59 DEDUCED] -/
def nextSlices (s : State) (b : Block) (q : Nat) : Option (List (Nat × Cmd)) :=
  b.groups.foldl (fun acc gid => match acc, tget s.groups gid with
    | some l, some g => match unstarted (qreg g q) with
      | x :: _ => if x.code = copyCode then some (l ++ [(gid, x)]) else none
      | [] => if g.done then some l else none
    | _, _ => none) (some [])

/-- COPY_START (R402): every group's slice has entered, and the ring has a slot. -/
def execCopyStart (bid q : Nat) (s : State) : Host.Outcome State Fault Refusal :=
  match tget s.blocks bid with
  | none => .fault .notEnabled
  | some b =>
    match nextSlices s b q with
    | none | some [] => .fault .notEnabled
    | some ((g0, x0) :: more) =>
      let sl := (g0, x0) :: more
      match party? s g0, takeSlot s bid (x0.ring.getD 0) with
      | some p, some (slot, s1) =>
        if !engineRuns p q then .fault .notEnabled
        else
          let same := sl.all fun x => x.2.ring == x0.ring
          let bad := sl.any fun x => recBad x.2.args
          let code := if !same then 3 else if bad then 2 else 0
          let lines := if code ≠ 0 then [] else (sl.flatMap fun x => match party? s x.1 with
            | some p => sliceLines s p x.2.args
            | none => []).eraseDups
          let cp : Copy :=
            { q := q, slices := sl.map fun x => (x.1, x.2.args),
              counted := sl.filterMap fun x => x.2.oc.map fun n => (x.1, n, x.2.ocSeq),
              seqs := sl.map fun x => (x.1, x.2.seq), ring := x0.ring.getD 0, slot := slot, lines := lines, code := code,
              result := none, landing := [], time := x0.time, names := sl.filterMap fun x => x.2.ring }
          let s2 := sl.foldl (fun s x => modGroup s x.1 fun g =>
            setQreg g q { qreg g q with cmds := (qreg g q).cmds.filter fun y => !(!y.started && y.seq == x.2.seq) }) s1
          .next (modBlock s2 bid fun b => { b with copies := b.copies ++ [cp] })
      | _, _ => .fault .notEnabled

/-- The pieces of other devices' memory that a copy's elements are read from. -/
def copyFars (s : State) (sl : List (Party × List Word)) : List (DWord × Nat × Nat) :=
  sl.flatMap fun x => (List.range (recCount x.2)).filterMap fun i =>
    match (recElem x.2 i).2.map fun a => copyLand s x.1 (spaceOfCode (recSpace x.2 false)) a (recEsz x.2) .read with
    | some (.there fa k) => some (fa, k, recEsz x.2)
    | _ => none
/-- A copy must wait: a source line is absent for another copy (R310), or a page it reads or writes is closed by a move (R361, R493). `s`
is the state without the copy itself. [log 64 DEDUCED] -/
def copyWaits (s : State) (sl : List (Party × List Word)) : Bool :=
  sl.any fun x => (List.range (recCount x.2)).any fun i =>
    let (dst, src) := recElem x.2 i
    (match src.map fun a => copyLand s x.1 (spaceOfCode (recSpace x.2 false)) a (recEsz x.2) .read with
      | some (.here (.sp bid o)) => absentLine s bid o (recEsz x.2)
      | some (.here t) => tgtClosed s t
      | _ => false)
    || (match copyLand s x.1 (spaceOfCode (recSpace x.2 true)) dst (recEsz x.2) .write with
      | .here t => tgtClosed s t
      | _ => false)

/-- The name of a copy as a reader of other devices' memory. -/
def copyOwner (bid : Nat) (c : Copy) : List Nat :=
  [5, bid, c.q] ++ (c.seqs.head?.map fun x => [x.1, x.2]).getD []
/-- A copy ends: its slot is filled, its lines are present again, its counters come down (R310, R359, R398, R402).
[log 64 DEDUCED] -/
def endCopy (s : State) (bid idx : Nat) (c : Copy) (ws : List Word) : State :=
  let s1 := fillSlot (modBlock s bid fun b => { b with copies := b.copies.eraseIdx idx }) bid c.ring c.slot ws
  dropFars (c.counted.foldl (fun s x => modGroup s x.1 fun g => completeOc g x.2.1 x.2.2) s1) (copyOwner bid c)

/-- COPY_COMPLETE (R404-R408): the elements are moved, and the copy ends once its writes to other devices are acknowledged. In a
staged launch its global and fabric writes are staged; it waits when the buffer has no room. Elements at other devices are read by fabric
accesses first (R479). -/
def execCopyComplete (bid idx : Nat) (s : State) : Host.Outcome State Fault Refusal :=
  match (tget s.blocks bid).bind fun b => b.copies[idx]? with
  | none => .fault .notEnabled
  | some c =>
    match c.result with
    | some ws =>
      if s.fwaits.any fun w => c.landing.contains w.tag then .fault .notEnabled else .next (endCopy s bid idx c ws)
    | none =>
      let sl := c.slices.filterMap fun x => (party? s x.1).map fun p => (p, x.2)
      match sl with
      | [] => .fault .notEnabled
      | (p, _) :: _ =>
        let seq := (c.seqs.head?.map (·.2)).getD 0
        let owner := copyOwner bid c
        if !engineRuns p c.q then .fault .notEnabled
        else if c.code ≠ 0 then .next (endCopy s bid idx c [statusWord c.code 0 seq, 0, 0, 0])
        else if copyWaits (modBlock s bid fun b => { b with copies := b.copies.eraseIdx idx }) sl then .fault .notEnabled
        else if (copyFars s sl).any fun x => (farOf s owner x.1 x.2.2).isNone then
          .next ((copyFars s sl).foldl (fun s x => askFar s owner x.1 x.2.1 x.2.2) s)
        else if (copyFars s sl).any fun x => !((farOf s owner x.1 x.2.2).any fun f => f.back.isSome) then .fault .notEnabled
        else
          let gidx := if p.staged && !p.b.direct || p.l.rec0.red then some (p.g.gidx, c.time) else none
          let run := copyRun owner gidx sl s
          let ws := match run.fail with
            | none => [statusWord 0 0 seq, BitVec.ofNat 32 (sl.foldl (fun n x => n + recCount x.2) 0), 0, 0]
            | some (n, addr, d, k) =>
              [statusWord 1 0 seq, BitVec.ofNat 32 n, BitVec.ofNat 32 addr,
               BitVec.ofNat 32 ((if d then 2 ^ 28 else 0) + k * 2 ^ 24 + addr / 2 ^ 32 % 2 ^ 24)]
          let finish (r : CopyRun) (s1 : State) : State :=
            if r.landing = [] then endCopy s1 bid idx c ws
            else modBlock s1 bid fun b => { b with copies := b.copies.set idx { c with result := some ws, landing := r.landing } }
          if run.staged = [] then .next (finish run run.s)
          else match stageCopy run.s p run.staged with
            | .staged s1 => .next (finish run s1)
            | .direct s1 =>
              let r := copyRun owner none (c.slices.filterMap fun x => (party? s1 x.1).map fun p => (p, x.2)) { s1 with free := s.free }
              .next (finish r r.s)
            | .wait _ => match stageCopy s p run.staged with
              | .wait s1 => if s1 = s then .fault .notEnabled else .next s1
              | _ => .fault .notEnabled

/-! Commands. -/

/-- The command at a position of a register. -/
def cmdAt (p : Party) (q idx : Nat) : Option Cmd := (qreg p.g q).cmds[idx]?
/-- The group that holds the other copy's part of a command (R440). -/
def shadowOf (s : State) (p : Party) (q : Nat) : Option Nat := if p.l.rec0.red && decide (4 ≤ q) then twinGroup s p.gid else none
def modCmd (g : Group) (q idx : Nat) (f : Cmd → Cmd) : Group := setQreg g q { qreg g q with cmds := lmod (qreg g q).cmds idx f }
/-- A command's writes to other devices, sent since `id`, are noted: it completes once they are there (R359, R454). -/
def noteLanding (s : State) (gid q idx id : Nat) : State :=
  let tags := (s.fwaits.filter fun w => decide (64 * id ≤ w.tag)).map (·.tag)
  if tags = [] then s else modGroup s gid fun g => modCmd g q idx fun x => { x with landing := x.landing ++ tags }
/-- They are. -/
def Cmd.landed (s : State) (x : Cmd) : Bool := !(s.fwaits.any fun w => x.landing.contains w.tag)
/-- The effects of a command are done: these will be its completion words. -/
def setResult (s : State) (gid q idx : Nat) (ws : List Word) : State :=
  modGroup s gid fun g => modCmd g q idx fun x => { x with result := some ws }

/-- Room to start a command that completes to its register (R388). -/
def regRoom (r : QReg) : Bool := decide ((r.cmds.filter fun x => x.started && x.ring.isNone).length + r.comps.length < 8)

/-- A collective of a launch at a die (R410). -/
def collOf (s : State) (die lid cid : Nat) : Option Coll := s.colls.find? fun c => c.die == die && c.lid == lid && c.cid == cid
def setColl (s : State) (c : Coll) : State :=
  { s with colls := (s.colls.filter fun x => !(x.die == c.die && x.lid == c.lid && x.cid == c.cid)) ++ [c] }
def isColl (c : Coll) (die lid cid : Nat) : Bool := c.die == die && c.lid == lid && c.cid == cid

/-- Bytes of a bucket this participant supplies, and where (R412, R413). [log 67 DEDUCED] -/
def bucketAt (c : Coll) (b rank : Nat) : Nat := if c.op = 6 then c.buf + (b * c.p + rank) * c.bsz else c.buf + b * c.bsz
/-- Another BREADY of the bucket has its result on the way to another device still (R410). -/
def bucketLands (s : State) (c : Coll) (b : Nat) : Bool :=
  s.groups.any fun g => g.2.qs.any fun q => q.2.cmds.any fun y => y.code == 0x11 && !y.shadow && fieldOf (y.args.getD 0 0) 0 6 == c.cid
    && (y.args.getD 1 0).toNat == b && coreDie s y.core == c.die && ((party? s g.1).any fun o => o.ga.lid == c.lid) && !y.landed s
/-- A BREADY the engine cannot use (R410). [log 66 DEDUCED] -/
def breadyBad (s : State) (x : Cmd) (c : Option Coll) : Bool :=
  let w (i : Nat) : Word := x.args.getD i 0
  fieldOf (w 0) 6 26 != 0 || ((List.range 6).any fun i => w (2 + i) != 0) || match c with
    | none => true
    | some c => decide (c.nbkt ≤ (w 1).toNat)
      || decide ((c.done.filter fun d => d.1 == (w 1).toNat).length < (c.given.filter fun d => d.1 == (w 1).toNat).length)
      || bucketLands s c (w 1).toNat

/-- The completion words of a BREADY that cannot read or write its bucket: CODE FAULT, with the bucket index (R320, R410, R484).
[log 67 DEDUCED] -/
def breadyFault (x : Cmd) : List Word := [statusWord 1 0x11 x.seq, x.args.getD 1 0, 0, 0]
/-- What starting a collective command does at once: CSET reads the active nodes (R512); BREADY reads this participant's bucket (R415),
or is refused, or fails (R484); none while a page of the bucket is closed (R361), and no command while the bucket is still to read from
another device (R479). One that had started before its block went back to a checkpoint has done all that (R439).
[log 66 DEDUCED] -/
def startColl (s : State) (p : Party) (q : Nat) (x : Cmd) : Option (State × Option Cmd) :=
  let die := coreDie s x.core
  if x.order ≠ 0 then some (s, some x)
  else if x.code = 0x10 then
    let w1 := x.args.getD 1 0
    some (s, some { x with args := x.args ++ (List.range (fieldOf w1 16 16)).map fun i => cget 0 s.ttActive (fieldOf w1 0 16 + i) })
  else if x.code = 0x11 then
    let c := collOf s die p.ga.lid (fieldOf (x.args.getD 0 0) 0 6)
    if breadyBad s x c then some (s, some { x with result := some [statusWord 2 0x11 x.seq, x.args.getD 1 0, 0, 0] })
    else match c with
      | none => none
      | some c =>
        let b := (x.args.getD 1 0).toNat
        let va := bucketAt c b (c.me - c.nb)
        let owner := [4, p.gid, q, x.seq]
        match readVirt s owner p.l.rec0.asid die va c.bsz with
        | .error .waits => none
        | .error .asks => some (askVirt s owner p.l.rec0.asid die va c.bsz, none)
        | .error (.fails _) =>
          let s1 := touchVirt (walkErrs s p.l.rec0.asid die va c.bsz) p.l.rec0.asid die va c.bsz
          some (dropFars s1 owner, some { x with result := some (breadyFault x) })
        | .ok bs =>
          let k := (c.given.filter fun d => d.1 == b).length
          some (dropFars (setColl (touchVirt s p.l.rec0.asid die va c.bsz) { c with given := c.given ++ [(b, k, bs)] }) owner, some x)
  else some (s, some x)

/-- The confidence queue of a die holds 64 started UCONFs (R459). -/
def confFull (s : State) (die : Nat) : Bool :=
  decide (64 ≤ ((s.groups.flatMap fun g => (List.range 4).flatMap fun i => (qreg g.2 (8 + i)).cmds).filter fun y =>
    y.started && !y.shadow && y.code == 0 && y.result.isNone && coreDie s y.core == die).length)

/-- The ring slots a command takes as it starts, in its own block and in the other copy's (R398, R440). -/
def startSlots (s : State) (p : Party) (x : Cmd) (twin : Option Nat) : Option (Nat × Nat × State) :=
  match x.ring with
  | none => some (0, 0, s)
  | some k =>
    match takeSlot s p.g.bid k with
    | none => none
    | some (a, s1) => match twin.bind (tget s.groups) with
      | none => some (a, 0, s1)
      | some g => match takeSlot s1 g.bid k with
        | none => none
        | some (b, s2) => some (a, b, s2)

/-- ENGINE_COMMAND_START (R388, R398): the oldest entered command of a register starts when there is room for its completion. A
command waits for an earlier CSET of its register, so that it finds the collective registered. -/
def execEngineCommandStart (gid q : Nat) (s : State) : Host.Outcome State Fault Refusal :=
  match party? s gid with
  | none => .fault .notEnabled
  | some p =>
    let r := qreg p.g q
    match (r.cmds.zipIdx.find? fun x => !x.1.started) with
    | none => .fault .notEnabled
    | some (x, i) =>
      let setWaits := r.cmds.any fun y => y.started && y.code == 0x10 && y.result.isNone
      let twin := shadowOf s p q
      let room := match x.ring with
        | some _ => true
        | none => regRoom r && match twin.bind (tget s.groups) with
          | some g => regRoom (qreg g q)
          | none => true
      if x.code = copyCode ∨ x.shadow ∨ setWaits ∨ !room ∨ !delivers p ∨ (8 ≤ q ∧ x.code = 0 ∧ confFull s (coreDie s x.core)) then
        .fault .notEnabled
      else
        match startColl s p q x, startSlots s p x twin with
        | none, _ | _, none => .fault .notEnabled
        | some (s1, none), _ => .next s1
        | some (s0, some x1), _ => match startSlots s0 p x twin with
          | none => .fault .notEnabled
          | some (slot, slot2, s1) =>
            let s2 := modGroup { s1 with nextId := s1.nextId + 1 } gid fun g => modCmd g q i fun _ =>
              { x1 with started := true, order := if x1.order = 0 then s1.nextId else x1.order, slot := slot }
            .next (match twin with
              | some t => modGroup s2 t fun g => modCmd g q i fun y => { y with started := true, slot := slot2 }
              | none => s2)

/-- Deliver completion words of a command at a position (R390): to its register, or to its ring slot; a shared one is noted till the next
checkpoint (R439, R440). -/
def deliverCmd (s : State) (gid q idx : Nat) (ws : List Word) : State :=
  let red := (party? s gid).any fun p => p.l.rec0.red
  match (tget s.groups gid).bind fun g => (qreg g q).cmds[idx]?.map fun x => (g, x) with
  | none => s
  | some (g, x) =>
    let s1 := modGroup s gid fun g =>
      let r := qreg g q
      let past := if red && decide (4 ≤ q) then r.past ++ [{ x with result := some ws, landing := [] }] else r.past
      let g := setQreg g q { r with cmds := r.cmds.eraseIdx idx, past := past, comps := if x.ring.isNone then r.comps ++ [ws] else r.comps }
      match x.oc with
      | some n => completeOc g n x.ocSeq
      | none => g
    match x.ring with
    | some k => fillSlot s1 g.bid k x.slot ws
    | none => s1

/-- Two commands name one context of one die (R453). -/
def uSame (s : State) (x y : Cmd) : Bool :=
  coreDie s x.core == coreDie s y.core && fieldOf (x.args.getD 0 0) 0 6 == fieldOf (y.args.getD 0 0) 0 6
/-- An earlier unmasking command of the same context on the same register is still to complete: their completions come in that order.
[log 169 DEDUCED] -/
def completesAfter (s : State) (p : Party) (q idx : Nat) : Bool :=
  decide (8 ≤ q) && match cmdAt p q idx with
    | none => false
    | some x => (qreg p.g q).cmds.any fun y => y.started && !y.shadow && decide (y.order < x.order) && uSame s x y
/-- ENGINE_COMPLETION (R390): a command whose effects are done completes, for both copies of a redundant block where they share it
(R440). [log 169 DEDUCED] -/
def execEngineCompletion (gid q idx : Nat) (s : State) : Host.Outcome State Fault Refusal :=
  match party? s gid with
  | none => .fault .notEnabled
  | some p =>
    match (cmdAt p q idx).bind (·.result) with
    | none => .fault .notEnabled
    | some ws =>
      if !delivers p || completesAfter s p q idx || !((cmdAt p q idx).all (Cmd.landed s)) then .fault .notEnabled
      else
        let seq := ((cmdAt p q idx).map (·.seq)).getD 0
        let s1 := deliverCmd s gid q idx ws
        .next (match (shadowOf s p q).bind fun t => (tget s.groups t).bind fun g =>
            ((qreg g q).cmds.zipIdx.find? fun x => x.1.shadow && x.1.seq == seq).map fun x => (t, x.2) with
          | some (t, j) => deliverCmd s1 t q j ws
          | none => s1)

/-- An event that performs a started command of a code, for the party that entered it. -/
def onCmd (gid q idx code : Nat) (s : State) (f : Party → Cmd → Option State) : Host.Outcome State Fault Refusal :=
  match party? s gid with
  | none => .fault .notEnabled
  | some p =>
    match cmdAt p q idx with
    | none => .fault .notEnabled
    | some x =>
      if x.code ≠ code ∨ !x.started ∨ x.result.isSome ∨ x.shadow ∨ !engineRuns p q then .fault .notEnabled
      else match f p x with
        | some s1 => .next (noteLanding s1 gid q idx s.nextId)
        | none => .fault .notEnabled

/-- DRAIN (R409): every copy with a slice the group entered earlier on the register has completed. -/
def execDrain (gid q idx : Nat) (s : State) : Host.Outcome State Fault Refusal :=
  onCmd gid q idx 0x01 s fun p x =>
    if p.b.copies.any fun c => c.q == q && c.seqs.any fun y => y.1 == gid && decide (y.2 < x.seq) then none
    else some (setResult s gid q idx [statusWord 0 0x01 x.seq, 0, 0, 0])

/-- CSET's argument block (R411). -/
def csetFrom (die lid key : Nat) (x : Cmd) : Coll :=
  let w (i : Nat) : Word := x.args.getD i 0
  { die := die, lid := lid, cid := fieldOf (w 0) 0 6, op := fieldOf (w 0) 12 3, tree := fieldOf (w 0) 8 2 == 1, p := fieldOf (w 1) 16 16,
    nb := fieldOf (w 1) 0 16, me := fieldOf (w 2) 0 16, buf := (w 3).toNat + fieldOf (w 4) 0 24 * 2 ^ 32, bsz := (w 5).toNat,
    nbkt := fieldOf (w 6) 0 16, nodes := x.args.drop 8, hdr := [w 0, w 1, w 5, w 6], given := [], done := [], mism := 0, key := key }
/-- The participants do not form a tree rooted at the first node, or one of them does not exist (R411). [log 68 DEDUCED] -/
def notTree (c : Coll) : Bool :=
  (c.nodes.any fun v => !bitOf v 31) || (c.tree && (c.nodes.drop 1).any fun v =>
    !(decide (c.nb ≤ fieldOf v 0 10) && decide (fieldOf v 0 10 < c.nb + c.p)))
/-- A participant reached over Ultra Ethernet names a peer that is invalid, or whose port group is not in UE mode (R524). -/
def peerBad (s : State) (v : Word) : Bool :=
  let w := s.rdReg (rUEPEER (fieldOf v 16 8) 4)
  bitOf v 30 && !(bitOf w 31 && bitOf (s.rdReg rUEMODE) (fieldOf w 24 3))
def csetBad (s : State) (c : Coll) (x : Cmd) : Bool :=
  let w (i : Nat) : Word := x.args.getD i 0
  fieldOf (w 0) 15 17 != 0 || fieldOf (w 0) 10 2 != 0 || fieldOf (w 0) 6 2 != 0 || c.op == 7 || decide (1 < fieldOf (w 0) 8 2)
    || decide (c.p < 2) || decide (1024 < c.p) || decide (1024 < c.nb + c.p) || fieldOf (w 2) 16 16 != 0 || fieldOf (w 4) 24 8 != 0
    || c.buf % 256 != 0 || c.bsz % 256 != 0 || decide (c.bsz < 256) || decide (2 ^ 30 < c.bsz) || c.nbkt == 0
    || fieldOf (w 6) 16 16 != 0 || w 7 != 0 || !(decide (c.nb ≤ c.me) && decide (c.me < c.nb + c.p))
    || (collOf s c.die c.lid c.cid).isSome || notTree c || c.nodes.any (peerBad s)
/-- CSET (R410, R411): the collective is registered at this die. -/
def execCset (gid q idx : Nat) (s : State) : Host.Outcome State Fault Refusal :=
  onCmd gid q idx 0x10 s fun p x =>
    let c := csetFrom (coreDie s x.core) p.ga.lid s.nextId x
    if csetBad s c x then some (setResult s gid q idx [statusWord 2 0x10 x.seq, 0, 0, 0])
    else some (setResult (setColl { s with nextId := s.nextId + 1 } c) gid q idx [statusWord 0 0x10 x.seq, 0, 0, 0])

/-- Element size of an operation (R411, R412), and the operation with its flags (RN, FPCR not read; max and min as R335). -/
def collEsz (op : Nat) : Nat := if op = 1 then 2 else if op = 2 then 8 else 4
def collOp (op a b : Nat) : Nat × Flg :=
  match op with
  | 0 => atomOp 0 2 32 a b 0
  | 1 =>
    let r := fpAdd fBF16 envRN (decodeFp fBF16 a) (decodeFp fBF16 b)
    (r.bits, r.flags)
  | 2 => atomOp 0 2 64 a b 0
  | 3 => ((a + b) % 2 ^ 32, 0)
  | 4 => fpMinMaxNum fF32 true a b
  | _ => fpMinMaxNum fF32 false a b

/-- The ring order of one element (R412): rank c + 1 first, then on around. -/
def ringReduce (op p c : Nat) (x : Nat → Nat) : Nat × Flg :=
  (List.range (p - 1)).foldl (fun acc i =>
    let (v, f) := collOp op acc.1 (x ((c + 2 + i) % p))
    (v, acc.2 ||| f)) (x ((c + 1) % p), 0)
/-- The tree order of one element (R412): a node's value takes its children's in ascending index; parents precede children. -/
def treeReduce (op : Nat) (parent : Nat → Nat) (p : Nat) (x : Nat → Nat) : Nat → Nat → Nat × Flg
  | 0, v => (x v, 0)
  | fuel + 1, v => (List.range p).foldl (fun acc u =>
      if u ≠ 0 ∧ v < u ∧ parent u = v then
        let (y, f) := treeReduce op parent p x fuel u
        let (z, g) := collOp op acc.1 y
        (z, acc.2 ||| f ||| g)
      else acc) (x v, 0)

/-- The participant of a rank that is a die of this device, of the same launch: its collective (R410). -/
def localPeer (s : State) (c : Coll) (rank : Nat) : Option (Option Coll) :=
  let v := c.nodes.getD rank 0
  if bitOf v 30 || fieldOf v 16 14 != myId s || (if bitOf v 15 then 1 else 0) == c.die then none
  else some (collOf s (if bitOf v 15 then 1 else 0) c.lid c.cid)

/-- What a rank contributes to a round of a bucket (R412): its own bytes, a local peer's, or another device's free values; none while
a local peer has not made the bucket ready. [log 63 DESIGN CHOICE] -/
def contribution (s : State) (c : Coll) (b k rank : Nat) : Option (List Byte) :=
  let own (x : Coll) : Option (List Byte) := (x.given.find? fun g => g.1 == b && g.2.1 == k).map (·.2.2)
  if rank = c.me - c.nb then own c
  else match localPeer s c rank with
    | some (some x) => own x
    | some none => none
    | none => some ((List.range c.bsz).map fun j => Config.remoteByte [c.key, b, k, rank, j])
/-- All contributions to a round, by rank. -/
def contributions (s : State) (c : Coll) (b k : Nat) : Option (List (List Byte)) :=
  (List.range c.p).foldl (fun acc i => match acc, contribution s c b k i with
    | some l, some x => some (l ++ [x])
    | _, _ => none) (some [])

/-- The result of an all-reduce (R412) with its flags (R414). -/
def reduceAll (c : Coll) (xs : List (List Byte)) : List Byte × Flg :=
  let e := collEsz c.op
  let n := c.bsz / e
  let chunk := ceilDiv n c.p
  let rs := (List.range n).map fun i =>
    let x (r : Nat) : Nat := ofBytes (((xs.getD r []).drop (e * i)).take e)
    if c.tree then treeReduce c.op (fun u => fieldOf (c.nodes.getD u 0) 0 10 - c.nb) c.p x c.p 0 else ringReduce c.op c.p (i / chunk) x
  (rs.flatMap fun r => bytesOf r.1 e, rs.foldl (fun f r => f ||| r.2) 0)

/-- The comparison of R411, made at the first BREADY: local participants compare their words; whether others agree is a free value.
Local participants share the key of other devices' data. None while a local participant has not registered. -/
def compareColl (s : State) (c : Coll) : Option State :=
  if c.mism ≠ 0 then some s
  else
    let peers := (List.range c.p).filterMap fun r => if r = c.me - c.nb then none else localPeer s c r
    if peers.any Option.isNone then none
    else
      let ps := peers.filterMap id
      let far := (List.range c.p).any fun r => r != c.me - c.nb && (localPeer s c r).isNone
      let bad := (ps.any fun x => x.hdr != c.hdr) || (far && (Config.remoteByte [c.key]).getLsbD 0)
      some ((c :: ps).foldl (fun s x => setColl s { x with mism := if bad then 2 else 1, key := c.key }) s)

/-- BREADY (R410-R415): once every participant's bucket is ready, the result is written at this one, unless that fails (R484). -/
def execBready (gid q idx : Nat) (s : State) : Host.Outcome State Fault Refusal :=
  onCmd gid q idx 0x11 s fun p x =>
    let die := coreDie s x.core
    let cid := fieldOf (x.args.getD 0 0) 0 6
    let b := (x.args.getD 1 0).toNat
    (collOf s die p.ga.lid cid).bind fun c0 => (compareColl s c0).bind fun s => (collOf s die p.ga.lid cid).bind fun c =>
      let k := (c.done.filter fun d => d.1 == b).length
      let close (s : State) (code : Nat) (fl : Flg) : State :=
        setResult (setColl s { c with done := c.done ++ [(b, k)] }) gid q idx
          [statusWord code 0x11 x.seq, BitVec.ofNat 32 b, fl.setWidth 32, 0]
      if c.mism = 2 then some (close s 3 0)
      else (contributions s c b k).bind fun xs =>
        let (bs, fl) := if c.op = 6 then (xs.flatten, 0) else reduceAll c xs
        let va := bucketAt c b 0
        if virtClosed s p.l.rec0.asid die va bs.length .write then none
        else match writeVirt s p.gid p.l.rec0.asid die va bs with
          | .ok s1 => some (close s1 0 (fl &&& 0x1F))
          | .error _ => some (close (walkErrs s p.l.rec0.asid die va bs.length) 1 0)

/-- A bucket this participant made ready is not complete (R410): here, or at the device's other die, whose BREADY takes it from here;
or its result is on its way to another device. -/
def bucketsOpen (s : State) (p : Party) (c : Coll) : Bool :=
  let openAt (x : Coll) : Bool := c.given.any fun g => (x.given.any fun h => h.1 == g.1 && h.2.1 == g.2.1) && !x.done.contains (g.1, g.2.1)
  openAt c
    || ((List.range c.p).any fun r => r != c.me - c.nb && match localPeer s c r with
      | some (some x) => x.key == c.key && openAt x
      | _ => false)
    || s.groups.any fun g => g.2.qs.any fun q => q.2.cmds.any fun y => y.code == 0x11 && fieldOf (y.args.getD 0 0) 0 6 == c.cid
      && coreDie s y.core == c.die && ((party? s g.1).any fun o => o.ga.lid == p.ga.lid) && !y.landed s
/-- CFREE (R410): once every bucket made ready has completed, the CID is free. -/
def execCfree (gid q idx : Nat) (s : State) : Host.Outcome State Fault Refusal :=
  onCmd gid q idx 0x12 s fun p x =>
    let w (i : Nat) : Word := x.args.getD i 0
    let bad := fieldOf (w 0) 6 26 != 0 || (List.range 7).any fun i => w (1 + i) != 0
    match (if bad then none else collOf s (coreDie s x.core) p.ga.lid (fieldOf (w 0) 0 6)) with
    | none => some (setResult s gid q idx [statusWord 2 0x12 x.seq, 0, 0, 0])
    | some c =>
      if bucketsOpen s p c then none
      else some (setResult { s with colls := s.colls.filter fun y => !isColl y c.die c.lid c.cid } gid q idx
        [statusWord 0 0x12 x.seq, 0, 0, 0])

end Sys2Proof.Machine
end

