-- ==== Sys2Proof/Machine/Sweep.lean ====
section
/-! DEFINITION. Sweeps of cached translations, and moves of pages by the migration engines (40_translation R481-R483, R491-R496,
50_counters R541). -/

namespace Sys2Proof.Machine

open Sys2Proof

/-- A sweep covers a cached translation: its context, and the page that holds the VA or all of them (R482). -/
def sweeps (asid : Nat) (va : Option Nat) (x : Xlat) : Bool := x.asid == asid && va.all fun v => xlatHit x asid v
/-- The swept entries leave every lane register and every TLB (R482). [log 81 DEDUCED] -/
def sweepXlat (s : State) (asid : Nat) (va : Option Nat) : State :=
  { s with coreTlb := s.coreTlb.map fun (t : Nat × List Xlat) => (t.1, t.2.filter fun x => !sweeps asid va x),
           dieTlb := s.dieTlb.map fun (t : Nat × List Xlat) => (t.1, t.2.filter fun x => !sweeps asid va x),
           groups := s.groups.map fun (g : Nat × Group) =>
             (g.1, { g.2 with lastPage := g.2.lastPage.filter fun x => !sweeps asid va x.2 }) }
/-- An access that may use a translation a sweep covers has neither taken effect nor been returned to its core (R482).
[log 81 DEDUCED] -/
def sweepWaits (s : State) (asid : Nat) (va : Option Nat) : Bool :=
  let mine (gid : Nat) : Bool := gid == 0 || (party? s gid).any fun p => p.l.rec0.asid == asid
  (s.areqs.any fun r => !r.closed && (r.space == .global || r.space == .const) && mine r.gid
    && va.all fun v => r.space == .const || v / 2 ^ 30 == r.addr.toNat / 2 ^ 30 || v / 2 ^ 30 == r.addr2.toNat / 2 ^ 30)
  || s.fwaits.any fun w => mine w.gid

/-- Write bytes at a physical address, which a move of that storage sees (R492). -/
def wrPa (s : State) (pa : Nat) (bs : List Byte) : State := countVersion (s.wrMem pa bs) pa 1
/-- The sixteen bytes of a leaf. -/
def leafWord (lo : DWord) (plw attr : Word) : Nat := lo.toNat + plw.toNat * 2 ^ 64 + attr.toNat * 2 ^ 96
/-- A page-table entry is written at its slice (R302, R314). -/
def writePte (s : State) (pa n : Nat) : State := touchL2 (wrPa s pa (bytesOf n 16)) (pa / 128 * 128) 0 true
def leafOfWord (n level pte : Nat) : Leaf :=
  ⟨BitVec.ofNat 64 n, BitVec.ofNat 32 (n / 2 ^ 64), BitVec.ofNat 32 (n / 2 ^ 96), level, pte⟩

/-- Bytes of the image a local page stores: in a format window, its elements and their scales (R499). -/
def imageSize (s : State) (l : Leaf) : Nat :=
  let size := 2 ^ pageBits l.level
  if !l.wen then size
  else match lineOf s l 0 with
    | .ok (.view _ sk die wid) => size * (fwTy s die wid).bits / 32 + (if sk.isSome then size / 128 else 0)
    | _ => size
def Leaf.base (l : Leaf) : Nat := fieldOf l.lo 9 22 * 512

/-- The version entries of a page (R541): one per stack and channel, at the slice that fronts it. -/
def pageVers (s : State) (die slot : Nat) (l : Leaf) : List WVer :=
  (stacksOf (plwStack l.plw)).flatMap fun st => (List.range (2 ^ plwChw l.plw)).map fun i =>
    let ch := plwBase l.plw + i
    { slice := homeSlice (st * 2 ^ 36 + ch * 2 ^ 31), closed := false, die := die, mig := slot, stk := st, chan := ch, ver := 0,
      base := l.base, ext := placeExtent l.plw (imageSize s l), bank := plwBank l.plw }
def Mig.owns (m : Mig) (v : WVer) : Bool := v.die == m.die && v.mig == m.slot
def Mig.counters (s : State) (m : Mig) : List Nat := (s.vers.filter m.owns).map (·.ver)
/-- A line of storage belongs to the page a move is about, under its old placement. -/
def Mig.holds (s : State) (m : Mig) (key : Nat) : Bool := s.vers.any fun v => m.owns v && v.has key

/-- The answer a move request gets before it starts (R494); none: it starts. [log 84 DEDUCED, 85 DEDUCED, 88 DEDUCED] -/
def moveRefusal (s : State) (m : Mig) : Option Nat :=
  match walk s m.asid m.va with
  | .leaf l =>
    let n := leafOfWord m.new l.level l.pte
    if l.mlock || (s.migs.any fun x => x.attempt != 0 && x.pte == l.pte) then some 2
    else if decide (2 ≤ plwKind l.plw) || !bitOf n.lo 0 || !bitOf n.lo 1 || leafMalformed n.lo n.plw n.attr l.level || n.mlock
      || plwKind n.plw == 2 then some 3
    else match lineOf s n 0 with
      | .error _ => some 4
      | .ok _ => none
  | _ => some 3

/-- A move of the same page runs (R494, R496). -/
def moveRuns (s : State) (m : Mig) : Bool :=
  match walk s m.asid m.va with
  | .leaf l => s.migs.any fun x => x.attempt != 0 && x.pte == l.pte
  | _ => false
/-- A running command of an unmasking engine has translated pages of a context: it reads or writes another device's memory (R456). -/
def uRuns (s : State) (asid : Nat) : Bool :=
  s.groups.any fun g => g.2.qs.any fun q => decide (8 ≤ q.1) && q.2.cmds.any fun x => x.started && !x.shadow
    && ((s.fwaits.any fun w => x.landing.contains w.tag) || s.fars.any fun f => f.owner == [4, g.1, q.1, x.seq])
    && (party? s g.1).any fun p => p.l.rec0.asid == asid

/-- A move ends: the group's PLACE receives the status and goes on, or MSTAT shows it (R494, R495). In a redundant launch the other
copy's PLACE receives it too (R440). -/
def endMove (s : State) (m : Mig) (status : Nat) : State :=
  let s1 := { s with migs := s.migs.filter fun x => x != m }
  match m.gid with
  | none => s1.wrReg (rMCMD m.die 8) (BitVec.ofNat 32 status)
  | some gid => (gid :: m.twin.toList).foldl (fun s k => modGroup s k fun g =>
      let g1 := g.wrK m.dreg (BitVec.ofNat 32 status)
      { g1 with fence := none, entries := mergeEntries g1.still (g1.entries.map fun (e : Nat × Entry) =>
          if g1.fence = some e.1 then (e.1, { e.2 with park := none }) else e) }) s1

/-- Start a move (R492): MLOCK is set and the page is registered at its old home slices. [log 84 DEDUCED] -/
def startMove (s : State) (m : Mig) : State :=
  match moveRefusal s m with
  | some st => endMove s m st
  | none => match walk s m.asid m.va with
    | .leaf l =>
      let used := (s.migs.filter fun x => x.die == m.die && x.attempt != 0).map (·.slot)
      let slot := ((List.range 16).find? fun i => !used.contains i).getD 0
      let old := leafWord l.lo l.plw l.attr
      let vs := pageVers s m.die slot l
      let m' : Mig := { m with slot := slot, pte := l.pte, old := old, sz := l.level, attempt := 1, ver := vs.map fun _ => 0 }
      writePte { s with migs := s.migs.map (fun x => if x = m then m' else x), vers := s.vers ++ vs } l.pte (old ||| 2 ^ 103)
    | _ => endMove s m 3
/-- The walk of a move request that an uncorrectable entry stopped counts as a lasting error (R472). -/
def moveErr (s : State) (m : Mig) : State :=
  match walk s m.asid m.va with
  | .badLine => s.countErr true m.die 9
  | _ => s
/-- Waiting moves of a die start while it runs fewer than 16, in the order they arrived (R491); one of a page that moves already is
refused at once (R496). [log 85 DEDUCED] -/
def startMoves (s : State) (die : Nat) : State :=
  (s.migs.filter fun m => m.die == die && m.attempt == 0).foldl (fun s m =>
    if decide (16 ≤ (s.migs.filter fun x => x.die == die && x.attempt != 0).length) && !moveRuns s m then s
    else startMove (moveErr s m) m) s

/-- Copy the lines of a page to its new storage; poison moves along (R492). The image moves as it is, unless the window changes: then
each view line is read under the old leaf and written under the new one (R502). [log 87 DEDUCED] -/
def copyPage (s : State) (m : Mig) : State :=
  let l := leafOfWord m.old m.sz m.pte
  let n := leafOfWord m.new m.sz m.pte
  if l.wen != n.wen || (l.wen && l.wid != n.wid) then
    (List.range (2 ^ pageBits l.level / 128)).foldl (fun s i => match lineOf s l (128 * i), lineOf s n (128 * i) with
      | .ok a, .ok b =>
        let s1 := touchL2 (writeLine s b 0 (lineBytes s a)) b.line 0 true (l1Win b)
        if lineBad s a then poisonLine s1 b.line else s1
      | _, _ => s) s
  else
    let moved := (List.range (imageSize s l / 128)).foldl (fun s i =>
      let a := placeByte l.plw l.base (128 * i)
      let b := placeByte n.plw n.base (128 * i)
      let s1 := touchL2 (wrPa s b (s.rdMem a 128)) b 0 true
      if s.badLines.contains a then poisonLine s1 b else { s1 with badLines := s.badLines.filter fun x => x != b }) s
    if s.cleanViews.isEmpty || !l.wen then moved
    else (List.range (2 ^ pageBits l.level / 128)).foldl (fun t i => match lineOf s l (128 * i), lineOf s n (128 * i) with
      | .ok (.view a sa _ _), .ok (.view b sb _ _) => if s.cleanViews.contains (a, sa) then cleanView t b sb else t
      | _, _ => t) moved
/-- Close or reopen a page at its old home slices (R493). -/
def setClosed_ (s : State) (m : Mig) (c : Bool) : State :=
  { s with vers := s.vers.map fun v => if m.owns v then { v with closed := c } else v,
           migs := s.migs.map fun x => if x = m then { x with closed := c } else x }
/-- Commit a move (R492): the new leaf, a sweep, the old lines gone from the slices and from every L1, the page open again. -/
def commitMove (s : State) (m : Mig) (status : Nat) : State :=
  let gone (key : Nat) : Bool := m.holds s key
  let s1 := sweepXlat (writePte s m.pte m.new) m.asid (some m.va)
  let s2 := dropL1 { s1 with l2 := s1.l2.filter fun x => !gone x.line } none fun x => gone x.line
  startMoves (endMove { s2 with vers := s2.vers.filter fun v => !m.owns v } m status) m.die

/-- MIGRATION_COPY_DONE (R492): a copy of a move is finished. With the counters unchanged it commits; else it is tried again, eight
times in all, and then once with the page closed. A counter that would have passed its limit counts as changed at the comparison after.
A lock of a DCAS or AMOV on the page keeps it open (R493), and a running command that has translated pages its translation (R456).
[log 86 DEDUCED, 87 DEDUCED] -/
def execMigrationCopyDone (die idx : Nat) (s : State) : Host.Outcome State Fault Refusal :=
  match (s.migs.filter fun m => m.die == die && m.attempt != 0)[idx]? with
  | none => .fault .notEnabled
  | some m =>
    let locked := s.fwaits.any fun w => w.hold.any fun h => match h.t with
      | .line l _ => m.holds s l.line
      | _ => false
    if locked || uRuns s m.asid then .fault .notEnabled else
    let s1 := copyPage s m
    if m.attempt = 9 then .next (commitMove s1 m 1)
    else
      let now := m.counters s
      if now = m.ver ∧ !(s.vers.any fun v => m.owns v && v.over_) then .next (commitMove s1 m 0)
      else
        let next : Mig := { m with attempt := m.attempt + 1, ver := m.counters s1 }
        let s2 := { s1 with migs := s1.migs.map (fun x => if x = m then next else x),
                            vers := s1.vers.map fun v => if m.owns v then { v with over_ := false } else v }
        .next (if m.attempt = 8 then setClosed_ s2 next true else s2)

end Sys2Proof.Machine
end

