-- ==== Sys2Proof/Machine/System.lean ====
section
/-! DEFINITION. Control and status registers, traps a program asks for, the return from a trap, breakpoints and debugger words
(10_registers R163, R165-R170, 15_traps R284-R300, 32_launch R440, R446, R448). -/

namespace Sys2Proof.Machine

open Sys2Proof

/-- Word w of poison record entry i (R163); a free entry reads zero. [log 26 DESIGN CHOICE] -/
def prqWord (g : Group) (i w : Nat) : Word :=
  match tget g.prq i with
  | none => 0
  | some r => match w with
    | 0 => BitVec.ofNat 32 r.addr
    | 1 => BitVec.ofNat 32 (r.kind * 2 ^ 24 + r.addr / 2 ^ 32 % 2 ^ 24)
    | 2 => BitVec.ofNat 32 (r.reg % 1024 + (if r.prd then 1024 else 0) + (if r.pair then 2048 else 0))
    | 3 => loWord r.mask
    | 4 => hiWord r.mask
    | _ => 0
/-- PRQFREE: a bit per entry in use (R169). -/
def prqUsed (g : Group) (base : Nat) : Word :=
  BitVec.ofNat 32 (((List.range 32).filter fun i => (tget g.prq (base + i)).isSome).foldl (fun n i => n + 2 ^ i) 0)
/-- A half of a 64-bit register. -/
def halfOf (x : DWord) (i : Nat) : Word := if i = 0 then loWord x else hiWord x
/-- The fields of TCAUSE that exist (R167). -/
def tcauseMask : Word := 0x001FFDFF

/-- What CSRR reads in a lane (R165-R170); the trap enables of FPCR read as zero in trap mode (R284). [log 72 DEDUCED] -/
def csrRead (c : Ctx) (csr lane : Nat) : Word :=
  let g := c.p.g
  if csr = 0x000 then (if g.tm then g.rdFpcr lane &&& 0xFF else g.rdFpcr lane)
  else if csr = 0x001 then g.rdFpsr lane
  else if csr = 0x002 then cget 0 g.drc lane
  else if csr = 0x003 then cget 0 g.src lane
  else if csr = 0x004 then BitVec.ofNat 32 (cget 0 g.sri lane)
  else if csr = 0x010 ∨ csr = 0x011 then halfOf c.e.rstart (csr - 0x010)
  else if csr = 0x012 ∨ csr = 0x013 then halfOf c.e.lidp (csr - 0x012)
  else if csr = 0x020 then g.tcause
  else if csr = 0x021 ∨ csr = 0x022 then halfOf g.tpc (csr - 0x021)
  else if 0x024 ≤ csr ∧ csr ≤ 0x027 then g.tval.extractLsb' (32 * (csr - 0x024)) 32
  else if csr = 0x028 ∨ csr = 0x029 then halfOf g.tmask (csr - 0x028)
  else if csr = 0x030 ∨ csr = 0x031 then prqUsed g (32 * (csr - 0x030))
  else if 0x040 ≤ csr ∧ csr ≤ 0x047 then BitVec.ofNat 32 (cget 0 g.oc (csr - 0x040))
  else if csr = 0x050 then c.p.b.tile.tst
  else prqWord g ((csr - 0x100) / 8) ((csr - 0x100) % 8)

/-- CSRR (R290): a point in each active lane; in the uniform form, the value of the lowest active lane that is no helper lane.
[log 177 DESIGN CHOICE] -/
def execCsrr (o : SOp) (s : State) : Host.Outcome State Fault Refusal :=
  if o.sub = 0 then
    runLanes s o.hd { vw := [o.d] } false fun c l => { lane := l, ws := [.vec o.d l (csrRead c o.csr l) 0 false] }
  else runUniform s o.hd fun c => [.uni o.d (csrRead c o.csr ((lowLane (c.real o.hd)).getD 0))]

/-- A CSRW to a lane register (R165, R166, R169): FPCR keeps its RM under 000 and 111. -/
def laneCsrWrite (g : Group) (csr lane : Nat) (v : Word) : Group :=
  if csr = 0x000 then
    let rm := fieldOf v 0 3
    { g with fpcr := cset 0 g.fpcr lane (setField (v &&& 0x1FFF) 0 3 (if rm = 0 ∨ rm = 7 then fieldOf (g.rdFpcr lane) 0 3 else rm)) }
  else if csr = 0x001 then { g with fpsr := cset 0 g.fpsr lane (v &&& 0x3F) }
  else if csr = 0x002 then { g with drc := cset 0 g.drc lane v }
  else if csr = 0x003 then { g with src := cset 0 g.src lane v }
  else { g with sri := cset 0 g.sri lane (fieldOf v 0 3) }
/-- A CSRW to a group register (R167, R169). [log 26 DESIGN CHOICE, 79 DEDUCED, 97 DEDUCED] -/
def groupCsrWrite (g : Group) (csr : Nat) (v : Word) : Group :=
  if csr = 0x020 then { g with tcause := v &&& tcauseMask }
  else if csr = 0x021 then { g with tpc := pairOf v (hiWord g.tpc) }
  else if csr = 0x022 then { g with tpc := pairOf (loWord g.tpc) v }
  else if 0x024 ≤ csr ∧ csr ≤ 0x027 then { g with tval := setField g.tval (32 * (csr - 0x024)) 32 v.toNat }
  else if csr = 0x028 then { g with tmask := pairOf v (hiWord g.tmask) }
  else if csr = 0x029 then { g with tmask := pairOf (loWord g.tmask) v }
  else { g with prq := g.prq.filter fun x => !(x.1 / 32 == csr - 0x030 && bitOf v (x.1 % 32)) }

/-- The registers CSRW may write (R169, R292). -/
def csrWritable (tm : Bool) (csr : Nat) : Bool :=
  decide (csr ≤ 4) || csr == 0x030 || csr == 0x031 || csr == 0x050 || (tm && decide (0x020 ≤ csr) && decide (csr ≤ 0x029))

/-- CSRW (R170, R290): a lane register in each active lane, a group or block register from the lowest active lane that is no helper
lane. A poisoned source is consumed in lanes that are no helper lanes. [log 73 DEDUCED, 79 DEDUCED] -/
def execCsrw (o : SOp) (s : State) : Host.Outcome State Fault Refusal :=
  let src : Opnd := if o.sub = 0 then .v o.a else .k o.a
  runGroup s o.hd { vr := src.vregs } fun c =>
    let m := c.real o.hd
    let v (l : Nat) : Word := BitVec.ofNat 32 (src.val c.p.g l)
    if !csrWritable c.p.g.tm o.csr then if m = 0 then .done (c.advance s false id) else c.privilege m
    else match c.consume ((lanesOf m).filterMap fun l => (src.poison c.p.g l).map fun i => (l, i)) with
    | some r => r
    | none =>
      if o.csr ≤ 4 then
        .done (c.advance s false fun g => (lanesOf (c.active o.hd)).foldl (fun g l => laneCsrWrite g o.csr l (v l)) g)
      else match lowLane m with
        | none => .done (c.advance s false id)
        | some l =>
          if o.csr = 0x050 then
            .done (c.advance (modBlock s c.p.g.bid fun b =>
              { b with tile := { b.tile with tst := b.tile.tst &&& ~~~(v l &&& 0xE0) } }) false id)
          else .done (c.advance s false fun g => groupCsrWrite g o.csr (v l))

/-- TRAP (R289). -/
def execTrap (o : SOp) (s : State) : Host.Outcome State Fault Refusal :=
  runGroup s o.hd {} fun c =>
    let m := c.real o.hd
    if m = 0 then .done (c.advance s false id)
    else if c.p.g.tm then c.privilege m
    else .trap { code := 0x13, tval := o.imm.toNat, tmask := m, pc := c.e.pc }

/-- POST entries in the trap queue; a TRAP.post needs room for one more (R448). -/
def postRoom (s : State) : Bool :=
  decide ((s.trapq.filter fun e => (e.headD 0).toNat / 2 ^ 28 == 1).length < 240) && decide (s.trapq.length < 256)
/-- The next reply tag (R446). -/
def nextTag (n : Word) : Word := if n + 1 = 0 then 1 else n + 1
/-- The words of a trap whose post the copies of a redundant block compare (R440). -/
def postWords (g : Group) (imm : BitVec 16) : List Word :=
  [g.tcause, loWord g.tpc, hiWord g.tpc, g.tval.extractLsb' 0 32, g.tval.extractLsb' 32 32, g.tval.extractLsb' 64 32,
   g.tval.extractLsb' 96 32, loWord g.tmask, hiWord g.tmask, imm.setWidth 32]

/-- The entry moves on and holds its group till what it waits for comes (R289, R494). [log 76 DEDUCED] -/
def Ctx.hold (c : Ctx) (s : State) (irr : Bool) (k : Park) (f : Group → Group) : State :=
  c.advance s irr fun g => { modEntry (f g) c.eid fun e => { e with park := some k } with fence := some c.eid }

/-- TRAP.post (R289, R440, R446, R448): an entry on the trap queue, and the group waits for its reply.
[log 74 DEDUCED, 76 DEDUCED] -/
def execTrapPost (o : SOp) (s : State) : Host.Outcome State Fault Refusal :=
  runGroup s o.hd {} fun c =>
    let m := c.real o.hd
    if !c.p.g.tm then if m = 0 then .done (c.advance s false id) else c.privilege m
    else if c.active o.hd = 0 then .done (c.advance s false id)
    else if !postRoom s then .park .retry
    else
      let g := c.p.g
      let go (s : State) : State :=
        let tag := nextTag s.posts
        let s1 := postEntry { s with posts := tag } (trapEntry 1 o.imm.toNat g.tcause g.tpc g.tval g.tmask c.p.b.index
          (coreDie s c.core) c.core g.gidx c.p.l.rec0.handle tag 0)
        leaveExtraPark (c.hold s1 false (.reply tag o.d) id) c (some (.reply tag o.d)) true id
      match gateReturn s c (opItems s c 0x30 c.e.pc.toNat 0 (postWords g o.imm)) false with
      | .wait s1 => .done s1
      | .staged s1 | .direct s1 => .done (go s1)

/-- RTR (R287, R288): what a mode does once it acts. [log 74 DEDUCED] -/
def runRtr (hd : Hd) (s : State) (act : Ctx → Res) : Host.Outcome State Fault Refusal :=
  runGroup s hd {} fun c =>
    let m := c.real hd
    if !c.p.g.tm then if m = 0 then .done (c.advance s false id) else c.privilege m
    else if c.active hd = 0 then .done (c.advance s false id)
    else act c
/-- The kill of RTR.kill (R288). -/
def rtrKillAll (s : State) (c : Ctx) : State :=
  killGroup s c.p 0x22 c.p.g.tcause c.p.g.tpc c.p.g.tval c.p.g.tmask 0

/-- RTR.restart (R46, R47, R288): the retained entry starts its region anew. -/
def execRtrRestart (o : SOp) (s : State) : Host.Outcome State Fault Refusal :=
  runRtr o.hd s fun c =>
    let eid := c.p.g.retained.getD 0
    let ls := match tget c.p.g.entries eid with
      | some e => e.mask
      | none => 0
    .done (modBlock (modGroup s c.gid fun g => leaveTrap (restartEntry g eid) id) c.p.g.bid fun b => unstage b c.p.g ls)
/-- RTR.next (R288): it goes on after the instruction at TPC, or at TPC after an imprecise fault; an illegal TPC kills.
[log 75 DEDUCED] -/
def execRtrNext (o : SOp) (s : State) : Host.Outcome State Fault Refusal :=
  runRtr o.hd s fun c =>
    if !pcLegal c.p.g.tpc then .done (rtrKillAll s c)
    else
      let pc := if bitOf c.p.g.tcause 8 then c.p.g.tpc else nextPc c.p.g.tpc
      .done (modGroup s c.gid fun g => leaveTrap g fun e => { e with pc := pc, irr := false, park := none })
/-- RTR.kill (R288). -/
def execRtrKill (o : SOp) (s : State) : Host.Outcome State Fault Refusal := runRtr o.hd s fun c => .done (rtrKillAll s c)

/-- BPT (R289, R293): it halts the group of an attached launch; a STEP passes it. Else it is FLT_BREAK, or nothing in trap mode.
[log 77 DEDUCED] -/
def execBpt (o : SOp) (s : State) : Host.Outcome State Fault Refusal :=
  runGroup s o.hd {} fun c =>
    let m := c.real o.hd
    if m = 0 then .done (c.advance s false id)
    else if c.p.l.attached.isSome then
      if c.p.g.stepping.isSome then .done (c.advance s false id) else .done (haltGroup (unissue s c.gid) c.gid 2 0 o.imm.toNat)
    else if c.p.g.tm then .done (c.advance s false id)
    else .trap { code := 0x14, tval := o.imm.toNat, tmask := m, pc := c.e.pc }

/-- DBGW (R300, R440): a word of a port's mailbox; while it is still unread the whole group waits. Nothing without DBGEN (R293). Of two copies, the value of
the one placed first is written. [log 78 DEDUCED] -/
def execDbgw (o : SOp) (s : State) : Host.Outcome State Fault Refusal :=
  let src : Opnd := if o.sub = 0 then .v o.a else .k o.a
  runGroup s o.hd { vr := src.vregs } fun c =>
    let w := fieldOf o.imm 0 4
    let port := fieldOf o.imm 4 1
    match lowLane (c.real o.hd) with
    | none => .done (c.advance s false id)
    | some l =>
      let v (g : Group) : Word := BitVec.ofNat 32 (src.val g l)
      let box := (tget s.dbg port).getD Dbg.reset
      if !c.p.l.rec0.dbgen then .done (c.advance s false id)
      else if box.full.testBit w then
        .done (modGroup (parkBefore s c.gid c.eid .retry) c.gid fun g => { g with fence := some c.eid })
      else
        let first := match (twinGroup s c.gid).bind (tget s.groups), c.p.ga.copy with
          | some g, 1 => g
          | _, _ => c.p.g
        let go (s : State) : State :=
          leaveExtra (c.advance { s with dbg := tset s.dbg port { box with data := box.data.set w (v first), full := box.full ||| 2 ^ w } }
            false (fun g => { g with fence := none })) c fun g => { g with fence := none }
        match gateReturn s c (opItems s c 0x30 c.e.pc.toNat l [v c.p.g]) false with
        | .wait s1 => .done s1
        | .staged s1 | .direct s1 => .done (go s1)

end Sys2Proof.Machine
end

