-- ==== Sys2Proof/Machine/Tables.lean ====
section
/-! DEFINITION. Instructions that change tables: TLBINV, PMAP, PDROP, RBIND, RUNBIND and PLACE (40_translation R482, R485-R490,
R494, 22_ordering R352, R353, 32_launch R440). -/

namespace Sys2Proof.Machine

open Sys2Proof

/-- TLBINV (R482): a sweep starts, counted on oc7. -/
def runTlbinv (hd : Hd) (va : Ctx → Option Nat) (s : State) : Host.Outcome State Fault Refusal :=
  runGroup s hd {} fun c =>
    if c.real hd = 0 then .done (c.advance s false id)
    else if ocFull c.p.g (some 7) then .park .retry
    else
      let k := (countOc c.p.g 7).1
      .done (c.advance { s with sweeps := s.sweeps ++ [⟨c.p.l.rec0.asid, va c, some c.gid, k⟩] } false fun g => (countOc g 7).2)
/-- TLBINV.page (R482). -/
def execTlbinvPage (o : SOp) (s : State) : Host.Outcome State Fault Refusal :=
  runTlbinv o.hd (fun c => some (c.p.g.rdK2 o.a).toNat) s
/-- TLBINV.asid (R482). -/
def execTlbinvAsid (o : SOp) (s : State) : Host.Outcome State Fault Refusal := runTlbinv o.hd (fun _ => none) s

/-- SWEEP_COMPLETE (R482, R483): every access that used a swept translation has taken effect or was returned, and the swept entries
go. The group's counter comes down, or HSWPCMD.BUSY clears. -/
def execSweepComplete (idx : Nat) (s : State) : Host.Outcome State Fault Refusal :=
  match s.sweeps[idx]? with
  | none => .fault .notEnabled
  | some w =>
    if sweepWaits s w.asid w.va then .fault .notEnabled
    else
      let s1 := sweepXlat { s with sweeps := s.sweeps.eraseIdx idx } w.asid w.va
      match w.gid with
      | some gid => .next (modGroup s1 gid fun g => completeOc g 7 w.ocSeq)
      | none => .next (s1.setRegBits rHSWPCMD 31 1 0)

/-- An instruction done once for an entry, and once for both copies of a redundant block (R440): `busy` says that it cannot be done now, and
the state it waits in; `act` does it and gives the uniform register's result; `irr` says it ends a region. -/
def runOnce (hd : Hd) (irr : Bool) (d : Nat) (s : State) (words : Ctx → List Word) (busy : Ctx → Option State)
    (act : Ctx → State → State × Word) : Host.Outcome State Fault Refusal :=
  runGroup s hd { irr := irr } fun c =>
    let m := c.real hd
    if m = 0 then .done (c.advance s irr id)
    else if c.p.g.tm then c.privilege m
    else match busy c with
    | some s1 => .done (parkBefore s1 c.gid c.eid .retry)
    | none =>
      let go (s : State) : State :=
        let (s1, v) := act c s
        let f (g : Group) : Group := g.wrK d v
        leaveExtra (c.advance s1 irr fun g => if irr then c.commitRegion s1 (f g) else f g) { c with e := { c.e with irr := irr } } f
      match gateReturn s c (opItems s c 0x30 c.e.pc.toNat 0 (words c)) false with
      | .wait s1 => .done s1
      | .staged s1 | .direct s1 => .done (go s1)

/-- A page pool's registers (R485). -/
def poolBase (s : State) (p : Nat) : Nat := fieldOf (s.rdReg (rPPBASEL p)) 4 28 * 16 + fieldOf (s.rdReg (rPPBASEH p)) 0 18 * 2 ^ 32
def poolCnt (s : State) (p : Nat) : Nat := fieldOf (s.rdReg (rPPCNT p)) 0 20
def poolCap (s : State) (p : Nat) : Nat := fieldOf (s.rdReg (rPPCAP p)) 0 20
/-- Bytes of a page of a window. -/
def MapWin.size (w : MapWin) : Nat := 2 ^ pageBits w.level
/-- Window w of a context, when it is usable (R486); not on a pool that is being disabled (R487). -/
def mapWin (s : State) (asid w : Nat) : Option MapWin :=
  let m (r : Nat) : Word := s.rdReg (rMW asid w r)
  let sz := fieldOf (m 1) 8 2
  let p := fieldOf (m 1) 10 4
  let cfg := s.rdReg (rPPCFG p)
  if bitOf (m 1) 31 && sz != 3 && bitOf cfg 31 && fieldOf cfg 0 6 == asid && fieldOf cfg 8 2 == sz && !bitOf (m 3) 7
      && !s.poolOff.contains p then
    some { base := (m 0).toNat * 2 ^ 16 + fieldOf (m 1) 0 8 * 2 ^ 48, pages := fieldOf (m 2) 0 20 + 1, level := szLevel sz, pool := p,
           perm := fieldOf (m 1) 14 4, attr := m 3 }
  else none
/-- `n` pages from a VA are page bases inside a window (R489). -/
def MapWin.holds (w : MapWin) (va n : Nat) : Bool :=
  va % w.size == 0 && decide (w.base ≤ va) && decide (va + n * w.size ≤ w.base + w.pages * w.size)

/-- The leaf slot of a VA at a level (R489), and not in tables on a fenced die (R444); `lost` is a walk stopped by an uncorrectable line (R472). -/
inductive Slot where
  | at_ (pa : Nat)
  | larger
  | broken
  | lost
deriving DecidableEq, Repr
def slotFrom (s : State) (va target : Nat) : Nat → Nat → Nat → Slot
  | 0, _, _ => .broken
  | n + 1, level, pa =>
    if !paOk pa || s.fenced.contains (keyDie pa) then .broken else
    let a := pa + 16 * vaIndex va level
    if s.badLines.contains (a / 128 * 128) then .lost
    else if level = target then .at_ a
    else
      let (lo, plw, attr) := rdEntry s a
      if !bitOf lo 0 then .broken
      else if bitOf lo 1 then if leafMalformed lo plw attr level then .broken else .larger
      else if tableMalformed lo plw attr level then .broken
      else slotFrom s va target n (level + 1) (fieldOf lo 9 41 * 512)
def slotOf (s : State) (asid va level : Nat) : Slot :=
  if !bitOf (s.rdReg (rCTXCFG asid)) 31 then .broken
  else slotFrom s va level 5 1 (rootOf s asid)

/-- The result word of PMAP and PDROP (R488). -/
def mapResult (status count : Nat) : Word := BitVec.ofNat 32 (status * 2 ^ 28 + count % 2 ^ 28)

/-- PMAP's effect (R489). [log 82 DEDUCED] -/
def doPmap (s : State) (asid w va : Nat) : State × Word :=
  match mapWin s asid w with
  | none => (s, mapResult 5 0)
  | some x =>
    if !x.holds va 1 then (s, mapResult 3 0)
    else match slotOf s asid va x.level with
      | .broken | .lost => (s, mapResult 4 0)
      | .larger => (s, mapResult 1 0)
      | .at_ a =>
        if bitOf (rdEntry s a).1 0 then (s, mapResult 1 0)
        else if poolCnt s x.pool = 0 then (s, mapResult 2 0)
        else
          let n := poolCnt s x.pool - 1
          let e := poolBase s x.pool + 16 * n
          let bs := s.rdLossy e 12
          let addr := fieldOf (BitVec.ofNat 64 (ofBytes (bs.take 8))) 9 41
          let plw := ofBytes (bs.drop 8)
          let leaf := addr * 512 + x.perm * 4 + 3 + plw * 2 ^ 64 + x.attr.toNat * 2 ^ 96
          (writePte ((touchL2 { s with free := s.free + 12 } (e / 128 * 128) 0 false).wrReg (rPPCNT x.pool) (BitVec.ofNat 32 n)) a leaf, mapResult 0 1)
/-- Walks of PMAP or PDROP read the entries at their slices, and those that an uncorrectable line stopped count lasting errors (R302, R472):
`n` pages from a VA. -/
def slotErrs (s : State) (c : Ctx) (win : Option MapWin) (va n : Nat) : State :=
  let asid := c.p.l.rec0.asid
  match win with
  | none => s
  | some x =>
    if n = 0 || decide (2 ^ 20 < n) || !x.holds va n || !bitOf (s.rdReg (rCTXCFG asid)) 31 then s
    else (List.range n).foldl (fun s i =>
      let s1 := (walkLines s (va + i * x.size) 5 1 (rootOf s asid)).foldl (fun s k => touchL2 s k 0 false) s
      match slotOf s asid (va + i * x.size) x.level with
      | .lost => s1.countErr true (coreDie s c.core) 9
      | _ => s1) s
/-- The PDROP that an entry has in progress, and the window it found when it began (R487). -/
def dropIn (s : State) (c : Ctx) : Option Drop := s.drops.find? fun d => d.gid == c.gid && d.eid == c.eid
def dropWin (s : State) (c : Ctx) (w : Nat) : Option MapWin :=
  match dropIn s c with
  | some d => d.win
  | none => mapWin s c.p.l.rec0.asid w
/-- A PDROP goes on: its entry is still there. -/
def dropLive (s : State) (d : Drop) : Bool := (tget s.groups d.gid).any fun g => !g.done && (tget g.entries d.eid).isSome
/-- Another PDROP of the context goes on, so that this PMAP or PDROP waits for its turn (R490). -/
def mapBusy (s : State) (c : Ctx) : Bool :=
  s.drops.any fun d => d.asid == c.p.l.rec0.asid && !(d.gid == c.gid && d.eid == c.eid) && dropLive s d
/-- PMAP (R488). -/
def execPmap (o : SOp) (s : State) : Host.Outcome State Fault Refusal :=
  runOnce o.hd true o.d s (fun c => [c.p.g.rdK o.a, c.p.g.rdK (o.a + 1)]) (fun c => if mapBusy s c then some s else none)
    fun c s =>
      let va := (c.p.g.rdK2 o.a).toNat
      doPmap (slotErrs s c (mapWin s c.p.l.rec0.asid (fieldOf o.imm 0 2)) va 1) c.p.l.rec0.asid (fieldOf o.imm 0 2) va

/-- The pages PDROP drops in a window: their slots and addresses (R489), a slot once, at its lowest address; none where it changes
nothing. -/
def dropPages (s : State) (win : Option MapWin) (asid va n : Nat) : List (Nat × Nat) :=
  match win with
  | none => []
  | some x =>
    if n = 0 ∨ 2 ^ 20 < n ∨ !x.holds va n then []
    else (List.range n).foldl (fun l i => match slotOf s asid (va + i * x.size) x.level with
      | .at_ a => if fieldOf (rdEntry s a).1 0 2 = 3 ∧ !(l.any fun q => q.1 == a) then l ++ [(a, va + i * x.size)] else l
      | _ => l) []
/-- A started BREADY reads or will write a page (R490). -/
def breadyUses (s : State) (asid va size : Nat) : Bool :=
  let meets (a n : Nat) : Bool := decide (a < va + size) && decide (va < a + n)
  s.groups.any fun g => g.2.qs.any fun q => decide (4 ≤ q.1) && decide (q.1 < 8) && q.2.cmds.any fun x =>
    x.code == 0x11 && x.started && !x.shadow && (x.result.isNone || !x.landed s)
      && (party? s g.1).any fun p => p.l.rec0.asid == asid
        && (collOf s (coreDie s x.core) p.ga.lid (fieldOf (x.args.getD 0 0) 0 6)).any fun c =>
          let b := (x.args.getD 1 0).toNat
          meets (bucketAt c b (c.me - c.nb)) c.bsz || meets (bucketAt c b 0) (if c.op = 6 then c.p * c.bsz else c.bsz)
/-- PDROP waits while a move holds one of its pages, and for accesses and commands under the old translations (R456, R489, R490).
[log 80 DEDUCED] -/
def dropReady (s : State) (win : Option MapWin) (asid va n : Nat) : Bool :=
  let ps := dropPages s win asid va n
  let size := (win.map (·.size)).getD 0
  (ps.isEmpty || !uRuns s asid) && ps.all fun p =>
    !(s.migs.any fun m => m.attempt != 0 && m.pte == p.1) && !sweepWaits s asid (some p.2) && !breadyUses s asid p.2 size
/-- One frame goes back to its pool, unless the pool is full (R489). -/
def pushFrame (pool : Nat) (s : State) (addr plw : Nat) : State × Bool :=
  let n := poolCnt s pool
  if n < poolCap s pool then
    let e := poolBase s pool + 16 * n
    ((touchL2 (wrPa s e (bytesOf addr 8 ++ bytesOf plw 4 ++ [0, 0, 0, 0])) (e / 128 * 128) 0 true).wrReg (rPPCNT pool) (BitVec.ofNat 32 (n + 1)),
     true)
  else (s, false)
/-- PDROP's effect (R489): the leaves go, the pages are swept, and the frames go back. [log 80 DEDUCED] -/
def doPdrop (s : State) (win : Option MapWin) (asid va n : Nat) : State × Word :=
  match win with
  | none => (s, mapResult 5 0)
  | some x =>
    if n = 0 ∨ 2 ^ 20 < n ∨ !x.holds va n then (s, mapResult 3 0)
    else
      let ps := dropPages s win asid va n
      let frames := ps.map fun p =>
        let (lo, plw, _) := rdEntry s p.1
        (fieldOf lo 9 41 * 512, plw.toNat)
      let s1 := ps.foldl (fun s p =>
        let (lo, plw, attr) := rdEntry s p.1
        sweepXlat (writePte s p.1 (leafWord (setField lo 0 1 0) plw attr)) asid (some p.2)) s
      let (s2, all_) := frames.foldl (fun (acc : State × Bool) f =>
        let (t, ok) := pushFrame x.pool acc.1 f.1 f.2
        (t, acc.2 && ok)) (s1, true)
      (s2, mapResult (if all_ then 0 else 6) ps.length)
/-- PDROP (R488): one that has to wait has begun, with the window it found (R487, R490). -/
def execPdrop (o : SOp) (s : State) : Host.Outcome State Fault Refusal :=
  let args (c : Ctx) : Nat × Nat := ((c.p.g.rdK2 o.a).toNat, (c.p.g.rdK o.b).toNat)
  runOnce o.hd true o.d s (fun c => [c.p.g.rdK o.a, c.p.g.rdK (o.a + 1), c.p.g.rdK o.b])
    (fun c =>
      let win := dropWin s c (fieldOf o.imm 0 2)
      if mapBusy s c then some s
      else if dropReady s win c.p.l.rec0.asid (args c).1 (args c).2 then none
      else some (if (dropIn s c).isSome then s else { s with drops := s.drops ++ [⟨c.gid, c.eid, c.p.l.rec0.asid, win⟩] }))
    fun c s =>
      let win := dropWin s c (fieldOf o.imm 0 2)
      let s1 := { s with drops := s.drops.filter fun d => !(d.gid == c.gid && d.eid == c.eid) }
      doPdrop (slotErrs s1 c win (args c).1 (args c).2) win c.p.l.rec0.asid (args c).1 (args c).2

/-- Spaces and levels of a binding as RBIND codes them (R352). -/
def bindSpaceOf (n : Nat) : BindSpace := if n = 0 then .global else if n = 1 then .scratch else .fabric
/-- Two bindings of one space overlap (R346). [log 83 DEDUCED] -/
def Binding.overlaps (a b : Binding) : Bool :=
  a.space == b.space && decide (a.base < b.base + b.len) && decide (b.base < a.base + a.len)
/-- The status of a new binding (R353); 0 with an equal one present adds nothing. [log 83 DEDUCED] -/
def bindStatus (r : Rec) (t : List Binding) (b : Binding) : Nat :=
  if b.len = 0 || (b.space == .global && decide (2 ^ 56 < b.base + b.len)) || (b.space == .scratch && decide (2 ^ 32 < b.base + b.len))
      || (b.space == .fabric && (b.base + b.len - 1) % 2 ^ 64 / 2 ^ 50 != b.base / 2 ^ 50) then 4
  else if (b.level == .grid && r.prog != .concurrent)
      || (b.space != .scratch && (b.level == .grp || b.level == .blk) && (r.det || r.red || r.rel)) then 3
  else if (t.any fun x => x.overlaps b && x != b) then 2
  else if t.contains b then 0
  else if 64 ≤ t.length then 1
  else 0
/-- The table after RBIND. -/
def bindTable (r : Rec) (t : List Binding) (b : Binding) : List Binding :=
  if bindStatus r t b = 0 ∧ !t.contains b then t ++ [b] else t

/-- RBIND (R352, R353). -/
def execRbind (o : SOp) (s : State) : Host.Outcome State Fault Refusal :=
  runOnce o.hd false o.d s (fun c => (List.range 2).map (fun i => c.p.g.rdK (o.a + i)) ++ (List.range 2).map fun i => c.p.g.rdK (o.b + i))
    (fun _ => none) fun c s =>
      let b : Binding := { space := bindSpaceOf (fieldOf o.imm 6 2), base := (c.p.g.rdK2 o.a).toNat, len := (c.p.g.rdK2 o.b).toNat,
                           level := Level.ofCode (fieldOf o.imm 4 2), barn := fieldOf o.imm 0 4 }
      (modLaunch s c.p.ga.lid fun l => { l with binds := bindTable c.p.l.rec0 l.binds b },
       BitVec.ofNat 32 (bindStatus c.p.l.rec0 c.p.l.binds b))
/-- RUNBIND (R352, R353). -/
def execRunbind (o : SOp) (s : State) : Host.Outcome State Fault Refusal :=
  runOnce o.hd false o.d s (fun c => (List.range 2).map fun i => c.p.g.rdK (o.a + i)) (fun _ => none) fun c s =>
    (modLaunch s c.p.ga.lid fun l => { l with binds := l.binds.filter fun x =>
      !(x.space == bindSpaceOf (fieldOf o.imm 6 2) && x.base == (c.p.g.rdK2 o.a).toNat) }, 0)

/-- PLACE (R494, R440): a move on the migration engine of the group's die; the group waits till it ends. Only trap mode in a launch
with the SYS right may (R292). -/
def execPlace (o : SOp) (s : State) : Host.Outcome State Fault Refusal :=
  runGroup s o.hd {} fun c =>
    let m := c.real o.hd
    let ks := (List.range 4).map fun i => c.p.g.rdK (o.b + i)
    if m = 0 then .done (c.advance s false id)
    else if !(c.p.g.tm && c.p.l.rec0.sys) then c.privilege m
    else match gateReturn s c (opItems s c 0x30 c.e.pc.toNat 0 ([c.p.g.rdK o.a, c.p.g.rdK (o.a + 1)] ++ ks)) false with
    | .wait s1 => .done s1
    | .staged s1 | .direct s1 =>
      let die := coreDie s1 c.core
      let mv : Mig := { die := die, slot := 0, asid := c.p.l.rec0.asid, va := (c.p.g.rdK2 o.a).toNat, pte := 0, old := 0,
                        new := ofBytes (ks.flatMap fun k => bytesOf k.toNat 4), sz := 0, attempt := 0, ver := [], closed := false,
                        gid := some c.gid, twin := if c.p.l.rec0.red then twinGroup s1 c.gid else none, dreg := o.d }
      let s2 := leaveExtraPark (c.hold s1 false .busy id) c (some .busy) true id
      .done (startMoves { s2 with migs := s2.migs ++ [mv] } die)

end Sys2Proof.Machine
end

