-- ==== Sys2Proof/Machine/Record.lean ====
section
/-! DEFINITION. Launch records: reading one, its checks, and what of a launch can ever be resident (01_work R10, R11, R17, R18, R22,
R33, 13_tile R234, 20_memories R304, R305, 31_engines R396, 32_launch R421-R424). -/

namespace Sys2Proof.Machine

open Sys2Proof

/-- Bits [lo + len - 1 : lo] of the little-endian word of `n` bytes at byte `at_` of a record. -/
def lrBits (bs : List Byte) (at_ n lo len : Nat) : Nat := ofBytes ((bs.drop at_).take n) / 2 ^ lo % 2 ^ len
def lrDword (bs : List Byte) (at_ : Nat) : DWord := BitVec.ofNat 64 (lrBits bs at_ 8 0 64)
def lrWord (bs : List Byte) (at_ : Nat) : Word := BitVec.ofNat 32 (lrBits bs at_ 4 0 32)

/-- The fields of a launch record (R421). LANES 0 is groups times width (R11); RM 000 of FPCR is taken as RN. -/
def recOf (bs : List Byte) : Rec :=
  let f := lrBits bs
  let groups := f 28 4 6 4 + 1
  let width := 8 * 2 ^ f 28 4 4 2
  let fpcr := lrWord bs 40
  { kaddr := lrDword bs 0, cseg := lrDword bs 8, cseglen := f 16 4 0 32, gx := f 20 4 0 32, gy := f 24 4 0 16, gz := f 24 4 16 16,
    dbgen := f 28 4 31 1 == 1, rel := f 28 4 30 1 == 1, red := f 28 4 29 1 == 1, det := f 28 4 28 1 == 1,
    prog := if f 28 4 26 2 = 0 then .weak else if f 28 4 26 2 = 1 then .parallel else .concurrent,
    mode := if f 28 4 24 2 = 0 then .point else if f 28 4 24 2 = 1 then .dist else .samples,
    gang := f 28 4 21 3 + 1, lanes := if f 28 4 10 11 = 0 then groups * width else f 28 4 10 11, groups := groups, width := width,
    sys := f 32 4 21 1 == 1, ringn := f 32 4 15 6, tslotn := f 32 4 11 4, regs := f 32 4 0 11, scratch := f 36 4 0 20,
    fpcr := if fieldOf fpcr 0 3 = 0 then setField fpcr 0 3 1 else fpcr,
    tbarm := f 44 4 0 16, trsn := f 48 4 10 11, trsb := f 48 4 0 10, tstr := lrDword bs 56, thnd := lrDword bs 64,
    stream := lrDword bs 72, bindp := lrDword bs 80, bindn := f 88 4 0 7, asid := f 92 4 9 6, ser := f 92 4 8 1 == 1,
    reln := f 92 4 4 4,
    deps := ((List.range 4).filter fun j => (f 92 4 0 4).testBit j).map fun j => (f (128 + 8 * j) 8 32 4, f (128 + 8 * j) 8 0 32),
    savep := lrDword bs 96, savelen := f 104 8 0 64, cpla := lrDword bs 112, handle := lrWord bs 120,
    args := (List.range 64).map fun i => lrWord bs (256 + 4 * i) }

/-- A reserved field or code of a record, its FPCR word or an alignment is wrong (R424, REASON 0x01). -/
def recReserved (bs : List Byte) : Bool :=
  let f := lrBits bs
  f 28 4 26 2 == 3 || f 28 4 24 2 == 3 || f 28 4 0 4 != 0 || f 32 4 22 10 != 0 || f 36 4 20 12 != 0 || f 44 4 16 16 != 0
    || f 48 4 21 11 != 0 || f 52 4 0 32 != 0 || f 88 4 7 25 != 0 || f 92 4 15 17 != 0 || f 124 4 0 32 != 0
    || ((List.range 4).any fun j => f (128 + 8 * j) 8 36 28 != 0) || ((bs.drop 160).take 96).any (· != 0)
    || f 40 4 0 3 == 7 || f 40 4 13 19 != 0
    || f 0 8 0 6 != 0 || f 8 8 0 3 != 0 || f 80 8 0 5 != 0 || f 96 8 0 8 != 0 || f 112 8 0 6 != 0
    || (f 64 8 0 64 != 0 && !pcLegal (lrDword bs 64))

/-- A shape or size limit is broken (R10, R11, R22, R149, R157, R396; REASON 0x02). [log 96 DEDUCED] -/
def recShape (r : Rec) : Bool :=
  r.gx == 0 || decide (2 ^ 31 ≤ r.gx) || r.gy == 0 || r.gz == 0 || decide (2 ^ 32 ≤ r.blocks)
    || decide (1024 < r.groups * r.width) || !(decide ((r.groups - 1) * r.width < r.lanes) && decide (r.lanes ≤ r.groups * r.width))
    || r.blocks % r.gang != 0 || r.regs == 0 || decide (1024 < r.regs) || decide (32 < r.ringn) || decide (917504 < r.scratch)
    || decide (64 < r.bindn)
/-- A limit of R234 is broken (REASON 0x06). -/
def recTile (r : Rec) : Bool :=
  decide (r.regs < r.trsb + r.trsn) || decide (8 < r.tslotn) || (r.tstr == 0 && r.tbarm != 0)
    || r.tstr.toNat % 64 != 0

/-- Register entries a group takes in each of its columns (R17), and the bytes of a block's allocation (R305). -/
def Rec.cost (r : Rec) : Nat := if r.mode = .dist then 2 * r.regs else r.regs
def Rec.asize (r : Rec) : Nat := if r.scratch = 0 then 0 else 256 * ceilDiv r.scratch 256
/-- Blocks of a launch one idle core can hold at once (R17, R18, R234, R304, R396). -/
def Rec.perCore (r : Rec) : Nat :=
  let lim (cap need : Nat) : Nat := if need = 0 then 8 else cap / need
  [lim 64 r.groups, lim (4 * (64 / r.width) * (2048 / r.cost)) r.groups, lim 917504 (footprint r.asize), lim 8 r.tslotn,
   lim 32 r.ringn].foldl Nat.min 8
/-- Gangs an idle pen takes when each goes to its lowest cores with room (R427): `fuel` bounds the gangs, `caps` is the room left.
[log 100 DEDUCED] -/
def gangsFit (n : Nat) : Nat → List Nat → Nat
  | 0, _ => 0
  | f + 1, caps =>
    let cs := (((List.range 8).filter fun i => caps.getD i 0 != 0).take n)
    if cs.length < n then 0 else 1 + gangsFit n f ((caps.zipIdx).map fun x => if cs.contains x.2 then x.1 - 1 else x.1)
def Rec.perPen (r : Rec) : Nat := gangsFit r.gang 64 (List.replicate 8 r.perCore)
/-- Logical pens that take gangs, ascending: those of dies that are not fenced (R444); before stage C the safe pens only (R556). -/
def openPens (s : State) : List Nat :=
  (List.range (2 * s.part.pensPerDie)).filter fun p =>
    !s.fenced.contains (p / s.part.pensPerDie) && (decide (3 ≤ s.stage) || p % s.part.pensPerDie == 0)
def Rec.gangs (r : Rec) : Nat := r.blocks / r.gang
/-- Pairs of gangs a redundant launch can have resident (R427, R428): each takes the first pen of a list with room, and another, on the
other die where one has room; `room` holds each pen with its die. `fuel` bounds the pairs. -/
def pairsFit : Nat → List (Nat × Nat) → Nat
  | 0, _ => 0
  | f + 1, room =>
    let ps := (room.zipIdx).filter fun x => x.1.2 != 0
    match ps with
    | [] => 0
    | a :: more =>
      match (more.filter fun b => b.1.1 != a.1.1) ++ more.filter fun b => b.1.1 == a.1.1 with
      | [] => 0
      | b :: _ => 1 + pairsFit f ((room.zipIdx).map fun x => if x.2 = a.2 ∨ x.2 = b.2 then (x.1.1, x.1.2 - 1) else x.1)
/-- One gang, or a concurrent launch's whole grid, can never be resident (REASON 0x04); before stage C the safe function takes
point mode only (R556). [log 100 DEDUCED] -/
def recTooBig (s : State) (r : Rec) : Bool :=
  let pens := openPens s
  let room := if r.red then pairsFit (64 * pens.length) (pens.map fun p => (p / s.part.pensPerDie, r.perPen))
    else pens.length * r.perPen
  (decide (s.stage < 3) && r.mode != .point) || decide (room < if r.prog = .concurrent then r.gangs else 1)

/-- One entry of a binding list (R422); none when it breaks the layout. -/
def bindOf (bs : List Byte) : Option Binding :=
  let w := lrBits bs 16 4 0 32
  let lv := Level.ofCode (w / 4 % 4)
  if w % 4 = 3 ∨ 2 ^ 8 ≤ w ∨ lv.count ≤ w / 16 ∨ (bs.drop 20).any (· != 0) then none
  else some { space := bindSpaceOf (w % 4), base := lrBits bs 0 8 0 64, len := lrBits bs 8 8 0 64, level := lv, barn := w / 16 }
/-- The table a binding list gives, entry by entry (R422, R346); none when an entry is bad. -/
def bindList (r : Rec) (bs : List Byte) : Option (List Binding) :=
  (List.range r.bindn).foldl (fun acc i => match acc, bindOf ((bs.drop (32 * i)).take 32) with
    | some t, some b => if bindStatus r t b = 0 then some (bindTable r t b) else none
    | _, _ => none) (some [])
/-- Read the binding list (R422): what `owner` finds there, none when it breaks R422 or R346. -/
def readBinds (s : State) (owner : List Nat) (r : Rec) : Except ReadErr (Option (List Binding)) :=
  (readVirt s owner r.asid 0 r.bindp.toNat (32 * r.bindn)).map (bindList r)

/-- A placement word puts a page on a stack of a die (R313, R444). -/
def plwOnDie (plw : Word) (die : Nat) : Bool :=
  decide (plwKind plw ≤ 1) && (stacksOf (plwStack plw)).any fun st => st / 6 == die
/-- Some leaf under a table is placed on a die; `fuel` is the levels left. -/
def tableOnDie (s : State) (die : Nat) : Nat → Nat → Nat → Bool
  | 0, _, _ => false
  | f + 1, level, pa =>
    paOk pa && !s.fenced.contains (keyDie pa) && (List.range (if level = 1 then 256 else if level = 5 then 32 else 512)).any fun i =>
      let (lo, plw, attr) := rdEntry s (pa + 16 * i)
      bitOf lo 0 && (if bitOf lo 1 then !leafMalformed lo plw attr level && plwOnDie plw die
        else !tableMalformed lo plw attr level && tableOnDie s die f (level + 1) (fieldOf lo 9 41 * 512))
/-- A context maps a page placed on a die (R424, R444). -/
def asidOnDie (s : State) (asid die : Nat) : Bool :=
  bitOf (s.rdReg (rCTXCFG asid)) 31 && tableOnDie s die 5 1
    (rootOf s asid)

/-- The checks of a record that come before its binding list (R424, R555): the lowest REASON that applies. -/
def recEarly (s : State) (bs : List Byte) : Option Nat :=
  let r := recOf bs
  if s.fwBad || recReserved bs then some 1
  else if recShape r then some 2
  else if r.rel ∧ r.prog = .concurrent then some 3
  else if recTooBig s r then some 4
  else none
/-- The dispatcher's check of a record with the binding list it has read (R424): the lowest REASON that applies.
[log 96 DEDUCED] -/
def recReason (s : State) (bs : List Byte) (binds : Option (List Binding)) : Option Nat :=
  let r := recOf bs
  if (recEarly s bs).isSome then recEarly s bs
  else if binds.isNone then some 5
  else if recTile r then some 6
  else if (r.deps.any fun d => !bitOf (s.rdReg (rLQCFG d.1)) 31) then some 7
  else if s.fenced.any (asidOnDie s r.asid) then some 8
  else none

end Sys2Proof.Machine
end

