-- ==== Sys2Proof/Machine/Launch.lean ====
section
/-! DEFINITION. The dispatcher: taking and admitting launches, placing, setting aside and restoring gangs, the host's launch
commands and completion (01_work R10-R24, R32-R37, R48-R53, 20_memories R304-R311, 32_launch R418-R431, 41_tables R504-R509). -/

namespace Sys2Proof.Machine

open Sys2Proof

/-- The gangs of a launch. -/
def gangsOf (s : State) (lid : Nat) : List (Nat × Gang) := s.gangs.filter fun g => g.2.lid == lid
/-- The groups of a gang's blocks. -/
def gangGroups (s : State) (ga : Gang) : List Nat :=
  ga.blocks.flatMap fun bid => ((tget s.blocks bid).map (·.groups)).getD []
/-- The groups of a launch. -/
def launchGroups (s : State) (lid : Nat) : List Nat := (gangsOf s lid).flatMap fun g => gangGroups s g.2
/-- The launch a block belongs to. -/
def blockLaunch (s : State) (b : Block) : Option Launch := (tget s.gangs b.gang).bind fun g => tget s.launches g.lid

/-- The blocks that hold registers, slots and rings of a core (R286, R309): those that have not exited, and of a redundant launch
those whose last set is not released yet. -/
def resBlocks (s : State) (core : Nat) : List (Nat × Block) :=
  (placedBlocks s core).filter fun b => !b.2.exited || (!b.2.released && (blockLaunch s b.2).any fun l => l.rec0.red)
/-- A span of lane columns in use: slot, offset, width and entries per column (R16, R17). -/
structure Span where
  slot : Nat
  lofs : Nat
  width : Nat
  cost : Nat
deriving DecidableEq, Repr
def coreSpans (s : State) (core : Nat) : List Span :=
  (resBlocks s core).flatMap fun b => match blockLaunch s b.2 with
    | none => []
    | some l => b.2.groups.filterMap fun gid => (tget s.groups gid).map fun g => ⟨g.slot, g.lofs, l.rec0.width, l.rec0.cost⟩
/-- Entries in use in the fullest column of a span (R17). -/
def spanLoad (sp : List Span) (slot lofs w : Nat) : Nat :=
  ((List.range w).map fun i => (sp.filter fun x => x.slot == slot && decide (x.lofs ≤ lofs + i) && decide (lofs + i < x.lofs + x.width)).foldl
    (fun n x => n + x.cost) 0).foldl Nat.max 0
/-- Slots and offsets for `n` groups, each at the lowest place with room (R16, R17). -/
def placeGroups (w cost : Nat) : Nat → List Span → Option (List (Nat × Nat))
  | 0, _ => some []
  | n + 1, sp =>
    let all := (List.range 4).flatMap fun slot => (List.range (64 / w)).map fun i => (slot, i * w)
    match all.find? fun x => spanLoad sp x.1 x.2 w + cost ≤ 2048 with
    | none => none
    | some x => (placeGroups w cost n (sp ++ [⟨x.1, x.2, w, cost⟩])).map fun r => x :: r
/-- The lowest hole for a footprint (R306): array offset 0, or the end of another footprint. [log 101 DEDUCED] -/
def holeAt (used : List (Nat × Nat)) (need : Nat) : Option Nat :=
  let ok (o : Nat) : Bool := decide (o + need ≤ 917504) && used.all fun u => decide (o + need ≤ u.1) || decide (u.1 + u.2 ≤ o)
  ((0 :: used.map fun u => u.1 + u.2).filter ok).foldl (fun acc o => match acc with
    | none => some o
    | some m => some (Nat.min m o)) none

/-- Where a block goes: its core, the slot and offset of each group, the array offset of its allocation. -/
structure Seat where
  core : Nat
  lanes : List (Nat × Nat)
  base : Nat
deriving DecidableEq, Repr
/-- A block of a launch fits a core now (R17, R18, R234, R304, R306, R396). [log 101 DEDUCED] -/
def coreSeat (s : State) (r : Rec) (core : Nat) : Option Seat :=
  let res := resBlocks s core
  let sum (f : Rec → Nat) : Nat := res.foldl (fun n b => n + ((blockLaunch s b.2).map fun l => f l.rec0).getD 0) 0
  let foot := footprint r.asize
  let used := ((placedBlocks s core).filter fun b => b.2.asize != 0).map fun b => (b.2.base - 256, footprint b.2.asize)
  if 8 ≤ res.length ∨ 64 < sum (·.groups) + r.groups ∨ 8 < sum (·.tslotn) + r.tslotn ∨ 32 < sum (·.ringn) + r.ringn
      ∨ 917504 < portion (coreFoot s core + foot) then none
  else match placeGroups r.width r.cost r.groups (coreSpans s core), (if foot = 0 then some 0 else holeAt used foot) with
    | some lanes, some o => some ⟨core, lanes, o + 256⟩
    | _, _ => none

/-- A core is marked suspect (R548). -/
def suspect (s : State) (core : Nat) : Bool :=
  let c := core % s.part.coresPerDie
  bitOf (s.rdReg (rSUSP (coreDie s core) (c / 32))) (c % 32)
/-- Seats for a gang on one pen, its lowest cores (R427); not on the cores `avoid`, and not on suspect ones in a redundant launch
(R428). -/
def penSeats (s : State) (r : Rec) (avoid : List Nat) (pen : Nat) : Option (List Seat) :=
  let seats := ((List.range 8).filterMap fun i =>
    let core := 8 * pen + i
    if avoid.contains core || (r.red && suspect s core) then none else coreSeat s r core).take r.gang
  if seats.length = r.gang then some seats else none
/-- The first pen of a list on which a gang fits. -/
def pickPen (s : State) (r : Rec) (avoid pens : List Nat) : Option (Nat × List Seat) :=
  pens.findSome? fun p => (penSeats s r avoid p).map fun x => (p, x)
/-- Pens and seats for a gang: one, or for a redundant launch two on different pens, the second on the other die where it fits
(R427, R428). [log 103 DEDUCED] -/
def findSeats (s : State) (r : Rec) (avoid : List Nat) : Option (List (Nat × List Seat)) :=
  let pens := openPens s
  match pickPen s r avoid pens with
  | none => none
  | some a =>
    if !r.red then some [a]
    else
      let die (p : Nat) : Nat := p / s.part.pensPerDie
      let others := (pens.filter fun p => die p != die a.1) ++ pens.filter fun p => die p == die a.1 && p != a.1
      (pickPen s r avoid others).map fun b => [a, b]
/-- Seats for a gang that is relaunched: other cores when possible (R443). -/
def seatsFor (s : State) (r : Rec) (avoid : List Nat) : Option (List (Nat × List Seat)) :=
  match findSeats s r avoid with
  | some x => some x
  | none => if avoid.isEmpty then none else findSeats s r []

/-- A core takes blocks of a launch: before the first of the launch its L1 drops every line (R365); what no longer fits beside
the scratchpad portion is dropped (R304). [log 102 DEDUCED] -/
def settleCore (s : State) (lid core : Nat) : State :=
  let s1 := match tget s.launches lid with
    | some l => if l.seenCores.contains core then s
        else modLaunch (dropL1 s (some core) fun _ => true) lid fun l => { l with seenCores := l.seenCores ++ [core] }
    | none => s
  setL1 s1 core ((l1Of s1 core).take (l1Lines s1 core))

/-- The descriptor of the RGN a kernel begins with (R154, R155), when one can be read there. -/
def entryDesc (s : State) (r : Rec) (core : Nat) : DWord :=
  match fetchLine s 0 r.asid core (pcLine r.kaddr) with
  | .ok l => match decode (l.words.getD (pcSlot r.kaddr) 0) with
    | .ok (.rgn o) => r.cseg + o.imm.setWidth 64
    | _ => 0
  | .error _ => 0
/-- Resident group indices free on a core, lowest first (R177). -/
def freeRgis (s : State) (core : Nat) : List Nat :=
  let used := (resBlocks s core).flatMap fun b => b.2.groups.filterMap fun gid => (tget s.groups gid).map (·.rgi)
  (List.range 64).filter fun i => !used.contains i
/-- A group as it starts on a core: its resident index and its first descriptor. -/
def Group.begin (g : Group) (rgi : Nat) (lidp : DWord) : Group :=
  { g with rgi := rgi, entries := g.entries.map fun e => (e.1, { e.2 with lidp := lidp }) }

/-- Start a gang on its seats (R23): blocks with zeroed scratchpads, groups at their first RGN. A redundant copy takes its first
checkpoint before it issues (R439). -/
def startGang (s : State) (lid index copy relaunches : Nat) (r : Rec) (at_ : Nat × List Seat) : State :=
  let k := s.nextId
  let per := r.groups + 1
  let bids := (List.range r.gang).map fun m => k + 1 + per * m
  let ga : Gang := { lid := lid, index := index, copy := copy, st := .resident, pen := at_.1, blocks := bids, bars := [],
                     relaunches := relaunches, forfeit := false }
  let s1 := { s with nextId := k + 1 + per * r.gang, gangs := tset s.gangs k ga }
  let s2 := (at_.2.zipIdx).foldl (fun s (x : Seat × Nat) =>
    let bid := k + 1 + per * x.2
    let gids := (List.range r.groups).map fun i => bid + 1 + i
    let b := { Block.start r k (index * r.gang + x.2) x.1.core x.1.base gids with ckptDue := r.red }
    let free := freeRgis s x.1.core
    let desc := entryDesc s r x.1.core
    { s with blocks := tset s.blocks bid b,
             groups := (x.1.lanes.zipIdx).foldl (fun t (y : (Nat × Nat) × Nat) =>
               tset t (bid + 1 + y.2) ((Group.start r bid y.2 y.1.1 y.1.2).begin (free.getD y.2 0) desc)) s.groups }) s1
  at_.2.foldl (fun s x => settleCore s lid x.core) s2

/-- Cores a killed gang of an index stood on. [log 103 DEDUCED] -/
def oldCores (s : State) (lid index : Nat) : List Nat :=
  ((gangsOf s lid).filter fun g => g.2.index == index && g.2.st == .killed).flatMap fun g =>
    g.2.blocks.filterMap fun b => (tget s.blocks b).map (·.core)
/-- Place a gang of a launch, both copies of a redundant one at once; none when it does not fit now. [log 99 DEDUCED] -/
def placeGang (s : State) (lid index : Nat) : Option State :=
  match tget s.launches lid with
  | none => none
  | some l =>
    if !(l.place.any fun x => x.1 == index) then none
    else (seatsFor s l.rec0 (oldCores s lid index)).map fun at_ =>
      let n := ((l.relaunched.filter fun x => x.1 == index).map (·.2)).foldl Nat.max 0
      let s1 := modLaunch s lid fun l => { l with place := l.place.filter fun x => x.1 != index }
      (at_.zipIdx).foldl (fun s x => startGang s lid index x.2 n l.rec0 x.1) s1

/-- A group as it is restored (R52, R177, R449): its slot, offset and resident index; the cycle count of the core it reads; its commands not started
are for the engines of the new die. -/
def Group.resume (g : Group) (s : State) (core clock rgi : Nat) (at_ : Nat × Nat) : Group :=
  let cmd (x : Cmd) : Cmd := if x.started then x else { x with core := core }
  { g with slot := at_.1, lofs := at_.2, rgi := rgi, cych := hiWord (cget 0 s.cyc clock),
           qs := g.qs.map fun q => (q.1, { q.2 with cmds := q.2.cmds.map cmd }) }
/-- A core's L1 lines serve a group no more: they could be older than what it has seen (R344). -/
def lateAll (s : State) (core : Nat) (gids : List Nat) : State :=
  setL1 s core ((l1Of s core).map fun x => { x with late := gids ++ x.late })
/-- Seat a gang that was set aside again (R52, R53): new cores, slots and offsets. Lines its cores hold do not serve it (R344). -/
def reseat (s : State) (lid k : Nat) (at_ : Nat × List Seat) : State :=
  match tget s.gangs k with
  | none => s
  | some ga =>
    let before := s
    let s1 := modGang s k fun g => { g with st := .resident, pen := at_.1 }
    let s2 := (ga.blocks.zip at_.2).foldl (fun s (x : Nat × Seat) => match tget s.blocks x.1 with
      | none => s
      | some b =>
        let free := freeRgis before x.2.core
        let s' := modBlock s x.1 fun b => { b with core := x.2.core, base := x.2.base }
        ((b.groups.zip x.2.lanes).zipIdx).foldl (fun s y =>
          modGroup s y.1.1 fun g => g.resume s x.2.core (clockCore s' x.1 x.2.core) (free.getD y.2 0) y.1.2) s') s1
    (ga.blocks.zip at_.2).foldl (fun s x =>
      lateAll (settleCore s lid x.2.core) x.2.core (((tget s.blocks x.1).map (·.groups)).getD [])) s2
/-- Restore a gang index of a launch, both copies of a redundant one; none when it does not fit now. -/
def restoreIndex (s : State) (lid index : Nat) : Option State :=
  match tget s.launches lid with
  | none => none
  | some l =>
    let gs := (gangsOf s lid).filter fun g => g.2.index == index && g.2.st == .setAside
    if gs.isEmpty then none
    else (findSeats s l.rec0 []).map fun at_ => (gs.zip at_).foldl (fun s x => reseat s lid x.1.1 x.2) s
/-- Gang indices of a launch in a state. -/
def gangIdx (s : State) (lid : Nat) (st : GangSt) : List Nat :=
  (((gangsOf s lid).filter fun g => g.2.st == st).map fun g => g.2.index).eraseDups
/-- Restore what a launch restores together (R35): a weak launch one gang, the others every gang set aside. [log 99 DEDUCED] -/
def restoreGangs (s : State) (lid index : Nat) : Option State :=
  match tget s.launches lid with
  | none => none
  | some l =>
    let idx := gangIdx s lid .setAside
    if l.st ≠ .running ∨ !idx.contains index then none
    else if l.rec0.prog = .weak then restoreIndex s lid index
    else idx.foldl (fun acc i => acc.bind fun s => restoreIndex s lid i) (some s)

/-- Register values of a queue. -/
def queueOn (s : State) (q : Nat) : Bool := bitOf (s.rdReg (rLQCFG q)) 31
def queueCap (s : State) (q : Nat) : Nat := 2 ^ (Nat.min 12 (fieldOf (s.rdReg (rLQCFG q)) 0 4) + 4)
def queueSlot (s : State) (q : Nat) : Nat :=
  fieldOf (s.rdReg (rLQBASEL q)) 9 23 * 512 + fieldOf (s.rdReg (rLQBASEH q)) 0 24 * 2 ^ 32
    + 512 * ((s.rdReg (rLQHEAD q)).toNat % queueCap s q)
/-- LQDONE of a queue (R418): the lowest sequence number of a launch that has not completed, else HEAD. -/
def setDone (s : State) (q : Nat) : State :=
  let d := s.rdReg (rLQDONE q)
  let ahead (w : Word) : Nat := (w - d).toNat
  let live := (s.launches.filter fun l => l.2.queue == q).map fun l => ahead (BitVec.ofNat 32 l.2.seq)
  let h := ahead (s.rdReg (rLQHEAD q))
  s.wrReg (rLQDONE q) (d + BitVec.ofNat 32 (live.foldl Nat.min h))

/-- The sixteen words of a completion record (R426). -/
def completionWords (l : Launch) (status reason : Nat) : List Word :=
  let (blk, cause, pc) : Nat × Word × DWord := l.first.getD (0, 0, 0)
  [BitVec.ofNat 32 (status * 2 ^ 24 + reason * 2 ^ 16), l.rec0.handle, BitVec.ofNat 32 l.kills, BitVec.ofNat 32 l.relaunches,
   BitVec.ofNat 32 l.sigt, BitVec.ofNat 32 l.ovf, BitVec.ofNat 32 blk, BitVec.ofNat 32 (blk / 2 ^ 32), cause, loWord pc, hiWord pc,
   l.tilef, BitVec.ofNat 32 l.forfeits, BitVec.ofNat 32 l.gkills, 0, 0x80000000]
/-- The record's address at a page closed by a move: the write waits. [log 113 DEDUCED] -/
def completionWaits (s : State) (r : Rec) : Bool :=
  match locatePiece s r.asid 0 r.cpla.toNat .write with
  | .ok (.here t) => tgtClosed s t
  | _ => false
/-- Write a completion record, unless its address does not translate with W or names an uncorrectable line (R426); one
at another device is sent there in the name of the launch. [log 113 DEDUCED] -/
def writeCompletion (s : State) (lid : Nat) (l : Launch) (status reason : Nat) : State :=
  let bytes := (completionWords l status reason).flatMap fun w => bytesOf w.toNat 4
  match locatePiece s l.rec0.asid 0 l.rec0.cpla.toNat .write with
  | .ok (.here t) => if tgtBad s t 64 then s else writeTgtAs s (pageCls s l.rec0.asid (2 ^ 20) 0 none l.rec0.cpla.toNat) t bytes
  | .ok _ => match writeVirt s lid l.rec0.asid 0 l.rec0.cpla.toNat bytes with
    | .ok s1 => s1
    | .error _ => s
  | .error _ => walkErrs s l.rec0.asid 0 l.rec0.cpla.toNat 64
/-- A launch whose record is written is over (R426, R504, R508): its table, its reservation and its attachments are free, and LQDONE
advances. -/
def freeLaunch (s1 : State) (lid : Nat) (l : Launch) : State :=
  let gs := gangsOf s1 lid
  let bids := gs.flatMap fun g => g.2.blocks
  let gids := launchGroups s1 lid
  let srt := s1.srt.filter fun x => x.lid != lid
  let s2 := { s1 with
    launches := tdel s1.launches lid, gangs := s1.gangs.filter fun g => g.2.lid != lid,
    blocks := s1.blocks.filter fun b => !bids.contains b.1, groups := s1.groups.filter fun g => !gids.contains g.1,
    fars := s1.fars.filter fun f => !ownedBy (lid :: bids ++ gids) f,
    srt := srt, colls := s1.colls.filter fun c => c.lid != lid,
    dbg := s1.dbg.map fun (d : Nat × Dbg) => if d.2.lid = some lid then (d.1, { d.2 with lid := none }) else d }
  setDone (s2.setRegBits rSRTSTAT 0 7 srt.length) l.queue
/-- A launch ends (R426): its record is written, and once it is there the launch is over. -/
def endLaunch (s : State) (lid : Nat) (l : Launch) (status reason : Nat) : State :=
  let s1 := writeCompletion s lid l status reason
  if s1.fwaits.any fun w => w.gid == lid then
    { s1 with launches := tset s1.launches lid { l with st := .running, place := [], posted := true } }
  else freeLaunch s1 lid l

/-- A launch just taken. -/
def newLaunch (q seq prio : Nat) (r : Rec) (binds : List Binding) : Launch :=
  { queue := q, seq := seq, prio := prio, rec0 := r, st := .taken, binds := binds, place := [], relaunched := [], bars := [],
    kills := 0, relaunches := 0, sigt := 0, ovf := 0, first := none, tilef := 0, forfeits := 0, gkills := 0, status := 0,
    seenCores := [], attached := none, brks := [], watches := [] }

/-- A queue can be served (R418, R419, R420, R504): enabled, its records in storage and not overrun, a record waits, none of the
queue's taken records is still to be admitted, and a binding table is free. [log 105 DEDUCED] -/
def queueReady (s : State) (q : Nat) : Bool :=
  let n := (s.rdReg (rLQTAIL q) - s.rdReg (rLQHEAD q)).toNat
  s.running && (s.fwBad || decide (1 ≤ s.stage)) && decide (q < 16) && queueOn s q && n != 0 && decide (n ≤ queueCap s q)
    && fieldOf (s.rdReg (rLQBASEL q)) 0 9 == 0 && paOk (queueSlot s q) && !s.fenced.contains (keyDie (queueSlot s q))
    && !(s.launches.any fun l => l.2.queue == q && l.2.st == .taken) && decide (s.launches.length < 256)
/-- A read of the binding list reaches its lines at their slices, and counts walks that met an uncorrectable entry (R302, R472). -/
def readList (s : State) (r : Rec) : State :=
  let n := 32 * r.bindn
  touchVirt (walkErrs s r.asid 0 r.bindp.toNat n) r.asid 0 r.bindp.toNat n
/-- LAUNCH_TAKE (R419, R424): the binding list is asked for when it lies at another device (R479); then the record is read once, HEAD moves on, and a record that fails a check is refused.
[log 104 DESIGN CHOICE, 105 DEDUCED] -/
def execLaunchTake (queue : Nat) (s : State) : Host.Outcome State Fault Refusal :=
  if !queueReady s queue then .fault .notEnabled
  else
    let bs := s.rdLossy (queueSlot s queue) 512
    let head := s.rdReg (rLQHEAD queue)
    let r := recOf bs
    let lid := s.nextId
    match (if (recEarly s bs).isSome then .ok none else readBinds s [3, queue] r) with
    | .error .waits => .fault .notEnabled
    | .error .asks => .next (askVirt s [3, queue] r.asid 0 r.bindp.toNat (32 * r.bindn))
    | binds =>
      let l := newLaunch queue head.toNat (fieldOf (s.rdReg (rLQCFG queue)) 4 2) r []
      let s0 := (List.range 4).foldl (fun s i => touchL2 s (queueSlot s queue + 128 * i) 0 false) s
      let s1 := dropFars { s0.wrReg (rLQHEAD queue) (head + 1) with nextId := lid + 1, free := s.free + 512, launches := tset s.launches lid l } [3, queue]
      let s2 := if (recEarly s bs).isSome then s1 else readList s1 r
      match recReason s bs (binds.toOption.getD none) with
      | some n => if completionWaits s r then .fault .notEnabled else .next (endLaunch s2 lid l 1 n)
      | none => .next s2

/-- A taken record is ready to admit (R423). [log 106 DEDUCED] -/
def admitReady (s : State) (l : Launch) : Bool :=
  l.st == .taken && (l.rec0.deps.all fun d => decide (d.2 < (s.rdReg (rLQDONE d.1)).toNat))
    && (!l.rec0.ser || (s.rdReg (rLQDONE l.queue)).toNat == l.seq)
/-- Every gang of a concurrent launch placed together (R33, R425). -/
def placeGrid (s : State) (lid : Nat) (r : Rec) : Option State :=
  (List.range r.gangs).foldl (fun acc i => acc.bind fun s => placeGang s lid i) (some s)
/-- The order among ready records (R420): higher PRI first, then round robin after the queue last served at that level.
[log 106 DEDUCED] -/
def queueTurn (s : State) (l : Launch) : Nat :=
  16 * (3 - l.prio) + (l.queue + 15 - ((tget s.served l.prio).getD 15)) % 16
/-- Enter a launch's stream key in the reservation table (R509). -/
def reserveStream (s : State) (lid : Nat) (r : Rec) : State :=
  if r.stream = 0 then s
  else
    let hit := (s.srt.filter fun x => x.key == r.stream).getLast?
    let s1 := match hit with
      | none => s
      | some x => ((((s.setRegBits rSRTSTAT 31 1 1).wrReg rSRTLOGA r.handle).wrReg rSRTLOGB x.handle).wrReg rSRTLOGKL (loWord r.stream)).wrReg
          rSRTLOGKH (hiWord r.stream)
    if s1.srt.length < 64 then
      { s1.setRegBits rSRTSTAT 0 7 (s1.srt.length + 1) with
        srt := s1.srt ++ [⟨r.stream, r.blocks * 1024, r.handle, lid⟩] }
    else s1.setRegBits rSRTSTAT 30 1 1
/-- Admit a launch (R425, R504, R509): a concurrent one with its whole grid; none while that does not fit. -/
def admitted (s : State) (lid : Nat) (l : Launch) : Option State :=
  let r := l.rec0
  let place := (List.range r.gangs).flatMap fun g => if r.red then [(g, 0), (g, 1)] else [(g, 0)]
  let s1 := modLaunch (reserveStream s lid r) lid fun l => { l with st := .running, place := place }
  if r.prog = .concurrent then placeGrid s1 lid r else some s1
/-- What a die fence since the take makes of a taken record (R424, R444). [log 107 DEDUCED] -/
def lateReason (s : State) (l : Launch) : Option Nat :=
  if recTooBig s l.rec0 then some 4 else if s.fenced.any (asidOnDie s l.rec0.asid) then some 8 else none
/-- LAUNCH_ADMIT (R420, R423, R425, R504): the binding list, asked for again when it lies at another device, fills the launch's table; one
that cannot be read any more refuses the launch. [log 107 DEDUCED] -/
def execLaunchAdmit (lid : Nat) (s : State) : Host.Outcome State Fault Refusal :=
  match tget s.launches lid with
  | none => .fault .notEnabled
  | some l =>
    let can (x : Nat × Launch) : Bool := admitReady s x.2 && (admitted s x.1 x.2).isSome
    if !admitReady s l then .fault .notEnabled
    else match lateReason s l with
      | some n => if completionWaits s l.rec0 then .fault .notEnabled else .next (endLaunch s lid l 1 n)
      | none =>
        if (s.launches.any fun x => decide (queueTurn s x.2 < queueTurn s l) && can x) then .fault .notEnabled
        else match readBinds s [6, lid] l.rec0 with
          | .error .waits => .fault .notEnabled
          | .error .asks => .next (askVirt s [6, lid] l.rec0.asid 0 l.rec0.bindp.toNat (32 * l.rec0.bindn))
          | .ok (some binds) => match admitted s lid l with
            | none => .fault .notEnabled
            | some s1 =>
              let s2 := modLaunch { s1 with served := tset s1.served l.prio l.queue } lid fun l => { l with binds := binds }
              .next (dropFars (readList s2 l.rec0) [6, lid])
          | _ => if completionWaits s l.rec0 then .fault .notEnabled else .next (endLaunch (dropFars (readList s l.rec0) [6, lid]) lid l 1 5)

/-- A launch of a priority level whose gangs set aside fit again; it goes before new gangs of the level (R429). -/
def restoreFirst (s : State) (prio : Nat) : Bool :=
  s.launches.any fun l => l.2.prio == prio && l.2.st == .running &&
    (gangIdx s l.1 .setAside).any fun i => (restoreGangs s l.1 i).isSome
/-- The gang comes in turn (R32, R37): the lowest index first in a parallel or a deterministic launch. -/
def gangTurn (l : Launch) (index : Nat) : Bool :=
  (l.rec0.prog == .weak && !l.rec0.det) || l.place.all fun x => decide (index ≤ x.1)
/-- Gangs of a parallel or concurrent launch that are set aside keep its further gangs back: they are restored together first (R32,
R35). -/
def heldBack (s : State) (lid : Nat) (l : Launch) : Bool := l.rec0.prog != .weak && gangIdx s lid .setAside != []
/-- GANG_PLACE (R23, R427, R428, R443). -/
def execGangPlace (lid gang : Nat) (s : State) : Host.Outcome State Fault Refusal :=
  match tget s.launches lid with
  | none => .fault .notEnabled
  | some l =>
    if l.st ≠ .running ∨ !gangTurn l gang ∨ heldBack s lid l ∨ restoreFirst s l.prio then .fault .notEnabled
    else match placeGang s lid gang with
      | some s1 => .next s1
      | none => .fault .notEnabled

/-- Bytes a launch's state takes in its save area now, and whether it fits (R430, R437). -/
def saveFits (s : State) (lid : Nat) (l : Launch) : Bool :=
  let bids := ((gangsOf s lid).filter fun g => g.2.st == .resident || g.2.st == .setAside).flatMap fun g => g.2.blocks
  let need := (bids.filterMap (tget s.blocks)).foldl (fun n b => n + saveNeed s b) 0
  l.rec0.savep != 0 && decide (need + spillUsed s lid ≤ l.rec0.savelen)
/-- Nothing of a gang stands in the way of setting it aside (R49, R50, R395, R490, R536): no access and no sweep outstanding, no PDROP
going on, no copy and no started copy or unmasking command, no matrix instruction in progress; a group in trap mode waits for its post's reply, with every result written.
[log 110 DEDUCED] -/
def gangQuiet (s : State) (ga : Gang) : Bool :=
  (ga.blocks.filterMap (tget s.blocks)).all fun b =>
    b.copies.isEmpty && b.tile.job.isNone && !b.ckptDue && b.groups.all fun gid => match tget s.groups gid with
      | none => true
      | some g =>
        g.waitTrap.isNone && !g.halted && !(s.areqs.any fun r => r.gid == gid) && !(s.fwaits.any fun w => w.gid == gid)
          && !(s.sweeps.any fun w => w.gid == some gid) && !(s.drops.any fun d => d.gid == gid)
          && (!g.tm || g.inflight.all (·.ready) && g.entries.any fun e => match e.2.park with
            | some (.reply _ _) => true
            | _ => false)
          && g.qs.all fun q => (decide (4 ≤ q.1) && decide (q.1 < 8)) || q.2.cmds.all fun c => !c.started
/-- SET A GANG ASIDE (R47, R48, R51): every entry loses its progress since its region start, with what it staged; the registers
of R51 are kept, the others are free; the save area is written (R430). [log 174 DESIGN CHOICE] -/
def setAsideGang (s : State) (k : Nat) : State :=
  match tget s.gangs k with
  | none => s
  | some ga =>
    let area := ((gangsOf s ga.lid).filter fun g => g.2.st == .setAside || g.1 == k).flatMap fun g => g.2.blocks
    let need := (area.filterMap (tget s.blocks)).foldl (fun n b => n + saveNeed s b) 0
    let s0 := match tget s.launches ga.lid with
      | some l => writeSave s l.rec0 0 need
      | none => s
    let s1 := ga.blocks.foldl (fun s bid => match tget s.blocks bid with
      | none => s
      | some b =>
        if b.exited then s
        else
          let s2 := b.groups.foldl (fun s gid => match party? s gid with
            | none => s
            | some p =>
              if p.g.done then s
              else
                let t := if p.g.tm then s else modBlock s bid fun b => unstage b p.g (liveLanes p.g)
                { t with groups := tset t.groups gid (keepGroup s p s.free), free := s.free + keepFree }) s
          modBlock s2 bid fun b => { b with extra := none, granted := false, ticket := none }) s0
    modGang s1 k fun g => { g with st := .setAside }

/-- A gang of a launch at a higher level waits for room (R429): one still to place, one to restore, or a concurrent grid.
[log 111 DEDUCED] -/
def waitsAbove (s : State) (prio : Nat) : Bool :=
  s.launches.any fun x => decide (prio < x.2.prio) && match x.2.st with
    | .taken => admitReady s x.2 && x.2.rec0.prog == .concurrent && (admitted s x.1 x.2).isNone
    | .running =>
      (x.2.place.any fun g => gangTurn x.2 g.1 && (placeGang s x.1 g.1).isNone)
        || (gangIdx s x.1 .setAside).any fun i => (restoreGangs s x.1 i).isNone
    | .suspended => false
/-- A lower level still has a gang that may be set aside. [log 111 DEDUCED] -/
def lowerFirst (s : State) (prio : Nat) : Bool :=
  s.launches.any fun x => decide (x.2.prio < prio) && saveFits s x.1 x.2 && gangIdx s x.1 .resident != []
/-- GANG_SET_ASIDE (R24, R35, R429-R431): a suspended launch, or one below a level that waits for room; a weak launch gang by
gang, highest index first, the others whole. Descriptors at other devices are asked for first (R51, R479).
[log 109 DEDUCED, 110 DEDUCED] -/
def execGangSetAside (lid gang : Nat) (s : State) : Host.Outcome State Fault Refusal :=
  match tget s.launches lid with
  | none => .fault .notEnabled
  | some l =>
    let idx := gangIdx s lid .resident
    let why := saveFits s lid l && (l.st == .suspended || l.st == .running && waitsAbove s l.prio && !lowerFirst s l.prio
      && (l.rec0.prog != .weak || idx.all fun i => decide (i ≤ gang)))
    let mine := (gangsOf s lid).filter fun g => g.2.st == .resident && (l.rec0.prog != .weak || g.2.index == gang)
    let s0 := (mine.flatMap fun g => gangGroups s g.2).foldl drainReqs s
    let ps := (mine.flatMap fun g => gangGroups s g.2).filterMap (party? s0)
    if !why ∨ !idx.contains gang ∨ !(mine.all fun g => gangQuiet s0 g.2) then .fault .notEnabled
    else if ps.any (descsWait s0) then
      let s1 := ps.foldl askDescs s0
      if s1 = s then .fault .notEnabled else .next s1
    else .next (ps.foldl (fun s p => dropFars s [2, p.gid]) (mine.foldl (fun s g => setAsideGang s g.1) s0))
/-- GANG_RESTORE (R35, R52, R53, R429): not while work of a higher level waits for the room. -/
def execGangRestore (lid gang : Nat) (s : State) : Host.Outcome State Fault Refusal :=
  if ((tget s.launches lid).any fun l => waitsAbove s l.prio) then .fault .notEnabled
  else match restoreGangs s lid gang with
    | some s1 => .next s1
    | none => .fault .notEnabled

/-- The admitted launch LCMDH names (R431). [log 108 DEDUCED] -/
def namedLaunch (s : State) : Option (Nat × Launch) :=
  s.launches.find? fun l => l.2.st != .taken && l.2.rec0.handle == s.rdReg rLCMDH
/-- A launch command fails (R431). [log 108 DEDUCED] -/
def launchCmdErr (s : State) : State := s.setRegBits rLCMDST 0 1 1
/-- A write of LCMD, through a port that serves it (R445): with none it is an error of the ports, and nothing changes. -/
def onLcmd (s : State) (r : Host.Outcome State Fault Refusal) : Host.Outcome State Fault Refusal :=
  if portServes s 0 || portServes s 1 then r else .next s
/-- SUSPEND (R430, R431): the launch stops issuing, and GANG_SET_ASIDE sets its gangs aside. [log 109 DEDUCED] -/
def execSuspend (s : State) : Host.Outcome State Fault Refusal :=
  onLcmd s <| match namedLaunch s with
  | some (lid, l) =>
    if !saveFits s lid l then .next (launchCmdErr s)
    else .next (modLaunch s lid fun l => { l with st := .suspended })
  | none => .next (launchCmdErr s)
/-- RESUME (R431): the launch may run and be restored again. -/
def execResume (s : State) : Host.Outcome State Fault Refusal :=
  onLcmd s <| match namedLaunch s with
  | some (lid, _) => .next (modLaunch s lid fun l => { l with st := .running })
  | none => .next (launchCmdErr s)
/-- Kill every gang of a launch; it completes with a status (R431, R444). The gangs count as killed and not relaunched, those that waited
for a relaunch among them, and the first is the first kill, with no cause and pc (R426). [log 112 DEDUCED, 167 DESIGN CHOICE] -/
def killLaunch (s : State) (lid status : Nat) : State :=
  let mine := (gangsOf s lid).filter fun g => g.2.st != .retired && g.2.st != .killed
  let s1 := mine.foldl (fun s g => modGang (clearGang s g.2) g.1 fun g => { g with st := .killed }) s
  let idx := (mine.map fun g => g.2.index).eraseDups
  modLaunch s1 lid fun l =>
    let again := ((l.place.map (·.1)).eraseDups.filter fun i => l.relaunched.any fun x => x.1 == i).length
    let blk := (idx.foldl Nat.min (idx.headD 0)) * l.rec0.gang
    let l1 := if idx.isEmpty then l else noteKill l blk 0 0
    { l1 with st := .running, place := [], status := status, kills := l.kills + idx.length + again, relaunches := l.relaunches - again }
/-- CANCEL (R431). [log 112 DEDUCED] -/
def execCancel (s : State) : Host.Outcome State Fault Refusal :=
  onLcmd s <| match namedLaunch s with
  | some (lid, _) => .next (killLaunch s lid 4)
  | none => .next (launchCmdErr s)
/-- UNDEFINED_LAUNCH_COMMAND (R431): a write of LCMD with another code. -/
def execUndefinedLaunchCommand (port : Ports) (val : BitVec 32) (s : State) : Host.Outcome State Fault Refusal :=
  if 1 ≤ fieldOf val 28 4 ∧ fieldOf val 28 4 ≤ 3 then .fault .notEnabled else onWrite s port portServes fun _ s => launchCmdErr s

/-- A launch is over (R426): every gang has retired or was killed, and every engine command, matrix instruction in progress (R235) and
access of its groups is complete. -/
def launchOver (s : State) (lid : Nat) (l : Launch) : Bool :=
  let gids := launchGroups s lid
  l.st == .running && l.place.isEmpty && ((gangsOf s lid).all fun g => g.2.st == .retired || g.2.st == .killed)
    && !(s.areqs.any fun r => gids.contains r.gid) && !(s.fwaits.any fun w => gids.contains w.gid)
    && (gids.all fun gid => ((tget s.groups gid).map fun g => g.qs.all fun q => q.2.cmds.isEmpty).getD true)
    && ((gangsOf s lid).all fun g => g.2.blocks.all fun b => ((tget s.blocks b).map fun b => b.copies.isEmpty && b.tile.job.isNone).getD true)
/-- LAUNCH_COMPLETE (R426). -/
def execLaunchComplete (lid : Nat) (s : State) : Host.Outcome State Fault Refusal :=
  match tget s.launches lid with
  | none => .fault .notEnabled
  | some l =>
    if l.posted then if s.fwaits.any fun w => w.gid == lid then .fault .notEnabled else .next (freeLaunch s lid l)
    else if !launchOver s lid l || completionWaits s l.rec0 then .fault .notEnabled
    else .next (endLaunch s lid l (if l.status ≠ 0 then l.status else if l.kills ≠ 0 ∨ l.gkills ≠ 0 then 2 else 0) 0)

end Sys2Proof.Machine
end

