-- ==== Sys2Proof/Machine/Contain.lean ====
section
/-! DEFINITION. Releases of staged sets, comparison of redundant copies, containment, the die fence and the host's side of the trap
queue (32_launch R433-R448, 40_translation R496, 15_traps R289). -/

namespace Sys2Proof.Machine

open Sys2Proof

/-- A block with its gang and launch. -/
def blockParty (s : State) (bid : Nat) : Option (Block × Gang × Launch) :=
  (tget s.blocks bid).bind fun b => (tget s.gangs b.gang).bind fun g => (tget s.launches g.lid).map fun l => (b, g, l)
/-- The current set of a block. -/
def currentSet (b : Block) : List Staged := b.staged.filter fun x => x.part == 0

/-- STAGED_SET_RELEASE (R362, R433, R434): a block at a release point releases its set: with the ticket in a deterministic launch,
after the copies agreed in a redundant one, and while no page of it is closed (R493). -/
def execStagedSetRelease (bid : Nat) (s : State) : Host.Outcome State Fault Refusal :=
  match blockParty s bid, pointOf s bid with
  | some (b, _, l), some pt =>
    if pt = .extra ∨ (l.rec0.red ∧ !b.matched) ∨ !holdsTicket s bid ∨ setClosed s bid (currentSet b) then .fault .notEnabled
    else .next (releaseSet s bid pt)
  | _, _ => .fault .notEnabled

/-- Mark both cores of a lasting mismatch suspect, count it on each copy's die and contain the gang (R439, R442).
[log 116 DEDUCED] -/
def lastingMismatch (s : State) (b t : Block) (g : Gang) : State :=
  let mark (s : State) (core : Nat) : State :=
    let c := core % s.part.coresPerDie
    s.setRegBits (rSUSP (coreDie s core) (c / 32)) (c % 32) 1 1
  let s1 := (mark (mark s b.core) t.core).countErr true (coreDie s b.core) 7
  let pc := match b.groups.head?.bind (tget s.groups) with
    | some x => (x.entries.head?.map fun e => e.2.pc).getD 0
    | none => 0
  containGang s1 g.lid g.index 0x20 0 pc b.index b.core 0
/-- What a comparison of two copies finds: they agree, with the part of the set they agree on at an extra release point; they do not; one of
them has to ask later; or it cannot be made yet. -/
inductive Verdict where
  | agree (part : Option (List Nat × Bool))
  | differ
  | later (bid : Nat)
  | wait
deriving DecidableEq, Repr
/-- Compare two copies, one of them at a release point (R437, R439, R440). For room in a buffer what both have staged is compared, once
the other has staged as much or stands at a release point itself; for an instruction of R338 or R440 both stand at it, and the copies
that ask at different groups' instructions do so one after the other; else both stand at one barrier, or at exit, with equal sets.
[log 115 DEDUCED, 168 DESIGN CHOICE] -/
def compareCopies (s : State) (bid tid : Nat) (b t : Block) (copy : Nat) (pt : Point) (qt : Option Point) : Verdict :=
  let lens := commonLens s b t
  let same := partSig b lens = partSig t lens
  let own (x : Block) : Option Nat := x.extra.bind fun e => (tget s.groups e.1).map (·.gidx)
  let open_ (x : Block) : Bool := x.full && x.extra.isSome && !x.granted
  if pt = .extra ∧ b.full then
    if qt.isSome || caughtUp s b t then if partSig { b with asked := [] } lens = partSig { t with asked := [] } lens then .agree (some (lens, true)) else .differ
    else .wait
  else if open_ t then .wait
  else match pt, qt with
    | _, none => .wait
    | .extra, some .extra =>
      if own b ≠ own t then .later (if copy = 0 then tid else bid)
      else if same ∧ ((b.extra.any fun e => e.2 == noEid) ∨ (own b).all fun i => (groupItems b i).length == (groupItems t i).length) then
        .agree (some (lens, false))
      else .differ
    | pt, some qt => if pt = qt ∧ signature b = signature t then .agree none else .differ
/-- SIGNATURE_COMPARE (R31, R437-R440): copies that agree at an extra point have the set so far released, at another they wait for its
release. Where they differ, both run again from their checkpoints, and a second time the gang is contained.
[log 115 DEDUCED, 116 DEDUCED] -/
def execSignatureCompare (bid : Nat) (s : State) : Host.Outcome State Fault Refusal :=
  match blockParty s bid, pointOf s bid, twinBlock s bid with
  | some (b, g, l), some pt, some tid =>
    match tget s.blocks tid with
    | none => .fault .notEnabled
    | some t =>
      let wait := l.rec0.det && pt == .extra && !holdsTicket s bid
      if !l.rec0.red ∨ b.matched ∨ wait ∨ (pt = .extra ∧ setClosed s bid (currentSet b)) then .fault .notEnabled
      else match compareCopies s bid tid b t g.copy pt (pointOf s tid) with
        | .wait => .fault .notEnabled
        | .later k => .next (askLater s k)
        | .agree part =>
          let s1 := if b.reruns = 0 then s
            else (modLaunch s g.lid fun l => { l with sigt := l.sigt + 1 }).countErr false (coreDie s b.core) 7
          .next (match part with
            | some (lens, forRoom) => releasePart s1 bid tid b t lens l.rec0.rel forRoom
            | none => modBlock (modBlock s1 bid fun x => { x with matched := true }) tid fun x => { x with matched := true })
        | .differ => if b.reruns = 0 then .next (restoreCkpt (restoreCkpt s bid) tid) else .next (lastingMismatch s b t g)
  | _, _, _ => .fault .notEnabled

/-- Codes a kill record may carry (R281, R446). -/
def killCode (n : Nat) : Bool := (decide (1 ≤ n) && decide (n ≤ 0x14)) || n == 0x20 || n == 0x22
/-- GANG_CONTAINMENT (R442, R446): a lasting error pinned to the core of a member, of either copy, contains the gang; the code is the
error's. -/
def execGangContainment (lid gang : Nat) (err : CoreErr) (s : State) : Host.Outcome State Fault Refusal :=
  let members := ((gangsOf s lid).filter fun g => g.2.index == gang && g.2.st == .resident).flatMap fun g =>
    g.2.blocks.filterMap (tget s.blocks)
  match members.find? fun b => b.core == err.core with
  | none => .fault .notEnabled
  | some b =>
    if !killCode err.code.toNat then .fault .notEnabled
    else .next (containGang s lid gang err.code.toNat (BitVec.ofNat 32 err.code.toNat) 0 b.index err.core 0)

/-- A launch spans a die (R444). -/
def launchSpans (s : State) (lid : Nat) (l : Launch) (die : Nat) : Bool :=
  l.st != .taken && (((gangsOf s lid).any fun g => g.2.st == .resident && g.2.pen / s.part.pensPerDie == die)
    || asidOnDie s l.rec0.asid die)
/-- A move reads or writes storage of a die, or runs on its engine (R496). [log 114 DEDUCED] -/
def moveSpans (m : Mig) (die : Nat) : Bool :=
  m.die == die || plwOnDie (BitVec.ofNat 32 (m.new / 2 ^ 64)) die || (m.attempt != 0 && plwOnDie (BitVec.ofNat 32 (m.old / 2 ^ 64)) die)
/-- The version entries of an abandoned move stay, closed, and belong to no later move (R496, R541); their MIG reads as it did. -/
def abandon (s : State) (m : Mig) : State :=
  if m.attempt = 0 then s
  else { s with vers := s.vers.map fun v => if m.owns v then { v with closed := true, mig := v.mig + 16 } else v }
/-- FENCE A DIE (R444, R449, R496): what its cores have under way is lost; the launches that span it are killed, each with a FENCE entry; its moves are abandoned with their
pages closed, and the contexts of its unmasking engine end. What its engines had to do never completes (R466). [log 114 DEDUCED] -/
def fenceDie (s : State) (die : Nat) : State :=
  if s.fenced.contains die then s
  else
    let hit := s.launches.filter fun l => launchSpans s l.1 l.2 die
    let gone := s.migs.filter fun m => moveSpans m die
    let s1 := gone.foldl abandon { s with fenced := s.fenced ++ [die], uctx := s.uctx.filter fun u => u.die != die }
    let s2 := { s1 with migs := s1.migs.filter fun m => !moveSpans m die }
    let here (core : Nat) : Bool := coreDie s core == die
    let stood (gid : Nat) : Bool := (party? s gid).any fun p => here p.b.core
    let s2 := { s2 with
      groups := s2.groups.map fun (g : Nat × Group) => (g.1, { g.2 with
        qs := g.2.qs.map fun q => (q.1, { q.2 with cmds := q.2.cmds.filter fun x => !here x.core }) }),
      areqs := s2.areqs.filter fun r => !stood r.gid, fwaits := s2.fwaits.filter fun w => !stood w.gid,
      blocks := s2.blocks.map fun (b : Nat × Block) => if here b.2.core then (b.1, { b.2 with copies := [] }) else b }
    let s2 := startMoves s2 (1 - die)
    hit.foldl (fun s l => postEntry (killLaunch s l.1 3) (trapEntry 3 0 0 0 0 0 0 die 0 0 l.2.rec0.handle 0 die)) s2
/-- DIE_FENCE (R444): an error that cannot be pinned to a unit of work. -/
def execDieFence (die : Nat) (s : State) : Host.Outcome State Fault Refusal :=
  if 2 ≤ die ∨ s.fenced.contains die then .fault .notEnabled else .next (fenceDie s die)

/-- TRAP_QUEUE_REMOVE (R447): a read of TQWIN15 removes the oldest entry. -/
def execTrapQueueRemove (port : Ports) (s : State) : Host.Outcome State Fault Refusal :=
  onRead s port portTalks fun _ s => { s with trapq := s.trapq.tail }
/-- A group waits for the reply of a tag, into a register (R289). -/
def replyReg (g : Group) (tag : Word) : Option Nat :=
  g.entries.findSome? fun e => match e.2.park with
    | some (.reply t reg) => if t = tag then some reg else none
    | _ => none
/-- The reply reaches a group: the register is written and the group goes on (R289). -/
def takeReply (v tag : Word) (g : Group) : Group :=
  match replyReg g tag with
  | none => g
  | some reg =>
    let g1 := g.wrK reg v
    { g1 with fence := none, entries := mergeEntries g1.still (g1.entries.map fun (e : Nat × Entry) => match e.2.park with
        | some (.reply t _) => if t = tag then (e.1, { e.2 with park := none }) else e
        | _ => e) }
/-- A reply (R440, R447): the groups parked for the tag (both copies of a redundant one) receive TQRVAL; a tag that names none sets
TQERR. -/
def replyTag (s : State) (tag : Word) : State :=
  if (s.groups.any fun g => !g.2.done && (replyReg g.2 tag).isSome) then
    { s with groups := s.groups.map fun (g : Nat × Group) => if g.2.done then g else (g.1, takeReply (s.rdReg rTQRVAL) tag g.2) }
  else s.setRegBits rTQERR 0 1 1
/-- TRAP_QUEUE_REPLY (R289, R447): a write of TQRTAG. -/
def execTrapQueueReply (port : Ports) (vals : PortWords) (s : State) : Host.Outcome State Fault Refusal :=
  onWrite s port portTalks fun p s => replyTag s (portWord p vals)

end Sys2Proof.Machine
end

