-- ==== Sys2Proof/Machine/Host.lean ====
section
/-! DEFINITION. The host register space and the events host software makes through it: plain writes, reads that change something,
lids, plan records, attestation, sweeps, moves, format windows, pools, topology and connected-group tables, memory accesses (20_memories
R320, 22_ordering R365, 32_launch R418, R445, 40_translation R469, R483-R487, R495, 41_tables R497, R503, R508-R515, R523, 50_counters
R541, R547-R549, 60_device R554-R564). -/

namespace Sys2Proof.Machine

open Sys2Proof

/-- Instance number of a register in a repeated block, and its offset in the instance. -/
def inBlock (off base stride count : Nat) : Option (Nat × Nat) :=
  if base ≤ off ∧ off < base + stride * count then some ((off - base) / stride, (off - base) % stride) else none

/-- Bits a host write sets as given (RW), and bits a 1 clears (W1C), of the plain registers in the state's present condition. -/
structure Mask where
  rw : Word
  w1c : Word
deriving DecidableEq, Repr
def maskRw (w : Word) : Mask := ⟨w, 0⟩
/-- Launch queues (R418): base and size are fixed while the queue is served. -/
def maskQueue (s : State) (q r : Nat) : Word :=
  let en := queueOn s q
  if r = 0 then (if en then 0 else 0xFFFFFFFF)
  else if r = 4 then (if en then 0 else 0x00FFFFFF)
  else if r = 8 then (if en then 0x80000030 else 0x8000003F)
  else if r = 0xC then 0xFFFFFFFF else 0
/-- Contexts and map windows (R469, R486). -/
def maskCtx (r : Nat) : Word :=
  if r = 0 then 0xFFFFF000 else if r = 4 then 0x3FFFF else if r = 8 then 0x80000000
  else if r < 0x40 then 0
  else if r % 16 = 4 then 0x8003FFFF else if r % 16 = 8 then 0xFFFFF else 0xFFFFFFFF
/-- Page pools (R485, R487): only EN changes while a pool is enabled. -/
def maskPool (s : State) (p r : Nat) : Word :=
  let en := bitOf (s.rdReg (rPPCFG p)) 31
  if r = 8 then (if en then 0x80000000 else 0x8000033F)
  else if en then 0
  else if r = 0 then 0xFFFFFFF0 else if r = 4 then 0x3FFFF else if r = 0xC ∨ r = 0x10 then 0xFFFFF else 0
/-- A die's block (R495, R548, R549); the PMU registers of cores a harvested bin lacks read as zero. -/
def maskDie (s : State) (o : Nat) : Mask :=
  if 0x380 ≤ o ∧ o < 0x38C then ⟨0, 0xFFFFFFFF⟩
  else if o = 0x408 then maskRw 0x3F
  else if 0x400 ≤ o ∧ o < 0x41C then maskRw 0xFFFFFFFF
  else if 0x10000 ≤ o ∧ o < 0x10000 + 0x100 * s.part.coresPerDie ∧ o % 0x100 < 0x20 then maskRw 0x1FF
  else maskRw 0
/-- The fabric's registers (R416, R513-R515, R524). -/
def maskFabric (s : State) (off : Nat) : Mask :=
  if off = rFBID then ⟨if bitOf (s.rdReg rFBID) 31 then 0 else 0x3FFF, 0x40000000⟩
  else if off = rFBWIN then maskRw 0x3FFFFFFF
  else if off = rFBTO then maskRw 0xFFFFFFFF
  else if off = rCGTSEL then maskRw 0x3FFF
  else if 0x7100 ≤ off ∧ off < 0x7140 then maskRw 0xFFFFFFFF
  else if 0x7200 ≤ off ∧ off < 0x7280 then maskRw 0xC0000000
  else if 0x7300 ≤ off ∧ off < 0x7380 then maskRw 0xFF
  else if 0x8000 ≤ off ∧ off < 0xA000 then maskRw 0xFFFFFFFF
  else if 0xA000 ≤ off ∧ off < 0xC000 then
    maskRw (if off % 0x20 < 0x10 then 0xFFFFFFFF else if off % 0x20 = 0x10 then 0xC7FFFFFF else 0)
  else maskRw 0
/-- The mask of a plain register (R563, R564). -/
def maskOff (s : State) (off : Nat) : Mask :=
  if off % 4 ≠ 0 then maskRw 0
  else if off = rPLANIN 0 ∨ off = rPLANIN 1 ∨ off = rPLANIN 2 ∨ off = rLCMDH ∨ off = rTQRVAL then maskRw 0xFFFFFFFF
  else if off = rLCMDST ∨ off = rTQERR then ⟨0, 1⟩
  else if off = rSRTSTAT then ⟨0, 0xC0000000⟩
  else if off = rTTSEL then maskRw 0x3FF
  else if off = rHSWPVAL then maskRw 0xFFFF0000
  else if off = rHSWPVAH then maskRw 0x00FFFFFF
  else match inBlock off 0x1000 0x20 16, inBlock off 0x4000 0x80 64, inBlock off 0x6000 0x20 16, inBlock off 0x100000 0x100000 2 with
    | some (q, r), _, _, _ => maskRw (maskQueue s q r)
    | _, some (_, r), _, _ => maskRw (maskCtx r)
    | _, _, some (p, r), _ => maskRw (maskPool s p r)
    | _, _, _, some (_, o) => maskDie s o
    | _, _, _, _ => maskFabric s off

/-- A PMU counter's key and half (R549): eight counters per logical core, as word pairs. -/
def pmcOf (s : State) (off : Nat) : Option (Nat × Nat) :=
  match inBlock off 0x100000 0x100000 2 with
  | some (d, o) => match inBlock o 0x10000 0x100 s.part.coresPerDie with
    | some (c, r) => match inBlock r 0x40 8 8 with
      | some (n, h) => some (8 * (s.part.coresPerDie * d + c) + n, h / 4)
      | none => none
    | none => none
  | none => none
/-- A register of a die's block (R564). -/
def dieNamed (o : Nat) : Bool :=
  decide (o < 0x80 ∨ (0x100 ≤ o ∧ o < 0x130) ∨ (0x140 ≤ o ∧ o < 0x170) ∨ (0x200 ≤ o ∧ o < 0x260) ∨ (0x300 ≤ o ∧ o < 0x328) ∨
    (0x340 ≤ o ∧ o < 0x368) ∨ (0x380 ≤ o ∧ o < 0x38C) ∨ (0x400 ≤ o ∧ o < 0x424) ∨
    (0x10000 ≤ o ∧ o < 0x16000 ∧ (o % 0x100 < 0x20 ∨ (0x40 ≤ o % 0x100 ∧ o % 0x100 < 0x80))) ∨
    (0x40000 ≤ o ∧ o < 0x80000 ∧ o % 0x1000 < 0x600 ∧ o % 16 < 12))
/-- An offset names a register that both ports see (R563, R564); the mailbox is each port's own (R295). -/
def sharedReg (off : Nat) : Bool :=
  off % 4 == 0 && (decide (off < 8 ∨ (0x10 ≤ off ∧ off < 0x30) ∨ (0x40 ≤ off ∧ off < 0x64) ∨ (0x80 ≤ off ∧ off < 0x8C) ∨ off = 0xC0 ∨
    (0x100 ≤ off ∧ off < 0x128) ∨ (0x200 ≤ off ∧ off < 0x270) ∨ (0x400 ≤ off ∧ off < 0x580) ∨
    (0x1000 ≤ off ∧ off < 0x1200 ∧ off % 0x20 < 0x18) ∨ off = 0x2000 ∨ (0x2040 ≤ off ∧ off < 0x208C) ∨ (0x3000 ≤ off ∧ off < 0x3014) ∨
    (0x3100 ≤ off ∧ off < 0x3114) ∨ (0x3200 ≤ off ∧ off < 0x320C) ∨
    (0x4000 ≤ off ∧ off < 0x6000 ∧ (off % 0x80 < 0xC ∨ 0x40 ≤ off % 0x80)) ∨ (0x6000 ≤ off ∧ off < 0x6200 ∧ off % 0x20 < 0x14) ∨
    (0x7000 ≤ off ∧ off < 0x7018) ∨ (0x7100 ≤ off ∧ off < 0x7140) ∨ (0x7200 ≤ off ∧ off < 0x7280) ∨ (0x7300 ≤ off ∧ off < 0x7380) ∨
    (0x8000 ≤ off ∧ off < 0xA000) ∨ (0xA000 ≤ off ∧ off < 0xC000 ∧ off % 0x20 < 0x18)) ||
    (decide (0x100000 ≤ off ∧ off < 0x300000) && dieNamed (off % 0x100000)))
/-- A PDROP on a pool goes on (R487). -/
def dropsOn (s : State) (pool : Nat) : Bool := s.drops.any fun d => d.win.any (fun w => w.pool == pool) && dropLive s d
/-- A host write of a register (R563), through port p; a clear of PPCFG.EN waits for the PDROPs in progress (R487).
[log 124 DEDUCED, 158 DESIGN CHOICE] -/
def writeReg (s : State) (p off : Nat) (v : Word) : State :=
  if off = 0x3104 then { s with ttStaged := cset 0 s.ttStaged (fieldOf (s.rdReg rTTSEL) 0 10) v }
  else if off = 4 then startCtl s v
  else if off = 0x2134 then { s with dbg := tmod s.dbg p fun (d : Dbg) => { d with dargl := v } }
  else if off = 0x2138 then { s with dbg := tmod s.dbg p fun (d : Dbg) => { d with dargh := v } }
  else match pmcOf s off with
    | some (k, h) =>
      let old := cget 0 s.pmc k
      if off % 4 ≠ 0 then s
      else { s with pmc := cset 0 s.pmc k (if h = 0 then old / 2 ^ 32 * 2 ^ 32 + v.toNat else old % 2 ^ 32 + v.toNat % 65536 * 2 ^ 32) }
    | none =>
      let m := maskOff s off
      let old := s.rdReg off
      let set (s : State) : State := s.wrReg off ((old &&& ~~~m.rw &&& ~~~(m.w1c &&& v)) ||| (v &&& m.rw))
      if m.rw = 0 ∧ m.w1c = 0 then s
      else match inBlock off 0x6000 0x20 16 with
        | some (pool, 8) =>
          let others := s.poolOff.filter fun x => x != pool
          if bitOf old 31 ∧ !bitOf v 31 ∧ dropsOn s pool then { s with poolOff := pool :: others } else set { s with poolOff := others }
        | _ => set s
/-- A register write a port may make: the mailbox and the trap queue on a fenced die too (R445). [log 124 DEDUCED] -/
def regServes (off : Nat) (s : State) (p : Nat) : Bool :=
  if 0x2000 ≤ off ∧ off < 0x2140 then portTalks s p else if 0x1000 ≤ off ∧ off < 0x1200 then portAttests s p else portServes s p
/-- REGISTER_WRITE (R557, R563): a write of a register whose write starts nothing, through one port or both in one port clock. -/
def execRegisterWrite (ports : Ports) (offset : Nat) (val0 val1 : BitVec 32) (s : State) : Host.Outcome State Fault Refusal :=
  (if sharedReg offset then onWrite else onRead) s ports (regServes offset) fun p s => writeReg s p offset (portVal p val0 val1)

/-- START_STAGE (R554). [log 25 DEDUCED] -/
def startStage (s : State) : Word :=
  BitVec.ofNat 32 (s.stage % 16 + (if s.planTo then 16 else 0) + s.fcode % 256 * 2 ^ 16 + (if s.stageFail then 2 ^ 31 else 0))
/-- The group a mailbox selects (R296): of a redundant launch, the first copy's. -/
def dbgGroup (s : State) (d : Dbg) : Option (Nat × Group) :=
  match d.lid with
  | none => none
  | some lid =>
    let ks := (s.gangs.filter fun g => g.2.lid == lid && g.2.copy == 0 && (g.2.st == .resident || g.2.st == .setAside)).flatMap fun g =>
      g.2.blocks
    (ks.findSome? fun bid => (tget s.blocks bid).bind fun b => if b.index = d.blk then b.groups[d.grp]? else none).bind fun gid =>
      (tget s.groups gid).map fun g => (gid, g)
/-- Word w of a mailbox as its port reads it (R295). -/
def dbgWord (s : State) (d : Dbg) (w : Nat) : Word :=
  if w < 11 then d.data.getD w 0
  else if w = 11 then BitVec.ofNat 32 (d.full % 2048)
  else if w = 12 then d.cmd &&& 0xFFFFFFFE
  else if w = 13 then d.dargl
  else if w = 14 then d.dargh
  else
    let st := (if d.busy then 2 ^ 31 else 0) + if d.err then 2 ^ 30 else 0
    match dbgGroup s d with
    | some (_, g) =>
      if g.halted then BitVec.ofNat 32 (st + 2 ^ 29 + g.haltReason % 32 * 2 ^ 24 + g.haltWhich % 256 * 2 ^ 16 + g.haltCode % 65536)
      else BitVec.ofNat 32 st
    | none => BitVec.ofNat 32 st
/-- The 64-bit counters read as word pairs: PMU counters and ageing counters (R546, R549), with the half an offset names. -/
def pairAt (s : State) (off : Nat) : Option (DWord × Nat) :=
  if off % 4 ≠ 0 then none else match pmcOf s off with
  | some (k, h) => some (BitVec.ofNat 64 (cget 0 s.pmc k), h)
  | none => match inBlock off 0x100000 0x100000 2 with
    | some (d, o) => match inBlock o 0x200 8 12 with
      | some (p, h) => some (cget 0 s.page (12 * d + p), h / 4)
      | none => none
    | none => none
/-- A word of a write-version entry (R541). [log 128 DEDUCED] -/
def verWord (v : WVer) (w : Nat) : Word :=
  if w = 0 then BitVec.ofNat 32 (2 ^ 31 + (if v.closed then 2 ^ 30 else 0) + v.die % 2 * 2 ^ 29 + v.mig % 16 * 2 ^ 25 + v.stk % 16 * 2 ^ 16
    + v.ver % 65536)
  else if w = 1 then BitVec.ofNat 32 v.base &&& 0x7FFFFE00
  else if w = 2 then BitVec.ofNat 32 v.ext &&& 0x7FFFFE00
  else 0
/-- Who owns a lid once a read of it came through one port or both (R558): 0 none, else one more than the port. A free lid goes to
its reader; of two in one clock, to the one that lost the previous tie on any lid. -/
def lidOwner (s : State) (ps : Ports) (i : Nat) : Nat :=
  let o := cget 0 s.lids i
  if o ≠ 0 then o
  else match ps with
    | .p0 => 1
    | .p1 => 2
    | .both => if s.tieLid then 2 else 1
/-- What a lid reads as for a port (R558). -/
def lidWord (s : State) (p i : Nat) : Word :=
  let o := cget 0 s.lids i
  if o = 0 ∨ o = p + 1 then BitVec.ofNat 32 (2 ^ 30 + p) else BitVec.ofNat 32 (2 ^ 31 + (o - 1))
/-- What a port receives for a read of a lid that comes through one port or both in a clock (R558): granted where it then owns the
lid, else busy. -/
def lidRead (s : State) (ps : Ports) (i p : Nat) : Word :=
  lidWord { s with lids := cset 0 s.lids i (lidOwner s ps i) } p i
/-- What a port reads at an offset (R563, R564), before the read's own effect; reserved bits read as zero (R6). -/
def readReg (s : State) (p off : Nat) : Word :=
  if off % 4 ≠ 0 then 0
  else if off = 0 then startStage s
  else if 0x10 ≤ off ∧ off < 0x30 then lidWord s p ((off - 0x10) / 4)
  else if off = rPLANIN 2 then s.rdReg off &&& 0xC1F0FFFF
  else if off = rPLANIN 3 then 0
  else if 0x54 ≤ off ∧ off < 0x64 then (s.planOut.headD []).getD ((off - 0x54) / 4) 0
  else if 0x200 ≤ off ∧ off < 0x270 then s.atRep.getD ((off - 0x200) / 4) 0
  else if 0x400 ≤ off ∧ off < 0x580 then BitVec.ofNat 32 (ofBytes ((s.atSig.drop (off - 0x400)).take 4))
  else if off = 0x2000 then BitVec.ofNat 32 s.trapq.length
  else if 0x2040 ≤ off ∧ off < 0x2080 then (s.trapq.headD []).getD ((off - 0x2040) / 4) 0
  else if 0x2100 ≤ off ∧ off < 0x2140 then dbgWord s ((tget s.dbg p).getD Dbg.reset) ((off - 0x2100) / 4)
  else if off = 0x3104 then cget 0 s.ttStaged (fieldOf (s.rdReg rTTSEL) 0 10) &&& 0xFFFF83FF
  else if off = 0x3108 then cget 0 s.ttActive (fieldOf (s.rdReg rTTSEL) 0 10) &&& 0xFFFF83FF
  else if off = 0x7014 then cget 0 s.cgt (fieldOf (s.rdReg rCGTSEL) 0 14)
  else match pairAt s off with
    | some (v, 0) => loWord v
    | some (v, _) => (tget s.latch (2 ^ 24 * p + off)).getD (hiWord v)
    | none => match inBlock off 0x100000 0x100000 2 with
      | some (d, o) => match inBlock o 0x40000 0x1000 64 with
        | some (sl, r) => match (s.vers.filter fun v => v.slice == 64 * d + sl)[r / 16]? with
          | some v => if r < 0x600 then verWord v (r % 16 / 4) else 0
          | none => 0
        | none => s.rdReg off
      | none => s.rdReg off

/-- A register read a port serves (R445, R555): the lids always, START_STAGE and attestation without good firmware too. -/
def readServes (off : Nat) (s : State) (p : Nat) : Bool :=
  if 0x10 ≤ off ∧ off < 0x30 then portLids s p
  else if off < 4 ∨ (0x100 ≤ off ∧ off < 0x128) ∨ (0x200 ≤ off ∧ off < 0x270) ∨ (0x400 ≤ off ∧ off < 0x580) then portAttests s p
  else regServes off s p
/-- What a port's read comes to (R445, R555): an error where the port does not serve it. -/
def portRead (s : State) (p off : Nat) : Option Word := if readServes off s p then some (readReg s p off) else none

/-- WORD_PAIR_LATCH_READ (R563): reading the low word of a pair latches its high word for the port. -/
def execWordPairLatchRead (port : Ports) (offset : Nat) (s : State) : Host.Outcome State Fault Refusal :=
  match pairAt s offset with
  | some (v, 0) => onRead s port portServes fun p s => { s with latch := tset s.latch (2 ^ 24 * p + offset + 4) (hiWord v) }
  | _ => .fault .notEnabled
/-- ERR_COUNTER_READ (R547): reading clears. -/
def execErrCounterRead (port : Ports) (die i : Nat) (lasting : Bool) (s : State) : Host.Outcome State Fault Refusal :=
  if 2 ≤ die ∨ 10 ≤ i then .fault .notEnabled
  else onRead s port portServes fun _ s => s.wrReg (if lasting then rERRL die i else rERRT die i) 0
/-- FWCLAMP_READ (R497): reading clears. -/
def execFwclampRead (port : Ports) (die i : Nat) (s : State) : Host.Outcome State Fault Refusal :=
  if 2 ≤ die ∨ 16 ≤ i then .fault .notEnabled else onRead s port portServes fun _ s => s.wrReg (rFWCLAMP die i) 0
/-- FBDROP_READ (R513): reading clears. [log 47 DESIGN CHOICE] -/
def execFbdropRead (port : Ports) (s : State) : Host.Outcome State Fault Refusal :=
  onRead s port portServes fun _ s => s.wrReg rFBDROP 0

/-- What the host reads of a core's cycle counter and of a port's clock counter (R525, R543, R544); R564 names no offset for either.
[log 172 DESIGN CHOICE] -/
def hostCycle (s : State) (core : Nat) : DWord := cget 0 s.cyc core
def hostPortClock (s : State) (port : Nat) : Word := cget 0 s.portClk port

/-- LID_READ (R558): a free lid is granted to the reader; of two readers in one clock, to the one that lost the previous tie on any lid. -/
def execLidRead (ports : Ports) (i : Nat) (s : State) : Host.Outcome State Fault Refusal :=
  if 8 ≤ i ∨ !s.running then .fault .notEnabled
  else if cget 0 s.lids i ≠ 0 then .next s
  else .next { s with lids := cset 0 s.lids i (lidOwner s ports i), tieLid := if ports = .both then !s.tieLid else s.tieLid }
/-- LID_WRITE (R558): a write by the owner releases the lid, another is ignored. -/
def execLidWrite (ports : Ports) (i : Nat) (s : State) : Host.Outcome State Fault Refusal :=
  if 8 ≤ i then .fault .notEnabled
  else onWrite s ports portLids fun p s => if cget 0 s.lids i = p + 1 then { s with lids := cset 0 s.lids i 0 } else s

/-- PLANIN_STORE (R561, R562): a write of PLANIN3 stores the record, before stage A completes. -/
def execPlaninStore (port : Ports) (vals : PortWords) (s : State) : Host.Outcome State Fault Refusal :=
  onWrite s port portServes fun p s =>
    let w3 := portWord p vals
    let s := s.wrReg (rPLANIN 3) w3
    let w2 := s.rdReg (rPLANIN 2)
    if s.stage ≠ 0 ∨ !bitOf w2 31 ∨ 11 < fieldOf w2 20 4 ∨ fieldOf w2 25 5 ≠ 0 ∨ fieldOf w2 16 4 ≠ 0 ∨ w3 ≠ 0 then s
    else { s with plansIn := tset s.plansIn (12 * fieldOf w2 24 1 + fieldOf w2 20 4) [s.rdReg (rPLANIN 0), s.rdReg (rPLANIN 1), w2, w3] }
/-- PLANOUT_REMOVE (R562): a read of PLANOUT3 removes the oldest plan. -/
def execPlanoutRemove (port : Ports) (s : State) : Host.Outcome State Fault Refusal :=
  onRead s port portServes fun _ s => { s with planOut := s.planOut.tail }

/-- ATNONCE_WRITE (R559): the nonce, and the report is gone. -/
def execAtnonceWrite (port : Ports) (i : Nat) (vals : PortWords) (s : State) : Host.Outcome State Fault Refusal :=
  if 8 ≤ i then .fault .notEnabled
  else onWrite s port portAttests fun p s => { s.wrReg (rATNONCE i) (portWord p vals) with atRep := [], atSig := [] }
/-- ATGO (R559): an attestation starts; nothing while one runs. -/
def execAtgo (port : Ports) (vals : PortWords) (s : State) : Host.Outcome State Fault Refusal :=
  onWrite s port portAttests fun p s => if bitOf (portWord p vals) 0 then s.setRegBits rATSTAT 31 1 1 else s
/-- The words of the remap table, as registers stand in the space (R506, R564). -/
def remapWords (s : State) : List Word :=
  (List.range 2).flatMap fun d => (List.range 12).map (fun p => s.rdReg (rRMPEN d p)) ++ (List.range 12).map fun p => s.rdReg (rRMCORE d p)
/-- Words of bytes. -/
def wordsOf (bs : List Byte) : List Word := (List.range (bs.length / 4)).map fun i => BitVec.ofNat 32 (ofBytes ((bs.drop (4 * i)).take 4))
/-- The report (R559, R564). [log 138 PRESUMED] -/
def attestReport (s : State) : List Word :=
  wordsOf ((List.range 32).map Config.firmwareDigest) ++ [loWord Config.deviceId, hiWord Config.deviceId, BitVec.ofNat 32 s.part.code]
    ++ wordsOf (sha256 ((remapWords s).flatMap fun w => bytesOf w.toNat 4)) ++ [startStage s]
    ++ (List.range 8).map fun i => s.rdReg (rATNONCE i)
/-- ATTESTATION_DONE (R559): report and signature stand in ATREP and ATSIG. -/
def execAttestationDone (s : State) : Host.Outcome State Fault Refusal :=
  if !bitOf (s.rdReg rATSTAT) 31 then .fault .notEnabled
  else
    let rep := attestReport s
    let digest := sha256 (rep.flatMap fun w => bytesOf w.toNat 4)
    .next { s.setRegBits rATSTAT 31 1 0 with atRep := rep, atSig := (List.range 384).map (Config.identitySign digest) }

/-- HSWPCMD (R483): a sweep of a page or a context starts; nothing while one runs. -/
def execHswpcmd (port : Ports) (vals : PortWords) (s : State) : Host.Outcome State Fault Refusal :=
  onWrite s port portServes fun p s =>
    let val := portWord p vals
    if bitOf (s.rdReg rHSWPCMD) 31 then s
    else
      let va := fieldOf (s.rdReg rHSWPVAL) 16 16 * 65536 + fieldOf (s.rdReg rHSWPVAH) 0 24 * 2 ^ 32
      let w : Sweep := ⟨fieldOf val 0 6, if bitOf val 30 then none else some va, none, 0⟩
      { s.wrReg rHSWPCMD ((val &&& 0x4000003F) ||| 0x80000000) with sweeps := s.sweeps ++ [w] }
/-- MCMDGO (R495): a move on the engine of a die; nothing while one the host started runs. -/
def execMcmdgo (port : Ports) (die : Nat) (vals : PortWords) (s : State) : Host.Outcome State Fault Refusal :=
  if 2 ≤ die then .fault .notEnabled
  else onWrite s port portServes fun p s =>
    let val := portWord p vals
    let w (i : Nat) : Nat := (s.rdReg (rMCMD die i)).toNat
    if !bitOf val 0 || bitOf (s.rdReg (rMCMD die 8)) 31 || s.fenced.contains die then s
    else
      let m : Mig := { die := die, slot := 0, asid := w 2 % 64, va := (w 0 + w 1 * 2 ^ 32) % 2 ^ 56, pte := 0, old := 0,
                       new := w 3 + w 4 * 2 ^ 32 + w 5 * 2 ^ 64 + w 6 * 2 ^ 96, sz := 0, attempt := 0, ver := [], closed := false,
                       gid := none, twin := none, dreg := 0 }
      startMoves { s.wrReg (rMCMD die 8) 0x80000000 with migs := s.migs ++ [m] } die

/-- FWCFG_WRITE (R497, R503): a window opens, or begins to close. -/
def execFwcfgWrite (port : Ports) (die i : Nat) (vals : PortWords) (s : State) : Host.Outcome State Fault Refusal :=
  if 2 ≤ die ∨ 16 ≤ i then .fault .notEnabled
  else onWrite s port portServes fun p s =>
    let val := portWord p vals
    let r := rFWCFG die i
    let old := s.rdReg r
    let fmt := fieldOf val 12 4
    if bitOf old 31 then (if bitOf val 31 then s else s.setRegBits r 30 1 1)
    else
      let err := bitOf old 29 && !bitOf val 29
      if bitOf val 31 && (decide (fmt < 2) || decide (6 < fmt) || (bitOf val 11 && decide (fmt < 4))) then s.setRegBits r 29 1 1
      else s.wrReg r ((val &&& 0x8000FF00) ||| (if err then 0x20000000 else 0))
/-- FW_DISABLE_DONE (R503): the window's lines are gone from the die's slices and L1s, and EN and BUSY clear together.
[log 20 DESIGN CHOICE] -/
def execFwDisableDone (die i : Nat) (s : State) : Host.Outcome State Fault Refusal :=
  let r := rFWCFG die i
  if 2 ≤ die ∨ 16 ≤ i ∨ !bitOf (s.rdReg r) 31 ∨ !bitOf (s.rdReg r) 30 then .fault .notEnabled
  else
    let s1 := { s with l1 := (s.l1.map fun (e : Nat × List L1Line) =>
      if coreDie s e.1 = die then (e.1, e.2.filter fun (x : L1Line) => x.win != some (16 * die + i)) else e).filter (fun e => !e.2.isEmpty),
                       l2 := s.l2.filter fun x => x.win != some (16 * die + i) }
    .next (s1.setRegBits r 30 2 0)
/-- POOL_DISABLE (R487): a clear of PPCFG.EN that waited takes effect, once no PDROP on the pool goes on. -/
def execPoolDisable (pool : Nat) (s : State) : Host.Outcome State Fault Refusal :=
  if 16 ≤ pool ∨ !s.poolOff.contains pool ∨ dropsOn s pool then .fault .notEnabled
  else .next ({ s with poolOff := s.poolOff.filter fun x => x != pool }.setRegBits (rPPCFG pool) 31 1 0)

/-- A node of the staged topology is wrong (R511). [log 158 DESIGN CHOICE] -/
def nodeBad (t : Cells Word) (n : Nat) : Bool :=
  let e := cget 0 t n
  let v (n : Nat) : Bool := bitOf (cget 0 t n) 31
  let par := fieldOf e 0 10
  (n == 0 && v 0 && par != 0) || (n == 0 && !v 0 && (List.range 1024).any v)
    || (decide (0 < n) && v n && (decide (n ≤ par) || !v par))
    || (v n && (fieldOf e 10 5 != 0 || (bitOf e 30 && fieldOf e 24 6 != 0)))
/-- TTCOMMIT (R511): the staged topology is validated and becomes active whole, or not at all. [log 129 DEDUCED] -/
def execTtcommit (port : Ports) (vals : PortWords) (s : State) : Host.Outcome State Fault Refusal :=
  onWrite s port portServes fun p s =>
    if !bitOf (portWord p vals) 0 then s
    else match (List.range 1024).find? (nodeBad s.ttStaged) with
      | none => { s.wrReg rTTSTAT 0 with ttActive := s.ttStaged }
      | some n => s.wrReg rTTSTAT (BitVec.ofNat 32 (0x21 * 2 ^ 16 + n))
/-- CGTDATA_WRITE (R514): an entry of the connected-group table; a 4097th member is not made. -/
def execCgtdataWrite (port : Ports) (vals : PortWords) (s : State) : Host.Outcome State Fault Refusal :=
  onWrite s port portServes fun p s =>
    let val := portWord p vals
    let d := fieldOf (s.rdReg rCGTSEL) 0 14
    let old := cget 0 s.cgt d
    let others := (s.cgt.filter fun e => e.1 != d && bitOf e.2 31).length
    let full := bitOf val 31 && decide (4096 ≤ others)
    let lost := bitOf old 30 && !bitOf val 30
    let new := (val &&& 0x80FFFFFF) ||| (if lost then 0x40000000 else 0)
    let s1 := { s with cgt := cset 0 s.cgt d (if full then setField new 31 1 0 else new) }
    if full then s1.setRegBits rFBID 30 1 1 else s1
/-- UEMODE_WRITE (R523): a group's mode changes while its four ports are down; they read UE. -/
def execUemodeWrite (port : Ports) (vals : PortWords) (s : State) : Host.Outcome State Fault Refusal :=
  onWrite s port portServes fun p s =>
    let val := portWord p vals
    (List.range 8).foldl (fun s g =>
      let ks := (List.range 4).map fun i => 4 * g + i
      if ks.any fun k => bitOf (s.rdReg (rPORTCFG k)) 31 then s
      else
        let b := if bitOf val g then 1 else 0
        ks.foldl (fun s k => s.setRegBits (rPORTCFG k) 29 1 b) (s.setRegBits rUEMODE g 1 b)) s

/-- What a host access names at one address (R365, R468): below 2^62 storage by its physical address, unless that names none, lies on a fenced
die (R444), or finds its set full before stage B (R556); above, a virtual address [55:0] of context [61:56], translated at the port's die,
so that host writes meet windowed lines as R501 has it. [log 171 DESIGN CHOICE] -/
def hostTgt (s : State) (die a : Nat) (need : Need) : Option Tgt :=
  if a < 2 ^ 62 then
    let k := a / 128 * 128
    if !paOk a || noRoom s k || s.fenced.contains (keyDie k) then none else some (.line (.plain k) (a - k))
  else match locatePiece s (a / 2 ^ 56 % 64) die (a % 2 ^ 56) need with
    | .ok (.here t) => some t
    | _ => none
/-- HOST_ACCESS (R320, R365, R468, R493, R501): bytes read or written at the home slices, line by line. At a page closed by a move, or at a
line half of whose DCAS or AMOV is under way, the access waits. A write of several pieces that covers a poisoned line repairs it.
[log 171 DESIGN CHOICE] -/
def execHostAccess (port : Ports) (pa : Nat) (wr : Bool) (data : List (BitVec 8)) (s : State) : Host.Outcome State Fault Refusal :=
  let ps := linePieces pa data.length
  let need : Need := if wr then .write else .read
  if ((tieOrder s.tieReg port).any fun p => ps.any fun q => (hostTgt s p q.1 need).any (tgtClosed s)) then .fault .notEnabled
  else onRead s port portServes fun p s =>
    ps.foldl (fun s q => match hostTgt s p q.1 need with
      | none => s
      | some t => if wr then writeTgt s t ((data.drop (q.1 - pa)).take q.2) else touchTgt s 0 t) s

end Sys2Proof.Machine
end

