-- ==== Sys2Proof/Machine/Debug.lean ====
section
/-! DEFINITION. The debugger: mailbox commands of the host ports, and the end of a step (15_traps R293-R299). -/

namespace Sys2Proof.Machine

open Sys2Proof

/-- A port's mailbox. -/
def mailbox (s : State) (p : Nat) : Dbg := (tget s.dbg p).getD Dbg.reset
def setMailbox (s : State) (p : Nat) (d : Dbg) : State := { s with dbg := tset s.dbg p d }
/-- The command's fields (R295). -/
def cmdOp (c : Word) : Nat := fieldOf c 28 4
def cmdIndex (c : Word) : Nat := fieldOf c 24 4

/-- A command of a port (R295): while another runs it is discarded with ERR; else word 12 holds it and `f` says what it does, none
for a failure. -/
def runCmd (s : State) (ps : Ports) (op : Nat) (cmd : Word) (f : Nat → State → Option State) : Host.Outcome State Fault Refusal :=
  if cmdOp cmd ≠ op then .fault .notEnabled
  else onRead s ps portTalks fun p s =>
    let d := mailbox s p
    if d.busy then setMailbox s p { d with err := true }
    else
      let s0 := setMailbox s p { d with cmd := cmd, err := false }
      (f p s0).getD (setMailbox s p { d with cmd := cmd, err := true })
/-- A command aimed at the attached launch (R293). -/
def onAttached (p : Nat) (s : State) (f : Nat → Launch → Dbg → Option State) : Option State :=
  let d := mailbox s p
  d.lid.bind fun lid => (tget s.launches lid).bind fun l =>
    if (l.attached == some p && l.rec0.dbgen) then f lid l d else none
/-- A command aimed at the selected group. -/
def onSelected (p : Nat) (s : State) (f : Launch → Nat → Group → Option State) : Option State :=
  onAttached p s fun _ l d => (dbgGroup s d).bind fun g => f l g.1 g.2

/-- DETACH: breakpoints and watchpoints go, halted groups resume (R296). [log 126 DEDUCED] -/
def detachLaunch (s : State) (p lid : Nat) : State :=
  let gids := launchGroups s lid
  let s1 := modLaunch s lid fun l => { l with attached := none, brks := [], watches := [] }
  let f (g : Nat × Group) : Nat × Group :=
    if gids.contains g.1 then (g.1, { g.2 with halted := false, haltReq := false, stepping := none, brkSkip := false }) else g
  let s2 := { s1 with groups := s1.groups.map f }
  setMailbox s2 p { mailbox s2 p with lid := none, busy := false }
/-- ATTACH by one port (R296): ERR for a launch that does not exist, is attached elsewhere or lacks DBGEN. The port leaves the launch it
was attached to. [log 126 DEDUCED] -/
def attachPort (p : Nat) (s : State) : Option State :=
  let d := mailbox s p
  match s.launches.find? fun l => l.2.st != .taken && l.2.rec0.handle == d.dargl with
  | none => none
  | some (lid, l) =>
    if !l.rec0.dbgen ∨ (l.attached.isSome ∧ l.attached ≠ some p) then none
    else
      let s1 := match d.lid with
        | some k => if k = lid then s else detachLaunch s p k
        | none => s
      some (setMailbox (modLaunch s1 lid fun l => { l with attached := some p }) p
        { mailbox s1 p with lid := some lid, blk := 0, grp := 0 })
/-- ATTACH (R296): of two in one cycle, the port that lost the previous such tie goes first. -/
def execAttach (ports : Ports) (cmd : BitVec 32) (s : State) : Host.Outcome State Fault Refusal :=
  match ports with
  | .both =>
    let first : Ports := if s.tieAttach then .p1 else .p0
    let second : Ports := if s.tieAttach then .p0 else .p1
    match runCmd s first 1 cmd attachPort with
    | .next s1 => match runCmd s1 second 1 cmd attachPort with
      | .next s2 => .next { s2 with tieAttach := !s.tieAttach }
      | r => r
    | r => r
  | p => runCmd s p 1 cmd attachPort
/-- DETACH (R296). -/
def execDetach (port : Ports) (cmd : BitVec 32) (s : State) : Host.Outcome State Fault Refusal :=
  runCmd s port 2 cmd fun p s => onAttached p s fun lid _ _ => some (detachLaunch s p lid)
/-- SELECT (R296). -/
def execSelect (port : Ports) (cmd : BitVec 32) (s : State) : Host.Outcome State Fault Refusal :=
  runCmd s port 3 cmd fun p s => onAttached p s fun _ l d =>
    let g := fieldOf cmd 20 4
    if l.rec0.blocks ≤ d.dargl.toNat ∨ l.rec0.groups ≤ g then none else some (setMailbox s p { d with blk := d.dargl.toNat, grp := g })
/-- HALT (R294, R296): at the group's next issue opportunity. -/
def execHalt (port : Ports) (cmd : BitVec 32) (s : State) : Host.Outcome State Fault Refusal :=
  runCmd s port 4 cmd fun p s => onSelected p s fun _ gid g =>
    some (if g.halted then s else modGroup s gid fun g => { g with haltReq := true })
/-- RESUME (R296). -/
def execDebugResume (port : Ports) (cmd : BitVec 32) (s : State) : Host.Outcome State Fault Refusal :=
  runCmd s port 5 cmd fun p s => onSelected p s fun _ gid _ =>
    some (modGroup s gid fun g => { g with halted := false, haltReq := false, stepping := none, brkSkip := false })
/-- STEP (R296, R297, R299): the chosen entry of a halted group issues one instruction; the command runs till the group halts again. -/
def execStep (port : Ports) (cmd : BitVec 32) (s : State) : Host.Outcome State Fault Refusal :=
  runCmd s port 6 cmd fun p s => onSelected p s fun _ gid g =>
    let pick := if cmdIndex cmd = 15 then (offered g).map (·.1) else (g.entries[cmdIndex cmd]?).map (·.1)
    match pick with
    | some eid =>
      if !g.halted then none
      else some (setMailbox (modGroup s gid fun g => { g with stepping := some eid, brkSkip := true }) p { mailbox s p with busy := true })
    | none => none
/-- The stepped instruction still waits: it has not issued, or the wait of a barrier, a queue or its marker has not ended (R299). -/
def stepWaits (g : Group) (eid : Nat) : Bool :=
  g.brkSkip || g.waitTrap.isSome || (!(g.tm && g.retained == some eid) && match (tget g.entries eid).bind (·.park) with
    | none | some .join | some .splitLate => false
    | some _ => true)
/-- STEP_DONE (R299): the group halts again with REASON 5, and the mailbox is no longer busy. -/
def execStepDone (gid : Nat) (s : State) : Host.Outcome State Fault Refusal :=
  match party? s gid with
  | none => .fault .notEnabled
  | some p => match p.g.stepping with
    | none => .fault .notEnabled
    | some eid =>
      if stepWaits p.g eid && !p.g.done then .fault .notEnabled
      else
        .next (haltGroup s gid 5 0 0)

/-- The entry whose registers CSRR would show: the one that issued last, else the first. -/
def dbgCtx (s : State) (gid : Nat) : Option Ctx :=
  (party? s gid).bind fun p =>
    match tget p.g.entries p.g.lastEid with
    | some e => some ⟨p, p.g.lastEid, e, 0⟩
    | none => p.g.entries.head?.map fun x => ⟨p, x.1, x.2, 0⟩
/-- The register fields of a command. -/
def cmdKind (c : Word) : Nat := fieldOf c 17 3
def cmdReg (c : Word) : Nat := fieldOf c 7 10
def cmdLane (c : Word) : Nat := fieldOf c 1 6
/-- A command names a register the group has. -/
def regNamed (l : Launch) (c : Word) : Bool :=
  let lane := decide (cmdLane c < l.rec0.width)
  match cmdKind c with
  | 0 => lane && decide (cmdReg c < l.rec0.regs)
  | 1 => lane && decide (cmdReg c < l.rec0.regs)
  | 2 => lane && decide (cmdReg c < 48)
  | 3 => decide (cmdReg c < 256)
  | 4 => lane && csrOk (cmdReg c)
  | _ => false
/-- The value a command reads (R295, R296); a sidecar reads as zero in a mode without them (R26). -/
def dbgRead (s : State) (l : Launch) (gid : Nat) (g : Group) (c : Word) : Option Word :=
  let r := cmdReg c
  let lane := cmdLane c
  if cmdKind c = 5 then
    (g.entries[r]?).bind fun e => match lane with
      | 0 => some (loWord e.2.pc)
      | 1 => some (hiWord e.2.pc)
      | 2 => some (loWord e.2.mask)
      | 3 => some (hiWord e.2.mask)
      | 4 => some (BitVec.ofNat 32 e.2.prio)
      | _ => none
  else if !regNamed l c then none
  else match cmdKind c with
    | 0 => some (g.rdV r lane)
    | 1 => some (if l.rec0.mode = .dist then g.rdSide r lane else 0)
    | 2 => some (if g.rdP r lane then 1 else 0)
    | 3 => some (g.rdK r)
    | _ => (dbgCtx s gid).map fun x => csrRead x r lane
/-- RDREG (R296). -/
def execRdreg (port : Ports) (cmd : BitVec 32) (s : State) : Host.Outcome State Fault Refusal :=
  runCmd s port 7 cmd fun p s => onSelected p s fun l gid g =>
    if !g.halted then none else (dbgRead s l gid g cmd).map fun v => setMailbox s p { mailbox s p with dargl := v }
/-- The group after a write of a register: the sidecar of a vector register unchanged, its poison clear; a sidecar is not
written in a mode without them (R26). [log 127 DEDUCED] -/
def dbgWrite (dist : Bool) (g : Group) (c v : Word) : Group :=
  let r := cmdReg c
  let lane := cmdLane c
  match cmdKind c with
  | 0 => { g with v := cset 0 g.v (lkey r lane) v, vp := cset false g.vp (lkey r lane) false }
  | 1 => if dist then { g with side := cset 0 g.side (lkey r lane) v } else g
  | 2 => { g with p := cset false g.p (lkey r lane) (bitOf v 0), pp := cset false g.pp (lkey r lane) false }
  | 3 => g.wrK r v
  | _ => if r ≤ 4 then laneCsrWrite g r lane v else groupCsrWrite g r v
/-- WRREG (R296). A register CSRW could never write is ERR. [log 127 DEDUCED] -/
def execWrreg (port : Ports) (cmd : BitVec 32) (s : State) : Host.Outcome State Fault Refusal :=
  runCmd s port 8 cmd fun p s => onSelected p s fun l gid g =>
    let v := (mailbox s p).dargl
    if !g.halted || !regNamed l cmd || (cmdKind cmd == 4 && !csrWritable true (cmdReg cmd)) then none
    else if cmdKind cmd = 4 ∧ cmdReg cmd = 0x050 then
      some (modBlock s g.bid fun b => { b with tile := { b.tile with tst := b.tile.tst &&& ~~~(v &&& 0xE0) } })
    else some (modGroup s gid fun g => dbgWrite (l.rec0.mode == .dist) g cmd v)
/-- SETBRK (R296): PC 0 clears. -/
def execSetbrk (port : Ports) (cmd : BitVec 32) (s : State) : Host.Outcome State Fault Refusal :=
  runCmd s port 9 cmd fun p s => onAttached p s fun lid _ d =>
    let pc := pairOf d.dargl d.dargh
    if 4 ≤ cmdIndex cmd then none
    else some (modLaunch s lid fun l =>
      { l with brks := if pc = 0 then tdel l.brks (cmdIndex cmd) else tset l.brks (cmdIndex cmd) pc })
/-- SETWATCH (R296, R298): each block has two; length 0 clears. -/
def execSetwatch (port : Ports) (cmd : BitVec 32) (s : State) : Host.Outcome State Fault Refusal :=
  runCmd s port 10 cmd fun p s => onSelected p s fun _ _ g =>
    let d := mailbox s p
    let n := fieldOf d.dargh 0 20
    let kinds := (if bitOf d.dargh 30 then 1 else 0) + if bitOf d.dargh 31 then 2 else 0
    if 2 ≤ cmdIndex cmd then none
    else d.lid.map fun lid => modLaunch s lid fun l =>
      { l with watches := if n = 0 then tdel l.watches (2 * g.bid + cmdIndex cmd)
               else tset l.watches (2 * g.bid + cmdIndex cmd) (g.bid, d.dargl.toNat, n, kinds) }
/-- UNDEFINED_DEBUG_COMMAND (R296): another OP sets ERR. -/
def execUndefinedDebugCommand (port : Ports) (cmd : BitVec 32) (s : State) : Host.Outcome State Fault Refusal :=
  if 1 ≤ cmdOp cmd ∧ cmdOp cmd ≤ 10 then .fault .notEnabled else runCmd s port (cmdOp cmd) cmd fun _ _ => none
/-- MAILBOX_DATA_READ (R295): reading a data word clears it and its FULL bit. -/
def execMailboxDataRead (port : Ports) (i : Nat) (s : State) : Host.Outcome State Fault Refusal :=
  if 11 ≤ i then .fault .notEnabled
  else onRead s port portTalks fun p s =>
    let d := mailbox s p
    setMailbox s p { d with data := d.data.set i 0, full := if d.full.testBit i then d.full - 2 ^ i else d.full }
/-- MAILBOX_ERR_READ (R295): reading word 15 clears ERR. -/
def execMailboxErrRead (port : Ports) (s : State) : Host.Outcome State Fault Refusal :=
  onRead s port portTalks fun p s => setMailbox s p { mailbox s p with err := false }

end Sys2Proof.Machine
end

