-- ==== Sys2Proof/Machine/Device.lean ====
section
/-! DEFINITION. The device as a whole: reset and the staged start, re-planning of margins, clocks and their counters, errors in
memories and links (10_registers R164, 20_memories R320, 32_launch R444, 41_tables R507, 50_counters R543-R550, 60_device
R553-R562). -/

namespace Sys2Proof.Machine

open Sys2Proof

/-- The fuse registers of the two dies (R506). -/
def fuses : List Nat := (List.range 2).flatMap fun d => (List.range 32).map fun i => rDie d + 0x100 + 4 * i
/-- DEVICE_RESET: every register and memory of the part as after reset (R1, R301, R441, R558), its fuses as they are (R506); the inputs
to come and the model's counter of free values go on. [log 117 DESIGN CHOICE] -/
def execDeviceReset (s : State) : Host.Outcome State Fault Refusal :=
  let r := State.resetOf s.part
  .next { r with hreg := fuses.foldl (fun m off => cset 0 m off (s.rdReg off)) r.hreg,
                 agenda := s.agenda, turn := s.turn, free := s.free }
/-- RESET_RELEASE (R555): the staged start begins. -/
def execResetRelease (s : State) : Host.Outcome State Fault Refusal :=
  if s.running then .fault .notEnabled else .next { s with running := true }

/-- The remap table is accepted (R507). -/
def remapOk (s : State) : Bool :=
  let pens := List.range s.part.pensPerDie
  (List.range 2).all fun d =>
    ((List.range 12).all fun p => bitOf (s.rdReg (rRMPEN d p)) 31 == decide (p < s.part.pensPerDie))
      && (pens.map fun p => fieldOf (s.rdReg (rRMPEN d p)) 0 4).eraseDups.length == pens.length
      && pens.all fun p =>
        let ns := (List.range 8).map fun i => fieldOf (s.rdReg (rRMCORE d p)) (4 * i) 4
        ns.eraseDups.length == 8 && ns.all fun n => decide (n ≤ 8)
/-- A stage fails (R555): the device stays in the last stage it completed. -/
def failStage (s : State) (fcode : Nat) : State := { s with stageFail := true, fcode := fcode, fwBad := s.fwBad || fcode == 1 }
/-- The physical pens a die presents (R506), as 12 times the die plus the pen. -/
def presentedPens (s : State) : List Nat :=
  (List.range 2).flatMap fun d => (List.range s.part.pensPerDie).map fun p => 12 * d + fieldOf (s.rdReg (rRMPEN d p)) 0 4
/-- What the completion of a stage does: A takes over the plan records and lets every pen be planned (R546, R560, R561), B gives the slices their backing (R556), D joins
the connected group (R513, R518). [log 25 DEDUCED] -/
def nextStage (s : State) : State :=
  let s1 := { s with stage := s.stage + 1 }
  match s.stage with
  | 0 => { s1 with replan := presentedPens s, page := s.plansIn.filterMap fun r =>
      let n := (r.2.getD 0 0).toNat + (r.2.getD 1 0).toNat * 2 ^ 32
      if n = 0 then none else some (r.1, BitVec.ofNat 64 n) }
  | 1 => { s1 with backed := true, l2 := s.l2.map fun x => { x with dirty := true } }
  | 3 => { s1.setRegBits rFBID 31 1 1 with flowsOut := [], flowsIn := [] }
  | _ => s1
/-- STAGE_COMPLETE (R554, R555, R561): the stage in progress ends, well (0) or with a failure code of its own. Stage A waits for PLANRDY
or the time-out, stage D for JOIN. -/
def execStageComplete (fcode : Nat) (s : State) : Host.Outcome State Fault Refusal :=
  if !s.running ∨ s.stageFail then .fault .notEnabled
  else
    let ok : Bool := match s.stage with
      | 0 => fcode == 1 || (fcode == 2 && !remapOk s) || (fcode == 0 && remapOk s && (s.planRdy || s.planTo))
      | 1 => fcode == 0 || fcode == 3
      | 2 => fcode == 0 || fcode == 4
      | 3 => s.joinReq && (fcode == 0 || fcode == 5)
      | _ => false
    if !ok then .fault .notEnabled else if fcode = 0 then .next (nextStage s) else .next (failStage s fcode)
/-- PLAN_TIMEOUT (R561). -/
def execPlanTimeout (s : State) : Host.Outcome State Fault Refusal :=
  if !s.running ∨ s.stageFail ∨ s.stage ≠ 0 ∨ s.planRdy ∨ s.planTo then .fault .notEnabled else .next { s with planTo := true }
/-- PLANRDY (R561): a port writes 1 to START_CTL [1]. -/
def execPlanrdy (s : State) : Host.Outcome State Fault Refusal := onSome s portServes fun s => startCtl s 2
/-- JOIN_START (R555): a port writes 1 to START_CTL [0]. -/
def execJoinStart (s : State) : Host.Outcome State Fault Refusal := onSome s portServes fun s => startCtl s 1

/-- AGEING_REPLAN (R560, R562): firmware posts the plan that is due of a physical pen, at a start or when its ageing count crossed a
multiple of 2^40; WEAK says that the offset reaches the rail ceiling. A newer plan replaces an unread older one.
[log 118 DEDUCED] -/
def execAgeingReplan (die pen : Nat) (offs : BitVec 16) (weak : Bool) (s : State) : Host.Outcome State Fault Refusal :=
  if !s.running ∨ 2 ≤ die ∨ 12 ≤ pen ∨ !s.replan.contains (12 * die + pen) ∨ weak ≠ decide (Config.railCeiling ≤ offs.toInt) then
    .fault .notEnabled
  else
    let age := cget 0 s.page (12 * die + pen)
    let w2 := BitVec.ofNat 32 (2 ^ 31 + (if weak then 2 ^ 30 else 0) + die * 2 ^ 24 + pen * 2 ^ 20 + offs.toNat)
    let same (r : List Word) : Bool := fieldOf (r.getD 2 0) 20 5 == die * 16 + pen
    let n := fieldOf (s.rdReg rPLANCNT) 0 16
    .next { s.wrReg rPLANCNT (BitVec.ofNat 32 ((n + 1) % 65536)) with
              replan := s.replan.erase (12 * die + pen),
              planOut := (s.planOut.filter fun r => !same r) ++ [[loWord age, hiWord age, w2, 0]] }

/-- Some group of a core waits at a barrier (R550). -/
def coreWaits (s : State) (core : Nat) : Bool :=
  (placedBlocks s core).any fun b => b.2.groups.any fun gid => ((tget s.groups gid).map fun g => !g.done && g.entries.any fun e =>
    match e.2.park with
    | some (.barrier _ _ _ _) => true
    | _ => false).getD false
/-- The tile engine of a core is busy (R546, R550). -/
def coreTile (s : State) (core : Nat) : Bool := (placedBlocks s core).any fun b => b.2.tile.job.isSome
/-- What a PMU event adds in a clock (R550): `bubble` says the clock is not delivered. How many port and bank conflicts a clock has is timing,
which the model leaves free; an instruction loses a port only to one that issued (R178). [log 119 DESIGN CHOICE] -/
def pmuAdd (s : State) (bubble : Bool) (core evt k : Nat) : Nat :=
  let b (x : Bool) : Nat := if x then 1 else 0
  if evt = 0x01 then 1
  else if evt = 0x07 then b (coreTile s core)
  else if evt = 0x0D then b (coreWaits s core)
  else if evt = 0x0E then b bubble
  else if evt = 0x03 ∧ cget 0 s.tally (256 * core + 0x02) = 0 then 0
  else if evt = 0x03 ∨ evt = 0x0B then Config.freeBits (s.free + k)
  else cget 0 s.tally (256 * core + evt)
/-- One clock of the PMU counters of every core (R549, R550). [log 119 DESIGN CHOICE] -/
def pmuStep (s : State) (bubble : Bool) : State :=
  let n := s.part.coresPerDie
  let pmc := (List.range (2 * n)).foldl (fun m core => (List.range 8).foldl (fun m i =>
    let sel := s.rdReg (rPMSEL (core / n) (core % n) i)
    if !bitOf sel 8 then m
    else
      let k := 8 * core + i
      cset 0 m k ((cget 0 m k + pmuAdd s bubble core (fieldOf sel 0 8) k) % 2 ^ 48)) m) s.pmc
  { s with pmc := pmc, tally := [], free := s.free + 8 * 2 * n }
/-- Physical pens in which a core issued or a tile engine is busy since the last clock (R546). -/
def busyPens (s : State) : List Nat :=
  ((List.range s.part.cores).filter fun core => cget 0 s.tally (256 * core + 0x02) != 0 || coreTile s core).map (fun core =>
    let pen := corePen core
    let d := pen / s.part.pensPerDie
    12 * d + fieldOf (s.rdReg (rRMPEN d (pen % s.part.pensPerDie))) 0 4) |>.eraseDups
/-- A core's own first clock in stage A has come (R543): the counters of two cores start at different moments (R545).
[log 165 DESIGN CHOICE] -/
def coreStarted (s : State) (core : Nat) : Bool := s.stage != 0 || decide (Config.startSkew core < s.ticks)
/-- ARITHMETIC_CLOCK (R543, R546, R550, R560): a clock delivered to every core that has started. A pen's ageing count that crosses a
multiple of 2^40 makes a plan due. [log 165 DESIGN CHOICE] -/
def execArithmeticClock (s : State) : Host.Outcome State Fault Refusal :=
  if !s.running then .fault .notEnabled
  else
    let cyc := ((List.range s.part.cores).filter (coreStarted s)).foldl (fun m core => cset 0 m core (cget 0 m core + 1)) s.cyc
    let busy := busyPens s
    let page := busy.foldl (fun m p => cset 0 m p (cget 0 m p + 1)) s.page
    let due := busy.filter fun p => (cget 0 page p).toNat % 2 ^ 40 == 0 && !s.replan.contains p
    .next (pmuStep { s with cyc := cyc, page := page, replan := s.replan ++ due, ticks := s.ticks + 1 } false)
/-- THROTTLE_BUBBLE (R553): a clock withheld from every core; the PMU counters run on (R550), and what the cores did counts in the next
clock that is delivered. [log 118 DEDUCED] -/
def execThrottleBubble (s : State) : Host.Outcome State Fault Refusal :=
  if !s.running then .fault .notEnabled else .next { pmuStep { s with tally := [] } true with tally := s.tally }
/-- A flit of collective-engine traffic (R416): a write that a BREADY of this device sends. Of other devices' flits nothing tells it. -/
def collFlit (s : State) (f : Flit) : Bool :=
  f.flow.src == myId s && s.groups.any fun g => g.2.qs.any fun q => q.2.cmds.any fun x => x.code == 0x11 && x.landing.contains f.acc.tag
/-- Whose turn it is in a port's round (R416), of collective and other traffic, with what the round has then sent of each: `c` and `o`
say which have a flit ready, `wc` and `wo` are the weights, `n` what was sent so far. The collective share comes first; a class with no flit
ready yields what is left of its own, and where neither may send in this round the next begins. -/
def roundTurn (c o : Bool) (wc wo : Nat) (n : Nat × Nat) : Option (Bool × Nat × Nat) :=
  let (wc, wo) := if wc = 0 ∧ wo = 0 then (1, 1) else (wc, wo)
  if c ∧ n.1 < wc ∧ n.2 = 0 then some (true, n.1 + 1, 0)
  else if o ∧ n.2 < wo then some (false, n.1, n.2 + 1)
  else if c ∧ 0 < wc then some (true, 1, 0)
  else if o ∧ 0 < wo then some (false, 0, 1)
  else if c then some (true, 0, 0)
  else if o then some (false, 0, 0)
  else none
/-- The flit a port sends next (R416): one of the control channel first; else the rounds say of which traffic the oldest goes.
[log 122 DEDUCED] -/
def nextFlit (s : State) (port : Nat) : Option ((Nat × Nat × Flit) × Nat × Nat) :=
  let n := (tget s.rounds port).getD (0, 0)
  match s.vcq.find? fun q => q.1 == port && q.2.1 == 6 with
  | some q => some (q, n)
  | none =>
    let c := s.vcq.find? fun q => q.1 == port && collFlit s q.2.2
    let o := s.vcq.find? fun q => q.1 == port && !collFlit s q.2.2
    let w := s.rdReg (rPORTW port)
    match roundTurn c.isSome o.isSome (fieldOf w 4 4) (fieldOf w 0 4) n with
    | none => none
    | some (coll, n') => (if coll then c else o).map fun q => (q, n')
/-- PORT_CLOCK (R366, R416, R544): a port's clock counts, a waiting flit leaves by its fibres, and flits that found a queue full join it
where there is room. [log 122 DEDUCED] -/
def execPortClock (port : Nat) (s : State) : Host.Outcome State Fault Refusal :=
  if 32 ≤ port ∨ !s.running then .fault .notEnabled
  else
    let s1 := { s with portClk := cset 0 s.portClk port (cget 0 s.portClk port + 1) }
    .next (rejoinFlits (match nextFlit s1 port with
      | some (q, n) => { s1 with vcq := s1.vcq.erase q, rounds := tset s1.rounds port n }
      | none => s1))

/-- LINK_RETRY (R444, R547): of the die-to-die link. A retry that failed fences the die. [log 48 DEDUCED] -/
def execLinkRetry (die : Nat) (good : Bool) (s : State) : Host.Outcome State Fault Refusal :=
  if 2 ≤ die ∨ !s.running then .fault .notEnabled
  else .next (if good then s.countErr false die 8 else fenceDie (s.countErr true die 8) die)

/-- An error in one word of a block's scratchpad allocation or accumulator store (R320): corrected, or the word stays uncorrectable.
Words of the array past the allocation are those of the lines its core's L1 holds, in their order there. [log 121 DEDUCED] -/
def arrayError (s : State) (p : Party) (part : RegPart) (word : Nat) (double : Bool) : State :=
  let die := coreDie s p.b.core
  let add (l : List Nat) (word : Nat) : List Nat := if l.contains word then l else l ++ [word]
  match part with
  | .scratch =>
    if p.b.asize ≤ 4 * word then
      let j := word - p.b.asize / 4
      let ls := l1Of s p.b.core
      if double then setL1 (s.countErr true die 1) p.b.core (lmod ls (j / 32) fun x => { x with bad := add x.bad (j % 32) })
      else s.countErr false die 1
    else if double then modBlock (s.countErr true die 1) p.g.bid fun b => { b with badWords := add b.badWords word }
      else s.countErr false die 1
  | _ => if double then modBlock (s.countErr true die 2) p.g.bid fun b => { b with tile := { b.tile with badSlots := add b.tile.badSlots word } }
      else s.countErr false die 2
/-- ECC_WRITEBACK (R164, R320, R547): an error in a group's register files, or in its block's arrays. A single-bit error is corrected
and counted; a double-bit error, or a predicate's parity error, delivers poison. `reg` is the word of an array.
[log 121 DEDUCED] -/
def execEccWriteback (gid : Nat) (part : RegPart) (reg : Nat) (lanes : BitVec 64) (double : Bool) (s : State) :
    Host.Outcome State Fault Refusal :=
  match party? s gid with
  | none => .fault .notEnabled
  | some p =>
    let die := coreDie s p.b.core
    let width : LaneMask := BitVec.ofNat 64 (2 ^ p.l.rec0.width - 1)
    let named := lanes != 0 && lanes &&& ~~~width == 0
    let real : Bool := match part with
      | .vec => named && decide (reg < p.l.rec0.regs)
      | .side => named && decide (reg < p.l.rec0.regs) && p.dist
      | .pred => named && decide (reg < 48)
      | .scratch => decide (4 * reg < p.b.asize) || decide (reg - p.b.asize / 4 < 32 * (l1Of s p.b.core).length)
      | .slot => decide (reg < 4096 * p.l.rec0.tslotn)
    if p.ga.st ≠ .resident ∨ !real then .fault .notEnabled
    else match part with
      | .scratch | .slot => .next (arrayError s p part reg double)
      | .pred => .next (modGroup (s.countErr true die 0) gid fun g => poisonLanes p.dist g .pred reg lanes)
      | _ => .next (if double then modGroup (s.countErr true die 0) gid fun g => poisonLanes p.dist g part reg lanes
          else s.countErr false die 0)
/-- L2_FILL (R314, R320, R547): a line comes from HBM4 into its slice, good, corrected, or poisoned; of a line the slice holds already,
an error the slice itself finds in it. -/
def execL2Fill (pa : Nat) (err : MemErr) (s : State) : Host.Outcome State Fault Refusal :=
  let held := s.l2.any fun x => x.line == pa
  if !paOk pa ∨ pa % 128 ≠ 0 ∨ (!s.backed ∧ !held) ∨ (held ∧ err = .ok) then .fault .notEnabled
  else
    let s1 := if held then s else touchL2 s pa 0 false
    let src := if held then 3 else 4
    .next (match err with
      | .ok => s1
      | .corrected => s1.countErr false (keyDie pa) src
      | .uncorrectable => poisonLine (s1.countErr true (keyDie pa) src) pa)

end Sys2Proof.Machine
end

