-- ==== Sys2Proof/Machine/CrMath.lean ====
section
/-! DEFINITION. The correctly rounded functions (12_float R216, R217): √, 1/x, 1/√x exactly, and 2^x, log2 x, sin 2πx and
cos 2πx enclosed in intervals narrow enough to decide every rounding. -/

namespace Sys2Proof.Machine

/-- Σ t^(2i+1) / (2i+1) for t = 1/n, in units of 2^-p, from below, and the number of terms; `alt` alternates the signs. -/
def atanSeries (alt : Bool) (n : Nat) : Nat → Nat → Nat → Int → Int
  | 0, _, _, acc => acc
  | fuel + 1, i, t, acc =>
    if t = 0 then acc else
    let term : Int := ((t / (2 * i + 1) : Nat) : Int)
    atanSeries alt n fuel (i + 1) (t / (n * n)) (if alt && i % 2 == 1 then acc - term else acc + term)

/-- π and ln 2 in units of 2^-p, as enclosures. Each series has at most p/2 + 3 terms, each off by less than 3 units. -/
def piBounds (p : Nat) : Nat × Nat :=
  let x := 16 * atanSeries true 5 (p + 2) 0 (2 ^ p / 5) 0 - 4 * atanSeries true 239 (p + 2) 0 (2 ^ p / 239) 0
  let e : Int := 60 * (p + 8)
  ((x - e).toNat, (x + e).toNat)
def ln2Bounds (p : Nat) : Nat × Nat :=
  let x := 18 * atanSeries false 26 (p + 2) 0 (2 ^ p / 26) 0 - 2 * atanSeries false 4801 (p + 2) 0 (2 ^ p / 4801) 0
    + 8 * atanSeries false 8749 (p + 2) 0 (2 ^ p / 8749) 0
  let e : Int := 84 * (p + 8)
  ((x - e).toNat, (x + e).toNat)

/-- Products of numbers in units of 2^-p, rounded down and up. -/
def fxD (p a b : Nat) : Nat := (a * b) >>> p
def fxU (p a b : Nat) : Nat := (a * b) >>> p + 1

/-- Σ r^i / i! from i on, r in [lo, hi]. -/
def expSeries (p lo hi : Nat) : Nat → Nat → Nat → Nat → Nat → Nat → Nat × Nat
  | 0, _, _, th, sl, sh => (sl, sh + th + 1)
  | fuel + 1, i, tl, th, sl, sh =>
    let tl' := fxD p tl lo / i
    let th' := fxU p th hi / i + 1
    expSeries p lo hi fuel (i + 1) tl' th' (sl + tl') (sh + th')
def squareN (p : Nat) : Nat → Nat × Nat → Nat × Nat
  | 0, x => x
  | n + 1, (a, b) => squareN p n (fxD p a a, fxU p b b)

/-- 2^x enclosed: 2^floor(x) times the exponential of the fraction, taken at 1/2^16 of its argument. -/
def exp2Bounds (p : Nat) (x : Ex) : Ex × Ex :=
  let v : Int := if x.neg then -(x.num : Int) else (x.num : Int)
  let n : Int := v / (x.den : Int)
  let fr : Nat := (v % (x.den : Int)).toNat
  let (l0, l1) := ln2Bounds p
  let lo := l0 * fr / (x.den * 2 ^ 16)
  let hi := l1 * fr / (x.den * 2 ^ 16) + 1
  let (a, b) := squareN p 16 (expSeries p lo hi (p / 16 + 2) 1 (2 ^ p) (2 ^ p) (2 ^ p) (2 ^ p))
  (dyadic false a (n - p), dyadic false b (n - p))

/-- Σ z^(2i+1) / (2i+1), z in [lo, hi] with squares [ql, qh]. -/
def atanhSeries (p ql qh : Nat) : Nat → Nat → Nat → Nat → Nat → Nat → Nat × Nat
  | 0, _, _, th, sl, sh => (sl, sh + th + 1)
  | fuel + 1, i, tl, th, sl, sh =>
    atanhSeries p ql qh fuel (i + 1) (fxD p tl ql) (fxU p th qh) (sl + tl / (2 * i + 1)) (sh + th / (2 * i + 1) + 1)

/-- log2 x enclosed, x > 0. -/
def log2Bounds (p : Nat) (x : Ex) : Ex × Ex :=
  let e := x.ilog2
  let m := x.abs.div (pow2 e)
  let z := (m.num - m.den) * 2 ^ p / (m.num + m.den)
  let (sl, sh) := atanhSeries p (fxD p z z) (fxU p (z + 1) (z + 1)) (p / 3 + 4) 0 z (z + 1) 0 0
  let (l0, l1) := ln2Bounds p
  let lo : Int := ((2 * sl * 2 ^ p / l1 : Nat) : Int) + e * (2 ^ p : Nat)
  let hi : Int := ((2 * sh * 2 ^ p / l0 + 1 : Nat) : Int) + e * (2 ^ p : Nat)
  (dyadic (decide (lo < 0)) lo.natAbs (-(p : Int)), dyadic (decide (hi < 0)) hi.natAbs (-(p : Int)))

/-- Terms θ^j / j! collected by j mod 4: (sine plus, sine minus, cosine plus, cosine minus), each from below and above. -/
structure Trig where
  s0 : Nat × Nat
  s1 : Nat × Nat
  c0 : Nat × Nat
  c1 : Nat × Nat
deriving DecidableEq, Repr

def addB (x : Nat × Nat) (l h : Nat) : Nat × Nat := (x.1 + l, x.2 + h)
def trigSeries (p lo hi : Nat) : Nat → Nat → Nat → Nat → Trig → Trig × Nat
  | 0, _, _, th, t => (t, th + 1)
  | fuel + 1, j, tl, th, t =>
    let t' := match j % 4 with
      | 0 => { t with c0 := addB t.c0 tl th }
      | 1 => { t with s0 := addB t.s0 tl th }
      | 2 => { t with c1 := addB t.c1 tl th }
      | _ => { t with s1 := addB t.s1 tl th }
    trigSeries p lo hi fuel (j + 1) (fxD p tl lo / (j + 1)) (fxU p th hi / (j + 1) + 1) t'

/-- sin θ and cos θ for θ = 2π n/d in [0, π/4], in units of 2^-p. -/
def trigBounds (p n d : Nat) : (Nat × Nat) × (Nat × Nat) :=
  let (p0, p1) := piBounds p
  let lo := 2 * p0 * n / d
  let hi := 2 * p1 * n / d + 1
  let (t, r) := trigSeries p lo hi (p / 4 + 12) 0 (2 ^ p) (2 ^ p) ⟨(0, 0), (0, 0), (0, 0), (0, 0)⟩
  ((t.s0.1 - (t.s1.2 + r), t.s0.2 + r - t.s1.1), (t.c0.1 - (t.c1.2 + r), t.c0.2 + r - t.c1.1))

/-- sin 2πx (or cos 2πx) enclosed: the argument reduced exactly to an eighth of a turn. -/
def sinBounds (cosine : Bool) (p : Nat) (x : Ex) : Ex × Ex :=
  let fr := x.num % x.den
  let k := 8 * fr / x.den
  -- distance to the nearest quarter turn, in units of 1/(4 den)
  let q := (k + 1) / 2
  let off : Int := 4 * (fr : Int) - q * (x.den : Int)
  let (sb, cb) := trigBounds p off.natAbs (4 * x.den)
  let useSin := (q % 2 == 0) != cosine
  let b := if useSin then sb else cb
  let neg := if cosine then
      (match q % 4 with
       | 0 => false
       | 1 => decide (0 < off)
       | 2 => true
       | _ => decide (off < 0))
    else
      (match q % 4 with
       | 0 => decide (off < 0)
       | 1 => false
       | 2 => decide (0 < off)
       | _ => true) != x.neg
  (dyadic neg b.1 (-(p : Int)), dyadic neg b.2 (-(p : Int)))

/-- A value a function delivers: a number that rounds as the exact result does, and how far the exact result can lie from it. -/
structure Cr where
  x : Ex
  half : Ex
deriving DecidableEq, Repr

/-- An enclosure decides a rounding, and bounds the error to 16 bits. -/
def settled (f : FpFmt) (e : Renv) (lo hi : Ex) : Bool :=
  let a := rnd f e lo
  let b := rnd f e hi
  let w := (hi.sub lo).abs
  let w := { w with num := w.num * 2 ^ 16 }
  a.bits == b.bits && a.flags == b.flags && a.inexact && b.inexact && w.le (lo.sub a.y).abs && w.le (hi.sub a.y).abs

/-- The middle of an enclosure and half its width. -/
def crMid (b : Ex × Ex) : Cr :=
  let s := b.1.add b.2
  let d := (b.2.sub b.1).abs
  ⟨{ s with den := 2 * s.den }, { d with den := 2 * d.den }⟩

/-- Take the first precision of a ladder that settles the rounding. -/
def climb (f : FpFmt) (e : Renv) (g : Nat → Ex × Ex) : List Nat → Cr
  | [] => crMid (g 4096)
  | [p] => crMid (g p)
  | p :: ps =>
    let b := g p
    if settled f e b.1 b.2 then crMid b else climb f e g ps

def ladder : List Nat := [96, 192, 384, 1400, 2800]

/-- The functions of one operand (R216). -/
inductive CrOp where
  | sqrt | rcp | rsq | exp2 | log2 | sin2pi | cos2pi
deriving DecidableEq, Repr

/-- An exact square root, or one to 200 bits with a sticky bit. -/
def crSqrt (x : Ex) : Cr :=
  let (r, ex) := sqrtSticky 200 x
  ⟨r, if ex then exZero else ⟨false, 1, r.den⟩⟩

/-- 4a is an integer. -/
def quarterTurns (a : Ex) : Bool := 4 * a.num % a.den == 0

/-- The exact result for a finite operand the table of R217 does not send elsewhere. Beyond ±20000, 2^a lies outside every
format's range and its size has no further effect. [log 14 DEDUCED] -/
def crFin (op : CrOp) (f : FpFmt) (e : Renv) (a : Ex) : Cr :=
  match op with
  | .sqrt => crSqrt a
  | .rcp => ⟨exOne.div a, exZero⟩
  | .rsq => crSqrt (exOne.div a)
  | .exp2 =>
    if (exNat 20000).lt a.abs then (if a.neg then ⟨pow2 (-20000), pow2 (-20000)⟩ else ⟨pow2 20000, exZero⟩)
    else if a.num % a.den = 0 then ⟨pow2 (if a.neg then -((a.num / a.den : Nat) : Int) else ((a.num / a.den : Nat) : Int)), exZero⟩
    else climb f e (fun p => exp2Bounds p a) ladder
  | .log2 =>
    if a.eqv (pow2 a.ilog2) then ⟨exInt a.ilog2, exZero⟩ else climb f e (fun p => log2Bounds p a) ladder
  | .sin2pi =>
    -- at a quarter turn the sine is 0 or ±1
    if quarterTurns a then
      (match 4 * a.num / a.den % 4 with
       | 1 => ⟨⟨a.neg, 1, 1⟩, exZero⟩
       | 3 => ⟨⟨!a.neg, 1, 1⟩, exZero⟩
       | _ => ⟨⟨a.neg, 0, 1⟩, exZero⟩)
    else climb f e (fun p => sinBounds false p a) ladder
  | .cos2pi =>
    if quarterTurns a then
      (match 4 * a.num / a.den % 4 with
       | 0 => ⟨exOne, exZero⟩
       | 2 => ⟨⟨true, 1, 1⟩, exZero⟩
       | _ => ⟨exZero, exZero⟩)
    else climb f e (fun p => sinBounds true p a) ladder

/-- A correctly rounded function of one operand (R216, R217), with the upper bound of |x - y| that R101 asks for before its
slack. -/
def crEval (op : CrOp) (f : FpFmt) (e : Renv) (v : FpVal) : Rounded × Ex :=
  match nanResult f [v] with
  | some r => (r, exZero)
  | none =>
    let fin (a : Ex) : Rounded × Ex :=
      let k := crFin op f e a
      let r := rnd f e k.x
      (r, (k.x.sub r.y).abs.add k.half)
    match op, v with
    | .sqrt, .inf n => if n then (invalidResult f, exZero) else (infResult f false, exZero)
    | .sqrt, .fin a =>
      if a.isZero then (exactly (signBits f a.neg) a, exZero)
      else if a.neg then (invalidResult f, exZero) else fin a
    | .rcp, .inf n => (exactly (signBits f n) ⟨n, 0, 1⟩, exZero)
    | .rcp, .fin a => if a.isZero then (divZeroResult f a.neg, exZero) else fin a
    | .rsq, .inf n => if n then (invalidResult f, exZero) else (exactly 0 exZero, exZero)
    | .rsq, .fin a =>
      if a.isZero then (divZeroResult f a.neg, exZero)
      else if a.neg then (invalidResult f, exZero) else fin a
    | .exp2, .inf n => if n then (exactly 0 exZero, exZero) else (infResult f false, exZero)
    | .exp2, .fin a => fin a
    | .log2, .inf n => if n then (invalidResult f, exZero) else (infResult f false, exZero)
    | .log2, .fin a =>
      if a.isZero then (divZeroResult f true, exZero)
      else if a.neg then (invalidResult f, exZero) else fin a
    | .sin2pi, .inf _ => (invalidResult f, exZero)
    | .sin2pi, .fin a => fin a
    | .cos2pi, .inf _ => (invalidResult f, exZero)
    | .cos2pi, .fin a => fin a
    | _, .nan .. => (invalidResult f, exZero)

/-- An irrational factor of a squared gradient, bounded above within 2^-20 (R102): a FREE VALUE says where in that range, by
factor and operand. [log 8 DESIGN CHOICE] -/
def slackFactor (which : Nat) (operand : Nat) (hi : Ex) : Ex :=
  let d := Config.factorSlack which operand % (2 ^ 40 - 2)
  hi.mul ⟨false, 2 ^ 60 + d, 2 ^ 60⟩

/-- Squares of ln 2 and of 2π, from above. -/
def ln2Sq : Ex := Ex.sq (dyadic false (ln2Bounds 96).2 (-96))
def twoPiSq : Ex := Ex.sq (dyadic false (2 * (piBounds 96).2) (-96))

/-- The squared gradient of R95 at a finite operand, `none` where it is infinite. -/
def crGrad (op : CrOp) (a : Ex) (operand : Nat) : Option Ex :=
  match op with
  | .sqrt => if a.isZero || a.neg then none else some (exOne.div ((exNat 4).mul a))
  | .rcp => if a.isZero then none else some (exOne.div (a.sq.mul a.sq))
  | .rsq => if a.isZero || a.neg then none else some (exOne.div ((exNat 4).mul (a.mul a.sq)))
  | .exp2 =>
    let two : Ex :=
      if (exNat 20000).lt a.abs then pow2 (if a.neg then -40000 else 40000)
      else if a.num % a.den = 0 then
        pow2 (2 * (if a.neg then -((a.num / a.den : Nat) : Int) else ((a.num / a.den : Nat) : Int)))
      else slackFactor 1 operand (exp2Bounds 96 a).2.sq
    some ((slackFactor 0 operand ln2Sq).mul two)
  | .log2 => if a.isZero || a.neg then none else some ((slackFactor 2 operand (exOne.div (Ex.sq (dyadic false (ln2Bounds 96).1 (-96))))).div a.sq)
  | .sin2pi =>
    if quarterTurns a then
      (if 4 * a.num / a.den % 2 = 1 then some exZero else some (slackFactor 3 operand twoPiSq))
    else some ((slackFactor 3 operand twoPiSq).mul (slackFactor 4 operand (sinBounds true 1200 a).2.sq))
  | .cos2pi =>
    if quarterTurns a then
      (if 4 * a.num / a.den % 2 = 0 then some exZero else some (slackFactor 3 operand twoPiSq))
    else some ((slackFactor 3 operand twoPiSq).mul (slackFactor 5 operand (sinBounds false 1200 a).2.sq))

end Sys2Proof.Machine
end

