-- ==== Sys2Proof/Machine/Dist.lean ====
section
/-! DEFINITION. Variance arithmetic: terms, covariance, the rounding term and the tag (03_distributions R92, R95-R104). A
variance is `none` where it is +infinity. -/

namespace Sys2Proof.Machine

open Sys2Proof

/-- 24 significant bits, rounded up or down in magnitude (R102). -/
def sig24 (up : Bool) (x : Ex) : Ex :=
  if x.isZero then exZero else
  let q := x.ilog2 - 23
  let n := if 0 ≤ q then x.num else x.num * 2 ^ (-q).toNat
  let d := if 0 ≤ q then x.den * 2 ^ q.toNat else x.den
  dyadic false (if up && n % d != 0 then n / d + 1 else n / d) q

def varZero (v : Option Ex) : Bool := v.any Ex.isZero

/-- A term g² V (R102, R103): 0 for a point, whatever the gradient. -/
def vterm (g2 v : Option Ex) : Option Ex :=
  if varZero v then some exZero
  else match g2, v with
    | some g, some x => some (sig24 true (g.mul x))
    | _, _ => none

/-- The covariance term 2ρ k sqrt(VA VB) with k = gA gB (R95, R103); a negative one is rounded down in magnitude, so that the
total never falls below the formula (R102). [log 140 DEDUCED] -/
def vcov (rho : Int) (k va vb : Option Ex) : Option Ex :=
  if rho = 0 || varZero va || varZero vb then some exZero
  else match k, va, vb with
    | some k, some x, some y =>
      if k.isZero then some exZero else
      let neg := k.neg != decide (rho < 0)
      some { sig24 (!neg) (sqrtSticky 40 ((exNat 4).mul (k.sq.mul (x.mul y)))).1 with neg := neg }
    | _, _, _ => none

/-- The exact sum of rounded terms (R102); any infinite one gives +infinity (R103). -/
def vsum (ts : List (Option Ex)) : Option Ex :=
  ts.foldl (fun acc t => match acc, t with
    | some a, some b => some (a.add b)
    | _, _ => none) (some exZero)

def vgt (a b : Option Ex) : Bool :=
  match a, b with
  | none, none => false
  | none, _ => true
  | some _, none => false
  | some x, some y => y.lt x

/-- The tag of the largest term; ties go to the first (R104). -/
def vtag : List (Option Ex × Nat) → Nat
  | [] => 0
  | t :: ts => (ts.foldl (fun b x => if vgt x.1 b.1 then x else b) t).2

/-- The rounding term (R100) before R102's rounding, from |x - y| (or its bound, R101). -/
def epsTerm (sr rv unit : Bool) (r : Rounded) (d : Ex) : Option Ex :=
  if !r.inexact then some exZero
  else if r.overflow then none
  else
    let u := if unit && decide (r.ulp < 0) then exOne else pow2 r.ulp
    if sr && !r.flushed then
      let g : Ex := ⟨false, r.gNum, r.gDen⟩
      some (g.mul ((exOne.sub g).mul u.sq))
    else if rv then some d.sq
    else some (u.sq.mul ⟨false, 1, 12⟩)

/-- ρ of R96. -/
def rhoOf (cv : Cv) (ta tb : Nat) : Int :=
  match cv with
  | .indep => 0
  | .cor => 1
  | .anti => -1
  | .tagged => if ta = tb then 1 else 0

/-- The slack of R101 on the bound of |x - y| of a correctly rounded function, below 2^-8: a FREE VALUE. [log 8 DESIGN CHOICE] -/
def slackErr (which a b : Nat) (d : Ex) : Ex := d.mul ⟨false, 2 ^ 28 + Config.errSlack which a b % 2 ^ 20, 2 ^ 28⟩

/-- An operand element with what its sidecar says. -/
structure Arg where
  v : FpVal
  vr : Option Ex
  tag : Nat
  uv : Nat
deriving DecidableEq, Repr

def sideVar (sd : Word) : Option Ex := uvVal (fieldOf sd 0 24)
def sideTag (sd : Word) : Nat := fieldOf sd 24 8

/-- One result element: bits, flags, variance in UV24 and tag. -/
structure FOut where
  bits : Nat
  flags : Flg
  uv : Nat
  tag : Nat
deriving DecidableEq, Repr

/-- The shared sidecar of packed elements (R92): the largest variance, the lowest-numbered element on a tie, an infinity in its
canonical encoding (R59). A single element's sidecar stands as it is (R97). -/
def packSide (es : List (Nat × Nat)) : Word :=
  match es with
  | [] => 0
  | [e] => BitVec.ofNat 32 (e.1 + e.2 * 2 ^ 24)
  | e :: r =>
    let b := r.foldl (fun b x => if Nat.min b.1 0xFF0000 < Nat.min x.1 0xFF0000 then x else b) e
    BitVec.ofNat 32 (Nat.min b.1 0xFF0000 + b.2 * 2 ^ 24)

/-- The environment of one element's rounding. -/
structure FEnv where
  f : FpFmt
  e : Renv
  rv : Bool
  rho : Int
deriving DecidableEq, Repr

/-- The delivered value is NaN or infinite, or overflowed (R95). -/
def unbounded (f : FpFmt) (r : Rounded) : Bool :=
  r.overflow || (match decodeFp f r.bits with
    | .fin _ => false
    | _ => true)

/-- Complete an element (R95, R102-R104). -/
def finishV (f : FpFmt) (r : Rounded) (ts : List (Option Ex × Nat)) (cov eps : Option Ex) : FOut :=
  let tot := if unbounded f r then none else vsum (ts.map (·.1) ++ [cov, eps.map (sig24 true)])
  { bits := r.bits, flags := r.flags, uv := uvOf tot, tag := vtag ts }

/-- SAT on an infinite result that no overflow made (R210): the largest finite value, IX, variance +infinity. [log 12 DEDUCED] -/
def satInf (f : FpFmt) (sat : Bool) (r : Rounded) : Rounded :=
  match decodeFp f r.bits with
  | .inf n => if sat then { r with bits := maxBits f n, flags := r.flags ||| fIX, overflow := true, inexact := true } else r
  | _ => r

def finEx : FpVal → Ex
  | .fin x => x
  | _ => exZero
/-- A squared gradient, or a product of gradients, that is infinite where an operand is. -/
def gradSq : FpVal → Option Ex
  | .fin x => some x.sq
  | _ => none
def gradMul (a b : FpVal) : Option Ex :=
  match a, b with
  | .fin x, .fin y => some (x.mul y)
  | _, _ => none

end Sys2Proof.Machine
end

