-- ==== Sys2Proof/Machine/Integer.lean ====
section
/-! DEFINITION. Integer, logic, selection, move, width and packed instructions (11_integer R179-R201). -/

namespace Sys2Proof.Machine

open Sys2Proof

/-- RUN an instruction of format V whose result is a function of operands A, B and C: per lane, or once under `.k` (R183);
a poisoned source poisons the result (R182), and the sidecar is that of a point (R181). -/
def mapV (s : State) (o : VOp) (d a b e : Cls) (variable_ : Bool) (f : Nat → Nat → Nat → Nat) : Host.Outcome State Fault Refusal :=
  let D := vopD o d
  let A := vopA o a
  let B := vopB o b
  let C := vopC o e
  if o.oc == .uniform then
    runUniform s o.hd fun c => D.dests 0 (f (A.val c.p.g 0) (B.val c.p.g 0) (C.val c.p.g 0)) 0
  else
    runLanes s o.hd (touchOf [A, B, C] [D]) variable_ (poisonable [A, B, C] [D] fun c l =>
      { lane := l, ws := D.dests l (f (A.val c.p.g l) (B.val c.p.g l) (C.val c.p.g l)) 0 })

/-- RUN an instruction of format I whose result is a function of A and the immediate (R184). -/
def mapI (s : State) (o : IOp) (d a : Cls) (uns : Bool) (f : Nat → Nat → Nat) : Host.Outcome State Fault Refusal :=
  let D := iopD o d
  let A := iopA o a
  let b := immVal o uns
  if o.oc == .uniform then
    runUniform s o.hd fun c => D.dests 0 (f (A.val c.p.g 0) b) 0
  else
    runLanes s o.hd (touchOf [A] [D]) false (poisonable [A] [D] fun c l =>
      { lane := l, ws := D.dests l (f (A.val c.p.g l) b) 0 })

/-- The minor code's U bit (R179). -/
def isU (minor : Nat) : Bool := minor % 2 == 1
/-- An element read by its signedness. -/
def readInt (uns : Bool) (w n : Nat) : Int := if uns then ((n % 2 ^ w : Nat) : Int) else signedOf w n
/-- Reduce an exact result to an element (R180). -/
def reduceInt (uns sat : Bool) (w : Nat) (x : Int) : Nat :=
  let lo : Int := if uns then 0 else -((2 ^ (w - 1) : Nat) : Int)
  let hi : Int := if uns then ((2 ^ w : Nat) : Int) - 1 else ((2 ^ (w - 1) : Nat) : Int) - 1
  wrapTo w (if sat then clampInt lo hi x else x)
/-- Element i of width w of a number, and a number from its elements, lowest first (R63). -/
def elemAt (w i n : Nat) : Nat := (n >>> (w * i)) % 2 ^ w
def joinElems (w : Nat) (l : List Nat) : Nat := l.foldr (fun e n => e % 2 ^ w + 2 ^ w * n) 0
/-- Work element by element on packed 32-bit operands; elements never carry into one another (R180). -/
def packed (w : Nat) (f : Nat → Nat → Nat) (a b : Nat) : Nat :=
  joinElems w ((List.range (32 / w)).map fun i => f (elemAt w i a) (elemAt w i b))

/-- The element operations of R185. -/
def addElem (uns sat : Bool) (w a b : Nat) : Nat := reduceInt uns sat w (readInt uns w a + readInt uns w b)
def subElem (uns sat : Bool) (w a b : Nat) : Nat := reduceInt uns sat w (readInt uns w a - readInt uns w b)
def minElem (uns : Bool) (w a b : Nat) : Nat := if readInt uns w b < readInt uns w a then b else a
def maxElem (uns : Bool) (w a b : Nat) : Nat := if readInt uns w a < readInt uns w b then b else a
def absElem (sat : Bool) (w a : Nat) : Nat := reduceInt false sat w ((signedOf w a).natAbs : Int)
def negElem (sat : Bool) (w a : Nat) : Nat := reduceInt false sat w (-(signedOf w a))

def execIadd (o : VOp) (s : State) : Host.Outcome State Fault Refusal :=
  mapV s o .v .v .v .zero false fun a b _ => packed o.ty.bits (addElem (isU o.minor) o.sat o.ty.bits) a b
def execIaddI (o : IOp) (s : State) : Host.Outcome State Fault Refusal :=
  mapI s o .v .v (isU o.minor) fun a b => packed o.ty.bits (addElem (isU o.minor) o.sat o.ty.bits) a b
def execIsub (o : VOp) (s : State) : Host.Outcome State Fault Refusal :=
  mapV s o .v .v .v .zero false fun a b _ => packed o.ty.bits (subElem (isU o.minor) o.sat o.ty.bits) a b
def execIsubI (o : IOp) (s : State) : Host.Outcome State Fault Refusal :=
  mapI s o .v .v (isU o.minor) fun a b => packed o.ty.bits (subElem (isU o.minor) o.sat o.ty.bits) a b
def execImin (o : VOp) (s : State) : Host.Outcome State Fault Refusal :=
  mapV s o .v .v .v .zero false fun a b _ => packed o.ty.bits (minElem (isU o.minor) o.ty.bits) a b
def execImax (o : VOp) (s : State) : Host.Outcome State Fault Refusal :=
  mapV s o .v .v .v .zero false fun a b _ => packed o.ty.bits (maxElem (isU o.minor) o.ty.bits) a b
def execIabs (o : VOp) (s : State) : Host.Outcome State Fault Refusal :=
  mapV s o .v .v .zero .zero false fun a _ _ => packed o.ty.bits (fun x _ => absElem o.sat o.ty.bits x) a 0
def execIneg (o : VOp) (s : State) : Host.Outcome State Fault Refusal :=
  mapV s o .v .v .zero .zero false fun a _ _ => packed o.ty.bits (fun x _ => negElem o.sat o.ty.bits x) a 0

/-- The products of R186 by minor code: `.lo`, `.hi`, `.wide`. -/
def mulResult (minor a b : Nat) : Nat :=
  let p := readInt (isU minor) 32 a * readInt (isU minor) 32 b
  match minor / 2 with
  | 0 => wrapTo 32 p
  | 1 => wrapTo 64 p / 2 ^ 32
  | _ => wrapTo 64 p
def mulDest (minor : Nat) : Cls := if minorWide minor then .pair else .v

def execImul (o : VOp) (s : State) : Host.Outcome State Fault Refusal :=
  mapV s o (mulDest o.minor) .v .v .zero false fun a b _ => mulResult o.minor a b
def execImulI (o : IOp) (s : State) : Host.Outcome State Fault Refusal :=
  mapI s o (mulDest o.minor) .v (isU o.minor) fun a b => mulResult o.minor a b
/-- IMAD (R186): the wide form adds a pair and wraps at 64 bits. -/
def madResult (minor : Nat) (sat : Bool) (a b k : Nat) : Nat :=
  let p := readInt (isU minor) 32 a * readInt (isU minor) 32 b
  if minorWide minor then wrapTo 64 (p + (k : Int)) else reduceInt (isU minor) sat 32 (p + readInt (isU minor) 32 k)
def execImad (o : VOp) (s : State) : Host.Outcome State Fault Refusal :=
  mapV s o (mulDest o.minor) .v .v (mulDest o.minor) false fun a b k => madResult o.minor o.sat a b k

/-- IDIV and IREM (R187): truncation toward zero, and the special cases. -/
def divResult (uns : Bool) (a b : Nat) : Nat :=
  if b = 0 then 0xFFFFFFFF else wrapTo 32 ((readInt uns 32 a).tdiv (readInt uns 32 b))
def remResult (uns : Bool) (a b : Nat) : Nat :=
  if b = 0 then a else wrapTo 32 ((readInt uns 32 a).tmod (readInt uns 32 b))
def execIdiv (o : VOp) (s : State) : Host.Outcome State Fault Refusal :=
  mapV s o .v .v .v .zero true fun a b _ => divResult (isU o.minor) a b
def execIrem (o : VOp) (s : State) : Host.Outcome State Fault Refusal :=
  mapV s o .v .v .v .zero true fun a b _ => remResult (isU o.minor) a b

/-- Shifts of an element of w bits (R188). -/
def shlBits (w a n : Nat) : Nat := if w ≤ n then 0 else (a <<< n) % 2 ^ w
def shrBits (w a n : Nat) : Nat := if w ≤ n then 0 else a >>> n
def sarBits (w a n : Nat) : Nat := wrapTo w (signedOf w a / ((2 ^ (Nat.min n w) : Nat) : Int))
/-- The count of a shift's immediate is the 32-bit word itself (R188). -/
def mapShiftI (s : State) (o : IOp) (f : Nat → Nat → Nat → Nat) : Host.Outcome State Fault Refusal :=
  mapI s o (Cls.ofTy o.ty) (Cls.ofTy o.ty) true fun a b => f o.ty.bits a (b % 2 ^ 32)
def mapShiftV (s : State) (o : VOp) (f : Nat → Nat → Nat → Nat) : Host.Outcome State Fault Refusal :=
  mapV s o (Cls.ofTy o.ty) (Cls.ofTy o.ty) .v .zero false fun a b _ => f o.ty.bits a b
def execShl (o : VOp) (s : State) : Host.Outcome State Fault Refusal := mapShiftV s o shlBits
def execShr (o : VOp) (s : State) : Host.Outcome State Fault Refusal := mapShiftV s o shrBits
def execSar (o : VOp) (s : State) : Host.Outcome State Fault Refusal := mapShiftV s o sarBits
def execShlI (o : IOp) (s : State) : Host.Outcome State Fault Refusal := mapShiftI s o shlBits
def execShrI (o : IOp) (s : State) : Host.Outcome State Fault Refusal := mapShiftI s o shrBits
def execSarI (o : IOp) (s : State) : Host.Outcome State Fault Refusal := mapShiftI s o sarBits

/-- SHF (R189): a 32-bit window of the 64-bit value b:a. -/
def shfStart (minor k : Nat) : Nat :=
  match minor with
  | 0 => k % 32
  | 2 => Nat.min k 32
  | 4 => k % 64
  | _ => 32 - Nat.min k 32
def shfResult (minor a b k : Nat) : Nat :=
  let x := a + b * 2 ^ 32
  ((x + x * 2 ^ 64) >>> shfStart minor k) % 2 ^ 32
def execShf (o : VOp) (s : State) : Host.Outcome State Fault Refusal :=
  mapV s o .v .v .v .v false fun a b k => shfResult o.minor a b k

def execAnd (o : VOp) (s : State) : Host.Outcome State Fault Refusal :=
  mapV s o (Cls.ofTy o.ty) (Cls.ofTy o.ty) (Cls.ofTy o.ty) .zero false fun a b _ => a &&& b
def execAndI (o : IOp) (s : State) : Host.Outcome State Fault Refusal :=
  mapI s o (Cls.ofTy o.ty) (Cls.ofTy o.ty) false fun a b => a &&& b
def execOr (o : VOp) (s : State) : Host.Outcome State Fault Refusal :=
  mapV s o (Cls.ofTy o.ty) (Cls.ofTy o.ty) (Cls.ofTy o.ty) .zero false fun a b _ => a ||| b
def execOrI (o : IOp) (s : State) : Host.Outcome State Fault Refusal :=
  mapI s o (Cls.ofTy o.ty) (Cls.ofTy o.ty) false fun a b => a ||| b
def execXor (o : VOp) (s : State) : Host.Outcome State Fault Refusal :=
  mapV s o (Cls.ofTy o.ty) (Cls.ofTy o.ty) (Cls.ofTy o.ty) .zero false fun a b _ => a ^^^ b
def execXorI (o : IOp) (s : State) : Host.Outcome State Fault Refusal :=
  mapI s o (Cls.ofTy o.ty) (Cls.ofTy o.ty) false fun a b => a ^^^ b
def execNot (o : VOp) (s : State) : Host.Outcome State Fault Refusal :=
  mapV s o (Cls.ofTy o.ty) (Cls.ofTy o.ty) .zero .zero false fun a _ _ => (2 ^ o.ty.bits - 1) ^^^ a

/-- A word from its 32 bits. -/
def bitsWord (f : Nat → Bool) : Nat := (List.range 32).foldl (fun n i => if f i then n + 2 ^ i else n) 0
def bit01 (a i : Nat) : Nat := if a.testBit i then 1 else 0
/-- LOP3 (R190). -/
def lop3Result (lut a b k : Nat) : Nat := bitsWord fun i => lut.testBit (bit01 a i + 2 * bit01 b i + 4 * bit01 k i)
def execLop3 (o : VOp) (s : State) : Host.Outcome State Fault Refusal :=
  mapV s o .v .v .v .v false fun a b k => lop3Result o.ext a b k

def clzResult (a : Nat) : Nat := if a = 0 then 32 else 31 - Nat.log2 a
def ctzResult (a : Nat) : Nat := ((List.range 32).find? fun i => a.testBit i).getD 32
def brevResult (a : Nat) : Nat := bitsWord fun i => a.testBit (31 - i)
def execPopc (o : VOp) (s : State) : Host.Outcome State Fault Refusal :=
  mapV s o .v .v .zero .zero false fun a _ _ => popCount a 32
def execClz (o : VOp) (s : State) : Host.Outcome State Fault Refusal :=
  mapV s o .v .v .zero .zero false fun a _ _ => clzResult a
def execCtz (o : VOp) (s : State) : Host.Outcome State Fault Refusal :=
  mapV s o .v .v .zero .zero false fun a _ _ => ctzResult a
def execBrev (o : VOp) (s : State) : Host.Outcome State Fault Refusal :=
  mapV s o .v .v .zero .zero false fun a _ _ => brevResult a

/-- BFX and BFI (R191). -/
def bfxResult (uns : Bool) (pos len a : Nat) : Nat :=
  let f := (a >>> pos) % 2 ^ len
  let top := Nat.min (pos + len) 32 - pos
  if uns then f else wrapTo 32 (signedOf top f)
def bfiResult (pos len a b : Nat) : Nat :=
  (setField (BitVec.ofNat 64 b) pos len a).toNat % 2 ^ 32
def execBfx (o : VOp) (s : State) : Host.Outcome State Fault Refusal :=
  mapV s o .v .v .zero .zero false fun a _ _ => bfxResult (isU o.minor) (bfPos o.ext) (bfLen o.ext) a
def execBfi (o : VOp) (s : State) : Host.Outcome State Fault Refusal :=
  mapV s o .v .v .v .zero false fun a b _ => bfiResult (bfPos o.ext) (bfLen o.ext) a b

/-- BPERM (R192). -/
def bpermResult (a b k : Nat) : Nat :=
  joinElems 8 ((List.range 4).map fun i =>
    let n := elemAt 4 i k
    if 8 ≤ n then 0 else elemAt 8 (n % 8) (a + b * 2 ^ 32))
def execBperm (o : VOp) (s : State) : Host.Outcome State Fault Refusal :=
  mapV s o .v .v .v .v false fun a b k => bpermResult a b k

/-- SEL (R193): the selector is a source after A and B, and the sidecar is that of the operand chosen (R97). -/
def execSel (o : VOp) (s : State) : Host.Outcome State Fault Refusal :=
  let D := vopD o (Cls.ofTy o.ty)
  let A := vopA o (Cls.ofTy o.ty)
  let B := vopB o (Cls.ofTy o.ty)
  let n := o.ext % 64
  let srcs := [A, B, Opnd.pred n]
  runLanes s o.hd (touchOf srcs [D]) false (poisonable srcs [D] fun c l =>
    let x := if c.p.g.rdP n l != o.ext.testBit 6 then A else B
    { lane := l, ws := D.dests l (x.val c.p.g l) (x.side c.p.g l) })

/-- Integer comparison by ISET's condition code (R194). -/
def icond (cond : Nat) (a b : Int) : Bool :=
  match cond with
  | 0 => decide (a = b)
  | 1 => decide (a ≠ b)
  | 2 => decide (a < b)
  | 3 => decide (a ≤ b)
  | 4 => decide (b < a)
  | _ => decide (b ≤ a)
def execIset (o : VOp) (s : State) : Host.Outcome State Fault Refusal :=
  let w := o.ty.bits
  mapV s o .pred (Cls.ofTy o.ty) (Cls.ofTy o.ty) .zero false fun a b _ =>
    if icond (o.minor / 2) (readInt (isU o.minor) w a) (readInt (isU o.minor) w b) then 1 else 0

/-- MOV to a uniform register from the lowest active non-helper lane, whose poison is consumed (R161, R195). -/
def movVtoK (s : State) (o : VOp) : Host.Outcome State Fault Refusal :=
  let A := clsOpnd (Cls.ofTy o.ty) o.a
  let D := clsOpnd (Cls.ofTy o.ty).toUniform o.d
  runGroup s o.hd (touchOf [A] []) fun c =>
    match lowLane (c.real o.hd) with
    | none => .done (c.advance s false id)
    | some l =>
      match (A.poison c.p.g l).bind fun i => c.consume [(l, i)] with
      | some r => r
      | none => .done (c.advance s false fun g => g.putAll c.p.dist (D.dests 0 (A.val c.p.g l) 0))

/-- MOV outside the queue form (R195). -/
def execMov (o : VOp) (s : State) : Host.Outcome State Fault Refusal :=
  let w := Cls.ofTy o.ty
  if o.minor = 4 then movVtoK s o
  else if o.oc == .uniform then mapV s o w w .zero .zero false fun a _ _ => a
  else
    let A := clsOpnd (if o.minor = 2 then w.toUniform else w) o.a
    let D := clsOpnd w o.d
    runLanes s o.hd (touchOf [A] [D]) false (poisonable [A] [D] fun c l =>
      { lane := l, ws := D.dests l (A.val c.p.g l) (A.side c.p.g l) })

/-- MOVI (R196). -/
def execMovi (o : IOp) (s : State) : Host.Outcome State Fault Refusal :=
  mapI s o (Cls.ofTy o.ty) .zero (isU o.minor) fun _ b => b

/-- CVT between integer widths (R197): element 0, reduced, then extended by the destination's signedness. -/
def cvtResult (st dt : Ty) (usrc udst sat : Bool) (a : Nat) : Nat :=
  let r := reduceInt udst sat dt.bits (readInt usrc st.bits a)
  wrapTo (Nat.max 32 dt.bits) (readInt udst dt.bits r)
def execCvt (o : VOp) (s : State) : Host.Outcome State Fault Refusal :=
  let st := Ty.ofCode (cvtStype o.c)
  mapV s { o with c := 0 } (Cls.ofTy o.ty) (Cls.ofTy st) .zero .zero false fun a _ _ =>
    cvtResult st o.ty (cvtUsrc o.c) (cvtUdst o.c) o.sat a

/-- LEA and IADD64 (R198). -/
def leaResult (uns : Bool) (sc a b : Nat) : Nat := wrapTo 64 ((a : Int) + readInt uns 32 b * ((2 ^ sc : Nat) : Int))
def execLea (o : VOp) (s : State) : Host.Outcome State Fault Refusal :=
  mapV s o .pair .pair .v .zero false fun a b _ => leaResult (isU o.minor) (o.ext % 8) a b
def execIadd64 (o : VOp) (s : State) : Host.Outcome State Fault Refusal :=
  mapV s o .pair .pair .pair .zero false fun a b _ => (a + b) % 2 ^ 64

/-- DP8 and DP4 (R199): an exact dot product of n elements of w bits, plus C. -/
def dotResult (w n minor : Nat) (sat : Bool) (a b k : Nat) : Nat :=
  let x := (List.range n).foldl (fun x i =>
    x + readInt (minor % 2 == 1) w (elemAt w i a) * readInt (minor / 2 % 2 == 1) w (elemAt w i b)) (signedOf 32 k)
  reduceInt false sat 32 x
def execDp8 (o : VOp) (s : State) : Host.Outcome State Fault Refusal :=
  mapV s o .v .v .v .v false fun a b k => dotResult 8 4 o.minor o.sat a b k
def execDp4 (o : VOp) (s : State) : Host.Outcome State Fault Refusal :=
  mapV s o .v .v .v .v false fun a b k => dotResult 4 8 o.minor o.sat a b k

/-- UNPK (R200): the eight INT8 elements, and the flags. Poison makes each register of its range a poisoned one (R105, R160). -/
def unpkResult (o : VOp) (a : Nat) : List Nat × Flg :=
  if Ty.ofCode (cvtStype o.c) == .t5 then
    let b := elemAt 8 (o.ext % 4) a
    ((t5Digits b).map fun d => wrapTo 8 (t5Val d), if t5Reserved b then fIV else 0)
  else ((List.range 8).map fun i => wrapTo 8 (readInt (cvtUsrc o.c) 4 (elemAt 4 i a)), 0)
def execUnpk (o : VOp) (s : State) : Host.Outcome State Fault Refusal :=
  let D := Opnd.pair o.d
  let A := Opnd.v o.a
  runLanes s o.hd (touchOf [A] [D]) false (poisonable [A] [.v o.d, .v (o.d + 1)] fun c l =>
    let (es, fl) := unpkResult o (A.val c.p.g l)
    { lane := l, ws := D.dests l (joinElems 8 es) 0, flags := fl })

/-- PACK (R201): clamp each element; the packed elements and the flags. -/
def packClamp (lo hi : Int) (uns sat : Bool) (e : Nat) : Int × Flg :=
  let x := readInt uns 8 e
  (clampInt lo hi x, if (decide (x < lo) || decide (hi < x)) && !sat then fIV else 0)
def packResult (o : VOp) (a d : Nat) : Nat × Flg :=
  let uns := cvtUsrc o.c
  if o.ty == .t5 then
    let es := (List.range 5).map fun i => packClamp (-1) 1 false o.sat (elemAt 8 i a)
    let digits := es.map fun e => if e.1 = 1 then 1 else if e.1 = -1 then 2 else 0
    ((setElem (BitVec.ofNat 32 d) 8 (o.ext % 4) (t5Byte digits)).toNat, es.foldl (fun f e => f ||| e.2) 0)
  else
    let es := (List.range 8).map fun i => packClamp (if uns then 0 else -8) (if uns then 15 else 7) uns o.sat (elemAt 8 i a)
    (joinElems 4 (es.map fun e => wrapTo 4 e.1), es.foldl (fun f e => f ||| e.2) 0)
def execPack (o : VOp) (s : State) : Host.Outcome State Fault Refusal :=
  let D := Opnd.v o.d
  let A := Opnd.pair o.a
  let srcs := if o.ty == .t5 then [A, D] else [A]
  runLanes s o.hd (touchOf srcs [D]) false (poisonable srcs [D] fun c l =>
    let (x, fl) := packResult o (A.val c.p.g l) (D.val c.p.g l)
    { lane := l, ws := D.dests l x 0, flags := fl })

end Sys2Proof.Machine
end

