-- ==== Sys2Proof/Machine/Float.lean ====
section
/-! DEFINITION. Floating-point arithmetic, comparison, functions, conversion and dot products (12_float R208-R224). -/

namespace Sys2Proof.Machine

open Sys2Proof

def argOf (f : FpFmt) (zeroSub : Bool) (bits : Nat) (sd : Word) : Arg := ⟨readSub f zeroSub (decodeFp f bits), sideVar sd, sideTag sd, fieldOf sd 0 24⟩

/-- Width and number of elements of a format in a register, or in a pair. -/
def FpFmt.width (f : FpFmt) : Nat := (if f.signed then 1 else 0) + f.eb + f.mb
def FpFmt.count (f : FpFmt) : Nat := if f.width = 16 then 2 else 1

/-- How an instruction rounds: format, RND, SAT, CV, NT, and whether it is one of the functions that take SR as RN (R71). -/
structure Spec where
  f : FpFmt
  rnd : Rnd
  sat : Bool
  cv : Cv
  nt : Bool
  cr : Bool
deriving DecidableEq, Repr

/-- The mode used in a lane. -/
def Spec.mode (sp : Spec) (fpcr : Word) : Rm :=
  let m := rndMode sp.rnd fpcr
  if sp.cr && m == .sr then .rn else m

/-- One lane of a rounding instruction (R209): `el` computes an element from the raw operands and the elements read. -/
def floatLane (sp : Spec) (D : Opnd) (srcs : List Opnd) (el : FEnv → Nat → List Nat → List Arg → FOut) (c : Ctx) (l : Nat) : LaneOut :=
  let g := c.p.g
  let fpcr := g.rdFpcr l
  let m := sp.mode fpcr
  let raws := srcs.map fun o => o.val g l
  let sds := srcs.map fun o => o.side g l
  let rho := rhoOf sp.cv (sideTag (sds.getD 0 0)) (sideTag (sds.getD 1 0))
  let outs := (List.range sp.f.count).map fun i =>
    let E : FEnv := ⟨sp.f, ⟨m, if m = .sr then srWord c l i else 0, fpcrFlush fpcr, sp.sat⟩, fpcrRv fpcr, rho⟩
    el E i raws ((raws.zip sds).map fun x => argOf sp.f (fpcrZeroSub fpcr) (elemAt sp.f.width i x.1) x.2)
  let sd := if !c.p.dist then 0 else if sp.nt then sds.getD 0 0 else packSide (outs.map fun o => (o.uv, o.tag))
  { lane := l, ws := D.dests l (joinElems sp.f.width (outs.map (·.bits))) sd, flags := outs.foldl (fun f o => f ||| o.flags) 0,
    sr := if m = .sr then sp.f.count else 0 }

def runFloat (s : State) (hd : Hd) (sp : Spec) (D : Opnd) (srcs : List Opnd) (variable_ : Bool)
    (el : FEnv → Nat → List Nat → List Arg → FOut) : Host.Outcome State Fault Refusal :=
  runLanes s hd (touchOf srcs [D]) variable_ (poisonable srcs [D] (floatLane sp D srcs el))


/-- FADD and FSUB elements (R95, R212). -/
def addEl (sub : Bool) (E : FEnv) (_ : Nat) (_ : List Nat) (as : List Arg) : FOut :=
  match as with
  | [a, b] =>
    let bv := if sub then b.v.flip else b.v
    let r := satInf E.f E.e.sat (fpAdd E.f E.e a.v bv)
    let ts := [(vterm (some exOne) a.vr, a.tag), (vterm (some exOne) b.vr, b.tag)]
    let d := ((finEx a.v).add (finEx bv)).sub r.y
    finishV E.f r ts (vcov E.rho (some { exOne with neg := sub }) a.vr b.vr) (epsTerm (E.e.rm == .sr) E.rv false r d)
  | _ => ⟨0, 0, 0, 0⟩

def mulEl (E : FEnv) (_ : Nat) (_ : List Nat) (as : List Arg) : FOut :=
  match as with
  | [a, b] =>
    let r := satInf E.f E.e.sat (fpMul E.f E.e a.v b.v)
    let ts := [(vterm (gradSq b.v) a.vr, a.tag), (vterm (gradSq a.v) b.vr, b.tag)]
    let d := ((finEx a.v).mul (finEx b.v)).sub r.y
    finishV E.f r ts (vcov E.rho (gradMul a.v b.v) a.vr b.vr) (epsTerm (E.e.rm == .sr) E.rv false r d)
  | _ => ⟨0, 0, 0, 0⟩

def fmaEl (E : FEnv) (_ : Nat) (_ : List Nat) (as : List Arg) : FOut :=
  match as with
  | [a, b, k] =>
    let r := satInf E.f E.e.sat (fpFma E.f E.e a.v b.v k.v)
    let ts := [(vterm (gradSq b.v) a.vr, a.tag), (vterm (gradSq a.v) b.vr, b.tag), (vterm (some exOne) k.vr, k.tag)]
    let d := (((finEx a.v).mul (finEx b.v)).add (finEx k.v)).sub r.y
    finishV E.f r ts (vcov E.rho (gradMul a.v b.v) a.vr b.vr) (epsTerm (E.e.rm == .sr) E.rv false r d)
  | _ => ⟨0, 0, 0, 0⟩

/-- FDIV: gradients 1/b and -a/b², infinite where b is zero or a is not finite, zero where b is infinite (R95, R103, R217). -/
def divGrads (a b : FpVal) : Option Ex × Option Ex × Option Ex :=
  match a, b with
  | .fin x, .fin y =>
    if y.isZero then (none, none, none)
    else
      let q := exOne.div y
      let t := (x.mul q.sq).negate
      (some q.sq, some t.sq, some (q.mul t))
  | .fin _, .inf _ => (some exZero, some exZero, some exZero)
  | _, .inf _ => (some exZero, none, none)
  | _, .fin y => if y.isZero then (none, none, none) else (some (exOne.div y).sq, none, none)
  | _, _ => (none, none, none)
def divEl (E : FEnv) (_ : Nat) (raws : List Nat) (as : List Arg) : FOut :=
  match as with
  | [a, b] =>
    let r := satInf E.f E.e.sat (fpDiv E.f E.e a.v b.v)
    let (g1, g2, k) := divGrads a.v b.v
    let ts := [(vterm g1 a.vr, a.tag), (vterm g2 b.vr, b.tag)]
    let d := match b.v with
      | .fin y => if y.isZero then exZero else (((finEx a.v).div y).sub r.y).abs
      | _ => exZero
    finishV E.f r ts (vcov E.rho k a.vr b.vr) (epsTerm false E.rv false r (slackErr 7 (raws.getD 0 0) (raws.getD 1 0) d))
  | _ => ⟨0, 0, 0, 0⟩

def CrOp.code : CrOp → Nat
  | .sqrt => 0 | .rcp => 1 | .rsq => 2 | .exp2 => 3 | .log2 => 4 | .sin2pi => 5 | .cos2pi => 6

/-- A function of one operand (R216): the gradient is infinite where R217's table sends the operand to an infinity or a NaN,
and 0 where it sends an infinity to zero. -/
def crEl (op : CrOp) (E : FEnv) (_ : Nat) (raws : List Nat) (as : List Arg) : FOut :=
  match as with
  | [a] =>
    let (r0, d) := crEval op E.f E.e a.v
    let r := satInf E.f E.e.sat r0
    let g := match a.v with
      | .fin x => crGrad op x (raws.getD 0 0)
      | .inf _ => (match decodeFp E.f r0.bits with
        | .fin _ => some exZero
        | _ => none)
      | _ => none
    finishV E.f r [(vterm g a.vr, a.tag)] (some exZero) (epsTerm false E.rv false r (slackErr op.code (raws.getD 0 0) 0 d))
  | _ => ⟨0, 0, 0, 0⟩

/-- FRND (R218): an integral value of the same format; a negative value that rounds to zero gives -0. -/
def rndEl (E : FEnv) (_ : Nat) (_ : List Nat) (as : List Arg) : FOut :=
  match as with
  | [a] =>
    let (r, d) : Rounded × Ex := match nanResult E.f [a.v], a.v with
      | some r, _ => (r, exZero)
      | none, .inf n => (infResult E.f n, exZero)
      | none, .fin x =>
        let (m, ex, gn, gd) := quantise E.e.rm x.neg E.e.w x 0
        let y : Ex := ⟨x.neg, m, 1⟩
        let r := roundFin E.f .rn 0 false false y
        ({ r with flags := if ex then 0 else fIX, inexact := !ex, gNum := gn, gDen := gd, y := y }, x.sub y)
      | none, _ => (invalidResult E.f, exZero)
    finishV E.f r [(vterm (some exOne) a.vr, a.tag)] (some exZero) (epsTerm (E.e.rm == .sr) E.rv true r d)
  | _ => ⟨0, 0, 0, 0⟩

/-- FSCALE (R219). Beyond ±4000 a larger exponent changes no outcome of any format, so the count is held there.
[log 14 DEDUCED, 164 DESIGN CHOICE] -/
def scaleEl (E : FEnv) (i : Nat) (raws : List Nat) (as : List Arg) : FOut :=
  match as with
  | a :: _ =>
    let b := clampInt (-4000) 4000 (signedOf 32 (raws.getD 1 0))
    let raw := elemAt E.f.width i (raws.getD 0 0)
    let (r, d) : Rounded × Ex := match nanResult E.f [a.v], a.v with
      | some r, v => if v.isSig then (r, exZero) else ({ r with bits := raw }, exZero)
      | none, .fin x =>
        let p := x.mul (pow2 b)
        if x.isZero then (exactly (signBits E.f x.neg) x, exZero)
        else
          let r := rnd E.f E.e p
          (r, p.sub r.y)
      | none, v => (infResult E.f v.neg, exZero)
    finishV E.f (satInf E.f E.e.sat r) [(vterm (some (pow2 (2 * b))) a.vr, a.tag)] (some exZero)
      (epsTerm (E.e.rm == .sr) E.rv false r d)
  | _ => ⟨0, 0, 0, 0⟩

/-- A V-format or I-format rounding instruction's specification. -/
def VOp.spec (o : VOp) (cr : Bool) : Spec := ⟨fmtOfTy o.ty, o.rnd, o.sat, o.cv, o.nt, cr⟩
def IOp.spec (o : IOp) : Spec := ⟨fmtOfTy o.ty, o.rnd, o.sat, o.cv, false, false⟩

/-- Run with operands A, B (and C), of the format's class. -/
def float2 (s : State) (o : VOp) (variable_ cr : Bool) (el : FEnv → Nat → List Nat → List Arg → FOut) :=
  let w := Cls.ofTy o.ty
  runFloat s o.hd (VOp.spec o cr) (vopD o w) [vopA o w, vopB o w] variable_ el
def float2I (s : State) (o : IOp) (el : FEnv → Nat → List Nat → List Arg → FOut) :=
  let w := Cls.ofTy o.ty
  runFloat s o.hd (IOp.spec o) (iopD o w) [iopA o w, Opnd.imm (immVal o false)] false el
def float1 (s : State) (o : VOp) (variable_ cr : Bool) (el : FEnv → Nat → List Nat → List Arg → FOut) :=
  let w := Cls.ofTy o.ty
  runFloat s o.hd (VOp.spec o cr) (vopD o w) [vopA o w] variable_ el

def execFadd (o : VOp) (s : State) : Host.Outcome State Fault Refusal := float2 s o false false (addEl false)
def execFaddI (o : IOp) (s : State) : Host.Outcome State Fault Refusal := float2I s o (addEl false)
def execFsub (o : VOp) (s : State) : Host.Outcome State Fault Refusal := float2 s o false false (addEl true)
def execFsubI (o : IOp) (s : State) : Host.Outcome State Fault Refusal := float2I s o (addEl true)
def execFmul (o : VOp) (s : State) : Host.Outcome State Fault Refusal := float2 s o false false mulEl
def execFmulI (o : IOp) (s : State) : Host.Outcome State Fault Refusal := float2I s o mulEl
def execFma (o : VOp) (s : State) : Host.Outcome State Fault Refusal :=
  let w := Cls.ofTy o.ty
  runFloat s o.hd (VOp.spec o false) (vopD o w) [vopA o w, vopB o w, vopC o w] false fmaEl
def execFdiv (o : VOp) (s : State) : Host.Outcome State Fault Refusal := float2 s o true true divEl
def execFsqrt (o : VOp) (s : State) : Host.Outcome State Fault Refusal := float1 s o true true (crEl .sqrt)
def execFrcp (o : VOp) (s : State) : Host.Outcome State Fault Refusal := float1 s o true true (crEl .rcp)
def execFrsq (o : VOp) (s : State) : Host.Outcome State Fault Refusal := float1 s o true true (crEl .rsq)
def execFexp2 (o : VOp) (s : State) : Host.Outcome State Fault Refusal := float1 s o true true (crEl .exp2)
def execFlog2 (o : VOp) (s : State) : Host.Outcome State Fault Refusal := float1 s o true true (crEl .log2)
def execFsin2pi (o : VOp) (s : State) : Host.Outcome State Fault Refusal := float1 s o true true (crEl .sin2pi)
def execFcos2pi (o : VOp) (s : State) : Host.Outcome State Fault Refusal := float1 s o true true (crEl .cos2pi)
def execFrnd (o : VOp) (s : State) : Host.Outcome State Fault Refusal := float1 s o false false rndEl
def execFscale (o : VOp) (s : State) : Host.Outcome State Fault Refusal :=
  let w := Cls.ofTy o.ty
  runFloat s o.hd (VOp.spec o false) (vopD o w) [vopA o w, vopB o .v] false scaleEl

/-- A value as read, encoded again (R73, R213): a subnormal read as zero is that zero. -/
def asRead (f : FpFmt) (bits : Nat) (v : FpVal) : Nat := if v.isZero then signBits f v.neg else bits

/-- FMIN and FMAX elements (R97, R213). [log 159 DESIGN CHOICE] -/
def minmaxEl (max nan : Bool) (E : FEnv) (i : Nat) (raws : List Nat) (as : List Arg) : FOut :=
  match as with
  | [a, b] =>
    let ab := elemAt E.f.width i (raws.getD 0 0)
    let bb := elemAt E.f.width i (raws.getD 1 0)
    let fl : Flg := if a.v.isSig || b.v.isSig then fIV else 0
    let takeA : FOut := ⟨asRead E.f ab a.v, fl, a.uv, a.tag⟩
    let takeB : FOut := ⟨asRead E.f bb b.v, fl, b.uv, b.tag⟩
    let aNan := a.v.isNan
    let bNan := b.v.isNan
    if (aNan && bNan) || (nan && (aNan || bNan)) then
      match nanResult E.f [a.v, b.v] with
      | some r => ⟨r.bits, fl, 0xFF0000, a.tag⟩
      | none => takeA
    else if aNan then takeB
    else if bNan then takeA
    else if pickB max a.v b.v then takeB else takeA
  | _ => ⟨0, 0, 0, 0⟩
def runMinmax (s : State) (o : VOp) (max : Bool) : Host.Outcome State Fault Refusal :=
  let w := Cls.ofTy o.ty
  runFloat s o.hd { VOp.spec o true with rnd := .rn } (vopD o w) [vopA o w, vopB o w] false (minmaxEl max (o.minor == 2))
def execFmin (o : VOp) (s : State) : Host.Outcome State Fault Refusal := runMinmax s o false
def execFmax (o : VOp) (s : State) : Host.Outcome State Fault Refusal := runMinmax s o true

/-- FABS and FNEG (R214): bit operations on every element; A's sidecar unchanged (R97). -/
def signLane (D A : Opnd) (f : FpFmt) (op : Nat → Nat) (c : Ctx) (l : Nat) : LaneOut :=
  let x := A.val c.p.g l
  { lane := l, ws := D.dests l (joinElems f.width ((List.range f.count).map fun i => op (elemAt f.width i x))) (A.side c.p.g l) }
def runSign (s : State) (o : VOp) (op : Nat → Nat) : Host.Outcome State Fault Refusal :=
  let D := vopD o (Cls.ofTy o.ty)
  let A := vopA o (Cls.ofTy o.ty)
  runLanes s o.hd (touchOf [A] [D]) false (poisonable [A] [D] (signLane D A (fmtOfTy o.ty) op))
def execFabs (o : VOp) (s : State) : Host.Outcome State Fault Refusal :=
  runSign s o fun x => x % 2 ^ ((fmtOfTy o.ty).width - 1)
def execFneg (o : VOp) (s : State) : Host.Outcome State Fault Refusal :=
  runSign s o fun x => x ^^^ 2 ^ ((fmtOfTy o.ty).width - 1)

/-- FCLASS (R220). -/
def classBit (f : FpFmt) (bits : Nat) : Nat :=
  match decodeFp f bits with
  | .nan _ _ sg => if sg then 8 else 9
  | .inf n => if n then 0 else 7
  | .fin x =>
    let k := if x.isZero then 3 else if x.abs.lt (pow2 f.emin) then 2 else 1
    if x.neg then k else 7 - k
def execFclass (o : VOp) (s : State) : Host.Outcome State Fault Refusal :=
  let w := Cls.ofTy o.ty
  let f := fmtOfTy o.ty
  let A := vopA o w
  let D := vopD o w
  runLanes s o.hd (touchOf [A] [D]) false (poisonable [A] [D] fun c l =>
    let x := A.val c.p.g l
    { lane := l, ws := D.dests l (joinElems 16 ((List.range f.count).map fun i => 2 ^ classBit f (elemAt f.width i x))) 0 })

/-- FCMP's condition (R215): truth and IV. [log 9 DEDUCED] -/
def fcond (cond : Nat) (a b : FpVal) : Bool × Flg :=
  let sg : Flg := if a.isSig || b.isSig then fIV else 0
  if a.isNan || b.isNan then
    (cond == 1 || cond == 6, if 2 ≤ cond ∧ cond ≤ 5 then fIV else sg)
  else
    (match cond with
     | 0 => fpEq a b
     | 1 => !fpEq a b
     | 2 => fpLt false a b
     | 3 => fpLt false a b || fpEq a b
     | 4 => fpLt false b a
     | 5 => fpLt false b a || fpEq a b
     | 6 => false
     | _ => true, sg)

/-- The undecided predicate (R106): s2 by R102, then an exact comparison; an infinite mean decides unless s2 is infinite.
[log 9 DEDUCED] -/
def undecided (kappa : Nat) (rho : Int) (a b : Arg) : Bool :=
  if a.v.isNan || b.v.isNan then false
  else
    let s2 := uvOf (vsum [vterm (some exOne) a.vr, vterm (some exOne) b.vr, vcov (-rho) (some exOne) a.vr b.vr])
    match uvVal s2, a.v, b.v with
    | none, _, _ => true
    | some s2, .fin x, .fin y => (x.sub y).sq.lt ((exNat (kappa * kappa)).mul s2)
    | _, _, _ => false

def fcmpLane (f : FpFmt) (minor d : Nat) (cv : Cv) (A B : Opnd) (c : Ctx) (l : Nat) : LaneOut :=
  let g := c.p.g
  let fpcr := g.rdFpcr l
  let a := argOf f (fpcrZeroSub fpcr) (A.val g l) (A.side g l)
  let b := argOf f (fpcrZeroSub fpcr) (B.val g l) (B.side g l)
  let (x, fl) := fcond (minor % 8) a.v b.v
  let u := c.p.dist && undecided (fpcrKappa fpcr) (rhoOf cv a.tag b.tag) a b
  if minor < 8 then { lane := l, ws := [.pred d l x false], flags := fl }
  else { lane := l, ws := [.pred d l x false, .pred 47 l u false], flags := if u then fl ||| fUD else fl }
def runFcmp (s : State) (hd : Hd) (f : FpFmt) (minor d : Nat) (cv : Cv) (A B : Opnd) : Host.Outcome State Fault Refusal :=
  let ds := if minor < 8 then [Opnd.pred d] else [Opnd.pred d, Opnd.pred 47]
  runLanes s hd (touchOf [A, B] ds) false (poisonable [A, B] ds (fcmpLane f minor d cv A B))
def execFcmp (o : VOp) (s : State) : Host.Outcome State Fault Refusal :=
  let w := Cls.ofTy o.ty
  runFcmp s o.hd (fmtOfTy o.ty) o.minor o.d o.cv (vopA o w) (vopB o w)
def execFcmpI (o : IOp) (s : State) : Host.Outcome State Fault Refusal :=
  runFcmp s o.hd (fmtOfTy o.ty) o.minor o.d o.cv (iopA o (Cls.ofTy o.ty)) (Opnd.imm (immVal o false))

/-- FPCR.SUB governs operands and results in these formats only (R72, R73). -/
def Ty.isIeee4 (t : Ty) : Bool := t == .f32 || t == .f64 || t == .f16 || t == .bf16

/-- One converted element of CVT.F (R80-R85, R223): result, whether its variance is unbounded, and |x - y|.
[log 10 DEDUCED, 15 DEDUCED] -/
def cvtEl (st dt : Ty) (usrc udst sat zeroSub flush : Bool) (m : Rm) (w : Nat) (bits : Nat) : Rounded × Bool × Ex :=
  let f := fmtOfTy dt
  let v : FpVal :=
    if st.isInt then .fin (exInt (readInt usrc st.bits bits))
    else readSub (fmtOfTy st) (zeroSub && Ty.isIeee4 st && Ty.isIeee4 dt) (decodeFp (fmtOfTy st) (if st == .uv24 then bits % 2 ^ 24 else bits))
  if dt.isInt then
    let (x, fl) := convertToInt dt.bits udst m w sat v
    ({ exactly x exZero with flags := fl }, false, exZero)
  else
    let r := convertFp f m w (flush && Ty.isIeee4 dt) sat v
    (r, unbounded f r || v.isNan || v.isInf, (finEx v).sub r.y)

/-- CVT.F in one lane (R98, R221-R223). [log 12 DEDUCED, 144 DEDUCED, 160 DESIGN CHOICE] -/
def cvtLane (o : VOp) (D A : Opnd) (keep : Bool) (c : Ctx) (l : Nat) : LaneOut :=
  let g := c.p.g
  let st := Ty.ofCode (cvtStype o.c)
  let dt := o.ty
  let ws := st.bits
  let wd := dt.bits
  let n := cvtCount ws wd
  let fpcr := g.rdFpcr l
  let m := rndMode o.rnd fpcr
  let fixed := dt == .uv24 || dt == .ve8
  let draws := m == .sr && !fixed
  let a := A.val g l
  let sa := A.side g l
  let els := (List.range n).map fun j =>
    let si := if wd ≤ ws then j else o.ext * n + j
    (if wd ≤ ws then o.ext * n + j else j,
     cvtEl st dt (cvtUsrc o.c) (cvtUdst o.c) o.sat (fpcrZeroSub fpcr) (fpcrFlush fpcr) m (if draws then srWord c l j else 0)
       (elemAt ws si a))
  let base := if keep then D.val g l else 0
  let data := els.foldl (fun x e => (setField (BitVec.ofNat 64 x) (wd * e.1) wd e.2.1.bits).toNat) base
  let conv := els.map fun e =>
    let (r, unb, d) := e.2
    let t := vterm (some exOne) (sideVar sa)
    let eps := epsTerm (m == .sr && !fixed) (fpcrRv fpcr) false r d
    (uvOf (if unb then none else vsum [t, eps.map (sig24 true)]), sideTag sa)
  let kept := if keep then [(fieldOf (D.side g l) 0 24, sideTag (D.side g l))] else []
  let full := n * wd = Nat.max 32 wd
  let sd : Word := if !c.p.dist || dt.isInt then 0 else if o.nt then sa
    else packSide (if full then conv else if o.ext = 0 then conv ++ kept else kept ++ conv)
  { lane := l, ws := D.dests l data sd, flags := els.foldl (fun f e => f ||| e.2.1.flags) 0, sr := if draws then n else 0 }

/-- CVT.F (R221-R223): with a narrower destination, D is also a source. -/
def execCvtF (o : VOp) (s : State) : Host.Outcome State Fault Refusal :=
  let st := Ty.ofCode (cvtStype o.c)
  let D := clsOpnd (Cls.ofTy o.ty) o.d
  let A := clsOpnd (Cls.ofTy st) o.a
  let keep := decide (o.ty.bits < st.bits)
  let srcs := if keep then [A, D] else [A]
  runLanes s o.hd (touchOf srcs [D]) false (poisonable srcs [D] (cvtLane o D A keep))

/-- The sum of a packed dot product (R81, R224): c first, then the products in order. -/
def dotSum (e : Renv) (k : FpVal) (ps : List (FpVal × FpVal)) : Option FpVal :=
  ps.foldl (fun acc p =>
    match acc with
    | none => none
    | some x =>
      let prod : Option FpVal := match p.1, p.2 with
        | .fin a, .fin b => some (.fin (a.mul b))
        | a, b => if a.isZero || b.isZero then none else some (.inf (a.neg != b.neg))
      match x, prod with
      | _, none => none
      | .fin a, some (.fin b) => some (.fin (sumEx e a b))
      | .inf n, some (.inf m) => if n = m then some (.inf n) else none
      | .inf n, some _ => some (.inf n)
      | _, some q => some q) (some k)

/-- DP8.F and DP4.F (R95, R224). -/
def dotEl (fa fb : FpFmt) (n : Nat) (E : FEnv) (_ : Nat) (raws : List Nat) (as : List Arg) : FOut :=
  match as with
  | [a, b, k] =>
    let ea := (List.range n).map fun i => decodeFp fa (elemAt fa.width i (raws.getD 0 0))
    let eb := (List.range n).map fun i => decodeFp fb (elemAt fb.width i (raws.getD 1 0))
    let (r, x) : Rounded × Ex := match nanResult E.f (ea ++ eb ++ [k.v]) with
      | some r => (r, exZero)
      | none => match dotSum E.e k.v (ea.zip eb) with
        | none => (invalidResult E.f, exZero)
        | some (.fin x) => (rnd E.f E.e x, x)
        | some v => (infResult E.f v.neg, exZero)
    let sumSq (es : List FpVal) : Option Ex := vsum (es.map gradSq)
    let cross := vsum ((ea.zip eb).map fun p => gradMul p.1 p.2)
    let r := satInf E.f E.e.sat r
    finishV E.f r [(vterm (sumSq eb) a.vr, a.tag), (vterm (sumSq ea) b.vr, b.tag), (vterm (some exOne) k.vr, k.tag)]
      (vcov E.rho cross a.vr b.vr) (epsTerm (E.e.rm == .sr) E.rv false r (x.sub r.y))
  | _ => ⟨0, 0, 0, 0⟩
def runDot (s : State) (o : VOp) (fa fb : FpFmt) (n : Nat) : Host.Outcome State Fault Refusal :=
  runFloat s o.hd (VOp.spec o false) (Opnd.v o.d) [Opnd.v o.a, vopB o .v, Opnd.v o.c] false (dotEl fa fb n)
def execDp8F (o : VOp) (s : State) : Host.Outcome State Fault Refusal :=
  runDot s o (if o.minor % 2 = 1 then fE5M2 else fE4M3) (if o.minor / 2 % 2 = 1 then fE5M2 else fE4M3) 4
def execDp4F (o : VOp) (s : State) : Host.Outcome State Fault Refusal := runDot s o fE2M1 fE2M1 8

end Sys2Proof.Machine
end

