-- ==== Sys2Proof/Machine/Lane.lean ====
section
/-! DEFINITION. Lane exchange, votes, quads and special reads (11_integer R202-R207, 10_registers R171). -/

namespace Sys2Proof.Machine

open Sys2Proof

/-- Lane l is a member of the instruction (R202). -/
def Ctx.member (c : Ctx) (l : Nat) : Bool := decide (l < 64) && bitOf c.e.mask l

/-- A lane's writes when it receives operand A of lane s: value, sidecar and poison (R97, R202). -/
def takeFrom (g : Group) (D A : Opnd) (l s : Nat) : List Dest :=
  match A.poison g s with
  | some i => D.poisoned l i
  | none => D.dests l (A.val g s) (A.side g s)

/-- SHFL (R203): the source lane as an exact integer, and whether it is valid. -/
def shflSource (minor seg width l b : Nat) : Int × Bool :=
  let S := Nat.min (2 ^ seg) width
  let base := l / S * S
  let j := l - base
  match minor with
  | 0 => ((base : Int) + (b : Int), decide (b < S))
  | 2 => (((base + (j + b) % S : Nat) : Int), true)
  | 4 => (((base + (j ^^^ b) : Nat) : Int), decide (b < S))
  | _ =>
    let x := (l : Int) + signedOf 32 b
    (x, decide ((base : Int) ≤ x ∧ x < (base : Int) + (S : Int)))

/-- What a lane delivers: its own A where the source is invalid or no member; the predicate says which. A poisoned B poisons
both results after A (R160). [log 143 DEDUCED] -/
def shflLane (minor fields : Nat) (D A : Opnd) (b : Nat) (bpois : Option Nat) (c : Ctx) (l : Nat) : LaneOut :=
  let g := c.p.g
  let (x, valid) := shflSource minor (shflSeg fields) c.p.l.rec0.width l b
  let ok := valid && decide (0 ≤ x) && c.member x.toNat
  let src := if ok then x.toNat else l
  let pv := shflPv fields
  let pd (f : List Dest) : List Dest := if pv = 63 then [] else f
  match (A.poison g src).or bpois with
  | some i => { lane := l, ws := D.poisoned l i ++ pd ((Opnd.pred pv).poisoned l i) }
  | none => { lane := l, ws := D.dests l (A.val g src) (A.side g src) ++ pd [.pred pv l ok false] }

def shflTouch (fields : Nat) (srcs : List Opnd) (D : Opnd) : Touch :=
  touchOf srcs (if shflPv fields = 63 then [D] else [D, Opnd.pred (shflPv fields)])

def execShfl (o : VOp) (s : State) : Host.Outcome State Fault Refusal :=
  let A := clsOpnd (Cls.ofTy o.ty) o.a
  let B := Opnd.v o.b
  let D := clsOpnd (Cls.ofTy o.ty) o.d
  runLanes s o.hd (shflTouch o.ext [A, B] D) false fun c l =>
    shflLane o.minor o.ext D A (B.val c.p.g l) (B.poison c.p.g l) c l
def execShflI (o : IOp) (s : State) : Host.Outcome State Fault Refusal :=
  let A := clsOpnd (Cls.ofTy o.ty) o.a
  let D := clsOpnd (Cls.ofTy o.ty) o.d
  let f := fieldOf o.imm 8 9
  let b := if o.minor = 6 then wrapTo 32 (signedOf 8 (fieldOf o.imm 0 8)) else fieldOf o.imm 0 8
  runLanes s o.hd (shflTouch f [A] D) false fun c l => shflLane o.minor f D A b none c l

/-- VOTE (R204). [log 163 DESIGN CHOICE] -/
def execVote (o : VOp) (s : State) : Host.Outcome State Fault Refusal :=
  let D := if o.minor < 4 then Opnd.pred o.d else if o.minor = 4 then Opnd.pair o.d else Opnd.v o.d
  runLanes s o.hd (touchOf [Opnd.pred o.a] [D]) false fun c l =>
    let g := c.p.g
    let voters := lanesOf (c.real o.hd)
    let yes := voters.filter fun v => g.rdP o.a v != o.ext.testBit 0
    let x := match o.minor with
      | 0 => if yes.isEmpty then 0 else 1
      | 2 => if yes.length = voters.length then 1 else 0
      | 4 => (maskOf yes).toNat
      | _ => yes.length
    { lane := l, ws := if (voters.any fun v => g.rdPP o.a v) then D.poisoned l predPoison else D.dests l x 0 }

/-- MATCH (R205). -/
def execMatchLanes (o : VOp) (s : State) : Host.Outcome State Fault Refusal :=
  let A := clsOpnd (Cls.ofTy o.ty) o.a
  let D := if o.minor = 0 then Opnd.pair o.d else if o.minor = 2 then Opnd.pred o.d else Opnd.v o.d
  runLanes s o.hd (touchOf [A] [D]) false fun c l =>
    let g := c.p.g
    let rs := lanesOf (c.real o.hd)
    let own := if bitOf c.helpers l then A.poison g l else none
    match own.or (rs.findSome? fun r => A.poison g r) with
    | some i => { lane := l, ws := D.poisoned l i }
    | none =>
      let same := rs.filter fun r => A.val g r == A.val g l
      let x := match o.minor with
        | 0 => (maskOf same).toNat
        | 2 => match rs with
          | [] => 1
          | r :: _ => if rs.all fun q => A.val g q == A.val g r then 1 else 0
        | _ => same.head?.getD 64
      { lane := l, ws := D.dests l x 0 }

/-- QSWAP and QBCAST (R206): a non-member partner gives the lane its own A (R202). -/
def quadFrom (D A : Opnd) (src : Nat → Nat) (c : Ctx) (l : Nat) : LaneOut :=
  { lane := l, ws := takeFrom c.p.g D A l (if c.member (src l) then src l else l) }
def execQswap (o : VOp) (s : State) : Host.Outcome State Fault Refusal :=
  let A := clsOpnd (Cls.ofTy o.ty) o.a
  let D := clsOpnd (Cls.ofTy o.ty) o.d
  runLanes s o.hd (touchOf [A] [D]) false (quadFrom D A fun l => l ^^^ (o.minor / 2 + 1))
def execQbcast (o : VOp) (s : State) : Host.Outcome State Fault Refusal :=
  let A := clsOpnd (Cls.ofTy o.ty) o.a
  let D := clsOpnd (Cls.ofTy o.ty) o.d
  runLanes s o.hd (touchOf [A] [D]) false (quadFrom D A fun l => l / 4 * 4 + o.ext)

/-- QRED (R206): the identity of each operation, and the operation. -/
def qredIdent (minor : Nat) : Nat :=
  match minor with
  | 2 => 0x7FFFFFFF | 3 => 0xFFFFFFFF | 4 => 0x80000000 | 6 | 7 => 0xFFFFFFFF | _ => 0
def qredOp (minor a b : Nat) : Nat :=
  match minor / 2 with
  | 0 => (a + b) % 2 ^ 32
  | 1 => minElem (isU minor) 32 a b
  | 2 => maxElem (isU minor) 32 a b
  | 3 => a &&& b
  | 4 => a ||| b
  | _ => a ^^^ b
def execQred (o : VOp) (s : State) : Host.Outcome State Fault Refusal :=
  let A := Opnd.v o.a
  let D := Opnd.v o.d
  runLanes s o.hd (touchOf [A] [D]) false fun c l =>
    let ms := ((List.range 4).map fun i => l / 4 * 4 + i).filter c.member
    { lane := l,
      ws := match ms.findSome? fun m => A.poison c.p.g m with
        | some i => D.poisoned l i
        | none => D.dests l (ms.foldl (fun x m => qredOp o.minor x (A.val c.p.g m)) (qredIdent o.minor)) 0 }

/-- The placement a program reads (R171): its own, and for both copies of a redundant block that of the first, so that nothing tells them
apart (R428). [log 157 DEDUCED] -/
def seatOf (s : State) (c : Ctx) : Party :=
  if c.p.ga.copy = 0 then c.p else ((twinGroup s c.gid).bind (party? s)).getD c.p
/-- The selectors of SRD (R171); CYCL reads the counter of the core of that placement as it stands. -/
def srdValue (s : State) (c : Ctx) (sel l : Nat) : Nat :=
  let r := c.p.l.rec0
  let b := c.p.b.index
  let at_ := seatOf s c
  let core := at_.b.core
  match sel with
  | 0x00 => l
  | 0x01 => c.p.g.gidx
  | 0x02 => c.p.g.gidx * r.width + l
  | 0x03 => b % r.gx
  | 0x04 => b / r.gx % r.gy
  | 0x05 => b / (r.gx * r.gy)
  | 0x06 => b % 2 ^ 32
  | 0x07 => b / 2 ^ 32
  | 0x08 => c.tid l % 2 ^ 32
  | 0x09 => c.tid l / 2 ^ 32
  | 0x0A => b % r.gang
  | 0x0B => core
  | 0x0C => corePen core
  | 0x0D => coreDie s core
  | 0x0E => core % s.part.coresPerDie
  | 0x0F => at_.g.slot
  | 0x10 => at_.g.lofs
  | 0x11 => r.gx
  | 0x12 => r.gy
  | 0x13 => r.gz
  | 0x14 => if bitOf c.helpers l then 1 else 0
  | 0x18 => (loWord (cget 0 s.cyc core)).toNat
  | _ => c.p.g.cych.toNat
/-- SRD (R171, R207): reading CYCL latches CYCH for the group. -/
def execSrd (o : IOp) (s : State) : Host.Outcome State Fault Refusal :=
  let sel := o.imm.toNat
  let D := iopD o .v
  runGroup s o.hd (touchOf [] [D]) fun c =>
    let m := if o.oc == .uniform then (if c.real o.hd = 0 then 0 else laneBit 0) else c.active o.hd
    .done (c.advance s false fun g =>
      let g := (lanesOf m).foldl (fun g l => g.putAll c.p.dist (D.dests l (srdValue s c sel l) 0)) g
      if sel = 0x18 ∧ m ≠ 0 then { g with cych := hiWord (cget 0 s.cyc (seatOf s c).b.core) } else g)

end Sys2Proof.Machine
end

