-- ==== Sys2Proof/Machine/Memory.lean ====
section
/-! DEFINITION. The instructions that reach memory by address: LD, ST, ALD, AST, ATOM, DCAS, AMOV, PREF, CWB, CINV and FENCE
(21_memory_instr R321-R340, 20_memories R307-R312, R320, 15_traps R279, R298, 40_translation R480, R484). -/

namespace Sys2Proof.Machine

open Sys2Proof

/-- The base operand of an address (R321), and the address of a lane; additions wrap at the width of the space. -/
def memBase (o : MOp) : Opnd :=
  if o.space.wideBase then (if o.basek then .kpair o.a else .pair o.a) else (if o.basek then .k o.a else .v o.a)
def memAddr (o : MOp) (g : Group) (lane : Nat) : DWord :=
  let a := BitVec.ofNat 64 ((memBase o).val g lane) + o.off.signExtend 64
  if o.space.wideBase then a else (a.setWidth 32).setWidth 64

/-- Bytes a lane moves and their alignment (R322, R331). -/
def moveBytes (o : MOp) (side : Bool) : Nat := if side then 2 * o.size.bytes else o.size.bytes
def moveAlign (o : MOp) (side : Bool) : Nat := if side then 2 * o.size.bytes else if o.size = .b96 then 16 else o.size.bytes
/-- The registers that hold an access (R322). -/
def dataRegs (o : MOp) (n : Nat) : List Nat := (List.range o.size.regs).map fun i => n + i

/-- What the checks of R324 find for one lane: a fault of orders 2, 3 or 5; a translation failure or unreachable device of a kind;
or where the access goes: here, piece by piece (`l1` when it may be served by L1), or to another device. `lost` is an access that
loops back and fails at this device as a destination (R521). -/
inductive Fate where
  | bad (order : Nat) (t : Trap)
  | xfail (kind va : Nat)
  | hit (ps : List (Tgt × Nat)) (l1 : Bool)
  | remote (fa : DWord) (lanes : Nat)
  | lost (kind va : Nat)
deriving DecidableEq, Repr

/-- The faults of R324 that one lane can raise, without lanes and pc. -/
def addressTrap (addr : Nat) : Trap := { code := 0x0C, tval := addr }
def alignTrap (addr : Nat) : Trap := { code := 0x0D, tval := addr }
def xlateTrap (kind va : Nat) : Trap := { code := 0x0A, tval := va + kind * 2 ^ 64 }
/-- FLT_PLACEMENT reports the placement word (R281). -/
def placementTrap (s : State) (c : Ctx) (lane : Option Nat) (va : Nat) : Trap :=
  let w : Word := match findLeaf s c.p.l.rec0.asid c.core (coreDie s c.core) (lane.bind fun l => tget c.p.g.lastPage l) va with
    | .ok l => l.plw
    | .error _ => 0
  { code := 0x0B, tval := va + w.toNat * 2 ^ 64 }

/-- The virtual address of an access of a space that is translated (R321, R327). -/
def vaOf (c : Ctx) (space : Space) (addr : DWord) : Nat :=
  if space = .const then c.p.l.rec0.cseg.toNat + fieldOf addr 0 32 else addr.toNat

/-- The pieces of a constant access: the segment is aligned to 8 bytes only, so 12 and 16 bytes may cross a line (R321, R421). One that
lies in one piece on another device is a fabric access (R479). [log 134 DEDUCED] -/
def constFate (s : State) (c : Ctx) (lane : Option Nat) (va n : Nat) : Fate :=
  let all := linePieces va n
  all.foldl (fun acc q => match acc with
    | .hit ps l1 =>
      if 2 ^ 56 ≤ q.1 then .bad 2 (addressTrap (va - c.p.l.rec0.cseg.toNat)) else
      match translate s c.p.l.rec0.asid c.core (coreDie s c.core) (lane.bind fun l => tget c.p.g.lastPage l) q.1 .read with
      | .error .placement => .bad 5 (placementTrap s c lane q.1)
      | .error e => .xfail e.kind va
      | .ok (_, .remote d a k) =>
        let fa := fabAddr d (a + q.1 % 128)
        match land s (.line (.remote d a k) (q.1 % 128), some fa) .read with
        | .here t => .hit (ps ++ [(t, q.2)]) false
        | .fails e => .lost e va
        | .there _ _ => if all.length = 1 then .remote fa k else .hit (ps ++ [(.far fa, q.2)]) false
      | .ok (_, loc) => .hit (ps ++ [(.line loc (q.1 % 128), q.2)]) l1
    | x => x) (.hit [] true)

/-- The checks of one lane (R324, orders 2, 3, 5 and 6). -/
def checkLane (s : State) (c : Ctx) (lane : Option Nat) (space : Space) (addr : DWord) (n align : Nat) (need : Need) : Fate :=
  let va := vaOf c space addr
  match locate s c.p lane space addr n need with
  | .error .address => .bad 2 (addressTrap addr.toNat)
  | r =>
    if addr.toNat % align ≠ 0 then .bad 3 (alignTrap addr.toNat)
    else if space = .const then constFate s c lane va n
    else match r with
      | .error .address => .bad 2 (addressTrap addr.toNat)
      | .error (.xl .placement) => .bad 5 (placementTrap s c lane va)
      | .error (.xl e) => .xfail e.kind va
      | .ok x =>
        let far := match x with
          | (.line (.remote _ _ _) _, _) => true
          | _ => false
        match land s x need with
        | .here t => .hit [(t, n)] (space == .global && !far)
        | .there fa k => .remote fa k
        | .fails k => .lost k va

/-- The fault a set of lanes raises (R278, R324): the first order found in any lane; TMASK holds the lanes that fail so, and the
lowest of them gives TVAL. -/
def firstFault (c : Ctx) (fs : List (Nat × Nat × Trap)) : Option Trap :=
  match fs with
  | [] => none
  | _ =>
    let o := fs.foldl (fun m x => Nat.min m x.2.1) 9
    let ls := fs.filter fun x => x.2.1 == o
    ls.head?.map fun x => { x.2.2 with tmask := maskOf (ls.map (·.1)), pc := c.e.pc }

/-- The first byte of an access in a guard granule (R279): its array offset, core and bank. -/
def guardOf (s : State) (f : Fate) : Option (Nat × Nat × Nat) :=
  match f with
  | .hit ((.sp bid x, n) :: _) _ => match tget s.blocks bid with
    | some b => (spGuard b.asize x n).map fun y => (guardArray b y, b.core, bankOf (guardArray b y))
    | none => none
  | _ => none
/-- A touch of guard granules by one instruction fills the group's report, or joins it (R279); helper lanes never report.
[log 45 DEDUCED] -/
def noteGuard (s : State) (gid : Nat) (wr : Bool) (touches : List (Nat × Nat × Nat × Nat)) : State :=
  match touches with
  | [] => s
  | (_, off, core, bank) :: _ =>
    let m := maskOf (touches.map (·.1))
    modGroup s gid fun g => { g with guardRep := some (match g.guardRep with
      | none => ⟨off, wr, false, core, bank, m⟩
      | some r => { r with more := true, lanes := r.lanes ||| m }) }
def guardTouches (s : State) (fs : List (Nat × Fate)) : List (Nat × Nat × Nat × Nat) :=
  fs.filterMap fun x => (guardOf s x.2).map fun y => (x.1, y)

/-- A watchpoint of the launch covers a byte of an access (R298). -/
def watchHit (c : Ctx) (wr : Bool) (fs : List (Nat × Fate)) : Option Nat :=
  if c.p.l.attached.isNone then none
  else (c.p.l.watches.find? fun w =>
    let (blk, off, len, kinds) := w.2
    kinds.testBit (if wr then 1 else 0) && fs.any fun f => match f.2 with
      | .hit ((.sp bid x, n) :: _) _ => bid == blk && (spOffsets x n).any fun y => decide (off ≤ y) && decide (y < off + len)
      | _ => false).map fun w => w.1 % 2

/-- A lane's translation enters its last-page register and the TLBs, and its walk reads the slices; one over an uncorrectable entry is counted (R472, R480). -/
def noteLane (s : State) (c : Ctx) (lane va : Nat) : State :=
  let asid := c.p.l.rec0.asid
  let old := tget c.p.g.lastPage lane
  match findLeaf s asid c.core (coreDie s c.core) old va with
  | .error _ => walkErr s asid c.core (coreDie s c.core) old va
  | .ok l =>
    modGroup (cacheLeaf (noteWalk s asid c.core (coreDie s c.core) old va) asid c.core (coreDie s c.core) va l) c.gid fun g =>
      { g with lastPage := tset g.lastPage lane (leafXlat asid va l) }
def noteLanes (s : State) (c : Ctx) (space : Space) (ls : List (Nat × DWord)) : State :=
  if space = .global ∨ space = .const then
    ls.foldl (fun s x => if vaOf c space x.2 < 2 ^ 56 then noteLane s c x.1 (vaOf c space x.2) else s) s
  else s
/-- The lanes whose translation did not fail are noted: a failed or unreachable walk is never cached (R473); the walks of the others
over an uncorrectable entry are counted (R472). -/
def noteFates (s : State) (c : Ctx) (space : Space) (fs : List (Nat × DWord × Fate)) : State :=
  let good := noteLanes s c space (fs.filterMap fun x => match x.2.2 with
    | .hit _ _ | .remote _ _ | .lost _ _ => some (x.1, x.2.1)
    | _ => none)
  if space = .global ∨ space = .const then
    fs.foldl (fun s x => match x.2.2 with
      | .xfail _ va => walkErr s c.p.l.rec0.asid c.core (coreDie s c.core) (tget c.p.g.lastPage x.1) va
      | _ => s) good
  else good
/-- A fault of a memory instruction, after the walks that failed are counted (R472). -/
def memTrap (s : State) (c : Ctx) (space : Space) (fs : List (Nat × DWord × Fate)) (t : Trap) : Res :=
  let bad := fs.filter fun x => match x.2.2 with
    | .xfail _ _ => true
    | _ => false
  if t.code = 0x0A then .done (takeTrap (noteFates s c space bad) c.gid c.eid t) else .trap t

/-- The replacement class of an access (R315, R323): its hint, or the default class of its page. -/
def accessClass (s : State) (c : Ctx) (lane : Nat) (h : Hint) (va : Nat) : Nat :=
  match h with
  | .evictFirst => 1 | .evictLast => 2 | .streaming => 3
  | .normal => match findLeaf s c.p.l.rec0.asid c.core (coreDie s c.core) (tget c.p.g.lastPage lane) va with
    | .ok l => l.cls
    | .error _ => 0

/-- Two targets share a byte. [log 133 DEDUCED] -/
def tgtMeets (a : Tgt) (n : Nat) (b : Tgt) (m : Nat) : Bool :=
  match a, b with
  | .line l o, .line k q => l == k && decide (o < q + m) && decide (q < o + n)
  | .sp l o, .sp k q => l == k && decide (o < q + m) && decide (q < o + n)
  | .far x, .far y => decide (x.toNat < y.toNat + m) && decide (y.toNat < x.toNat + n)
  | _, _ => false
/-- An earlier request of the group to the same bytes, or to the same device, has not taken effect or left (R328, R343, R360).
[log 133 DEDUCED] -/
def ownPending (s : State) (gid : Nat) (t : Tgt) (n : Nat) : Bool :=
  s.areqs.any fun r => r.gid == gid && (reqTgts s r).any fun u => tgtMeet t n u r.size

/-- A lane's own staged stores among the `n` bytes it loads, by offset, oldest first (R328, R338, R364). -/
def ownLaid (c : Ctx) (lane : Nat) (space : Space) (va n : Nat) : List (Nat × Byte) :=
  (c.p.b.staged.filter fun x => x.gidx == c.p.g.gidx && x.lane == lane && (x.op == 0 || x.op == 0x20)
    && (if x.fabric then space == .fabric else space == .global || space == .const)).flatMap fun x =>
    (x.data.zipIdx).filterMap fun b => if va ≤ x.va + b.2 ∧ x.va + b.2 < va + n then some (x.va + b.2 - va, b.1) else none

/-- The group's own earlier requests take effect first (R328); the instruction then goes on from that state.
[log 36 DESIGN CHOICE] -/
def withDrained (s : State) (c : Ctx) (f : State → Ctx → Res) : Res :=
  let s1 := drainReqs s c.gid
  match ctx? s1 with
  | some c1 => f s1 c1
  | none => f s c

/-- Read the pieces of an access, through L1 where it may serve them (R312). -/
def readPieces (s : State) (c : Ctx) (cls va : Nat) (ps : List (Tgt × Nat)) (l1 : Bool) : List Byte × State :=
  let r := ps.foldl (fun (acc : List Byte × State × Nat) q =>
    let (bs, s, a) := acc
    match q.1 with
    | .line loc off =>
      if l1 then
        let (line, s1) := readL1 s c.core c.gid c.p.l.rec0.asid a cls loc
        (bs ++ (line.drop off).take q.2, s1, a + q.2)
      else (bs ++ readTgt s q.1 q.2, touchTgt s cls q.1, a + q.2)
    | _ => (bs ++ readTgt s q.1 q.2, s, a + q.2)) ([], s, va)
  (r.1, r.2.1)
/-- A piece cannot be read: the word of its L1 copy is uncorrectable, or without a copy its line or word (R312, R320). -/
def pieceBad (s : State) (c : Ctx) (va : Nat) (l1 : Bool) (q : Tgt × Nat) : Bool :=
  match q.1 with
  | .line loc off => match (if l1 then l1Copy s c.core c.gid c.p.l.rec0.asid (va / 128) loc else none) with
    | some x => x.badAt off q.2
    | none => tgtBad s q.1 q.2
  | _ => tgtBad s q.1 q.2
/-- A piece that L1 serves need not wait for its page at the slice (R312, R361). -/
def pieceHeld (s : State) (c : Ctx) (va : Nat) (l1 : Bool) (q : Tgt × Nat) : Bool :=
  l1 && match q.1 with
    | .line loc _ => (l1Copy s c.core c.gid c.p.l.rec0.asid (va / 128) loc).isSome
    | _ => false

/-- The load a lane performs, once the checks have passed. -/
inductive LoadAct where
  | zero
  | basePoison (idx : Nat)
  | poison (kind va : Nat) (ps : List (Tgt × Nat) := [])
  | read (ps : List (Tgt × Nat)) (l1 : Bool)
  | later
  | far (fa : DWord) (lanes : Nat)
deriving DecidableEq, Repr

/-- A piece lies at another device. -/
def tgtFar : Tgt → Bool
  | .far _ => true
  | _ => false
/-- What a lane of a load does (R325, R326, R328, R310): a constant load with a piece at another device goes its pieces in order as a
request (R479). A poisoned piece was read at its slice. [log 134 DEDUCED] -/
def loadAct (s : State) (c : Ctx) (o : MOp) (lane : Nat) (f : Fate) : LoadAct :=
  let va := vaOf c o.space (memAddr o c.p.g lane)
  match f with
  | .bad _ _ => .zero
  | .xfail k a => .poison k a []
  | .lost k a => .poison k a []
  | .remote fa n => if flowFull s (flowTo s .request fa (fabDev fa) n) || ownPending s c.gid (.far fa) (moveBytes o (o.sub % 2 == 1)) then .later
    else .far fa n
  | .hit ps l1 =>
    if ps.any fun q => tgtAbsent s q.1 q.2 || ownPending s c.gid q.1 q.2 || tgtFar q.1 || (tgtClosed s q.1 && !pieceHeld s c va l1 q) then .later
    else if ps.any fun q => pieceBad s c va l1 q then .poison 4 va (ps.filter fun q => !pieceHeld s c va l1 q)
    else .read ps l1

/-- Poison records of a load, one for each kind that arose, in ascending kind (R162): the kinds with their indices. `own` names the
load. [log 33 DEDUCED] -/
def loadRecords (g : Group) (own : Nat) (pair : Bool) (reg : Nat) (acts : List (Nat × LoadAct)) : List (Nat × Nat) × Group :=
  [1, 2, 3, 4].foldl (fun acc k =>
    let ls := acts.filterMap fun x => match x.2 with
      | .poison kind va _ => if kind = k then some (x.1, va) else none
      | _ => none
    match ls with
    | [] => acc
    | (_, va) :: _ =>
      let (i, g) := addRecord acc.2 ⟨va, k, pair, false, reg, maskOf (ls.map (·.1)), own⟩
      (acc.1 ++ [(k, i)], g)) ([], g)

/-- The form of a load's result (R322, R331). -/
def loadForm (o : MOp) (side : Bool) : Nat :=
  if side then 4 else match o.size with
    | .s8 => 2 | .s16 => 3 | _ => 1

/-- Perform the lanes of a load in ascending order; the result is on its way, ready when no lane still waits. `regs` are the
destination registers as `loadWrites` numbers them. [log 34 DESIGN CHOICE] -/
def performLoad (s : State) (c : Ctx) (o : MOp) (regs : List Nat) (acts : List (Nat × LoadAct)) : List Dest × State :=
  let side := o.sub % 2 == 1
  let n := moveBytes o side
  let pair := o.size == .b64
  let id := s.nextId
  let (recs, g1) := loadRecords c.p.g id pair (regs.headD 0 % uniBase) acts
  let s0 := { s with nextId := id + 1, groups := tset s.groups c.gid g1 }
  acts.foldl (fun (acc : List Dest × State) x =>
    let (ws, s) := acc
    let lane := x.1
    let addr := memAddr o c.p.g lane
    let va := vaOf c o.space addr
    let laid := ownLaid c lane o.space va n
    match x.2 with
    | .zero => (ws ++ loadWrites 1 regs lane (List.replicate 16 0), s)
    | .basePoison i => (ws ++ regsPoison pair regs lane i, s)
    | .poison k _ ps => (ws ++ regsPoison pair regs lane (((recs.find? fun r => r.1 == k).map (·.2)).getD 63),
        ps.foldl (fun s q => touchTgt s (accessClass s c lane o.hint va) q.1) s)
    | .read ps l1 =>
      let (bs, s1) := readPieces s c (accessClass s c lane o.hint va) va ps l1
      (ws ++ loadWrites (loadForm o side) regs lane (layBytes laid bs), s1)
    | .later =>
      let r : AReq := ⟨id, c.gid, lane, 5, loadForm o side, 0, n, o.space, addr, 0, regs, true, 0, false, false,
                       accessClass s c lane o.hint va, 0, !o.split, laid⟩
      (ws, { s with areqs := s.areqs ++ [r] })
    | .far fa k => (ws, sendWait s c.gid id lane fa k .load n [] regs (loadForm o side) va laid)) ([], s0)

/-- The whole access waits until every line it touches is present (R310); the lanes of a `.split` load run on their own (R332). -/
def waitTogether (s : State) (split : Bool) (acts : List (Nat × LoadAct)) (fs : List (Nat × Fate)) : List (Nat × LoadAct) :=
  let absent (f : Fate) : Bool := match f with
    | .hit ps _ => ps.any fun q => tgtAbsent s q.1 q.2
    | _ => false
  if !split && fs.any fun x => absent x.2 then acts.map fun a => match a.2 with
    | .read _ _ => (a.1, .later)
    | _ => a
  else acts

/-- The lines an access would take at their slices. -/
def Fate.take (s : State) : Fate → State
  | .hit ps _ => ps.foldl (fun s q => touchTgt s 0 q.1) s
  | _ => s
/-- What the checks find for accesses of lanes one after the other: before stage B each is checked beside the lines that those before it
take in the caches, the only store there is (R556). -/
def seqFates (s : State) (c : Ctx) (space : Space) (n align : Nat) (need : Need) (xs : List (Nat × DWord)) : List (Nat × DWord × Fate) :=
  if s.backed then xs.map fun x => (x.1, x.2, checkLane s c (some x.1) space x.2 n align need)
  else (xs.foldl (fun (acc : List (Nat × DWord × Fate) × State) x =>
    let f := checkLane acc.2 c (some x.1) space x.2 n align need
    (acc.1 ++ [(x.1, x.2, f)], f.take acc.2)) ([], s)).1
/-- Lanes and what the checks find for each; a lane whose base is poisoned performs nothing. -/
def laneFates (s : State) (c : Ctx) (o : MOp) (side : Bool) (need : Need) (ls : List Nat) : List (Nat × Fate) :=
  (seqFates s c o.space (moveBytes o side) (moveAlign o side) need (ls.map fun l => (l, memAddr o c.p.g l))).map fun x => (x.1, x.2.2)

/-- Lanes with their addresses and what the checks found. -/
def laneAddrs (o : MOp) (c : Ctx) (fs : List (Nat × Fate)) : List (Nat × DWord × Fate) :=
  fs.map fun x => (x.1, memAddr o c.p.g x.1, x.2)

/-- The faults of orders 2, 3 and 5 among lanes that are no helper lanes. -/
def hardFaults (c : Ctx) (fs : List (Nat × Fate)) : List (Nat × Nat × Trap) :=
  fs.filterMap fun x => match x.2 with
    | .bad o t => if bitOf c.helpers x.1 then none else some (x.1, o, t)
    | _ => none
/-- Those and the translation failures of a store or an atomic (R324, R484). -/
def storeFaults (fs : List (Nat × Fate)) : List (Nat × Nat × Trap) :=
  fs.filterMap fun x => match x.2 with
    | .bad o t => some (x.1, o, t)
    | .xfail k va => some (x.1, 6, xlateTrap k va)
    | _ => none

/-- The group halts at a watchpoint (R298). [log 29 DEDUCED] -/
def haltWatch (s : State) (c : Ctx) (n : Nat) : Res := .done (haltGroup (unissue s c.gid) c.gid 4 n 0)

/-- LD to vector registers (R325, R326, R330-R332). -/
def ldVector (o : MOp) (m : LaneMask) (s : State) (c : Ctx) : Res :=
  let side := o.sub % 2 == 1
  let ls := lanesOf m
  let fs := laneFates s c o side .read (ls.filter fun l => ((memBase o).poison c.p.g l).isNone)
  match firstFault c (hardFaults c fs) with
  | some t => .trap t
  | none =>
    match watchHit c false fs with
    | some n => haltWatch s c n
    | none =>
      let s1 := noteGuard (noteFates s c o.space (laneAddrs o c fs)) c.gid false
        (guardTouches s (fs.filter fun x => !bitOf c.helpers x.1))
      let c1 : Ctx := match ctx? s1 with
        | some c1 => c1
        | none => c
      let acts := waitTogether s1 o.split (ls.map fun l => match (memBase o).poison c.p.g l with
        | some i => (l, LoadAct.basePoison i)
        | none => (l, ((fs.find? fun x => x.1 == l).map fun x => loadAct s1 c1 o l x.2).getD .zero)) fs
      let regs := dataRegs o o.d
      let (ws, s2) := performLoad s1 c1 o regs acts
      let wait := acts.any fun a => match a.2 with
        | .later | .far _ _ => true
        | _ => false
      let x : Inflight := { vregs := regs, pregs := [], lanes := m, writes := ws, flags := [], ready := !wait, req := s1.nextId,
                            split := o.split, late := false }
      .done (c.advance s2 false fun g => { g with inflight := g.inflight ++ [x] })

/-- LD to uniform registers (R330): once for the entry, its result seen by every instruction issued after it (R183). A result that must
wait parks the entry, which issued when the load did (R373); poison traps with FLT_PAGE. -/
def ldUniform (o : MOp) (m : LaneMask) (s : State) (c : Ctx) : Res :=
  let ks := dataRegs o o.d
  let regs := ks.map fun k => uniBase + k
  let real := m &&& ~~~c.helpers
  let finish (s : State) (c : Ctx) (ws : List Dest) : Res :=
    match ws.findSome? fun w => match w with
      | .vec _ _ d _ true => some (poisonIdx d)
      | _ => none with
    | some i =>
      let s1 := modGroup s c.gid fun g => { g with inflight := g.inflight.filter fun x => !(x.kregs == ks && x.lanes == c.e.mask) }
      let addr := ((tget c.p.g.prq i).map (·.addr)).getD 0
      if ((tget c.p.g.prq i).any fun r => r.kind == 4) then .done (contain s1 c.p c.e.pc)
      else .done (takeTrap s1 c.gid c.eid { code := 0x09, tval := addr, tmask := real, prqi := i, pc := c.e.pc })
    | none =>
      .done (c.advance s false fun g =>
        { (g.putAll c.p.dist ws) with inflight := g.inflight.filter fun x => !(x.kregs == ks && x.lanes == c.e.mask) })
  match lowLane real with
  | none => .done (c.advance s false id)
  | some lane =>
    match c.p.g.inflight.find? fun x => x.kregs == ks && x.lanes == c.e.mask && x.req != 0 with
    | some x => if x.ready then finish (unissue s c.gid) c x.writes else .park .retry
    | none =>
      let f := checkLane s c (some lane) o.space (memAddr o c.p.g lane) (moveBytes o false) (moveAlign o false) .read
      match f with
      | .bad _ t => .trap { t with tmask := real, pc := c.e.pc }
      | _ =>
        match watchHit c false [(lane, f)] with
        | some n => haltWatch s c n
        | none =>
          let s1 := noteGuard (noteFates s c o.space (laneAddrs o c [(lane, f)])) c.gid false
            ((guardTouches s [(lane, f)]).flatMap fun y => (lanesOf real).map fun l => (l, y.2))
          let c1 : Ctx := match ctx? s1 with
            | some c1 => c1
            | none => c
          let a := loadAct s1 c1 o lane f
          let (ws, s2) := performLoad s1 c1 o regs [(lane, a)]
          match a with
          | .later | .far _ _ =>
            .done (modGroup s2 c.gid fun g => modEntry
              { g with inflight := g.inflight ++ [{ vregs := [], pregs := [], kregs := ks, lanes := c.e.mask, writes := ws, flags := [],
                                                    ready := false, req := s1.nextId, late := false }] }
              c.eid fun e => { e with park := some .retry })
          | _ => match ctx? s2 with
            | some c2 => finish s2 c2 ws
            | none => .done s2

/-- LD (R330). -/
def execLd (o : MOp) (s : State) : Host.Outcome State Fault Refusal :=
  runGroup s o.hd { vr := (memBase o).vregs, vw := if o.basek then [] else dataRegs o o.d } fun c =>
    withDrained s c fun s c => if o.basek then ldUniform o (c.active o.hd) s c else ldVector o (c.active o.hd) s c

/-- Poison that a store or an atomic consumes in its lanes: address, then operands in register order (R161, R324). -/
def consumed (o : MOp) (g : Group) (regs : List Nat) (ls : List Nat) : List (Nat × Nat) :=
  ls.filterMap fun l => (firstPoison (memBase o :: regs.map Opnd.v) g l).map fun i => (l, i)

/-- The class of a lane's access (R323). -/
def laneCls (s : State) (c : Ctx) (o : MOp) (lane : Nat) : Nat :=
  accessClass s c lane o.hint (vaOf c o.space (memAddr o c.p.g lane))

/-- The bytes a lane stores (R322, R331): sidecars are stored as zero where the mode has none (R26). -/
def storeBytes (c : Ctx) (o : MOp) (side : Bool) (lane : Nat) : List Byte :=
  let regs := dataRegs o o.b
  let means := (regs.flatMap fun r => bytesOf (c.p.g.rdV r lane).toNat 4).take o.size.bytes
  let sd (r : Nat) : Word := if c.p.dist then c.p.g.rdSide r lane else 0
  if !side then means
  else means ++ ((regs.zipIdx).flatMap fun r => bytesOf (if o.size = .b64 ∧ r.2 = 1 then 0 else (sd r.1).toNat) 4)

/-- One lane's store takes effect (R312, R328, R341): here, at another device, or once what it waits for is over. `id` names the
instruction, and `wait` says a line it touches is absent, so that every lane waits (R310). -/
def storeLane (o : MOp) (c : Ctx) (id : Nat) (wait : Bool) (s : State) (x : Nat × Fate × List Byte) : State :=
  let (lane, f, bs) := x
  let addr := memAddr o c.p.g lane
  let cls := accessClass s c lane o.hint (vaOf c o.space addr)
  let later (s : State) : State :=
    { s with areqs := s.areqs ++
        [⟨id, c.gid, lane, 6, 0, 0, bs.length, o.space, addr, 0, bs.map (·.toNat), false, 0, false, false, cls, 0, true, []⟩] }
  match f with
  | .hit ((t, n) :: _) _ =>
    if wait || tgtClosed s t || ownPending s c.gid t n then later s
    else storeL1 (writeTgtAs s cls t bs) c.gid t bs
  | .remote fa k =>
    if flowFull s (flowTo s .request fa (fabDev fa) k) || ownPending s c.gid (.far fa) bs.length then later s
    else sendWait s c.gid id lane fa k .store bs.length bs [] 0 (vaOf c o.space addr)
  | .lost _ _ => s.wrReg rFBDROP (s.rdReg rFBDROP + 1)
  | _ => s
/-- The lanes of one store act in ascending order (R328); a line that those which do not wait cover together is repaired (R320). -/
def storeLanes (o : MOp) (c : Ctx) (s : State) (fs : List (Nat × Fate × List Byte)) : State :=
  let wait := fs.any fun x => match x.2.1 with
    | .hit ps _ => ps.any fun q => tgtAbsent s q.1 q.2
    | _ => false
  let r := fs.foldl (fun (acc : State × List (Tgt × Nat)) x =>
    let s1 := storeLane o c s.nextId wait acc.1 x
    (s1, acc.2 ++ match x.2.1 with
      | .hit ps _ => if s1.areqs.length = acc.1.areqs.length then ps else []
      | _ => [])) ({ s with nextId := s.nextId + 1 }, [])
  repairLines r.1 r.2

/-- ST (R330): every check precedes every effect (R324); staged launches stage it (R338). [log 34 DESIGN CHOICE] -/
def execSt (o : MOp) (s : State) : Host.Outcome State Fault Refusal :=
  let side := o.sub % 2 == 1
  let far := o.space == .fabric
  runGroup s o.hd { vr := (memBase o).vregs ++ dataRegs o o.b, irr := far } fun c =>
    withDrained s c fun s c =>
      let ls := lanesOf (c.real o.hd)
      match c.consume (consumed o c.p.g (dataRegs o o.b) ls) with
      | some r => r
      | none =>
        let fs := laneFates s c o side .write ls
        match firstFault c (storeFaults fs) with
        | some t => memTrap s c o.space (laneAddrs o c fs) t
        | none =>
          match watchHit c true fs with
          | some n => haltWatch s c n
          | none =>
            let s1 := noteGuard (noteFates s c o.space (laneAddrs o c fs)) c.gid true (guardTouches s fs)
            let go (s : State) : Res := .done (c.advance s far fun g => if far then c.commitRegion s g else g)
            let lanes := fs.map fun x => (x.1, x.2, storeBytes c o side x.1)
            let direct (s : State) : Res := go (storeLanes o c s lanes)
            if c.p.staged && (o.space == .global || far) then
              match stageAll s1 c (fs.map fun x =>
                ⟨c.p.g.gidx, x.1, s.stamp, 0, far, (memAddr o c.p.g x.1).toNat, moveBytes o side, storeBytes c o side x.1, 0, false, 0,
                 laneCls s c o x.1, s.stamp⟩) with
              | .staged s2 => go s2
              | .direct s2 => match direct s2 with
                | .done s3 => .done (leaveExtra s3 { c with e := { c.e with irr := far } } id)
                | r => r
              | .wait s2 => .done s2
            else direct s1

/-- The region of an irrevocable instruction commits once its requests are performed (R42, R44): but an ATOM to fabric space, which takes
effect as it leaves the core. -/
def commitsLate (c : Ctx) (irr : Bool) (rs : List AReq) : Bool :=
  irr && !rs.isEmpty && !c.p.g.tm && rs.all fun r => r.space != .fabric || r.kind != 0
/-- Requests of an instruction, one for each lane, leave for their places (R316, R335); its result is on its way. -/
def launchReqs (s : State) (c : Ctx) (irr : Bool) (vregs : List Nat) (m : LaneMask) (flags : List (Nat × Flg)) (now : List Dest)
    (rs : List AReq) : State :=
  let later := commitsLate c irr rs
  let pc := nextPc c.e.pc
  let x : Inflight := { vregs := vregs, pregs := [], lanes := m, writes := now, flags := [], ready := rs.isEmpty, req := s.nextId,
                        late := false,
                        commit := if later then some (c.e.mask, pc, (rgnAt s c pc).getD c.e.lidp) else none }
  c.advance { s with nextId := s.nextId + 1, areqs := s.areqs ++ rs } irr fun g =>
    let g := g.orAll flags
    { (if irr && !later then c.commitRegion s g else g) with inflight := g.inflight ++ [x] }

/-- The same for both copies of a redundant launch, whose access is performed once (R338): the other copy's result waits for the
same requests. -/
def launchBoth (s : State) (c : Ctx) (irr : Bool) (vregs : List Nat) (m : LaneMask) (flags : List (Nat × Flg)) (now : List Dest)
    (rs : List AReq) : State :=
  let id := s.nextId
  let s1 := launchReqs s c irr vregs m flags now rs
  let later := commitsLate c irr rs
  let pc := nextPc c.e.pc
  leaveExtraPark s1 { c with e := { c.e with irr := irr } } none (!later) fun g =>
    { g.orAll flags with
      inflight := g.inflight ++ [{ vregs := vregs, pregs := [], lanes := m, writes := now, flags := [], ready := rs.isEmpty, req := id,
                                   late := false,
                                   commit := if later then some (c.e.mask, pc, (rgnAt s c pc).getD c.e.lidp) else none }] }

/-- What each lane of ALD does: zero or poison at once, or a request (R325, R326, R333). -/
def aldActs (c : Ctx) (o : MOp) (m : LaneMask) (fs : List (Nat × Fate)) : List (Nat × LoadAct) :=
  (lanesOf m).map fun l => (l, match (memBase o).poison c.p.g l with
    | some i => LoadAct.basePoison i
    | none => match fs.find? fun (x : Nat × Fate) => x.1 == l with
      | some (_, Fate.bad _ _) => .zero
      | some (_, Fate.xfail k va) => .poison k va []
      | _ => .later)
/-- ALD's lanes leave: their requests, and the results known at once. [log 148 DEDUCED] -/
def aldGo (c : Ctx) (o : MOp) (fs : List (Nat × Fate)) (s : State) : Res :=
  let m := c.active o.hd
  let regs := dataRegs o o.d
  let pair := o.size == .b64
  let s1 := noteGuard (noteFates s c o.space (laneAddrs o c fs)) c.gid false
    (guardTouches s (fs.filter fun x => !bitOf c.helpers x.1))
  let acts := aldActs c o m fs
  let (recs, g1) := match tget s1.groups c.gid with
    | some g => loadRecords g s1.nextId pair o.d acts
    | none => ([], c.p.g)
  let s2 := { s1 with groups := tset s1.groups c.gid g1 }
  let now := acts.flatMap fun (l, a) => match a with
    | .zero => loadWrites 1 regs l (List.replicate 8 0)
    | .basePoison i => regsPoison pair regs l i
    | .poison k _ _ => regsPoison pair regs l (((recs.find? fun r => r.1 == k).map (·.2)).getD 63)
    | _ => []
  let rs : List AReq := acts.filterMap fun (l, a) => match a with
    | .later => some ⟨s2.nextId, c.gid, l, 2, 0, 0, o.size.bytes, o.space, memAddr o c.p.g l, 0, [], true, o.d, c.p.l.rec0.det, false,
      laneCls s2 c o l, 0, true, []⟩
    | _ => none
  .done (launchBoth s2 c false regs m [] now rs)
/-- ALD (R325, R333): a load at the home slice or array. [log 147 DEDUCED, 148 DEDUCED] -/
def execAld (o : MOp) (s : State) : Host.Outcome State Fault Refusal :=
  runGroup s o.hd { vr := (memBase o).vregs, vw := dataRegs o o.d } fun c =>
    withDrained s c fun s c =>
      let fs := laneFates s c o false .read ((lanesOf (c.active o.hd)).filter fun l => ((memBase o).poison c.p.g l).isNone)
      match firstFault c (hardFaults c fs) with
      | some t => .trap t
      | none =>
        match watchHit c false fs with
        | some n => haltWatch s c n
        | none =>
          if c.p.staged && (o.space == .global || o.space == .fabric) then
            match gateReturn s c (fs.flatMap fun x => opItems s c 0x21 (memAddr o c.p.g x.1).toNat x.1 [0]) true with
            | .wait s2 => .done s2
            | .staged s2 | .direct s2 => aldGo c o fs s2
          else aldGo c o fs s

/-- AST (R333). -/
def execAst (o : MOp) (s : State) : Host.Outcome State Fault Refusal :=
  let regs := dataRegs o o.b
  runGroup s o.hd { vr := (memBase o).vregs ++ regs, irr := true } fun c =>
    withDrained s c fun s c =>
      let ls := lanesOf (c.real o.hd)
      match c.consume (consumed o c.p.g regs ls) with
      | some r => r
      | none =>
        let fs := laneFates s c o false .write ls
        match firstFault c (storeFaults fs) with
        | some t => memTrap s c o.space (laneAddrs o c fs) t
        | none =>
          match watchHit c true fs with
          | some n => haltWatch s c n
          | none =>
            let s1 := noteGuard (noteFates s c o.space (laneAddrs o c fs)) c.gid true (guardTouches s fs)
            let direct (s : State) : Res := .done (launchBoth s c true [] (c.active o.hd) [] [] (ls.map fun l =>
              ⟨s.nextId, c.gid, l, 1, 0, 0, o.size.bytes, o.space, memAddr o c.p.g l, 0, [ofBytes (storeBytes c o false l)], false, 0,
               c.p.l.rec0.det, false, laneCls s c o l, 0, true, []⟩))
            if c.p.staged && (o.space == .global || o.space == .fabric) then
              match stageAll s1 c (fs.map fun x =>
                ⟨c.p.g.gidx, x.1, s.stamp, 0x20, o.space == .fabric, (memAddr o c.p.g x.1).toNat, o.size.bytes,
                 storeBytes c o false x.1, 0, false, 0, laneCls s c o x.1, s.stamp⟩) with
              | .staged s2 => .done (c.advance s2 true id)
              | .direct s2 => direct s2
              | .wait s2 => .done s2
            else direct s1

/-- Operand registers of ATOM (R334): compare and new value of `.cas`, value and index of `.amaxvi`, or one value. -/
def atomOpRegs (o : MOp) : List Nat :=
  let n := if atomAop o.sub = 8 then 2 * o.size.regs else o.size.regs
  (List.range n).map fun i => o.b + i
/-- The k-th operand of the location's width (R334, R337). -/
def operand (g : Group) (o : MOp) (reg lane k : Nat) : Nat :=
  if o.size = .b64 then (g.rdV2 (reg + 2 * k) lane).toNat else (g.rdV (reg + k) lane).toNat
/-- The key of ATOM.amaxvi (R336): a NaN ranks as -infinity and raises IV. -/
def amaxKey (f i : Word) : Nat × Flg :=
  let nan := (decodeFp fF32 f.toNat).isNan
  let f' : Word := if nan then 0xFF800000 else f
  let hi := f' ^^^ (if bitOf f' 31 then 0xFFFFFFFF else 0x80000000)
  (hi.toNat * 2 ^ 32 + (0xFFFFFFFF - i.toNat), if nan then fIV else 0)
/-- The operands of a lane's atomic, and the flags it raises at issue. -/
def atomArgs (g : Group) (o : MOp) (lane : Nat) : List Nat × Flg :=
  if atomAop o.sub = 11 then
    let (k, f) := amaxKey (g.rdV o.b lane) (g.rdV (o.b + 1) lane)
    ([k], f)
  else if atomAop o.sub = 8 then ([operand g o o.b lane 0, operand g o o.b lane 1], 0)
  else ([operand g o o.b lane 0], 0)

/-- ATOM (R334-R336). -/
def execAtom (o : MOp) (s : State) : Host.Outcome State Fault Refusal :=
  let nr := atomNr o.sub
  let aop := atomAop o.sub
  let vw := if nr then [] else dataRegs o o.d
  runGroup s o.hd { vr := (memBase o).vregs ++ atomOpRegs o, vw := vw, irr := true } fun c =>
    withDrained s c fun s c =>
      let ls := lanesOf (c.real o.hd)
      match c.consume (consumed o c.p.g (atomOpRegs o) ls) with
      | some r => r
      | none =>
        let fs := laneFates s c o false .atomic ls
        let iv := ls.filterMap fun l =>
          let f := (atomArgs c.p.g o l).2
          if f = 0 then none else some (l, f)
        let ieee := iv.filterMap fun x =>
          if x.2 &&& enables c.p.g x.1 = 0 then none
          else some (x.1, 4, { c.wordTrap 0x08 0 with flags := (x.2 &&& enables c.p.g x.1).toNat })
        match firstFault c (storeFaults fs ++ ieee) with
        | some t => memTrap s c o.space (laneAddrs o c fs) t
        | none =>
          match watchHit c true fs with
          | some n => haltWatch s c n
          | none =>
            let note (s : State) : State :=
              noteGuard (noteFates s c o.space (laneAddrs o c fs)) c.gid true (guardTouches s fs)
            let reqs (s : State) : List AReq := ls.map fun l =>
              ⟨s.nextId, c.gid, l, 0, aop, atomTy o.sub, o.size.bytes, o.space, memAddr o c.p.g l, 0, (atomArgs c.p.g o l).1, !nr, o.d,
               c.p.l.rec0.det, false, laneCls s c o l, 0, true, []⟩
            let wide := c.p.staged && (o.space == .global || o.space == .fabric)
            if wide && nr then
              match stageAll (note s) c (fs.map fun x =>
                ⟨c.p.g.gidx, x.1, s.stamp, 0x10 + aop, o.space == .fabric, (memAddr o c.p.g x.1).toNat, o.size.bytes,
                 (atomArgs c.p.g o x.1).1.flatMap fun a => bytesOf a o.size.bytes, atomTy o.sub, false, 0, laneCls s c o x.1, s.stamp⟩) with
              | .staged s2 => .done (c.advance s2 true fun g =>
                  if o.space = .fabric then c.commitRegion s2 (g.orAll iv) else g.orAll iv)
              | .direct s2 => .done (launchBoth s2 c true [] (c.active o.hd) iv [] (reqs s2))
              | .wait s2 => .done s2
            else if wide then
              match gateReturn s c (ls.flatMap fun l => opItems s c (0x10 + aop) (memAddr o c.p.g l).toNat l
                ((atomOpRegs o).map fun r => c.p.g.rdV r l)) true with
              | .wait s2 => .done s2
              | .staged s2 | .direct s2 => .done (launchBoth (note s2) c true vw (c.active o.hd) iv [] (reqs (note s2)))
            else .done (launchReqs (note s) c true vw (c.active o.hd) iv [] (reqs (note s)))

/-- The second address of DCAS and AMOV (R337). [log 132 DEDUCED] -/
def secondAddr (g : Group) (o : MOp) (lane : Nat) : DWord := g.rdV2 o.b lane
/-- The checks of one lane of DCAS or AMOV (R324, R337): both locations, and that they share no byte. [log 132 DEDUCED] -/
def twoFaults (s : State) (c : Ctx) (o : MOp) (lane : Nat) : List (Nat × Nat × Trap) :=
  let x := memAddr o c.p.g lane
  let y := secondAddr c.p.g o lane
  let n := o.size.bytes
  let fx := checkLane s c (some lane) o.space x n n .atomic
  let fy := if o.space = .scratch ∧ fieldOf y 32 32 ≠ 0 then Fate.bad 2 (addressTrap y.toNat)
    else checkLane s c (some lane) o.space y n n .atomic
  let own := storeFaults [(lane, fx), (lane, fy)]
  let near (a b : Nat) : Bool := decide (a < b + n) && decide (b < a + n)
  let meet := near x.toNat y.toNat || match fx, fy with
    | .hit ((a, _) :: _) _, .hit ((b, _) :: _) _ => tgtMeets a n b n
    | .remote a _, .remote b _ => near a.toNat b.toNat
    | _, _ => false
  let all := if meet then own ++ [(lane, 2, addressTrap x.toNat)] else own
  let least := all.foldl (fun m x => Nat.min m x.2.1) 9
  (all.filter fun x => x.2.1 == least).take 1

/-- DCAS and AMOV (R337): `args` operands after the second address, `vals` values returned. -/
def runTwo (o : MOp) (kind sig args vals : Nat) (s : State) : Host.Outcome State Fault Refusal :=
  let k := o.size.regs
  let oregs := (List.range (2 + args * k)).map fun i => o.b + i
  let vw := (List.range (vals * k)).map fun i => o.d + i
  runGroup s o.hd { vr := (memBase o).vregs ++ oregs, vw := vw, irr := true } fun c =>
    withDrained s c fun s c =>
      let ls := lanesOf (c.real o.hd)
      match c.consume (consumed o c.p.g oregs ls) with
      | some r => r
      | none =>
        let fas := seqFates s c o.space o.size.bytes o.size.bytes .atomic
          (ls.flatMap fun l => [(l, memAddr o c.p.g l), (l, secondAddr c.p.g o l)])
        match firstFault c (ls.flatMap (twoFaults s c o)) with
        | some t => memTrap s c o.space fas t
        | none =>
          let fs := fas.map fun x => (x.1, x.2.2)
          match watchHit c true fs with
          | some n => haltWatch s c n
          | none =>
            let go (s : State) : Res :=
              let s1 := noteGuard (noteFates s c o.space fas) c.gid true (guardTouches s fs)
              .done (launchBoth s1 c true vw (c.active o.hd) [] [] (ls.map fun l =>
                ⟨s1.nextId, c.gid, l, kind, 0, 0, o.size.bytes, o.space, memAddr o c.p.g l, secondAddr c.p.g o l,
                 (List.range args).map fun i => operand c.p.g o (o.b + 2) l i, true, o.d, c.p.l.rec0.det, false, laneCls s1 c o l,
                 accessClass s1 c l o.hint (vaOf c o.space (secondAddr c.p.g o l)), true, []⟩))
            if c.p.staged && o.space == .global then
              match gateReturn s c (ls.flatMap fun l => opItems s c sig (memAddr o c.p.g l).toNat l (oregs.map fun r => c.p.g.rdV r l)) true with
              | .wait s2 => .done s2
              | .staged s2 | .direct s2 => go s2
            else go s
def execDcas (o : MOp) (s : State) : Host.Outcome State Fault Refusal := runTwo o 3 0x22 4 2 s
def execAmov (o : MOp) (s : State) : Host.Outcome State Fault Refusal := runTwo o 4 0x23 1 1 s

/-- The distinct lines PREF, CWB and CINV act on, one of each (R339): lanes with a poisoned, untranslatable or outside address do
nothing. -/
def hintLines (s : State) (c : Ctx) (o : MOp) (m : LaneMask) : List (Nat × Nat × LineLoc) :=
  let all := (lanesOf m).filterMap fun l =>
    if ((memBase o).poison c.p.g l).isSome then none
    else
      let va := vaOf c o.space (memAddr o c.p.g l)
      match locate s c.p (some l) o.space (memAddr o c.p.g l) 1 .read with
      | .ok (.line (.remote _ _ _) _, _) => none
      | .ok (.line loc _, _) => some (l, va, loc)
      | _ => none
  all.foldl (fun acc x => if acc.any fun y => l1Id y.2.2 == l1Id x.2.2 && y.2.1 / 128 == x.2.1 / 128 then acc else acc ++ [x]) []
/-- The walks of a hint read the slices, and those that met an uncorrectable entry are counted (R314, R472). -/
def hintErrs (s : State) (c : Ctx) (o : MOp) (m : LaneMask) : State :=
  if o.space = .global ∨ o.space = .const then
    ((lanesOf m).filter fun l => ((memBase o).poison c.p.g l).isNone).foldl (fun s l =>
      let va := vaOf c o.space (memAddr o c.p.g l)
      let old := tget c.p.g.lastPage l
      if va < 2 ^ 56 then noteWalk (walkErr s c.p.l.rec0.asid c.core (coreDie s c.core) old va) c.p.l.rec0.asid c.core (coreDie s c.core) old va
      else s) s
  else s
/-- Run a line hint: `f` acts once for each line. -/
def runHint (o : MOp) (f : Ctx → State → Nat × Nat × LineLoc → State) (s : State) : Host.Outcome State Fault Refusal :=
  runGroup s o.hd { vr := (memBase o).vregs } fun c =>
    .done (c.advance ((hintLines s c o (c.active o.hd)).foldl (f c) (hintErrs s c o (c.active o.hd))) false id)
/-- PREF (R339): the line comes into its slice and, under `.l1`, into this core's L1. -/
def execPref (o : MOp) (s : State) : Host.Outcome State Fault Refusal :=
  runHint o (fun c s x =>
    let cls := accessClass s c x.1 o.hint x.2.1
    let s1 := touchLoc s x.2.2 cls false
    if o.sub % 2 = 1 then (readL1 s1 c.core c.gid c.p.l.rec0.asid x.2.1 cls x.2.2).2 else s1) s
/-- CWB (R339): a dirty line is written back and stays, clean. -/
def execCwb (o : MOp) (s : State) : Host.Outcome State Fault Refusal :=
  runHint o (fun _ s x => { s with l2 := s.l2.map fun (y : L2Line) => if y.line = x.2.2.line then { y with dirty := false } else y }) s
/-- CINV (R339): the line leaves this core's L1 and, under `.l2`, its home slice. -/
def execCinv (o : MOp) (s : State) : Host.Outcome State Fault Refusal :=
  runHint o (fun c s x =>
    let s1 := dropL1 s (some c.core) fun y => y.overlaps x.2.2
    if o.sub % 2 = 1 then { s1 with l2 := s1.l2.filter fun y => y.line != x.2.2.line } else s1) s

/-- A pen-remote access to the issuing block itself, which acts as a scratchpad access (R308). -/
def ownPen (s : State) (r : AReq) : Bool :=
  (party? s r.gid).any fun p => (r.addr :: if r.kind = 3 ∨ r.kind = 4 then [r.addr2] else []).any fun a =>
    (penTarget p a).any fun t => t.1 == p.g.bid
/-- An access of the group is not yet performed at a scope (R340). Staged accesses do not count. [log 35 DEDUCED] -/
def unperformed (s : State) (gid : Nat) (sc : Scope) : Bool :=
  let far : Bool := match sc with
    | .fab => true
    | _ => false
  let rank : Nat := match sc with
    | .grp | .blk => 0
    | .gang => 1
    | .die | .dev => 2
    | .fab => 3
  (s.areqs.any fun r => r.gid == gid && (r.kind == 5 || match r.space with
    | .scratch => true
    | .pen => decide (1 ≤ rank) || ownPen s r
    | .global | .const => decide (2 ≤ rank)
    | .fabric => decide (3 ≤ rank)))
  || s.fwaits.any fun w => w.gid == gid && (far || (1 ≤ w.form && w.form ≤ 4) || (w.hold.isSome && decide (2 ≤ rank)))
/-- FENCE (R340, R373): it issues once, acts whatever its guard and mask hold, and holds the whole group until its wait is over.
[log 35 DEDUCED] -/
def execFence (o : MOp) (s : State) : Host.Outcome State Fault Refusal :=
  runGroup s { o.hd with guard := .always } {} fun c =>
    let again := c.p.g.fence = some c.eid
    if unperformed s c.gid o.scope then
      if again then .park .retry
      else .done (modGroup s c.gid fun g => { modEntry g c.eid fun e => { e with park := some .retry } with fence := some c.eid })
    else .done (c.advance (if again then unissue s c.gid else s) false fun g => { g with fence := none })

end Sys2Proof.Machine
end

