-- ==== Sys2Proof/Machine/Net.lean ====
section
/-! DEFINITION. Events of the Sumir fabric at this device: flits that arrive, are put in order and delivered, acknowledgements,
time-outs and incoming accesses (31_engines R417, 41_tables R517-R522, 50_counters R547). -/

namespace Sys2Proof.Machine

open Sys2Proof

/-- Ports that are up and carry Sumir traffic. -/
def upPorts (s : State) : List Nat := usablePorts s 0xFFFFFFFF
/-- The home port of a flow (R518). -/
def homePort (s : State) (f : Flow) : Option Nat := choosePort (upPorts s) ((f.src % 32) ^^^ f.hl)
/-- The destination side of a flow; a new one expects SEQ 0. -/
def flowIn (s : State) (f : Flow) : FlowIn :=
  (s.flowsIn.find? fun x => x.flow == f).getD ⟨(homePort s f).getD 0, f, 0, []⟩
def setFlowIn (s : State) (x : FlowIn) : State := { s with flowsIn := (s.flowsIn.filter fun y => y.flow != x.flow) ++ [x] }
/-- How far a SEQ lies ahead of the next one expected. -/
def seqAhead (next seq : BitVec 16) : Nat := (seq - next).toNat

/-- The flows that hold a flow entry of a port's reorder buffer (R366, R518): those with a flit that came out of order. -/
def flowEntries (s : State) (port : Nat) : Nat :=
  (s.flowsIn.filter fun x => x.port == port && x.held.any fun h => h.1 != x.next).length
/-- FLIT_ARRIVAL (R366, R517, R518, R520): a flit for another device goes on, or waits in the queue it came by while that has room; one
for this device enters the reorder buffer of its flow's home port, unless it was delivered before, is there already, or is out of order
and its flow finds all 256 flow entries in use. -/
def execFlitArrival (port : Nat) (flit : Flit) (s : State) : Host.Outcome State Fault Refusal :=
  if s.stage < 4 ∨ !(upPorts s).contains port then .fault .notEnabled
  else if flit.flow.dst ≠ myId s then
    if vcCap ≤ vcInLen s port (vcOf flit.flow.cls flit.hops) then .fault .notEnabled else .next (routeFrom s port flit)
  else
    let x := flowIn s flit.flow
    let n := seqAhead x.next flit.seq
    if 32768 ≤ n ∨ (x.held.any fun h => h.1 == flit.seq) ∨ (n ≠ 0 ∧ (x.held.all fun h => h.1 == x.next) ∧ 256 ≤ flowEntries s x.port) then .next s
    else .next (setFlowIn s { x with held := x.held ++ [(flit.seq, flit.acc, flit.mark)] })

/-- An incoming access takes effect, and what it returns goes back (R521); none while its page is closed. `mark` is copied into the
response (R520). -/
def serveAccess (s : State) (src hl : Nat) (acc : FabAccess) (mark : Bool) : Option State :=
  match acc.kind with
  | .reply k => some (receiveReply s acc.tag k acc.data)
  | .barrier => some s
  | .store => (performFab s acc).map (·.1)
  | k =>
    let (op, ty) := match k with
      | .atom op ty => (op, ty)
      | _ => (0, 0)
    match relayTwo s src hl acc op ty mark with
    | some r => r
    | none => (performFab s acc).bind fun r =>
      let fl : Flow := ⟨myId s, src, hl, .response⟩
      if flowFull r.1 fl then none
      else some (sendAccess r.1 fl mark ⟨.reply r.2.1, acc.addr, acc.size, r.2.2, acc.tag⟩)
/-- FLIT_REORDER_DELIVER (R518, R520, R521): the flit a flow expects next is delivered. -/
def execFlitReorderDeliver (port : Nat) (flow : Flow) (s : State) : Host.Outcome State Fault Refusal :=
  match s.flowsIn.find? fun x => x.flow == flow && x.port == port with
  | none => .fault .notEnabled
  | some x => match x.held.find? fun h => h.1 == x.next with
    | none => .fault .notEnabled
    | some (seq, acc, mark) =>
      let s1 := setFlowIn s { x with next := x.next + 1, held := x.held.filter fun h => h.1 != seq }
      match serveAccess s1 flow.src flow.hl acc mark with
      | none => .fault .notEnabled
      | some s2 =>
        let back : Flow := ⟨flow.dst, flow.src, flow.hl, .request⟩
        .next (if mark && flow.cls == .response then entropyUpdate s2 back else s2)
/-- FABRIC_INCOMING_ACCESS (R521): an access of another device, however it came, takes effect here. -/
def execFabricIncomingAccess (src : Nat) (acc : FabAccess) (s : State) : Host.Outcome State Fault Refusal :=
  if s.stage < 4 then .fault .notEnabled
  else match serveAccess s src (hashLane acc.addr 0) acc false with
    | some s1 => .next s1
    | none => .fault .notEnabled

/-- A write is done once its flit is acknowledged (R340, R521). -/
def writeAcked (s : State) (tag : Nat) : State :=
  if (s.fwaits.any fun w => w.tag == tag && (w.form == 0 || w.form == 7)) then receiveReply s tag 0 [] else s
/-- The die of the port whose clock times a flit out, by the stamp of its sending (R544, R547). [log 48 DEDUCED] -/
def stampDie (stamp : Nat) : Nat := stamp / 2 ^ 32 / 16
/-- FABRIC_ACK (R519, R520): the destination acknowledges a flow's flits up to a SEQ; each that had been resent counts as
transient. [log 123 DESIGN CHOICE] -/
def execFabricAck (flow : Flow) (upTo : BitVec 16) (marked : Bool) (s : State) : Host.Outcome State Fault Refusal :=
  match s.flowsOut.find? fun f => f.flow == flow with
  | none => .fault .notEnabled
  | some f =>
    match f.unacked.findIdx? fun u => u.1 == upTo with
    | none => .fault .notEnabled
    | some i =>
      let done := f.unacked.take (i + 1)
      let s1 := setFlowOut s { f with unacked := f.unacked.drop (i + 1) }
      let s2 := done.foldl (fun (s : State) (u : BitVec 16 × FabAccess × Bool × Nat) =>
        let s := if u.2.2.1 then s.countErr false (stampDie u.2.2.2) 6 else s
        writeAcked s u.2.1.tag) s1
      let s3 := sendQueued s2 flow
      .next (if marked then entropyUpdate s3 flow else s3)
/-- Collectives with a participant on a lost device (R417). -/
def lostColls (s : State) (d : Nat) : List Nat :=
  ((s.colls.filter fun c => c.nodes.any fun n => !bitOf n 30 && fieldOf n 16 14 == d).map (·.die)).eraseDups
/-- The Ultra Ethernet peer a flow goes to (R524): flows to peers stand beyond the 14-bit device ids. -/
def uePeer (flow : Flow) : Option Nat := if 2 ^ 14 ≤ flow.dst ∧ flow.dst < 2 ^ 14 + 256 then some (flow.dst - 2 ^ 14) else none
/-- The 16 bits of entropy of a packet to a peer (R524). -/
def ueEntropy (peer : Nat) (ent : BitVec 8) : BitVec 16 := BitVec.ofNat 16 (peer * 256 + ent.toNat)
/-- Collectives with a participant at a peer (R417, R524). -/
def lostAtPeer (s : State) (e : Nat) : List Nat :=
  ((s.colls.filter fun c => c.nodes.any fun n => bitOf n 30 && fieldOf n 16 8 == e).map (·.die)).eraseDups
/-- The transport declares a peer lost (R524): it was a peer of a port group in UE mode, and the die of a collective it takes part in is
fenced (R417). -/
def losePeer (s : State) (e : Nat) : Host.Outcome State Fault Refusal :=
  if peerBad s (BitVec.ofNat 32 (2 ^ 30 + e * 2 ^ 16)) then .fault .notEnabled else .next ((lostAtPeer s e).foldl fenceDie s)
/-- RETRANSMIT_TIMEOUT (R417, R519, R524): a flit is not acknowledged within the time-out. It is resent once; a second time the device is
lost, and the die of a collective it takes part in is fenced. For an Ultra Ethernet peer the transport itself declares the loss.
[log 123 DESIGN CHOICE] -/
def execRetransmitTimeout (flow : Flow) (seq : BitVec 16) (s : State) : Host.Outcome State Fault Refusal :=
  match uePeer flow with
  | some e => losePeer s e
  | none =>
  match s.flowsOut.find? fun f => f.flow == flow with
  | none => .fault .notEnabled
  | some f => match f.unacked.find? fun u => u.1 == seq with
    | none => .fault .notEnabled
    | some (_, acc, resent, stamp) =>
      if clocksSince s stamp < (s.rdReg rFBTO).toNat then .fault .notEnabled
      else if resent then
        let dies := lostColls s flow.dst
        let s1 := loseDevice (s.countErr true (stampDie stamp) 6) flow.dst
        .next (dies.foldl fenceDie s1)
      else
        let flit : Flit := ⟨flow, seq, acc, 0, f.ent, false⟩
        let again := f.unacked.map fun u => if u.1 = seq then (seq, acc, true, portStamp s flit) else u
        .next (routeFlit (setFlowOut s { f with unacked := again }) flit)

end Sys2Proof.Machine
end

