-- ==== Sys2Proof/Machine/Random.lean ====
section
/-! DEFINITION. Reading and writing the sidecar, quad statistics, random values and the stream counters (12_float R225-R233,
03_distributions R106-R112). -/

namespace Sys2Proof.Machine

open Sys2Proof

/-- DVAR and DSTD (R226, R227): the variance, or its root toward +infinity, as FP32. -/
def sideRead (root : Bool) (sd : Word) : Nat :=
  match sideVar sd with
  | none => infBits fF32 false
  | some v =>
    if root then (crEval .sqrt fF32 ⟨.ru, 0, false, false⟩ (.fin v)).1.bits
    else (roundFin fF32 .rn 0 false false v).bits
def runSideRead (s : State) (o : VOp) (root : Bool) : Host.Outcome State Fault Refusal :=
  let A := Opnd.v o.a
  let D := Opnd.v o.d
  runLanes s o.hd (touchOf [A] [D]) false (poisonable [A] [D] fun c l =>
    { lane := l, ws := D.dests l (if c.p.dist then sideRead root (A.side c.p.g l) else 0) 0 })
def execDvar (o : VOp) (s : State) : Host.Outcome State Fault Refusal := runSideRead s o false
def execDstd (o : VOp) (s : State) : Host.Outcome State Fault Refusal := runSideRead s o true

/-- Copy A and write a new sidecar; without sidecars only the copy is left (R226, R227). -/
def runSideWrite (s : State) (hd : Hd) (A D : Opnd) (Bs : List Opnd) (f : Group → Nat → Word → Word × Flg) :
    Host.Outcome State Fault Refusal :=
  let srcs := A :: Bs
  runLanes s hd (touchOf srcs [D]) false (poisonable srcs [D] fun c l =>
    let (sd, fl) := if c.p.dist then f c.p.g l (A.side c.p.g l) else (0, 0)
    { lane := l, ws := D.dests l (A.val c.p.g l) sd, flags := fl })

/-- The variance DSET writes (R85, R226): UV24 as it stands, or FP32 rounded up with IV and OF; infinities canonical (R59).
[log 16 DEDUCED, 178 DESIGN CHOICE] -/
def dsetVar (uv : Bool) (b : Nat) : Nat × Flg :=
  let (x, fl) : Nat × Flg :=
    if uv then (b % 2 ^ 24, 0)
    else
      let r := convertFp fUV24 .ru 0 false false (decodeFp fF32 b)
      (r.bits, r.flags &&& (fIV ||| fOF))
  (if x / 2 ^ 16 = 255 then 0xFF0000 else x, fl)
def sideWith (tag var : Nat) : Word := BitVec.ofNat 32 (tag % 256 * 2 ^ 24 + var % 2 ^ 24)
def distOpnd (minor n : Nat) : Opnd := if minor = 1 then .pair n else .v n

def runDset (s : State) (hd : Hd) (ty : Ty) (A D B : Opnd) : Host.Outcome State Fault Refusal :=
  runSideWrite s hd A D [B] fun g l sd =>
    let (x, fl) := dsetVar (ty == .uv24) (B.val g l)
    (sideWith (sideTag sd) x, fl)
def execDset (o : VOp) (s : State) : Host.Outcome State Fault Refusal :=
  runDset s o.hd o.ty (distOpnd o.minor o.a) (distOpnd o.minor o.d) (vopB o .v)
def execDsetI (o : IOp) (s : State) : Host.Outcome State Fault Refusal :=
  runDset s o.hd o.ty (distOpnd o.minor o.a) (distOpnd o.minor o.d) (.imm o.imm.toNat)
def runDtag (s : State) (hd : Hd) (A D B : Opnd) : Host.Outcome State Fault Refusal :=
  runSideWrite s hd A D [B] fun g l sd => (sideWith (B.val g l) (fieldOf sd 0 24), 0)
def execDtag (o : VOp) (s : State) : Host.Outcome State Fault Refusal :=
  runDtag s o.hd (distOpnd o.minor o.a) (distOpnd o.minor o.d) (vopB o .v)
def execDtagI (o : IOp) (s : State) : Host.Outcome State Fault Refusal :=
  runDtag s o.hd (distOpnd o.minor o.a) (distOpnd o.minor o.d) (.imm o.imm.toNat)
def execDclr (o : VOp) (s : State) : Host.Outcome State Fault Refusal :=
  runSideWrite s o.hd (distOpnd o.minor o.a) (distOpnd o.minor o.d) [] fun _ _ _ => (0, 0)

/-- One step of a quad statistic: the value as a later step reads it, its rounding and |x - y|. -/
structure QStep where
  v : FpVal
  r : Rounded
  d : Ex
deriving DecidableEq, Repr

def qstep (f : FpFmt) (r : Rounded) (x : Ex) : QStep := ⟨decodeFp f r.bits, r, x.sub r.y⟩

/-- The steps of R108 in order, the result last: RN throughout, each flushed as the lane's FPCR.SUB says; only the sources are read
under it (R209). [log 11 DEDUCED] -/
def quadSteps (f : FpFmt) (flush qvar : Bool) (l0 l1 l2 l3 : FpVal) : List QStep :=
  let e : Renv := ⟨.rn, 0, flush, false⟩
  let add (a b : FpVal) := qstep f (fpAdd f e a b) ((finEx a).add (finEx b))
  let sub (a b : FpVal) := qstep f (fpAdd f e a b.flip) ((finEx a).sub (finEx b))
  let mul (a b : FpVal) := qstep f (fpMul f e a b) ((finEx a).mul (finEx b))
  let s01 := add l0 l1
  let s23 := add l2 l3
  let t := add s01.v s23.v
  let m := mul t.v (.fin ⟨false, 1, 4⟩)
  let mean := [s01, s23, t, m]
  if !qvar then mean
  else
    let d0 := sub l0 m.v
    let d1 := sub l1 m.v
    let d2 := sub l2 m.v
    let d3 := sub l3 m.v
    let q0 := mul d0.v d0.v
    let q1 := mul d1.v d1.v
    let q2 := mul d2.v d2.v
    let q3 := mul d3.v d3.v
    let a := add q0.v q1.v
    let b := add q2.v q3.v
    let u := add a.v b.v
    mean ++ [d0, d1, d2, d3, q0, q1, q2, q3, a, b, u, qstep f (fpDiv f e u.v (.fin (exNat 3))) exZero]

/-- The sidecar of QMEAN (R109). -/
def qmeanSide (f : FpFmt) (rv : Bool) (sds : List Word) (steps : List QStep) : Word :=
  let ts := sds.map fun sd => (vterm (some ⟨false, 1, 16⟩) (sideVar sd), sideTag sd)
  let eps := (steps.zipIdx).map fun x =>
    (epsTerm false rv false x.1.r x.1.d).map fun e => sig24 true (if x.2 < 3 then e.mul ⟨false, 1, 16⟩ else e)
  let unb := match steps.getLast? with
    | some m => unbounded f m.r
    | none => true
  sideWith (vtag ts) (uvOf (if unb then none else vsum (ts.map (·.1) ++ eps)))

/-- QMEAN and QVAR (R108, R109, R228, R229): all four lanes of the quad are read as they stand. -/
def quadLane (qvar : Bool) (f : FpFmt) (D A : Opnd) (c : Ctx) (l : Nat) : LaneOut :=
  let g := c.p.g
  let ls := (List.range 4).map fun i => l / 4 * 4 + i
  match ls.findSome? fun q => A.poison g q with
  | some i => { lane := l, ws := D.poisoned l i }
  | none =>
    let fpcr := g.rdFpcr l
    let vs := ls.map fun q => readSub f (fpcrZeroSub fpcr) (decodeFp f (A.val g q))
    let steps := quadSteps f (fpcrFlush fpcr) qvar (vs.getD 0 (.inf false)) (vs.getD 1 (.inf false))
      (vs.getD 2 (.inf false)) (vs.getD 3 (.inf false))
    let bits := match steps.getLast? with
      | some m => m.r.bits
      | none => 0
    let sd : Word := if c.p.dist && !qvar then qmeanSide f (fpcrRv fpcr) (ls.map fun q => A.side g q) steps else 0
    { lane := l, ws := D.dests l bits sd, flags := steps.foldl (fun x q => x ||| q.r.flags) 0 }

/-- Active non-helper lanes of quads that hold a live lane outside the issuing entry (R229). -/
def divergent (c : Ctx) (m : LaneMask) : LaneMask :=
  let live := liveLanes c.p.g &&& ~~~c.e.mask
  maskOf ((lanesOf m).filter fun l =>
    !bitOf c.helpers l && (List.range 4).any fun i => bitOf live (l / 4 * 4 + i))
/-- QMEAN and QVAR: a divergent quad is the fault before any flag of another quad (R141, R229).
[log 11 DEDUCED, 179 DESIGN CHOICE] -/
def runQuad (s : State) (o : VOp) (qvar : Bool) : Host.Outcome State Fault Refusal :=
  let w := Cls.ofTy o.ty
  let A := clsOpnd w o.a
  let D := clsOpnd w o.d
  let t := touchOf [A] [D]
  runGroup s o.hd t fun c =>
    let m := c.active o.hd
    if divergent c m != 0 then .trap (c.wordTrap 0x10 (divergent c m))
    else
      let outs := (lanesOf m).map (quadLane qvar (fmtOfTy o.ty) D A c)
      match ieeeTrap c outs with
      | some x => .trap x
      | none => .done (c.advance s false (putLanes c outs))
def execQmean (o : VOp) (s : State) : Host.Outcome State Fault Refusal := runQuad s o false
def execQvar (o : VOp) (s : State) : Host.Outcome State Fault Refusal := runQuad s o true

/-- A lane's draw (R230, R538). -/
def drawOf (c : Ctx) (l : Nat) : Nat := streamBits c.p.l.rec0.stream (c.tid l) (cget 0 c.p.g.drc l).toNat 0

def uniformOf (w : Nat) : Nat := (roundFin fF32 .rz 0 false false ⟨false, 2 * (w / 256) + 1, 2 ^ 25⟩).bits
def f32v (bits : Nat) : FpVal := decodeFp fF32 bits
def mulRN (a b : FpVal) : FpVal := f32v (fpMul fF32 envRN a b).bits
def crRN (op : CrOp) (a : FpVal) : FpVal := f32v (crEval op fF32 envRN a).1.bits

/-- The uniforms and the normal of a draw (R231). -/
def drawUx (d : Nat) : Nat := uniformOf (d % 2 ^ 32)
def drawUy (d : Nat) : Nat := uniformOf (d / 2 ^ 32 % 2 ^ 32)
def normalOf (d : Nat) : FpVal :=
  mulRN (crRN .sqrt (mulRN (crRN .log2 (f32v (drawUx d))) (f32v 0xBFB17218))) (crRN .cos2pi (f32v (drawUy d)))
def FpVal.bits32 : FpVal → Nat
  | .nan n fr _ => nanBits fF32 n fr
  | .inf n => infBits fF32 n
  | .fin x => (roundFin fF32 .rn 0 false false x).bits

def execRndu (o : VOp) (s : State) : Host.Outcome State Fault Refusal :=
  let D := Opnd.v o.d
  runLanes s o.hd (touchOf [] [D]) false fun c l =>
    { lane := l, ws := D.dests l (if o.ty == .i32 then drawOf c l % 2 ^ 32 else drawUx (drawOf c l)) 0, drc := 1 }
def execRndn (o : VOp) (s : State) : Host.Outcome State Fault Refusal :=
  let D := Opnd.v o.d
  runLanes s o.hd (touchOf [] [D]) true fun c l =>
    { lane := l, ws := D.dests l (normalOf (drawOf c l)).bits32 0, drc := 1 }

/-- The final addition of GUMB and SAMPLE (R232): an FADD.rn of A and a point. GUMB's sidecar is VA plus the rounding term of that
addition, with A's tag: it does not use R95's infinite variance of a NaN or infinite mean (R97). -/
def drawAdd (c : Ctx) (l : Nat) (A D : Opnd) (keep : Bool) (t : FpVal) : LaneOut :=
  let g := c.p.g
  let fpcr := g.rdFpcr l
  let a := argOf fF32 (fpcrZeroSub fpcr) (A.val g l) (A.side g l)
  let r := fpAdd fF32 ⟨.rn, 0, fpcrFlush fpcr, false⟩ a.v t
  let x := (finEx a.v).add (finEx t)
  let eps := (epsTerm false (fpcrRv fpcr) false r (x.sub r.y)).map (sig24 true)
  { lane := l, ws := D.dests l r.bits (if keep then sideWith a.tag (uvOf (vsum [vterm (some exOne) a.vr, eps])) else 0),
    flags := r.flags, drc := 1 }

def execGumb (o : VOp) (s : State) : Host.Outcome State Fault Refusal :=
  let A := Opnd.v o.a
  let D := Opnd.v o.d
  runLanes s o.hd (touchOf [A] [D]) true (poisonable [A] [D] fun c l =>
    let u := mulRN (crRN .log2 (f32v (drawUx (drawOf c l)))) (f32v 0xBF317218)
    drawAdd c l A D true (mulRN (crRN .log2 u) (f32v 0xBF317218)))
def execSample (o : VOp) (s : State) : Host.Outcome State Fault Refusal :=
  let A := Opnd.v o.a
  let D := Opnd.v o.d
  runLanes s o.hd (touchOf [A] [D]) false (poisonable [A] [D] fun c l =>
    let z := normalOf (drawOf c l)
    let t := match (if c.p.dist then sideVar (A.side c.p.g l) else some exZero) with
      | none => .inf z.neg
      | some v => mulRN (crRN .sqrt (f32v (roundFin fF32 .rn 0 false false v).bits)) z
    drawAdd c l A D false t)

/-- SCTR (R233): poison of a non-helper lane is consumed. -/
def execSctr (o : VOp) (s : State) : Host.Outcome State Fault Refusal :=
  let A := Opnd.v o.a
  let B := if o.minor = 0 then Opnd.v o.b else Opnd.none
  runGroup s o.hd (touchOf [A, B] []) fun c =>
    let g := c.p.g
    match c.consume ((lanesOf (c.real o.hd)).filterMap fun l => (firstPoison [A, B] g l).map fun i => (l, i)) with
    | some r => r
    | none => .done (c.advance s false fun g => (lanesOf (c.active o.hd)).foldl (fun h l =>
        let a := BitVec.ofNat 32 (A.val c.p.g l)
        let h := if o.minor = 4 then h else { h with drc := cset 0 h.drc l a }
        if o.minor = 2 then h
        else { h with src := cset 0 h.src l (if o.minor = 0 then BitVec.ofNat 32 (B.val c.p.g l) else a), sri := cset 0 h.sri l 0 }) g)

end Sys2Proof.Machine
end

