-- ==== Sys2Proof/Machine/Returns.lean ====
section
/-! DEFINITION. What happens to a group between its own issues: line fetches, returns of results, switch markers and `.split`
divisions, atomic requests at their places, trap entry, and words no instruction is encoded by (04_encoding R116, R139, R140,
10_registers R172, 20_memories R316-R318, 21_memory_instr R332, 30_issue R375, 15_traps R283, 40_translation R493). -/

namespace Sys2Proof.Machine

open Sys2Proof

/-- An event acts on a group that exists. -/
def onGroup (s : State) (gid : Nat) (f : Party → Host.Outcome State Fault Refusal) : Host.Outcome State Fault Refusal :=
  match party? s gid with
  | some p => f p
  | none => .fault .notEnabled

/-- Fetch a line; `upset1` and `upset2` say that its first and second copy fail parity: one failure is transient; two leave the line
unusable, which `bad` notes (R116). -/
def fetchUpset (s : State) (own asid core va : Nat) (upset1 upset2 : Bool) (bad : State → State) : State :=
  let die := coreDie s core
  match fetchLine s own asid core va with
  | .error .parity => bad (noteFetch s asid core va (.error .parity))
  | .error e => noteFetch (askLine s own e) asid core va (.error e)
  | r =>
    let s1 := noteFetch s asid core va r
    if !upset1 then s1 else if upset2 then bad (s1.countErr true die 5) else s1.countErr false die 5

/-- LINE_FETCH (R116): the line a group, or the sequencer of a block, would issue from next is fetched. Its next issue raises
FLT_FETCH, or a tile fault, if the line came out unusable. -/
def execLineFetch (gid : Nat) (upset1 upset2 : Bool) (s : State) : Host.Outcome State Fault Refusal :=
  match party? s gid with
  | some p => match offered p.g with
    | none => .fault .notEnabled
    | some (_, e) =>
      let va := pcLine e.pc
      .next (fetchUpset s gid p.l.rec0.asid p.b.core va upset1 upset2 fun s => modGroup s gid fun g => { g with badLine := some va })
  | none => match tget s.blocks gid with
    | none => .fault .notEnabled
    | some b => match (tget s.gangs b.gang).bind fun g => tget s.launches g.lid with
      | none => .fault .notEnabled
      | some l =>
        let va := pcLine b.tile.pc
        if b.tile.ended || b.tile.fault.isSome then .fault .notEnabled
        else .next (fetchUpset s gid l.rec0.asid b.core va upset1 upset2 fun s => modBlock s gid fun b =>
          { b with tile := { b.tile with badLine := some va } })

/-- VARIABLE_LATENCY_RETURN (R172): a result that has come is written and its pending bits clear. -/
def execVariableLatencyReturn (gid idx : Nat) (s : State) : Host.Outcome State Fault Refusal :=
  onGroup s gid fun p =>
    match p.g.inflight[idx]? with
    | none => .fault .notEnabled
    | some x =>
      if !x.ready || x.held then .fault .notEnabled
      else .next (modGroup s gid fun g => deliverOne p.dist { g with inflight := g.inflight.eraseIdx idx } x)

/-- SWITCH_MARKER_RELEASE (R375): nothing of the group is pending in the entry's lanes any more. -/
def execSwitchMarkerRelease (gid eid : Nat) (s : State) : Host.Outcome State Fault Refusal :=
  onGroup s gid fun p =>
    match tget p.g.entries eid with
    | none => .fault .notEnabled
    | some e =>
      if e.park ≠ some .marker ∨ markerWaits p.g e.mask then .fault .notEnabled
      else .next (modGroup s gid fun g =>
        let g := modEntry g eid fun e => { e with park := none }
        { g with entries := mergeEntries g.still g.entries })

/-- The part of a result in some lanes. -/
def Inflight.part (x : Inflight) (m : LaneMask) (late : Bool) : Inflight :=
  { x with lanes := x.lanes &&& m, split := false, late := late,
           writes := x.writes.filter fun w => match w with
             | .vec _ l _ _ _ | .pred _ l _ _ => bitOf m l
             | .uni _ _ => true,
           flags := x.flags.filter fun f => bitOf m f.1 }
/-- The lanes of a result that cannot have their data yet: a request or an access to another device is outstanding. -/
def outstanding (s : State) (id : Nat) : LaneMask :=
  maskOf ((s.areqs.filter fun r => r.id == id).map (·.lane) ++ (s.fwaits.filter fun w => w.tag / 64 == id).map (·.lane))

/-- SPLIT_DIVISION (R332): an entry at a switch marker, waiting for a `.split` load, divides: the lanes `late` have no data yet and
form a new entry; the others take their data and wait no more for this load. -/
def execSplitDivision (gid eid : Nat) (late : BitVec 64) (s : State) : Host.Outcome State Fault Refusal :=
  onGroup s gid fun p =>
    match tget p.g.entries eid, p.g.inflight.find? fun x => x.split && ((tget p.g.entries eid).any fun e => (x.lanes &&& e.mask) != 0) with
    | some e, some x =>
      let mine := x.lanes &&& e.mask
      if e.park ≠ some .marker ∨ late = 0 ∨ late &&& ~~~mine ≠ 0 ∨ outstanding s x.req &&& mine &&& ~~~late ≠ 0 ∨ e.mask = late
      then .fault .notEnabled
      else .next (modGroup (s.bump p.b.core 0x06 1) gid fun g =>
        let rest := (if x.lanes &&& ~~~mine = 0 then [] else [x.part (~~~mine) false]) ++ [x.part late true]
        let g := deliverOne p.dist { g with inflight := (g.inflight.filter fun y => y != x) ++ rest } (x.part (mine &&& ~~~late) false)
        let g := modEntry g eid fun e => { e with mask := e.mask &&& ~~~late }
        { g with entries := tset g.entries (freshEid g) { e with mask := late, age := 0, park := some .splitLate },
                 nextEid := freshEid g + 1 })
    | _, _ => .fault .notEnabled

/-- SPLIT_LATE_WAKE (R332): the late lanes' data has come. -/
def execSplitLateWake (gid eid : Nat) (s : State) : Host.Outcome State Fault Refusal :=
  onGroup s gid fun p =>
    match tget p.g.entries eid with
    | none => .fault .notEnabled
    | some e =>
      if e.park ≠ some .splitLate ∨ (p.g.inflight.any fun x => x.late && (x.lanes &&& e.mask) != 0) then .fault .notEnabled
      else .next (modGroup s gid fun g =>
        let g := modEntry g eid fun e => { e with park := none }
        { g with entries := mergeEntries g.still g.entries })

/-- ATOMIC_TAKE_EFFECT (R316-R318): a request, or requests that routers merged, reaches its place. A request returned from a closed
page is sent again by ACCESS_RESEND first. -/
def execAtomicTakeEffect (m : Merge) (s : State) : Host.Outcome State Fault Refusal :=
  let rs := (mergeIdx m).filterMap fun i => s.areqs[i]?
  if rs.length ≠ (mergeIdx m).length ∨ (mergeIdx m).eraseDups.length ≠ (mergeIdx m).length ∨ rs.any (·.closed)
      ∨ (rs.zipIdx.any fun r => (reqAfter s r.1).any fun q => !(rs.take r.2).contains q) then .fault .notEnabled
  else match m, rs with
    | .one _, [r] => .next (performReq s r)
    | .two _ _, a :: _ => if rs.all fun b => mayMerge s a b && mayMerge s b a then .next (performMerged s m) else .fault .notEnabled
    | _, _ => .fault .notEnabled

/-- ACCESS_RESEND (R361, R493): an access returned from a closed page is translated again and resent, once its page is open. -/
def execAccessResend (idx : Nat) (s : State) : Host.Outcome State Fault Refusal :=
  match s.areqs[idx]? with
  | none => .fault .notEnabled
  | some r =>
    if !r.closed then .fault .notEnabled
    else .next (performReq { s with areqs := s.areqs.map fun q => if q = r then { q with closed := false } else q } { r with closed := false })

/-- TRAP_ENTRY (R283): no register write of the group is pending any more, so the handler starts. -/
def execTrapEntry (gid : Nat) (s : State) : Host.Outcome State Fault Refusal :=
  onGroup s gid fun p =>
    match p.g.waitTrap, p.g.retained with
    | some t, some eid =>
      if (p.g.inflight.any fun x => x.vregs != [] || x.pregs != []) then .fault .notEnabled else .next (enterTrap s p eid t)
    | _, _ => .fault .notEnabled

end Sys2Proof.Machine
end

