-- ==== Sys2Proof/Machine/Matrix.lean ====
section
/-! DEFINITION. The arithmetic of the tile engine: elements of fragments, chunked accumulation, variances, narrowing and monitors
(13_tile R238-R243, R252-R255, 14_narrow R266-R269). -/

namespace Sys2Proof.Machine

open Sys2Proof

/-- An element of a fragment: its value and the variance of its register (`none`: +infinity). -/
structure TElem where
  v : FpVal
  vr : Option Ex
deriving DecidableEq, Repr

/-- Cut a list into pieces of n. [log 89 DEDUCED, 180 DESIGN CHOICE] -/
def chunksOf {α : Type} (n : Nat) (l : List α) : List (List α) := (List.range (ceilDiv l.length n)).map fun i => (l.drop (n * i)).take n

/-- Element k of a fragment lane (R242): `rd j` is register BASE + j with its sidecar. -/
def tileElem (t : Ty) (rd : Nat → Word × Word) (k : Nat) : TElem :=
  match t with
  | .t5 =>
    let (w, sd) := rd (k / 20)
    ⟨.fin (exInt (t5Val ((t5Digits (elemOf w 8 (k % 20 / 5))).getD (k % 5) 0))), sideVar sd⟩
  | .f64 => ⟨decodeFp fF64 (pairOf (rd (2 * k)).1 (rd (2 * k + 1)).1).toNat, sideVar (rd (2 * k)).2⟩
  | _ =>
    let n := 32 / t.bits
    let (w, sd) := rd (k / n)
    let x := elemOf w t.bits (k % n)
    ⟨if t = .i8 then .fin (exInt (signedOf 8 x)) else decodeFp (fmtOfTy t) x, sideVar sd⟩
def tileElems (t : Ty) (rd : Nat → Word × Word) (k : Nat) : List TElem := (List.range k).map (tileElem t rd)

/-- A product and IV (R253). [log 181 DESIGN CHOICE] -/
def tileMul (a b : FpVal) : FpVal × Flg :=
  let iv : Flg := if a.isSig || b.isSig then fIV else 0
  if a.isNan || b.isNan then (.nan false 0 false, iv)
  else match a, b with
    | .fin x, .fin y => (.fin (x.mul y), 0)
    | _, _ => if a.isZero || b.isZero then (.nan false 0 false, fIV) else (.inf (a.neg != b.neg), 0)

/-- A running accumulation: its value, the flags, the variance so far, whether a rounding overflowed, and CAN (R252-R254, R267). -/
structure TAcc where
  v : FpVal
  flags : Flg
  vr : Option Ex
  ovf : Bool
  can : Nat
deriving DecidableEq, Repr

/-- Addition rounded up to 24 significant bits, the +RU of R254. -/
def addRU (a b : Option Ex) : Option Ex :=
  match a, b with
  | some x, some y => some (sig24 true (x.add y))
  | _, _ => none

/-- Truncate the products of a chunk to 2^(E-56) of the largest (R252): the products, how many lost a bit, and E - 56.
[log 182 DESIGN CHOICE] -/
def truncChunk (ps : List Ex) : List Ex × Nat × Int :=
  let big := ps.foldl (fun m p => m.max p.abs) exZero
  if big.isZero then (ps, 0, 0)
  else
    let q := big.ilog2 - 56
    let cut := ps.map fun p =>
      let (m, ex, _, _) := quantise .rz p.neg 0 p q
      (if ex then p else dyadic p.neg m q, ex)
    (cut.map (·.1), (cut.filter fun x => !x.2).length, q)

/-- One chunk of products joins the accumulator (R252-R254): `ct` is the threshold of CAN.
[log 89 DEDUCED, 145 DEDUCED, 181 DESIGN CHOICE, 182 DESIGN CHOICE] -/
def addChunk (f : FpFmt) (trunc : Bool) (ct : Nat) (acc : TAcc) (ps : List (FpVal × FpVal)) : TAcc :=
  let pr := ps.map fun x => tileMul x.1 x.2
  let fl : Flg := pr.foldl (fun g x => g ||| x.2) acc.flags
  let nan := pr.any fun x => x.1.isNan
  let pos := pr.any fun x => x.1 == .inf false
  let neg := pr.any fun x => x.1 == .inf true
  if nan || pos || neg then
    let clash := !nan && pos && neg
    let fl := if clash then fl ||| fIV else fl
    if acc.v.isNan then { acc with flags := fl }
    else if nan || clash then { acc with v := .nan false 0 false, flags := fl }
    else if acc.v.isInf && acc.v.neg != neg then { acc with v := .nan false 0 false, flags := fl ||| fIV }
    else { acc with v := .inf neg, flags := fl }
  else
    let xs := pr.map fun x => finEx x.1
    let (ys, t, q) := if trunc then truncChunk xs else (xs, 0, 0)
    let fl := if t = 0 then fl else fl ||| fIX
    let sum := ys.foldl Ex.add exZero
    let mag := ys.foldl (fun m y => m.add y.abs) exZero
    let can := if ct ≠ 0 ∧ !mag.isZero ∧ (sum.abs.mul (pow2 ct)).lt mag then acc.can + 1 else acc.can
    let e2 : Option Ex := some (sig24 true (((exNat t).mul (pow2 q)).sq))
    match acc.v with
    | .fin a =>
      let tot := ys.foldl Ex.add a
      let r := rnd f envRN tot
      let e1 : Option Ex := if r.inexact then some (sig24 true ((pow2 (2 * r.ulp)).mul ⟨false, 1, 12⟩)) else some exZero
      { v := if r.overflow then .inf tot.neg else .fin r.y, flags := fl ||| r.flags, vr := addRU (addRU acc.vr e1) e2,
        ovf := acc.ovf || r.overflow, can := can }
    | _ => { acc with flags := fl, vr := addRU acc.vr e2, can := can }

/-- The power-of-two scale of a block of up to 32 values, and them in VE8 toward +infinity (R254). -/
def ve8Block (xs : List Ex) : Int × List Ex :=
  let big := xs.foldl Ex.max exZero
  let s : Int := if big.isZero then 0 else big.ilog2 - 14
  (s, xs.map fun x => if x.isZero then exZero else (roundFin fVE8 .ru 0 false false (x.mul (pow2 (-s)))).y)
/-- vsum of R254. [log 180 DESIGN CHOICE] -/
def tileVsum (xs ys : List (Option Ex)) : Option Ex :=
  if xs.contains none || ys.contains none then none
  else
    let xb := (chunksOf 32 (xs.filterMap id)).map ve8Block
    let yb := (chunksOf 32 (ys.filterMap id)).map ve8Block
    some (sig24 true ((xb.zip yb).foldl (fun t b =>
      t.add (((b.1.2.zip b.2.2).foldl (fun u p => u.add (p.1.mul p.2)) exZero).mul (pow2 (b.1.1 + b.2.1)))) exZero))

/-- What a matrix instruction computes with: the accumulator format, the chunk length, whether products are truncated, the CAN
threshold, the dense K and whether sidecars exist. -/
structure TForm where
  f : FpFmt
  chunk : Nat
  trunc : Bool
  ct : Nat
  k : Nat
  dist : Bool
deriving DecidableEq, Repr

/-- One element of the result. -/
structure TOut where
  v : FpVal
  bits : Nat
  side : Word
  flags : Flg
  ovf : Bool
  can : Nat
deriving DecidableEq, Repr

/-- Output element (i, n) (R252-R255): the stored elements of row i with their k, column n, their tags, and C's encoding and sidecar
when there is one. -/
def tileOut (w : TForm) (row : List (Nat × TElem)) (col : List TElem) (tagA tagB : Nat) (c : Option (Nat × Word)) : TOut :=
  let col_ (k : Nat) : TElem := col.getD k ⟨.fin exZero, some exZero⟩
  let c0 := match c with
    | some (b, _) => decodeFp w.f b
    | none => .fin exZero
  let (v0, tagC) := match c with
    | some (_, sd) => (sideVar sd, sideTag sd)
    | none => (some exZero, 0)
  let start : TAcc := { v := if c0.isNan then .nan false 0 false else c0, flags := if c0.isSig then fIV else 0, vr := v0, ovf := false,
                        can := 0 }
  let acc := (List.range (ceilDiv w.k w.chunk)).foldl (fun a q =>
    addChunk w.f w.trunc w.ct a ((row.filter fun x => x.1 / w.chunk == q).map fun x => (x.2.v, (col_ x.1).v))) start
  let bits := match acc.v with
    | .nan _ _ _ => defaultNan w.f
    | .inf n => infBits w.f n
    | .fin x => (rnd w.f envRN x).bits
  let side : Word :=
    if !w.dist then 0
    else
      let ta := tileVsum (row.map fun x => x.2.vr) (row.map fun x => gradSq (col_ x.1).v)
      let tb := tileVsum (row.map fun x => gradSq x.2.v) (row.map fun x => (col_ x.1).vr)
      let fin := match acc.v with
        | .fin _ => !acc.ovf
        | _ => false
      let tot := if fin then addRU (addRU acc.vr ta) tb else none
      BitVec.ofNat 32 (vtag [(ta, tagA), (tb, tagB), (acc.vr, tagC)] * 2 ^ 24 + uvOf tot)
  { v := acc.v, bits := bits, side := side, flags := acc.flags, ovf := acc.ovf, can := acc.can }

/-- Metadata index j of group g as one bit string (R243). -/
def metaIndex (words : List Word) (bits i : Nat) : Nat :=
  let n := words.foldr (fun w acc => w.toNat + 2 ^ 32 * acc) 0
  n / 2 ^ (i * bits) % 2 ^ bits

/-- A narrowed fragment lane (R87, R266-R268): its elements, and what it adds to SAT and UND. -/
def narrowLane (t : Ty) (xs : List TElem) : List TElem × Nat × Nat :=
  (chunksOf 32 xs).foldl (fun acc blk =>
    let (sc, es) := narrowBlock t (blk.map (·.v))
    if sc = 0xFF then (acc.1 ++ blk.map (fun _ => ⟨.nan false 0 false, none⟩), acc.2.1 + blk.length, acc.2.2)
    else
      let e : Int := (sc : Int) - 127
      let out := (blk.zip es).map fun (x, n) =>
        let x0 := finEx x.v
        let y := n.val.mul (pow2 e)
        let flushed := !x0.isZero && n.val.isZero
        let q : Ex :=
          if y.eqv x0 then exZero
          else if n.clamped || flushed then (x0.sub y).sq
          else (pow2 (2 * (n.ulp + e))).mul ⟨false, 1, 12⟩
        let vr := if q.isZero then x.vr else addRU x.vr (some (sig24 true q))
        ((⟨.fin y, vr⟩ : TElem), n.clamped, flushed)
      (acc.1 ++ out.map (·.1), acc.2.1 + (out.filter fun o => o.2.1).length, acc.2.2 + (out.filter fun o => o.2.2).length))
    ([], 0, 0)

/-- The boundary test (R269): the value and the stored variance of an output, β and κ. -/
def tripsBound (dist : Bool) (o : TOut) (beta : FpVal) (kappa : Nat) : Bool :=
  dist && !o.v.isNan && !beta.isNan && match sideVar o.side with
    | none => true
    | some v => match o.v, beta with
      | .fin d, .fin b => ((d.sub b).sq).lt ((exNat (kappa * kappa)).mul v)
      | _, _ => false

end Sys2Proof.Machine
end

