-- ==== Sys2Proof/Machine/Tile.lean ====
section
/-! DEFINITION. The tile sequencer: fetch, operand records, the checks at issue and tile faults, matrix instructions, the accumulator
store and the control instructions of the tile stream (13_tile R234-R260, 14_narrow R262-R276, 04_encoding R139, R140). -/

namespace Sys2Proof.Machine

open Sys2Proof

/-- The issuing sequencer: its block, gang and launch, and the word. -/
structure TCtx where
  bid : Nat
  b : Block
  ga : Gang
  l : Launch
  word : IWord
deriving DecidableEq, Repr

def tctxOf (s : State) (bid : Nat) (w : IWord) : Option TCtx :=
  match tget s.blocks bid with
  | none => none
  | some b => match tget s.gangs b.gang with
    | none => none
    | some ga => (tget s.launches ga.lid).map fun l => ⟨bid, b, ga, l, w⟩
/-- The sequencer the cursor names. -/
def tctx? (s : State) : Option TCtx :=
  match s.cur with
  | some ⟨true, bid, _, w⟩ => tctxOf s bid w
  | _ => none

def modTile (s : State) (bid : Nat) (f : Tile → Tile) : State := modBlock s bid fun b => { b with tile := f b.tile }

/-- A tile fault (R248, R249): the sequencer halts; groups that wait at a barrier of TBARM meet it at their BAR, which executes
again. -/
def tileFault (s : State) (bid : Nat) (f : TileFault) (tbarm : Nat) : State :=
  let s1 := modTile s bid fun t => { t with fault := some f, badLine := none, tst := setField t.tst 0 5 0x13 }
  let meets (p : Option Park) : Bool := match p with
    | some (.barrier .blk n _ _) => tbarm.testBit n
    | _ => false
  let free (e : Nat × Entry) : Nat × Entry :=
    if meets e.2.park then (e.1, { e.2 with park := none, irr := false, counted := false }) else e
  let wake (g : Group) : Group := if g.bid = bid then { g with entries := mergeEntries g.still (g.entries.map free) } else g
  { s1 with groups := s1.groups.map fun (g : Nat × Group) => (g.1, wake g.2) }
def TCtx.fault (c : TCtx) (s : State) (code pgid rec0 : Nat) : State :=
  tileFault s c.bid ⟨code, c.word, c.b.tile.pc &&& ~~~(63 : DWord), pcSlot c.b.tile.pc, pgid, rec0⟩ c.l.rec0.tbarm

/-- What a tile instruction's body answers: the next state, a tile fault of a subcode, or containment of the gang (R250), naming
the group. -/
inductive TRes where
  | done (s : State)
  | fault (code : Nat)
  | poison (pgid rec0 : Nat)
  | contain (gidx : Nat)
deriving DecidableEq, Repr

/-- RUN ONE INSTRUCTION of the tile stream. -/
def runTile (s : State) (body : TCtx → TRes) : Host.Outcome State Fault Refusal :=
  match tctx? s with
  | none => .fault .noIssuer
  | some c => match body c with
    | .done s' => .next s'
    | .fault code => .next (c.fault s code 0 0)
    | .poison g i => .next (c.fault s 0xB g i)
    | .contain gidx => .next (containGang s c.ga.lid c.ga.index 0x09 (BitVec.ofNat 32 0x09) c.b.tile.pc c.b.index c.b.core gidx)

/-- The sequencer goes on with its next instruction (R237). -/
def TCtx.advance (c : TCtx) (s : State) (f : Tile → Tile) : State := modTile s c.bid fun t => { f t with pc := nextPc t.pc }
def TCtx.t (c : TCtx) (n : Nat) : Word := cget 0 c.b.tile.t n

/-- An operand record (R239). -/
structure TRec where
  grp : Nat
  rows : Nat
  mreg : Nat
  base : Nat
  bad : Bool
  raw : Word
deriving DecidableEq, Repr
def TRec.of (w : Word) : TRec :=
  { grp := fieldOf w 24 4, rows := 64 / 2 ^ fieldOf w 22 2, mreg := fieldOf w 10 10, base := fieldOf w 0 10,
    bad := fieldOf w 28 4 != 0 || fieldOf w 20 2 != 0 || fieldOf w 22 2 == 3, raw := w }
def TCtx.record (c : TCtx) (n : Nat) : TRec := TRec.of (c.t n)

/-- The registers of an operand: `regs` from `base`, in `lanes` fragment lanes from group `grp` (R240). -/
structure Frag where
  grp : Nat
  base : Nat
  lanes : Nat
  regs : Nat
deriving DecidableEq, Repr
/-- Group index and lane of a fragment lane (R240). -/
def TCtx.place (c : TCtx) (grp i : Nat) : Nat × Nat := (grp + i / c.l.rec0.width, i % c.l.rec0.width)
def TCtx.groupsOf (c : TCtx) (f : Frag) : Nat := ceilDiv f.lanes c.l.rec0.width

/-- The checks RANGE and ABSENT of operands (R247). -/
def TCtx.outOfRange (c : TCtx) (f : Frag) : Bool :=
  decide (f.base < c.l.rec0.trsb) || decide (c.l.rec0.trsb + c.l.rec0.trsn < f.base + f.regs)
    || decide (c.l.rec0.groups < f.grp + c.groupsOf f)
def TCtx.hasAbsent (c : TCtx) (f : Frag) : Bool :=
  (List.range f.lanes).any fun i => isAbsent c.l.rec0 (c.place f.grp i).1 (c.place f.grp i).2
def TCtx.placed (c : TCtx) (fs : List Frag) : Option Nat :=
  if fs.any c.outOfRange then some 5 else if fs.any c.hasAbsent then some 6 else none
/-- Two operands share a register in a common group (R247). -/
def TCtx.overlap (c : TCtx) (x y : Frag) : Bool :=
  decide (x.grp < y.grp + c.groupsOf y) && decide (y.grp < x.grp + c.groupsOf x) && decide (x.base < y.base + y.regs)
    && decide (y.base < x.base + x.regs)

/-- The group that holds a fragment lane. -/
def TCtx.gidAt (c : TCtx) (grp i : Nat) : Nat := c.b.gid (c.place grp i).1
/-- The first poisoned register of an operand, by register and then by fragment lane, in lanes that are no helper lanes (R250). -/
def TCtx.poisonIn (c : TCtx) (s : State) (f : Frag) : Option TRes :=
  (List.range f.regs).findSome? fun j => (List.range f.lanes).findSome? fun i =>
    let (gi, ln) := c.place f.grp i
    match tget s.groups (c.gidAt f.grp i) with
    | none => none
    | some g =>
      if g.rdVP (f.base + j) ln && !isHelper c.l.rec0 gi ln then
        let k := poisonIdx (g.rdV (f.base + j) ln)
        if (tget g.prq k).any fun r => r.kind == 4 then some (.contain gi) else some (.poison (c.gidAt f.grp i) k)
      else none
def TCtx.poisoned (c : TCtx) (s : State) (fs : List Frag) : Option TRes := fs.findSome? (c.poisonIn s)

/-- A register of a fragment lane, with its sidecar, as a read point sees it: a poisoned one of a helper lane reads zero (R250). -/
def TCtx.read (c : TCtx) (s : State) (grp i reg : Nat) : Word × Word :=
  match tget s.groups (c.gidAt grp i) with
  | none => (0, 0)
  | some g =>
    let ln := (c.place grp i).2
    if g.rdVP reg ln then (0, 0) else (g.rdV reg ln, if c.l.rec0.mode = .dist then g.rdSide reg ln else 0)

/-- Register writes take place: data with poison cleared, or a sidecar alone (R244, R256). [log 30 DESIGN CHOICE] -/
def applyWrites (dist : Bool) (s : State) (ws : List TileWrite) : State :=
  ws.foldl (fun s w => modGroup s w.gid fun g => match w.data with
    | some d => g.wrV dist w.reg w.lane d w.side false
    | none => if dist then { g with side := cset 0 g.side (lkey w.reg w.lane) w.side } else g) s
def TCtx.dist (c : TCtx) : Bool := c.l.rec0.mode == .dist

/-- The operands of a matrix instruction, and what it computes (R241, R243, R264). -/
structure MatOp where
  a : Frag
  b : Frag
  c : Option Frag
  d : Frag
  md : Option Frag
  equalCD : Bool
deriving DecidableEq, Repr

/-- Dense K, B's registers of a pair (R241); none for a pair not admitted. -/
def pairShape (fa fb : Ty) : Option (Nat × Nat) :=
  let fp8 (t : Ty) : Bool := t == .e4m3 || t == .e5m2
  if fp8 fa && fp8 fb then some (64, 16)
  else if fa = .i8 ∧ fb = .i8 then some (64, 16)
  else if fa = .e2m1 ∧ fb = .e2m1 then some (128, 16)
  else if fa = .t5 ∧ fp8 fb then some (320, 80)
  else if (fa = .bf16 ∧ fb = .bf16) ∨ (fa = .f16 ∧ fb = .f16) then some (32, 16)
  else if fa = .f64 ∧ fb = .f64 then some (8, 16)
  else none
/-- The chunk length of R252. -/
def pairChunk (fa : Ty) : Nat :=
  match fa with
  | .e2m1 => 32
  | .t5 => 64
  | .bf16 | .f16 => 8
  | .f64 => 1
  | _ => 16

/-- The rungs of TMMAN (R262): by code; A's and B's formats, and L. -/
def rungOf (t : Ty) : Option Nat :=
  match t with
  | .t5 => some 0
  | .e2m1 => some 1
  | .e4m3 => some 2
  | .bf16 => some 3
  | _ => none
def rungA (r : Nat) : Ty := if r = 0 then .t5 else if r = 1 then .e2m1 else if r = 2 then .e4m3 else .bf16
def rungB (r : Nat) : Ty := if r = 1 then .e2m1 else if r = 3 then .bf16 else .e4m3
def rungL (r : Nat) : Nat := if r = 0 then 64 else if r = 1 then 32 else if r = 2 then 16 else 8

/-- RECORD for a matrix instruction (R247). A record is one of FP64 by its own operand's format: A's is FA, B's FB, and C and D hold
FP64 where both operands do (R241). [log 150 DEDUCED] -/
def recordsBad (z sparse : Bool) (fa fb : Ty) (a b c d : TRec) : Bool :=
  let rs := [a, b, d] ++ (if z then [] else [c])
  let odd (r : TRec) : Bool := r.base % 2 == 1
  let accs := fa == .f64 && fb == .f64
  (rs.any (·.bad)) || (!sparse && a.mreg != 0) || b.mreg != 0 || d.mreg != 0 || (!z && c.mreg != 0) || b.rows != 64
    || a.rows != d.rows || (!z && c.rows != a.rows)
    || (fa == .f64 && odd a) || (fb == .f64 && odd b) || (accs && (odd d || (!z && odd c)))

/-- A matrix instruction (R247, R250, R265): its checks, then `make` computes its passes at the read point; it writes at
MATRIX_WRITE_POINT. `fa` and `fb` are the formats its records of A and B hold, `shape` gives A's and B's registers and the metadata's. -/
def runMatrix (o : TOp) (s : State) (fa fb : Ty) (sparse : Bool) (wide : Bool) (shape : Option (Nat × Nat × Nat))
    (make : TCtx → MatOp → TileJob) : Host.Outcome State Fault Refusal :=
  runTile s fun c =>
    let z := bitOf o.timm 0
    let ra := c.record o.a
    let rb := c.record o.b
    let rc := c.record o.c
    let rd := c.record o.d
    if recordsBad z sparse fa fb ra rb rc rd then .fault 3
    else match shape with
      | none => .fault 4
      | some (na, nb, nm) =>
        let n := if wide then 2 * rd.rows else rd.rows
        let m : MatOp :=
          { a := ⟨ra.grp, ra.base, ra.rows, na⟩, b := ⟨rb.grp, rb.base, 64, nb⟩, c := if z then none else some ⟨rc.grp, rc.base, 64, n⟩,
            d := ⟨rd.grp, rd.base, 64, n⟩, md := if sparse then some ⟨ra.grp, ra.mreg, ra.rows, nm⟩ else none,
            equalCD := rc.raw == rd.raw }
        let srcs := [m.a, m.b] ++ m.c.toList ++ m.md.toList
        match c.placed (srcs ++ [m.d]) with
        | some k => .fault k
        | none =>
          if c.overlap m.d m.a || c.overlap m.d m.b || (m.md.any (c.overlap m.d)) || (!m.equalCD && m.c.any (c.overlap m.d)) then
            .fault 7
          else match c.poisoned s srcs with
            | some r => r
            | none => .done (c.advance s fun t => { t with job := some (make c m) })

/-- C of an output element as read (R252). -/
def TCtx.readC (c : TCtx) (s : State) (m : MatOp) (wide : Bool) (i n : Nat) : Option (Nat × Word) :=
  m.c.map fun f =>
    if wide then
      let (lo, sd) := c.read s f.grp n (f.base + 2 * i)
      ((pairOf lo (c.read s f.grp n (f.base + 2 * i + 1)).1).toNat, sd)
    else
      let (w, sd) := c.read s f.grp n (f.base + i)
      (w.toNat, sd)
/-- The register writes and flags of a computed tile (R253, R255). -/
def TCtx.outWrites (c : TCtx) (m : MatOp) (wide : Bool) (outs : List (Nat × Nat × TOut)) : List TileWrite × List (Nat × Nat × Flg) :=
  (outs.flatMap fun (i, n, o) =>
    let gid := c.gidAt m.d.grp n
    let ln := (c.place m.d.grp n).2
    if wide then
      [⟨gid, m.d.base + 2 * i, ln, some (BitVec.ofNat 32 o.bits), o.side⟩,
       ⟨gid, m.d.base + 2 * i + 1, ln, some (BitVec.ofNat 32 (o.bits / 2 ^ 32)), 0⟩]
    else [⟨gid, m.d.base + i, ln, some (BitVec.ofNat 32 o.bits), o.side⟩],
   (outs.filter fun x => x.2.2.flags != 0).map fun (_, n, o) => (c.gidAt m.d.grp n, (c.place m.d.grp n).2, o.flags))

/-- The rows or columns of a fragment as elements (R242), with the tag of the BASE register. -/
def TCtx.lanesElems (c : TCtx) (s : State) (f : Frag) (t : Ty) (k : Nat) : List (List TElem × Nat) :=
  (List.range f.lanes).map fun i =>
    let rd (j : Nat) : Word × Word := c.read s f.grp i (f.base + j)
    (tileElems t rd k, sideTag (rd 0).2)
/-- A T5 fragment holds a reserved byte (R62, R252). -/
def TCtx.t5Bad (c : TCtx) (s : State) (f : Frag) : Bool :=
  (List.range f.lanes).any fun i => (List.range f.regs).any fun j =>
    (List.range 4).any fun b => t5Reserved (elemOf (c.read s f.grp i (f.base + j)).1 8 b)

/-- All output elements (R252). -/
def allOut (rows : List (List (Nat × TElem) × Nat)) (cols : List (List TElem × Nat)) (w : TForm)
    (c : Nat → Nat → Option (Nat × Word)) : List (Nat × Nat × TOut) :=
  rows.zipIdx.flatMap fun (r, i) => cols.zipIdx.map fun (q, n) => (i, n, tileOut w r.1 q.1 r.2 q.2 (c i n))
/-- Elements with their k, dense. -/
def denseRow (r : List TElem × Nat) : List (Nat × TElem) × Nat := (r.1.zipIdx.map fun x => (x.2, x.1), r.2)

/-- TMMA and TMMAS compute one pass. -/
def matJob (o : TOp) (wide : Bool) (s : State) (c : TCtx) (m : MatOp) (k : Nat) (rows : List (List (Nat × TElem) × Nat)) : TileJob :=
  let w : TForm := { f := if wide then fF64 else fF32, chunk := pairChunk o.fa, trunc := o.fa == .bf16 || o.fa == .f16, ct := 0, k := k,
                     dist := c.dist }
  let (ws, fl) := c.outWrites m wide (allOut rows (c.lanesElems s m.b o.fb k) w (c.readC s m wide))
  { narrow := false,
    passes := [{ writes := ws, flags := fl, rsvd := o.fa == .t5 && c.t5Bad s m.a, rung := 0, sat := 0, und := 0, can := 0, exceed := false,
                 bd := false }],
    made := 1, why := 0, fmtA := 0, fmtB := 0 }

/-- TMMA (R251). -/
def execTmma (o : TOp) (s : State) : Host.Outcome State Fault Refusal :=
  let wide := o.fa == .f64
  runMatrix o s o.fa o.fb false wide ((pairShape o.fa o.fb).map fun p => (16, p.2, 0)) fun c m =>
    let k := ((pairShape o.fa o.fb).map (·.1)).getD 0
    matJob o wide s c m k ((c.lanesElems s m.a o.fa k).map denseRow)

/-- The groups G of N stored elements in a row, and log2 M (R243). -/
def sparseGroups (o : TOp) (dense : Nat) : Nat := dense / o.spn
def spBits (o : TOp) : Nat := Nat.log2 o.spm.len
/-- The formats TMMAS admits for A (R243). -/
def sparseFa : Ty → Bool
  | .e4m3 | .e5m2 | .i8 | .e2m1 | .bf16 | .f16 => true
  | _ => false
/-- TMMAS (R243, R251). -/
def execTmmas (o : TOp) (s : State) : Host.Outcome State Fault Refusal :=
  let dense := ((pairShape o.fa o.fb).map (·.1)).getD 0
  let g := sparseGroups o dense
  let k := g * o.spm.len
  let shape := if sparseFa o.fa then (pairShape o.fa o.fb).map fun _ => (16, ceilDiv (k * o.fb.bits) 32, ceilDiv (g * o.spn * spBits o) 32)
    else none
  runMatrix o s o.fa o.fb true false shape fun c m =>
    let rows := (c.lanesElems s m.a o.fa dense).zipIdx.map fun (r, i) =>
      let md := match m.md with
        | some f => (List.range f.regs).map fun j => (c.read s f.grp i (f.base + j)).1
        | none => []
      (((r.1.take (g * o.spn)).zipIdx).map fun x => (x.2 / o.spn * o.spm.len + metaIndex md (spBits o) x.2, x.1), r.2)
    matJob o false s c m k rows

/-- One pass of TMMAN at a rung (R266-R269). [log 94 DEDUCED] -/
def narrowPass (o : TOp) (s : State) (c : TCtx) (m : MatOp) (k r : Nat) : TilePass :=
  let rows := c.lanesElems s m.a .bf16 k
  let cols := c.lanesElems s m.b .bf16 k
  let na := rows.map fun x => (narrowLane (rungA r) x.1, x.2)
  let nb := cols.map fun x => (narrowLane (rungB r) x.1, x.2)
  let t := c.b.tile
  let w : TForm := { f := fF32, chunk := rungL r, trunc := r == 3, ct := fieldOf t.nctl 0 5, k := k, dist := c.dist }
  let outs := if r = 3 then allOut (rows.map denseRow) cols w (c.readC s m false)
    else allOut (na.map fun x => denseRow (x.1.1, x.2)) (nb.map fun x => (x.1.1, x.2)) w (c.readC s m false)
  let ovf := (outs.filter fun x => x.2.2.ovf).length
  let cap (n : Nat) : Nat := Nat.min 255 n
  let sat := cap (ovf + if r = 3 then 0 else (na ++ nb).foldl (fun n x => n + x.1.2.1) 0)
  let und := if r = 3 then 0 else cap ((na ++ nb).foldl (fun n x => n + x.1.2.2) 0)
  let can := cap (outs.foldl (fun n x => n + x.2.2.can) 0)
  let (ws, fl) := c.outWrites m false outs
  { writes := ws, flags := fl, rsvd := false, rung := r, sat := sat, und := und, can := can,
    exceed := decide (fieldOf t.nbud 16 8 < sat) || decide (fieldOf t.nbud 8 8 < und) || decide (fieldOf t.nbud 0 8 < can),
    bd := bitOf o.timm 1 && outs.any fun x => tripsBound c.dist x.2.2 (decodeFp fF32 t.nbnd.toNat) (fieldOf t.nctl 5 2 + 1) }
/-- The passes from a rung to the one that is not squashed (R266). -/
def narrowPasses (o : TOp) (s : State) (c : TCtx) (m : MatOp) (k top : Nat) : Nat → Nat → List TilePass
  | 0, _ => []
  | n + 1, r =>
    let p := narrowPass o s c m k r
    if (p.exceed || p.bd) && decide (r < top) then p :: narrowPasses o s c m k top n (r + 1) else [p]
/-- TMMAN (R264-R266). -/
def execTmman (o : TOp) (s : State) : Host.Outcome State Fault Refusal :=
  let k := 32 * (fieldOf o.timm 2 4 + 1)
  let rungs := match rungOf o.fa, rungOf o.fb with
    | some a, some b => if a ≤ b then some (a, b) else none
    | _, _ => none
  runMatrix o s .bf16 .bf16 false false (rungs.map fun _ => (k / 2, k / 2, 0)) fun c m =>
    let (a, top) := rungs.getD (0, 0)
    { narrow := true, passes := narrowPasses o s c m k top 4 a, made := 1, why := 0, fmtA := 0, fmtB := 0 }

/-- TMMAN_PASS_END (R266): a squashed pass is discarded. -/
def execTmmanPassEnd (bid : Nat) (s : State) : Host.Outcome State Fault Refusal :=
  match (tget s.blocks bid).bind fun b => b.tile.job.map fun j => (b.core, j) with
  | none => .fault .notEnabled
  | some (core, j) => match j.passes with
    | p :: q :: rest =>
      let why := j.why ||| ((if p.exceed then 1 else 0) + (if p.bd then 2 else 0))
      .next (modTile (s.bump core 0x08 1) bid fun t => { t with job := some { j with passes := q :: rest, made := j.made + 1, why := why } })
    | _ => .fault .notEnabled

/-- The write point of a matrix instruction (R244, R253, R255, R266). [log 98 DEDUCED] -/
def writePoint (c : TCtx) (j : TileJob) (p : TilePass) (s : State) : State :=
  let s1 := applyWrites c.dist s p.writes
  let s2 := p.flags.foldl (fun s f => modGroup s f.1 fun g => g.orFpsr f.2.1 f.2.2) s1
  modTile s2 c.bid fun t =>
    let t := { t with job := none, tst := if p.rsvd then t.tst ||| 0x80 else t.tst }
    if !j.narrow then t
    else
      let fm := (rungA p.rung).code * 16 + (rungB p.rung).code
      { t with
        tst := setField t.tst 8 8 fm ||| (if j.why = 0 then 0 else 0x20) ||| (if j.why.testBit 1 then 0x40 else 0),
        nmon := BitVec.ofNat 32 (p.sat * 65536 + p.und * 256 + p.can),
        nrep := t.nrep + BitVec.ofNat 32 (j.made - 1),
        nout := BitVec.ofNat 32 (fm * 256 + j.made * 16 + (if p.exceed || p.bd then 4 else 0) + j.why) }
/-- MATRIX_WRITE_POINT (R244): the last pass is written at one instant. [log 30 DESIGN CHOICE, 98 DEDUCED] -/
def execMatrixWritePoint (bid : Nat) (s : State) : Host.Outcome State Fault Refusal :=
  match tctxOf s bid 0 with
  | none => .fault .notEnabled
  | some c => match c.b.tile.job with
    | none => .fault .notEnabled
    | some j => match j.passes with
      | [p] => .next (writePoint c j p s)
      | _ => .fault .notEnabled

/-- The checks of TZERO, TSAVE and TLOAD on their record (R247), and the operand. -/
def TCtx.accFrag (c : TCtx) (n : Nat) (wide : Bool) : Except Nat Frag :=
  let r := c.record n
  if r.bad || r.mreg != 0 || (wide && r.base % 2 == 1) then .error 3
  else
    let f : Frag := ⟨r.grp, r.base, 64, if wide then 2 * r.rows else r.rows⟩
    match c.placed [f] with
    | some k => .error k
    | none => .ok f
/-- A write of every register of an operand, lane by lane. -/
def TCtx.writeFrag (c : TCtx) (f : Frag) (v : Nat → Nat → Option Word × Word) : List TileWrite :=
  (List.range f.lanes).flatMap fun n => (List.range f.regs).map fun j =>
    ⟨c.gidAt f.grp n, f.base + j, (c.place f.grp n).2, (v j n).1, (v j n).2⟩

/-- TZERO of a tile in registers (R256). [log 91 DEDUCED] -/
def execTzero (o : TOp) (s : State) : Host.Outcome State Fault Refusal :=
  runTile s fun c => match c.accFrag o.d (o.fa == .f64) with
    | .error k => .fault k
    | .ok f => .done (c.advance (applyWrites c.dist s (c.writeFrag f fun _ _ => (some 0, 0))) id)

/-- The key of a word of a slot. [log 92 DEDUCED] -/
def slotKey (slot row col : Nat) : Nat := 4096 * slot + 64 * row + col
/-- KIND with the bit of a slot set or cleared (R258). -/
def slotKind (n i : Nat) (v : Bool) : Nat := (setField (BitVec.ofNat 8 n) i 1 (if v then 1 else 0)).toNat
/-- TZERO.s (R256). -/
def execTzeroSlot (o : TOp) (s : State) : Host.Outcome State Fault Refusal :=
  runTile s fun c =>
    if c.l.rec0.tslotn ≤ o.slot then .fault 8
    else .done (c.advance s fun t =>
      { t with slots := t.slots.filter fun x => x.1 / 4096 != o.slot, badSlots := t.badSlots.filter fun x => x / 4096 != o.slot, kinds := slotKind t.kinds o.slot false })

/-- The slots a form names, and SLOT (R247, R256): `kind` is what a TLOAD expects to find. -/
def TCtx.slotBad (c : TCtx) (slot : Nat) (wide : Bool) (kind : Option Bool) : Bool :=
  let ss := if wide then [slot, slot + 1] else [slot]
  (wide && slot % 2 == 1) || ss.any fun i => decide (c.l.rec0.tslotn ≤ i) || kind.any fun v => c.b.tile.kinds.testBit i != v
/-- The slot and row a register of an operand goes to (R256). [log 92 DEDUCED] -/
def slotRow (slot : Nat) (wide : Bool) (j : Nat) : Nat × Nat := if wide then (slot + j % 2, j / 2) else (slot, j)

/-- TSAVE (R256). -/
def execTsave (o : TOp) (s : State) : Host.Outcome State Fault Refusal :=
  let wide := o.fa == .f64
  let vform := o.timm == 1
  runTile s fun c => match c.accFrag o.a wide with
    | .error k => .fault k
    | .ok f =>
      if c.slotBad o.slot wide none then .fault 8
      else match c.poisoned s [f] with
        | some r => r
        | none => .done (c.advance s fun t =>
          { t with
            slots := (List.range f.lanes).foldl (fun m n => (List.range f.regs).foldl (fun m j =>
              let (w, sd) := c.read s f.grp n (f.base + j)
              cset 0 m (slotKey (slotRow o.slot wide j).1 (slotRow o.slot wide j).2 n) (if vform then sd else w)) m) t.slots,
            badSlots := (List.range f.lanes).foldl (fun m n => (List.range f.regs).foldl (fun m j =>
              m.filter fun x => x != slotKey (slotRow o.slot wide j).1 (slotRow o.slot wide j).2 n) m) t.badSlots,
            kinds := (if wide then [o.slot, o.slot + 1] else [o.slot]).foldl (fun k i => slotKind k i vform) t.kinds })
/-- TLOAD of uncorrectable words poisons their lanes (R320), with one record for each group (R162); it has no virtual address, and its
ADDRL and ADDRH hold the lowest of its registers and 0. [log 170 DESIGN CHOICE] -/
def poisonLoads (dist : Bool) (s : State) (ws : List TileWrite) : State :=
  ((ws.map (·.gid)).eraseDups).foldl (fun s gid => modGroup s gid fun g =>
    let mine := ws.filter fun w => w.gid == gid
    let reg := (mine.map (·.reg)).foldl Nat.min ((mine.head?.map (·.reg)).getD 0)
    let (i, g1) := addRecord g ⟨reg, 4, false, false, reg, maskOf (mine.map (·.lane)), 0⟩
    mine.foldl (fun g w => g.wrV dist w.reg w.lane (poisonWord i) poisonSide true) g1) s
/-- TLOAD (R256, R320). [log 91 DEDUCED] -/
def execTload (o : TOp) (s : State) : Host.Outcome State Fault Refusal :=
  let wide := o.fa == .f64
  let vform := o.timm == 1
  runTile s fun c => match c.accFrag o.d wide with
    | .error k => .fault k
    | .ok f =>
      if c.slotBad o.slot wide (some vform) then .fault 8
      else
        let key (j n : Nat) : Nat := slotKey (slotRow o.slot wide j).1 (slotRow o.slot wide j).2 n
        let s1 := applyWrites c.dist s (c.writeFrag f fun j n =>
          let w := cget 0 c.b.tile.slots (key j n)
          if vform then (none, w) else (some w, 0))
        let bad := (c.writeFrag f fun j n => (if c.b.tile.badSlots.contains (key j n) then some 1 else none, 0)).filter (·.data.isSome)
        .done (c.advance (poisonLoads c.dist s1 bad) id)

/-- TBAR (R259, R534): the sequencer is member 16 of the block's barrier, and stands as lane 0 of the block's number. -/
def execTbar (o : TOp) (s : State) : Host.Outcome State Fault Refusal :=
  runTile s fun c =>
    let n := fieldOf o.timm 0 4
    let act := fieldOf o.timm 4 2
    if !c.l.rec0.tbarm.testBit n then .fault 9
    else
      let bar := scopeBar s .blk c.bid n
      let i := bar.lane c.bid 0
      let waits (s : State) (go : Bool) : State := modTile s c.bid fun t =>
        { t with pc := if go then nextPc t.pc else t.pc, barWait := some (n, bar.inst), tst := setField t.tst 0 4 2 }
      let arrived := setBar s .blk c.bid n { bar.record c.bid 1 with arrived := bar.arrived ++ [16] }
      if i = bar.inst + 1 then .done (waits s (act == 1))
      else if act = 1 then .done (c.advance s id)
      else if act = 0 then .done (c.advance arrived id)
      else .done (waits arrived true)

/-- The items of TGET (R258, R275). -/
def TCtx.item (c : TCtx) (n : Nat) : Word :=
  let t := c.b.tile
  let r := c.l.rec0
  match n with
  | 0 => t.tst
  | 1 => BitVec.ofNat 32 ((2 ^ r.tslotn - 1) * 256 + t.kinds)
  | 2 => BitVec.ofNat 32 (r.trsn * 1024 + r.trsb)
  | 3 => BitVec.ofNat 32 r.tbarm
  | 4 => BitVec.ofNat 32 (r.groups * 256 + r.width % 128)
  | 0x10 => t.nbud
  | 0x11 => t.nctl
  | 0x12 => t.nbnd
  | 0x13 => t.nmon
  | 0x14 => t.nrep
  | _ => t.nout
/-- TSET.set of an item: its RW and W1C fields (R168, R275). [log 97 DEDUCED] -/
def setItem (t : Tile) (n : Nat) (v : Word) : Tile :=
  match n with
  | 0 => { t with tst := t.tst &&& ~~~(v &&& 0xE0) }
  | 0x10 => { t with nbud := v &&& 0xFFFFFF }
  | 0x11 => { t with nctl := v &&& 0x7F }
  | 0x12 => { t with nbnd := v }
  | 0x14 => { t with nrep := v }
  | _ => t
def setT (t : Tile) (n : Nat) (v : Word) : Tile := { t with t := cset 0 t.t n v }

/-- TSET (R257). -/
def execTset (o : TOp) (s : State) : Host.Outcome State Fault Refusal :=
  runTile s fun c =>
    let v := o.timm
    .done (c.advance s fun t => match o.fb with
      | .f32 => setT t o.d (v.setWidth 32)
      | .f64 => setT t o.d (v ++ (c.t o.d).setWidth 16)
      | .f16 => setT t o.d (c.t o.a + v.signExtend 32)
      | _ => setItem t v.toNat (c.t o.a))
/-- TGET (R257). -/
def execTget (o : TOp) (s : State) : Host.Outcome State Fault Refusal :=
  runTile s fun c => .done (c.advance s fun t => setT t o.d (c.item o.timm.toNat))

/-- TMON (R276): the outcome of the last TMMAN into one lane's registers. -/
def execTmon (o : TOp) (s : State) : Host.Outcome State Fault Refusal :=
  runTile s fun c =>
    let r := c.record o.a
    let i := fieldOf o.timm 0 6
    let (gi, ln) := c.place r.grp i
    if r.bad || r.mreg != 0 then .fault 3
    else if r.base < c.l.rec0.trsb || decide (c.l.rec0.trsb + c.l.rec0.trsn < r.base + 2) || decide (c.l.rec0.groups ≤ gi) then .fault 5
    else if isAbsent c.l.rec0 gi ln then .fault 6
    else
      let gid := c.gidAt r.grp i
      .done (c.advance (applyWrites c.dist s [⟨gid, r.base, ln, some (c.item 0x15), 0⟩, ⟨gid, r.base + 1, ln, some (c.item 0x13), 0⟩]) id)

/-- A target of the tile stream (R235, R247): the line that far from this one, or the subcode of its fault, with what fetching it
counts; no subcode while the line is still to come. A line below address 0 lies before TSTR and is not fetched.
[log 93 DEDUCED, 151 DESIGN CHOICE] -/
def TCtx.target (c : TCtx) (s : State) (off : BitVec 16) : Except (Option Nat) DWord × State :=
  let line : Int := ((pcLine c.b.tile.pc : Nat) : Int) + 64 * off.toInt
  if line < 0 then (.error (some 0xA), s)
  else
    let va := line.toNat
    let r := if 2 ^ 56 ≤ va then .error FetchErr.xlat else fetchLine s c.bid c.l.rec0.asid c.b.core va
    match r with
    | .error e => if e.later then (.error none, askLine s c.bid e) else (.error (some 2), if 2 ^ 56 ≤ va then s else noteFetch s c.l.rec0.asid c.b.core va r)
    | .ok l =>
      let s1 := noteFetch s c.l.rec0.asid c.b.core va r
      if va < c.l.rec0.tstr.toNat || !lineTgt l 0 then (.error (some 0xA), s1) else (.ok (BitVec.ofNat 64 va), s1)
/-- A jump of the tile stream: the target is checked whether it is taken or not (R260). [log 93 DEDUCED, 151 DESIGN CHOICE] -/
def runTjump (o : TOp) (s : State) (f : TCtx → Bool × (Tile → Tile)) : Host.Outcome State Fault Refusal :=
  runTile s fun c =>
    match c.target s o.timm with
    | (.error (some k), s1) => .done (c.fault s1 k 0 0)
    | (.error none, s1) => .done s1
    | (.ok pc, s1) =>
      let (go, g) := f c
      .done (if go then modTile s1 c.bid fun t => { g t with pc := pc } else c.advance s1 g)
/-- TLOOP (R260). -/
def execTloop (o : TOp) (s : State) : Host.Outcome State Fault Refusal :=
  runTjump o s fun c => (c.t o.d - 1 != 0, fun t => setT t o.d (c.t o.d - 1))
/-- TJMP (R260). -/
def execTjmp (o : TOp) (s : State) : Host.Outcome State Fault Refusal := runTjump o s fun _ => (true, id)
/-- TEND (R235, R260). -/
def execTend (_o : TOp) (s : State) : Host.Outcome State Fault Refusal :=
  runTile s fun c => .done (modTile s c.bid fun t => { t with ended := true, tst := setField t.tst 0 4 0 })

/-- UNALLOCATED_OPCODE (R139, R140): FLT_ENCODING of the group, or a tile fault of the sequencer. -/
def execUnallocatedOpcode (word : BitVec 96) (s : State) : Host.Outcome State Fault Refusal :=
  match tctx? s with
  | some c => .next ({ c with word := word }.fault s 1 0 0)
  | none => match ctx? s with
    | some c => raise s c { code := 0x01, tval := word.toNat, tmask := c.lanes, pc := c.e.pc }
    | none => .fault .noIssuer

/-- Matrix instructions, which need the core's tile engine (R237). [log 90 DEDUCED] -/
def usesEngine : Instr → Bool
  | .tmma _ | .tmmas _ | .tmman _ => true
  | _ => false
/-- Another block's sequencer has the core's tile engine. [log 90 DEDUCED] -/
def engineTaken (s : State) (bid core : Nat) : Bool :=
  s.blocks.any fun b => b.1 != bid && b.2.core == core && b.2.tile.job.isSome

/-- One issue attempt of a sequencer (R235, R237, R247): the line, then the word; a matrix instruction waits for the engine. -/
def prepareTile (s : State) (bid : Nat) : Prep :=
  match tctxOf s bid 0 with
  | none => .stay s
  | some c =>
    let t := c.b.tile
    let held := c.l.rec0.red && ((pointOf s bid).isSome || c.b.matched || c.b.ckptDue || c.b.extra.isSome || twinFull s bid c.b) || c.b.ticket.isSome
    if t.ended || t.fault.isSome || t.job.isSome || t.barWait.isSome || c.b.exited || c.ga.st != .resident || c.l.st == .suspended || held then .stay s
    else
      let va := pcLine t.pc
      let r := if t.badLine = some va then .error FetchErr.parity else fetchLine s bid c.l.rec0.asid c.b.core va
      let s0 := if t.badLine = some va then s else noteFetch s c.l.rec0.asid c.b.core va r
      match r with
      | .error e => if e.later then .stay (askLine s bid e) else .stay (c.fault (dropFars s0 [0, bid]) 2 0 0)
      | .ok l =>
        let w := l.words.getD (pcSlot t.pc) 0
        let cw : TCtx := { c with word := w }
        if fieldOf l.lw 15 17 ≠ 0 ∨ fieldOf l.lw 5 4 ≠ 0 then .stay (cw.fault s0 1 0 0)
        else
          let run (i : Instr) : Prep :=
            .run i (modTile { s0 with cur := some ⟨true, bid, 0, w⟩, stamp := s0.stamp + 1 } bid fun t => { t with badLine := none })
          if !tileWord w then run (.unallocatedOpcode w)
          else match decode w with
            | .error _ => .stay (cw.fault s0 1 0 0)
            | .ok i => if usesEngine i && engineTaken s bid c.b.core then .stay s else run i

end Sys2Proof.Machine
end

