-- ==== Sys2Proof/Machine/Unmask.lean ====
section
/-! DEFINITION. The unmasking engine: sequence contexts, UINIT, UCONF, UCOMMIT, UCLEAN and UFREE (33_unmasking R449-R466). -/

namespace Sys2Proof.Machine

open Sys2Proof

/-- A write of an engine command: the bytes under the mask change (R450: bits of others are never written). -/
structure UWrite where
  va : Nat
  data : List Byte
  mask : List Byte
deriving DecidableEq, Repr

/-- A write of whole bytes. -/
def uWhole (va : Nat) (data : List Byte) : UWrite := ⟨va, data, List.replicate data.length 0xFF⟩
/-- Set or clear bits of a bit array (R450): one write for each byte that holds one. [log 70 DEDUCED] -/
def uBits (base : Nat) (bits : List Nat) (val : Bool) : List UWrite :=
  ((bits.map (· / 8)).eraseDups).map fun k =>
    let m : Byte := (bits.filter fun b => b / 8 == k).foldl (fun m b => m ||| BitVec.ofNat 8 (2 ^ (b % 8))) 0
    ⟨base + k, [if val then m else 0], [m]⟩

/-- What marks an access that waits: its page is closed by a move (R361, R493), or it is under way at another device; from 32 on, one of
that length less 32 bytes still to ask for at another device (R479). -/
def uWaits : Nat := 16
/-- The failures of an access, as (address, write, kind) (R406, R456); an uncorrectable line fails a write as well, whose other bytes
it does not give. At another device it is read to find out. [log 69 DESIGN CHOICE] -/
def uFails (s : State) (own : List Nat) (asid die : Nat) (wr : Bool) (va n : Nat) : List (Nat × Bool × Nat) :=
  (linePieces va n).filterMap fun q =>
    if 2 ^ 56 ≤ q.1 then some (q.1, wr, 5)
    else match locatePiece s asid die q.1 (if wr then .write else .read) with
      | .error k => some (q.1, wr, k)
      | .ok (.here t) => if tgtClosed s t then some (q.1, wr, uWaits) else if tgtBad s t q.2 then some (q.1, wr, 4) else none
      | .ok (.there fa _) => match farBytes s own fa q.2 with
        | .ok _ => none
        | .error (.fails k) => some (q.1, wr, k)
        | .error .waits => some (q.1, wr, uWaits)
        | .error .asks => some (q.1, wr, 32 + q.2)
      | .ok (.fails _) => none
/-- Bytes an engine command reads once its accesses are known not to fail. -/
def uRead (s : State) (own : List Nat) (asid die va n : Nat) : List Byte :=
  match readVirt s own asid die va n with
  | .ok bs => bs
  | .error _ => []

/-- A write under a mask goes to another device: whole bytes as one store, bits as atomics on their words, so that no other bit is
written (R450). -/
def uSend (s : State) (gid : Nat) (fa : DWord) (lanes va : Nat) (data mask : List Byte) : State :=
  let send (s : State) (fa : DWord) (kind : FabKind) (bs : List Byte) : State :=
    sendWait { s with nextId := s.nextId + 1 } gid s.nextId 0 fa lanes kind bs.length bs [] 0 va
  if mask.all (· == 0xFF) then send s fa .store data
  else ((data.zip mask).zipIdx).foldl (fun s x =>
    let a := fa + BitVec.ofNat 64 x.2
    let word (b : Byte) (rest : Nat) : List Byte := (List.range 4).map fun i => if i = fieldOf a 0 2 then b else BitVec.ofNat 8 rest
    let at_ : DWord := a &&& ~~~(3 : DWord)
    let ones := x.1.1 &&& x.1.2
    let zeros := ~~~x.1.1 &&& x.1.2
    let s1 := if ones = 0 then s else send s at_ (.atom 5 1) (word ones 0)
    if zeros = 0 then s1 else send s1 at_ (.atom 4 1) (word (~~~zeros) 255)) s
/-- One write takes effect in the name of the group, and its line leaves the L1 of the group's core, and of the other copy's (R454). -/
def uWriteOne (gid asid die : Nat) (s : State) (w : UWrite) : State :=
  (linePieces w.va w.data.length).foldl (fun s q =>
    let cut (l : List Byte) : List Byte := (l.drop (q.1 - w.va)).take q.2
    match locatePiece s asid die q.1 .write with
    | .ok (.here (.line loc off)) =>
      let old := readTgt s (.line loc off) q.2
      let new := (old.zip ((cut w.data).zip (cut w.mask))).map fun x => (x.1 &&& ~~~x.2.2) ||| (x.2.1 &&& x.2.2)
      let s1 := writeTgtAs s (pageCls s asid (2 ^ 20) die none q.1) (.line loc off) new
      (copiesOf s gid).foldl (fun s x => dropL1 s (some x.2) fun y => y.overlaps loc) s1
    | .ok (.there fa k) => uSend s gid fa k q.1 (cut w.data) (cut w.mask)
    | _ => s) s

/-- What a command comes to: BADREC, a FAULT with the failures to report one of, or what it read, its writes, its context afterwards
(none: it is invalid) and words 1 to 3. -/
inductive UOut where
  | bad
  | fault (fs : List (Nat × Bool × Nat))
  | ok (rs : List (Nat × Nat)) (ws : List UWrite) (ctx : Option UCtx) (w1 w2 w3 : Nat)
deriving DecidableEq, Repr

def uCtxOf (s : State) (die ctx : Nat) : Option UCtx := s.uctx.find? fun c => c.die == die && c.ctx == ctx
/-- The context of a command (R455): valid and owned by the launch's ASID. -/
def uMine (s : State) (die asid : Nat) (x : Cmd) : Option UCtx :=
  (uCtxOf s die (fieldOf (x.args.getD 0 0) 0 6)).filter fun c => c.asid == asid
/-- Reserved bits of an argument block (R455): `ok` are the bits each word may hold. -/
def uReserved (x : Cmd) (ok : List Nat) : Bool :=
  (List.range 8).any fun i => (x.args.getD i 0).toNat &&& (0xFFFFFFFF ^^^ ok.getD i 0) != 0

/-- An earlier started command of the same context is not over (R453, R465), its writes to other devices included: for UFREE, not
completed. [log 71 DEDUCED] -/
def uBehind (s : State) (x : Cmd) : Bool :=
  s.groups.any fun g => (List.range 4).any fun i => (qreg g.2 (8 + i)).cmds.any fun y =>
    y.started && !y.shadow && decide (y.order < x.order) && uSame s x y && (y.result.isNone || !y.landed s || x.code == 0x23)

/-- Run a command of the unmasking engine (R453-R456): in start order for its context, whole; not while a page it needs is closed by a
move, and never on a fenced die (R466). [log 69 DESIGN CHOICE] -/
def runU (gid q idx code : Nat) (s : State) (f : List Nat → Nat → Nat → Cmd → UOut) : Host.Outcome State Fault Refusal :=
  if q < 8 then .fault .notEnabled
  else onCmd gid q idx code s fun p x =>
    let die := coreDie s x.core
    let asid := p.l.rec0.asid
    let failed (fs : List (Nat × Bool × Nat)) : State :=
      let (k, s1) := s.fresh
      let (va, wr, kind) := fs.getD (k % fs.length) (0, false, 0)
      setResult (walkErr s1 asid (2 ^ 20) die none va) gid q idx [statusWord 1 code x.seq, 0, BitVec.ofNat 32 va,
        BitVec.ofNat 32 ((if wr then 2 ^ 28 else 0) + kind * 2 ^ 24 + va / 2 ^ 32 % 2 ^ 24)]
    let own := [4, gid, q, x.seq]
    let fault (fs : List (Nat × Bool × Nat)) : Option State :=
      let ask := fs.filter fun x => decide (32 ≤ x.2.2)
      if ask != [] then some (ask.foldl (fun s x => askVirt s own asid die x.1 (x.2.2 - 32)) s)
      else if fs.any fun x => x.2.2 == uWaits then none else some (dropFars (failed fs) own)
    if uBehind s x || s.fenced.contains die then none
    else match f own asid die x with
      | .bad => some (setResult s gid q idx [statusWord 2 code x.seq, 0, 0, 0])
      | .fault fs => fault fs
      | .ok rs ws ctx w1 w2 w3 =>
        match ws.flatMap fun w => uFails s own asid die true w.va w.data.length with
        | [] =>
          let s1 := ws.foldl (uWriteOne gid asid die) (rs.foldl (fun s r => touchVirt s asid die r.1 r.2) s)
          let n := fieldOf (x.args.getD 0 0) 0 6
          let others := s1.uctx.filter fun c => !(c.die == die && c.ctx == n)
          some (setResult (dropFars { s1 with uctx := others ++ ctx.toList } own) gid q idx
            [statusWord 0 code x.seq, BitVec.ofNat 32 w1, BitVec.ofNat 32 w2, BitVec.ofNat 32 w3])
        | fs => fault fs

/-- Layout of the context area (R450). -/
def uDirty (c : UCtx) (l : Nat) : Nat := c.area + 0x2000 + 128 * l
def uTheta (c : UCtx) : Nat := c.area + 0x6000
def uConf (c : UCtx) (p : Nat) : Nat := c.area + 0x8000 + 8 * p
def uRing (c : UCtx) (i : Nat) : Nat := c.area + 0x88000 + 4 * (i % 65536)
def uBlocks (c : UCtx) : Nat := ceilDiv c.n 64
/-- Masked positions below N. [log 70 DEDUCED] -/
def uMasked (c : UCtx) (bitmap : List Byte) : List Nat :=
  let m := ofBytes bitmap
  (List.range c.n).filter fun p => m.testBit p

/-- UINIT (R457). -/
def uinitOut (s : State) (own : List Nat) (asid die : Nat) (x : Cmd) : UOut :=
  let w (i : Nat) : Word := x.args.getD i 0
  let c : UCtx := { die := die, ctx := fieldOf (w 0) 0 6, asid := asid, n := fieldOf (w 1) 0 16 + 1, l := fieldOf (w 0) 8 7 + 1,
                    area := (w 2).toNat + fieldOf (w 3) 0 24 * 2 ^ 32, sketch := (w 4).toNat + fieldOf (w 5) 0 24 * 2 ^ 32,
                    cur := fieldOf (w 6) 16 16, pcur := 0 }
  if uReserved x [0x7F3F, 0xFFFF, 0xFFFFFFFF, 0xFFFFFF, 0xFFFFFFFF, 0xFFFFFF, 0xFFFF0001, 0] || (uCtxOf s die c.ctx).isSome
    || c.area % 4096 != 0 || c.sketch % 64 != 0 then .bad
  else if bitOf (w 6) 0 then
    let cell : List Byte := bytesOf 0xFF800000 8
    .ok [] (uBits c.area (List.range c.n) true ++ (List.range c.l).flatMap (fun l => uBits (uDirty c l) (List.range (uBlocks c)) false)
      ++ (List.range c.n).map fun p => uWhole (uConf c p) cell) (some c) c.n 0 0
  else match uFails s own asid die false c.area (ceilDiv c.n 8) with
    | [] => .ok [(c.area, ceilDiv c.n 8)] [] (some c) (uMasked c (uRead s own asid die c.area (ceilDiv c.n 8))).length 0 0
    | fs => .fault fs
/-- UINIT: a context becomes valid. -/
def execUinit (gid q idx : Nat) (s : State) : Host.Outcome State Fault Refusal := runU gid q idx 0x20 s (uinitOut s)

/-- UCONF (R458): the payload's confidences. -/
def uconfOut (s : State) (_ : List Nat) (asid die : Nat) (x : Cmd) : UOut :=
  let w (i : Nat) : Word := x.args.getD i 0
  match uMine s die asid x with
  | none => .bad
  | some c =>
    if uReserved x [0x8000003F, 0xFFFF, 0, 0, 0, 0, 0, 0] || x.payload.isEmpty || (!bitOf (w 0) 31 && w 1 != 0) then .bad
    else
      let base := if bitOf (w 0) 31 then fieldOf (w 1) 0 16 else c.pcur
      let ps := (lanesOf x.pmask).filter fun l => base + l < c.n
      .ok [] (ps.map fun l =>
          let v := x.payload.getD l (0, 0)
          uWhole (uConf c (base + l)) (bytesOf v.1.toNat 4 ++ bytesOf v.2.toNat 4))
        (some { c with pcur := (base + 64) % 65536 }) ps.length base 0
/-- UCONF. -/
def execUconf (gid q idx : Nat) (s : State) : Host.Outcome State Fault Refusal := runU gid q idx 0x00 s (uconfOut s)

/-- Twice κ of KAP (R461). -/
def uKappa2 : Nat → Nat
  | 0 => 0 | 1 => 1 | 2 => 2 | _ => 4
/-- The key of a position (R460), as FP32. -/
def uKey (kap : Nat) (mean side : Nat) : Nat :=
  let c := decodeFp fF32 mean
  let low := infBits fF32 true
  if c.isNan then low
  else if kap = 0 then mean
  else match c, decodeFp fF32 (sideRead true (BitVec.ofNat 32 side)) with
    | .fin a, .fin sd => (roundFin fF32 .rd 0 false false (a.sub (sd.mul ⟨false, uKappa2 kap, 2⟩))).bits
    | .fin _, _ => low
    | .inf false, .fin _ => mean
    | _, _ => low
/-- FP32 order of keys as numbers (R460): zeros are equal. -/
def uOrder (k : Nat) : Nat := if 2 ^ 31 ≤ k then 2 ^ 31 - k % 2 ^ 31 else 2 ^ 31 + k
/-- Rank order (R460): descending key, then ascending position. -/
def uRank (keys : List (Nat × Nat)) : List (Nat × Nat) := sortKey (fun x => 2 ^ 33 - uOrder x.2) keys

/-- The number of positions to commit (R461); none for a BADREC. -/
def uCount (share arg : Nat) (keys : List (Nat × Nat)) : Option Nat :=
  let m := keys.length
  let t := decodeFp fF32 arg
  match share with
  | 0 => if 1 ≤ arg ∧ arg ≤ 65536 then some (Nat.min arg m) else none
  | 1 => if 1 ≤ arg ∧ arg ≤ 256 then some (ceilDiv (arg * m) 256) else none
  | 2 =>
    if t.isNan then none
    else if m = 0 then some 0
    else some (Nat.max 1 (keys.filter fun k => decide (uOrder arg ≤ uOrder k.2)).length)
  | _ => none

/-- The bits the dirty map takes for committed blocks (R463). -/
def uMarks (s : State) (own : List Nat) (asid die : Nat) (c : UCtx) (bs : List Nat) : List UWrite :=
  let nb := uBlocks c
  uBits (uDirty c 0) bs true ++ ((List.range c.l).drop 1).flatMap fun l =>
    let th := ofBytes (uRead s own asid die (uTheta c + l) 1)
    let hit (q : Nat) : Bool := bs.any fun k => decide (th < ofBytes (uRead s own asid die (c.sketch + ((l - 1) * nb + q) * nb + k) 1))
    uBits (uDirty c l) ((List.range nb).filter hit) true
/-- The bytes UCOMMIT reads of θ and the sketch for committed blocks (R463). -/
def uSketchReads (c : UCtx) (bs : List Nat) : List Nat :=
  let nb := uBlocks c
  if bs = [] then [] else
  ((List.range c.l).drop 1).flatMap fun l => (uTheta c + l) ::
    (List.range nb).flatMap fun q => bs.map fun k => c.sketch + ((l - 1) * nb + q) * nb + k

/-- UCOMMIT (R460-R463). -/
def ucommitOut (s : State) (own : List Nat) (asid die : Nat) (x : Cmd) : UOut :=
  let w (i : Nat) : Word := x.args.getD i 0
  let nd := bitOf (w 0) 16
  match uMine s die asid x with
  | none => .bad
  | some c =>
    if uReserved x [0x1333F, 0xFFFFFFFF, 0, 0, 0, 0, 0, 0] || (uCount (fieldOf (w 0) 8 2) (w 1).toNat []).isNone then .bad
    else match uFails s own asid die false c.area (ceilDiv c.n 8) with
      | [] =>
        let ps := uMasked c (uRead s own asid die c.area (ceilDiv c.n 8))
        match ps.flatMap fun p => uFails s own asid die false (uConf c p) 8 with
        | [] =>
          let keys := ps.map fun p =>
            let e := ofBytes (uRead s own asid die (uConf c p) 8)
            (p, uKey (fieldOf (w 0) 12 2) (e % 2 ^ 32) (e / 2 ^ 32))
          let n := (uCount (fieldOf (w 0) 8 2) (w 1).toNat keys).getD 0
          let com := ((uRank keys).take n).map (·.1)
          let bs := (com.map (· / 64)).eraseDups
          let rs := if nd then [] else uSketchReads c bs
          match rs.flatMap fun a => uFails s own asid die false a 1 with
          | [] =>
            .ok ((c.area, ceilDiv c.n 8) :: ps.map (fun p => (uConf c p, 8)) ++ rs.map fun a => (a, 1)) ((com.zipIdx.map fun r => uWhole (uRing c (c.cur + r.2)) (bytesOf r.1 4)) ++ uBits c.area com false
                ++ (if nd || com.isEmpty then [] else uMarks s own asid die c bs))
              (some { c with cur := (c.cur + n) % 65536 }) n c.cur (keys.length - n)
          | fs => .fault fs
        | fs => .fault fs
      | fs => .fault fs
/-- UCOMMIT: positions are ranked and a share of them committed. -/
def execUcommit (gid q idx : Nat) (s : State) : Host.Outcome State Fault Refusal := runU gid q idx 0x21 s (ucommitOut s)

/-- UCLEAN (R464). -/
def ucleanOut (s : State) (_ : List Nat) (asid die : Nat) (x : Cmd) : UOut :=
  let w (i : Nat) : Word := x.args.getD i 0
  let l := fieldOf (w 1) 0 7
  let j := fieldOf (w 2) 0 10
  let n := fieldOf (w 3) 0 11
  match uMine s die asid x with
  | none => .bad
  | some c =>
    if uReserved x [0x8000003F, 0x7F, 0x3FF, 0x7FF, 0, 0, 0, 0] || decide (c.l ≤ l) || (bitOf (w 0) 31 && l != 0)
      || decide (n < 1) || decide (1024 < n) || decide (uBlocks c < j + n) then .bad
    else .ok [] ((if bitOf (w 0) 31 then List.range c.l else [l]).flatMap fun l =>
        uBits (uDirty c l) ((List.range n).map (· + j)) false) (some c) 0 0 0
/-- UCLEAN: dirty bits are cleared. -/
def execUclean (gid q idx : Nat) (s : State) : Host.Outcome State Fault Refusal := runU gid q idx 0x22 s (ucleanOut s)

/-- UFREE (R465). [log 71 DEDUCED] -/
def ufreeOut (s : State) (_ : List Nat) (asid die : Nat) (x : Cmd) : UOut :=
  match uMine s die asid x with
  | none => .bad
  | some _ => if uReserved x [0x3F, 0, 0, 0, 0, 0, 0, 0] then .bad else .ok [] [] none 0 0 0
/-- UFREE: the context is invalid. -/
def execUfree (gid q idx : Nat) (s : State) : Host.Outcome State Fault Refusal := runU gid q idx 0x23 s (ufreeOut s)

end Sys2Proof.Machine
end

