-- ==== Sys2Proof/Machine/Dispatch.lean ====
section
/-! DEFINITION. The dispatcher: one arm per constructor of `Instr`, each a direct call of its meaning. -/

namespace Sys2Proof.Machine

open Sys2Proof

/-- Execute one instruction or event. [log 137 DESIGN CHOICE] -/
def exec (i : Instr) (s : State) : Host.Outcome State Fault Refusal :=
  match i with
  | .iadd o => Sys2Proof.Machine.execIadd o s
  | .iaddI o => Sys2Proof.Machine.execIaddI o s
  | .isub o => Sys2Proof.Machine.execIsub o s
  | .isubI o => Sys2Proof.Machine.execIsubI o s
  | .imul o => Sys2Proof.Machine.execImul o s
  | .imulI o => Sys2Proof.Machine.execImulI o s
  | .imad o => Sys2Proof.Machine.execImad o s
  | .imin o => Sys2Proof.Machine.execImin o s
  | .imax o => Sys2Proof.Machine.execImax o s
  | .iabs o => Sys2Proof.Machine.execIabs o s
  | .ineg o => Sys2Proof.Machine.execIneg o s
  | .idiv o => Sys2Proof.Machine.execIdiv o s
  | .irem o => Sys2Proof.Machine.execIrem o s
  | .shl o => Sys2Proof.Machine.execShl o s
  | .shr o => Sys2Proof.Machine.execShr o s
  | .sar o => Sys2Proof.Machine.execSar o s
  | .shlI o => Sys2Proof.Machine.execShlI o s
  | .shrI o => Sys2Proof.Machine.execShrI o s
  | .sarI o => Sys2Proof.Machine.execSarI o s
  | .shf o => Sys2Proof.Machine.execShf o s
  | .and o => Sys2Proof.Machine.execAnd o s
  | .andI o => Sys2Proof.Machine.execAndI o s
  | .or o => Sys2Proof.Machine.execOr o s
  | .orI o => Sys2Proof.Machine.execOrI o s
  | .xor o => Sys2Proof.Machine.execXor o s
  | .xorI o => Sys2Proof.Machine.execXorI o s
  | .not o => Sys2Proof.Machine.execNot o s
  | .lop3 o => Sys2Proof.Machine.execLop3 o s
  | .popc o => Sys2Proof.Machine.execPopc o s
  | .clz o => Sys2Proof.Machine.execClz o s
  | .ctz o => Sys2Proof.Machine.execCtz o s
  | .brev o => Sys2Proof.Machine.execBrev o s
  | .bfx o => Sys2Proof.Machine.execBfx o s
  | .bfi o => Sys2Proof.Machine.execBfi o s
  | .bperm o => Sys2Proof.Machine.execBperm o s
  | .sel o => Sys2Proof.Machine.execSel o s
  | .iset o => Sys2Proof.Machine.execIset o s
  | .mov o => Sys2Proof.Machine.execMov o s
  | .movToQueue o => Sys2Proof.Machine.execMovToQueue o s
  | .movFromQueue o => Sys2Proof.Machine.execMovFromQueue o s
  | .movi o => Sys2Proof.Machine.execMovi o s
  | .cvt o => Sys2Proof.Machine.execCvt o s
  | .lea o => Sys2Proof.Machine.execLea o s
  | .iadd64 o => Sys2Proof.Machine.execIadd64 o s
  | .dp8 o => Sys2Proof.Machine.execDp8 o s
  | .dp4 o => Sys2Proof.Machine.execDp4 o s
  | .unpk o => Sys2Proof.Machine.execUnpk o s
  | .pack o => Sys2Proof.Machine.execPack o s
  | .fadd o => Sys2Proof.Machine.execFadd o s
  | .faddI o => Sys2Proof.Machine.execFaddI o s
  | .fsub o => Sys2Proof.Machine.execFsub o s
  | .fsubI o => Sys2Proof.Machine.execFsubI o s
  | .fmul o => Sys2Proof.Machine.execFmul o s
  | .fmulI o => Sys2Proof.Machine.execFmulI o s
  | .fma o => Sys2Proof.Machine.execFma o s
  | .fmin o => Sys2Proof.Machine.execFmin o s
  | .fmax o => Sys2Proof.Machine.execFmax o s
  | .fabs o => Sys2Proof.Machine.execFabs o s
  | .fneg o => Sys2Proof.Machine.execFneg o s
  | .fcmp o => Sys2Proof.Machine.execFcmp o s
  | .fcmpI o => Sys2Proof.Machine.execFcmpI o s
  | .fdiv o => Sys2Proof.Machine.execFdiv o s
  | .fsqrt o => Sys2Proof.Machine.execFsqrt o s
  | .frcp o => Sys2Proof.Machine.execFrcp o s
  | .frsq o => Sys2Proof.Machine.execFrsq o s
  | .fexp2 o => Sys2Proof.Machine.execFexp2 o s
  | .flog2 o => Sys2Proof.Machine.execFlog2 o s
  | .fsin2pi o => Sys2Proof.Machine.execFsin2pi o s
  | .fcos2pi o => Sys2Proof.Machine.execFcos2pi o s
  | .frnd o => Sys2Proof.Machine.execFrnd o s
  | .cvtF o => Sys2Proof.Machine.execCvtF o s
  | .fclass o => Sys2Proof.Machine.execFclass o s
  | .fscale o => Sys2Proof.Machine.execFscale o s
  | .dp8F o => Sys2Proof.Machine.execDp8F o s
  | .dp4F o => Sys2Proof.Machine.execDp4F o s
  | .dvar o => Sys2Proof.Machine.execDvar o s
  | .dset o => Sys2Proof.Machine.execDset o s
  | .dsetI o => Sys2Proof.Machine.execDsetI o s
  | .dtag o => Sys2Proof.Machine.execDtag o s
  | .dtagI o => Sys2Proof.Machine.execDtagI o s
  | .dclr o => Sys2Proof.Machine.execDclr o s
  | .dstd o => Sys2Proof.Machine.execDstd o s
  | .sample o => Sys2Proof.Machine.execSample o s
  | .rndu o => Sys2Proof.Machine.execRndu o s
  | .rndn o => Sys2Proof.Machine.execRndn o s
  | .gumb o => Sys2Proof.Machine.execGumb o s
  | .qmean o => Sys2Proof.Machine.execQmean o s
  | .qvar o => Sys2Proof.Machine.execQvar o s
  | .sctr o => Sys2Proof.Machine.execSctr o s
  | .shfl o => Sys2Proof.Machine.execShfl o s
  | .shflI o => Sys2Proof.Machine.execShflI o s
  | .vote o => Sys2Proof.Machine.execVote o s
  | .matchLanes o => Sys2Proof.Machine.execMatchLanes o s
  | .qswap o => Sys2Proof.Machine.execQswap o s
  | .qbcast o => Sys2Proof.Machine.execQbcast o s
  | .qred o => Sys2Proof.Machine.execQred o s
  | .srd o => Sys2Proof.Machine.execSrd o s
  | .ld o => Sys2Proof.Machine.execLd o s
  | .st o => Sys2Proof.Machine.execSt o s
  | .ald o => Sys2Proof.Machine.execAld o s
  | .ast o => Sys2Proof.Machine.execAst o s
  | .atom o => Sys2Proof.Machine.execAtom o s
  | .dcas o => Sys2Proof.Machine.execDcas o s
  | .amov o => Sys2Proof.Machine.execAmov o s
  | .pref o => Sys2Proof.Machine.execPref o s
  | .cwb o => Sys2Proof.Machine.execCwb o s
  | .cinv o => Sys2Proof.Machine.execCinv o s
  | .fence o => Sys2Proof.Machine.execFence o s
  | .bra o => Sys2Proof.Machine.execBra o s
  | .brx o => Sys2Proof.Machine.execBrx o s
  | .call o => Sys2Proof.Machine.execCall o s
  | .ret o => Sys2Proof.Machine.execRet o s
  | .mjoin o => Sys2Proof.Machine.execMjoin o s
  | .join o => Sys2Proof.Machine.execJoin o s
  | .exit o => Sys2Proof.Machine.execExit o s
  | .rgn o => Sys2Proof.Machine.execRgn o s
  | .nop o => Sys2Proof.Machine.execNop o s
  | .yieldHint o => Sys2Proof.Machine.execYieldHint o s
  | .qpush o => Sys2Proof.Machine.execQpush o s
  | .qpop o => Sys2Proof.Machine.execQpop o s
  | .qtry o => Sys2Proof.Machine.execQtry o s
  | .copy o => Sys2Proof.Machine.execCopy o s
  | .rawait o => Sys2Proof.Machine.execRawait o s
  | .rarel o => Sys2Proof.Machine.execRarel o s
  | .rarelInit o => Sys2Proof.Machine.execRarelInit o s
  | .bar o => Sys2Proof.Machine.execBar o s
  | .wait o => Sys2Proof.Machine.execWait o s
  | .tlbinvPage o => Sys2Proof.Machine.execTlbinvPage o s
  | .tlbinvAsid o => Sys2Proof.Machine.execTlbinvAsid o s
  | .pmap o => Sys2Proof.Machine.execPmap o s
  | .pdrop o => Sys2Proof.Machine.execPdrop o s
  | .rbind o => Sys2Proof.Machine.execRbind o s
  | .runbind o => Sys2Proof.Machine.execRunbind o s
  | .place o => Sys2Proof.Machine.execPlace o s
  | .trap o => Sys2Proof.Machine.execTrap o s
  | .trapPost o => Sys2Proof.Machine.execTrapPost o s
  | .rtrRestart o => Sys2Proof.Machine.execRtrRestart o s
  | .rtrNext o => Sys2Proof.Machine.execRtrNext o s
  | .rtrKill o => Sys2Proof.Machine.execRtrKill o s
  | .csrr o => Sys2Proof.Machine.execCsrr o s
  | .csrw o => Sys2Proof.Machine.execCsrw o s
  | .bpt o => Sys2Proof.Machine.execBpt o s
  | .dbgw o => Sys2Proof.Machine.execDbgw o s
  | .tmma o => Sys2Proof.Machine.execTmma o s
  | .tmmas o => Sys2Proof.Machine.execTmmas o s
  | .tmman o => Sys2Proof.Machine.execTmman o s
  | .tzero o => Sys2Proof.Machine.execTzero o s
  | .tzeroSlot o => Sys2Proof.Machine.execTzeroSlot o s
  | .tsave o => Sys2Proof.Machine.execTsave o s
  | .tload o => Sys2Proof.Machine.execTload o s
  | .tbar o => Sys2Proof.Machine.execTbar o s
  | .tset o => Sys2Proof.Machine.execTset o s
  | .tget o => Sys2Proof.Machine.execTget o s
  | .tmon o => Sys2Proof.Machine.execTmon o s
  | .tloop o => Sys2Proof.Machine.execTloop o s
  | .tjmp o => Sys2Proof.Machine.execTjmp o s
  | .tend o => Sys2Proof.Machine.execTend o s
  | .matrixWritePoint bid => Sys2Proof.Machine.execMatrixWritePoint bid s
  | .tmmanPassEnd bid => Sys2Proof.Machine.execTmmanPassEnd bid s
  | .lineFetch gid upset1 upset2 => Sys2Proof.Machine.execLineFetch gid upset1 upset2 s
  | .variableLatencyReturn gid idx => Sys2Proof.Machine.execVariableLatencyReturn gid idx s
  | .switchMarkerRelease gid eid => Sys2Proof.Machine.execSwitchMarkerRelease gid eid s
  | .splitDivision gid eid late => Sys2Proof.Machine.execSplitDivision gid eid late s
  | .splitLateWake gid eid => Sys2Proof.Machine.execSplitLateWake gid eid s
  | .atomicTakeEffect m => Sys2Proof.Machine.execAtomicTakeEffect m s
  | .trapEntry gid => Sys2Proof.Machine.execTrapEntry gid s
  | .groupArrivalCount gid level barn => Sys2Proof.Machine.execGroupArrivalCount gid level barn s
  | .barrierInstanceComplete level scope barn => Sys2Proof.Machine.execBarrierInstanceComplete level scope barn s
  | .copyStart bid q => Sys2Proof.Machine.execCopyStart bid q s
  | .copyComplete bid idx => Sys2Proof.Machine.execCopyComplete bid idx s
  | .engineCommandStart gid q => Sys2Proof.Machine.execEngineCommandStart gid q s
  | .engineCompletion gid q idx => Sys2Proof.Machine.execEngineCompletion gid q idx s
  | .drain gid q idx => Sys2Proof.Machine.execDrain gid q idx s
  | .cset gid q idx => Sys2Proof.Machine.execCset gid q idx s
  | .bready gid q idx => Sys2Proof.Machine.execBready gid q idx s
  | .cfree gid q idx => Sys2Proof.Machine.execCfree gid q idx s
  | .uconf gid q idx => Sys2Proof.Machine.execUconf gid q idx s
  | .uinit gid q idx => Sys2Proof.Machine.execUinit gid q idx s
  | .ucommit gid q idx => Sys2Proof.Machine.execUcommit gid q idx s
  | .uclean gid q idx => Sys2Proof.Machine.execUclean gid q idx s
  | .ufree gid q idx => Sys2Proof.Machine.execUfree gid q idx s
  | .stageComplete fcode => Sys2Proof.Machine.execStageComplete fcode s
  | .planinStore port vals => Sys2Proof.Machine.execPlaninStore port vals s
  | .planoutRemove port => Sys2Proof.Machine.execPlanoutRemove port s
  | .ageingReplan die pen offs weak => Sys2Proof.Machine.execAgeingReplan die pen offs weak s
  | .atgo port vals => Sys2Proof.Machine.execAtgo port vals s
  | .atnonceWrite port ix vals => Sys2Proof.Machine.execAtnonceWrite port ix vals s
  | .lidRead ports ix => Sys2Proof.Machine.execLidRead ports ix s
  | .lidWrite ports ix => Sys2Proof.Machine.execLidWrite ports ix s
  | .launchTake queue => Sys2Proof.Machine.execLaunchTake queue s
  | .launchAdmit lid => Sys2Proof.Machine.execLaunchAdmit lid s
  | .gangPlace lid gang => Sys2Proof.Machine.execGangPlace lid gang s
  | .gangSetAside lid gang => Sys2Proof.Machine.execGangSetAside lid gang s
  | .gangRestore lid gang => Sys2Proof.Machine.execGangRestore lid gang s
  | .launchComplete lid => Sys2Proof.Machine.execLaunchComplete lid s
  | .stagedSetRelease bid => Sys2Proof.Machine.execStagedSetRelease bid s
  | .signatureCompare bid => Sys2Proof.Machine.execSignatureCompare bid s
  | .gangContainment lid gang err => Sys2Proof.Machine.execGangContainment lid gang err s
  | .dieFence die => Sys2Proof.Machine.execDieFence die s
  | .trapQueueRemove port => Sys2Proof.Machine.execTrapQueueRemove port s
  | .trapQueueReply port vals => Sys2Proof.Machine.execTrapQueueReply port vals s
  | .attach ports cmd => Sys2Proof.Machine.execAttach ports cmd s
  | .detach port cmd => Sys2Proof.Machine.execDetach port cmd s
  | .select port cmd => Sys2Proof.Machine.execSelect port cmd s
  | .halt port cmd => Sys2Proof.Machine.execHalt port cmd s
  | .debugResume port cmd => Sys2Proof.Machine.execDebugResume port cmd s
  | .step port cmd => Sys2Proof.Machine.execStep port cmd s
  | .stepDone gid => Sys2Proof.Machine.execStepDone gid s
  | .rdreg port cmd => Sys2Proof.Machine.execRdreg port cmd s
  | .wrreg port cmd => Sys2Proof.Machine.execWrreg port cmd s
  | .setbrk port cmd => Sys2Proof.Machine.execSetbrk port cmd s
  | .setwatch port cmd => Sys2Proof.Machine.execSetwatch port cmd s
  | .mailboxDataRead port ix => Sys2Proof.Machine.execMailboxDataRead port ix s
  | .eccWriteback gid part reg lanes double => Sys2Proof.Machine.execEccWriteback gid part reg lanes double s
  | .l2Fill pa err => Sys2Proof.Machine.execL2Fill pa err s
  | .hostAccess port pa wr data => Sys2Proof.Machine.execHostAccess port pa wr data s
  | .hswpcmd port vals => Sys2Proof.Machine.execHswpcmd port vals s
  | .sweepComplete idx => Sys2Proof.Machine.execSweepComplete idx s
  | .mcmdgo port die vals => Sys2Proof.Machine.execMcmdgo port die vals s
  | .migrationCopyDone die idx => Sys2Proof.Machine.execMigrationCopyDone die idx s
  | .accessResend idx => Sys2Proof.Machine.execAccessResend idx s
  | .fwcfgWrite port die ix vals => Sys2Proof.Machine.execFwcfgWrite port die ix vals s
  | .fwDisableDone die ix => Sys2Proof.Machine.execFwDisableDone die ix s
  | .poolDisable pool => Sys2Proof.Machine.execPoolDisable pool s
  | .ttcommit port vals => Sys2Proof.Machine.execTtcommit port vals s
  | .cgtdataWrite port vals => Sys2Proof.Machine.execCgtdataWrite port vals s
  | .uemodeWrite port vals => Sys2Proof.Machine.execUemodeWrite port vals s
  | .flitArrival port flit => Sys2Proof.Machine.execFlitArrival port flit s
  | .flitReorderDeliver port flow => Sys2Proof.Machine.execFlitReorderDeliver port flow s
  | .fabricAck flow upTo marked => Sys2Proof.Machine.execFabricAck flow upTo marked s
  | .retransmitTimeout flow seq => Sys2Proof.Machine.execRetransmitTimeout flow seq s
  | .fabricIncomingAccess src acc => Sys2Proof.Machine.execFabricIncomingAccess src acc s
  | .errCounterRead port die ix lasting => Sys2Proof.Machine.execErrCounterRead port die ix lasting s
  | .fwclampRead port die ix => Sys2Proof.Machine.execFwclampRead port die ix s
  | .fbdropRead port => Sys2Proof.Machine.execFbdropRead port s
  | .registerWrite ports offset val0 val1 => Sys2Proof.Machine.execRegisterWrite ports offset val0 val1 s
  | .portClock port => Sys2Proof.Machine.execPortClock port s
  | .linkRetry die good => Sys2Proof.Machine.execLinkRetry die good s
  | .unallocatedOpcode word => Sys2Proof.Machine.execUnallocatedOpcode word s
  | .mailboxErrRead port => Sys2Proof.Machine.execMailboxErrRead port s
  | .wordPairLatchRead port offset => Sys2Proof.Machine.execWordPairLatchRead port offset s
  | .undefinedDebugCommand port cmd => Sys2Proof.Machine.execUndefinedDebugCommand port cmd s
  | .undefinedLaunchCommand port val => Sys2Proof.Machine.execUndefinedLaunchCommand port val s
  | .resetRelease => Sys2Proof.Machine.execResetRelease s
  | .planTimeout => Sys2Proof.Machine.execPlanTimeout s
  | .joinStart => Sys2Proof.Machine.execJoinStart s
  | .planrdy => Sys2Proof.Machine.execPlanrdy s
  | .throttleBubble => Sys2Proof.Machine.execThrottleBubble s
  | .attestationDone => Sys2Proof.Machine.execAttestationDone s
  | .suspend => Sys2Proof.Machine.execSuspend s
  | .resume => Sys2Proof.Machine.execResume s
  | .cancel => Sys2Proof.Machine.execCancel s
  | .deviceReset => Sys2Proof.Machine.execDeviceReset s
  | .arithmeticClock => Sys2Proof.Machine.execArithmeticClock s

end Sys2Proof.Machine
end

