-- ==== Sys2Proof/Machine/Run.lean ====
section
/-! DEFINITION. Carrying out one action: an issue attempt, a second try of an entry parked before issue, or an event. -/

namespace Sys2Proof.Machine

open Sys2Proof

/-- What an issue attempt comes to. -/
def runPrep : Prep → Host.Outcome State Fault Refusal
  | .stay s => .next s
  | .run i s => exec i s

/-- An entry is parked before issue. -/
def parkedRetry (s : State) (gid eid : Nat) : Bool :=
  (((tget s.groups gid).bind fun g => tget g.entries eid).bind (·.park)) == some .retry
/-- Try an entry that is parked before issue (R370): it becomes eligible once its instruction would no longer park, and merges then
(R372). In trap mode only handler entries are tried (R283), of a halted group none (R294). -/
def tryWake (s : State) (gid eid : Nat) : State :=
  if !parkedRetry s gid eid then s
  else if ((tget s.groups gid).any fun g => (g.tm && !((tget g.entries eid).any (·.handler))) || (g.halted && g.stepping.isNone)) then s
  else
    let s1 := modGroup s gid fun g =>
      { modEntry g eid fun e => { e with park := none } with brkSkip := g.brkSkip || g.stepping == some eid }
    let woken := modGroup s1 gid fun g => if g.stepping.isSome then g else { g with entries := mergeEntries g.still g.entries }
    match (party? s1 gid).bind fun p => (tget p.g.entries eid).map fun e => issueEntry s1 p eid e with
    | some (.run i s2) => match exec i s2 with
      | .next s3 => if parkedRetry s3 gid eid then s else woken
      | _ => woken
    | _ => woken

/-- Carry out one action. An event that is not enabled takes no effect, and an instruction of a program is no event. -/
def runAct (s : State) (a : Act) : Host.Outcome State Fault Refusal :=
  match a with
  | .issue gid => runPrep (prepareGroup s gid)
  | .tile bid => runPrep (prepareTile s bid)
  | .wake gid eid => .next (tryWake s gid eid)
  | .event i =>
    if isEvent i then match exec i { s with cur := none } with
      | .next s' => .next s'
      | .fault _ => .next s
      | .refused r => .refused r
    else .next s

end Sys2Proof.Machine
end

