-- ==== Sys2Proof/Machine/Sched.lean ====
section
/-! DEFINITION. Who acts next when no input is given: the model's own fair scheduler over the machine's internal actions. The spec
fixes no order among them beyond what each one's own conditions say. -/

namespace Sys2Proof.Machine

open Sys2Proof

/-- The event that carries out a started command of an engine (R394, R411, R452). -/
def cmdEvent (gid q idx code : Nat) : List Act :=
  if code = 0x01 then [.event (.drain gid q idx)]
  else if code = 0x10 then [.event (.cset gid q idx)]
  else if code = 0x11 then [.event (.bready gid q idx)]
  else if code = 0x12 then [.event (.cfree gid q idx)]
  else if code = 0x00 then [.event (.uconf gid q idx)]
  else if code = 0x20 then [.event (.uinit gid q idx)]
  else if code = 0x21 then [.event (.ucommit gid q idx)]
  else if code = 0x22 then [.event (.uclean gid q idx)]
  else if code = 0x23 then [.event (.ufree gid q idx)]
  else []
/-- Actions of a group's queue registers. -/
def queueActs (gid : Nat) (g : Group) : List Act :=
  g.qs.flatMap fun r => Act.event (.engineCommandStart gid r.1) :: (r.2.cmds.zipIdx).flatMap fun c =>
    cmdEvent gid r.1 c.2 c.1.code ++ [Act.event (.engineCompletion gid r.1 c.2)]
/-- Actions of a group's entries. -/
def entryActs (gid : Nat) (g : Group) : List Act :=
  g.entries.flatMap fun e => match e.2.park with
    | some .retry => [Act.wake gid e.1]
    | some .marker => [Act.event (.switchMarkerRelease gid e.1)]
    | some .splitLate => [Act.event (.splitLateWake gid e.1)]
    | _ => []
/-- The barriers of a group's scopes whose arrivals it may be counted at. -/
def arrivalActs (gid : Nat) : List Act :=
  (List.range 4).map (fun n => Act.event (.groupArrivalCount gid .grp n))
    ++ (List.range 16).map (fun n => Act.event (.groupArrivalCount gid .blk n))
    ++ (List.range 8).map (fun n => Act.event (.groupArrivalCount gid .gang n))
    ++ (List.range 4).map (fun n => Act.event (.groupArrivalCount gid .grid n))
/-- The barriers of a scope that hold state. -/
def barActs (lv : Level) (scope : Nat) (bars : Table Bar) : List Act :=
  bars.map fun b => Act.event (.barrierInstanceComplete lv scope b.1)
def groupActs (gid : Nat) (g : Group) : List Act :=
  Act.issue gid :: entryActs gid g ++ (List.range g.inflight.length).map (fun i => Act.event (.variableLatencyReturn gid i))
    ++ [Act.event (.trapEntry gid), Act.event (.stepDone gid)] ++ queueActs gid g ++ arrivalActs gid
    ++ barActs .grp gid g.bars
/-- What is left to do for a group that has exited: its commands, and the flags of its atomics (R575). -/
def doneActs (gid : Nat) (g : Group) : List Act :=
  queueActs gid g ++ (List.range g.inflight.length).map fun i => Act.event (.variableLatencyReturn gid i)
def blockActs (bid : Nat) (b : Block) : List Act :=
  [Act.tile bid, Act.event (.matrixWritePoint bid), Act.event (.tmmanPassEnd bid), Act.event (.stagedSetRelease bid),
   Act.event (.signatureCompare bid)] ++ (List.range 4).map (fun q => Act.event (.copyStart bid q))
    ++ (List.range b.copies.length).map (fun i => Act.event (.copyComplete bid i)) ++ barActs .blk bid b.bars
def launchActs (s : State) (lid : Nat) (l : Launch) : List Act :=
  let idx := (gangsOf s lid).map fun g => g.2.index
  [Act.event (.launchAdmit lid), Act.event (.launchComplete lid)] ++ barActs .grid lid l.bars
    ++ (l.place.take 1).map (fun g => Act.event (.gangPlace lid g.1))
    ++ idx.map (fun i => Act.event (.gangSetAside lid i)) ++ idx.map fun i => Act.event (.gangRestore lid i)
/-- Actions of the device's own units. -/
def deviceActs (s : State) : List Act :=
  (List.range 16).map (fun q => Act.event (.launchTake q))
    ++ (List.range s.areqs.length).map (fun i => Act.event (.atomicTakeEffect (.one i)))
    ++ (List.range s.areqs.length).map (fun i => Act.event (.accessResend i))
    ++ (List.range s.sweeps.length).map (fun i => Act.event (.sweepComplete i))
    ++ (List.range 2).flatMap (fun d => (List.range s.migs.length).map fun i => Act.event (.migrationCopyDone d i))
    ++ s.flowsIn.map (fun f => Act.event (.flitReorderDeliver f.port f.flow))
    ++ s.poolOff.map (fun p => Act.event (.poolDisable p))
    ++ [Act.event .attestationDone, Act.event .arithmeticClock]

/-- The actions the machine may take on its own, each under a key; one that is not enabled has no effect. [log 5 DESIGN CHOICE] -/
def internalActs (s : State) : List (Nat × Act) :=
  let keyed (base : Nat) (l : List Act) : List (Nat × Act) := (l.zipIdx).map fun a => (base + a.2, a.1)
  let n := 2 ^ 16
  keyed 0 (deviceActs s)
    ++ s.launches.flatMap (fun l => keyed (n * (2 * l.1 + 1)) (launchActs s l.1 l.2))
    ++ s.gangs.flatMap (fun g => keyed (n * (2 * g.1 + 1)) (barActs .gang g.1 g.2.bars))
    ++ s.blocks.flatMap (fun b => keyed (n * (2 * b.1 + 1)) (blockActs b.1 b.2))
    ++ s.groups.flatMap fun g => keyed (n * (2 * g.1 + 1)) (if g.2.done then doneActs g.1 g.2 else groupActs g.1 g.2)

/-- Round robin: the lowest key above the last one taken, else the lowest (R38: no action is passed over without bound). -/
def pickAct (turn : Nat) (as : List (Nat × Act)) : Option (Nat × Act) :=
  let least (l : List (Nat × Act)) : Option (Nat × Act) := l.foldl (fun acc a => match acc with
    | none => some a
    | some b => if a.1 < b.1 then some a else some b) none
  match least (as.filter fun a => decide (turn < a.1)) with
  | some a => some a
  | none => least as

end Sys2Proof.Machine
end

