-- ==== Sys2Proof/Machine/Step.lean ====
section
/-! DEFINITION. One step of the machine, and the placing of one instruction where it is fetched next. -/

namespace Sys2Proof.Machine

/-- The next step: the next input of the agenda; without one, the machine's own next action; with neither, it idles.
[log 5 DESIGN CHOICE] -/
def step (s : State) : Host.Outcome State Fault Refusal :=
  match s.agenda with
  | a :: rest => runAct { s with agenda := rest } a
  | [] => match pickAct s.turn (internalActs s) with
    | some (k, a) => runAct { s with turn := k } a
    | none => .next s

/-- Place one instruction where the very next step fetches it: a launch of one group, loaded from outside as the log entry on
how a program comes to run says, with the word in slot 0 of its line. [log 6 DESIGN CHOICE] -/
def State.withFetchWord (s : State) (nbits w : Nat) : State := placeWord s (BitVec.ofNat 96 (w % 2 ^ nbits))

end Sys2Proof.Machine
end

