-- ==== Sys2Proof/Safety.lean ====
section
/-! DEFINITION. The terms claims are stated in: what it means that an instruction is ready to run, the operand forms of the lane
instructions and what such an instruction may change, and the invariants of the state. -/

namespace Sys2Proof.Machine

open Sys2Proof

/-- Nothing stands between the issue of an instruction and its own effect: the issuer `c`, which is not parked (R370), no FLT_REGION (R43, R154), every
register inside the launch's allocation (R157), no register or predicate pending (R172), and a guard that is not poisoned in a
lane that is no helper lane (R121). -/
structure Ready (s : State) (c : Ctx) (hd : Hd) (t : Touch) : Prop where
  issuer : ctx? s = some c
  unparked : c.e.park = none
  region : c.e.irr = true → t.rgn = true ∨ c.p.g.tm = true
  alloc : ∀ r ∈ t.vr ++ t.vw, r < c.p.l.rec0.regs
  vecFree : ∀ r ∈ t.vr ++ t.vw, pendingV c.p.g c.e.mask r = false
  predFree : ∀ r ∈ guardRegs hd.guard ++ (t.pr ++ t.pw), pendingP c.p.g c.e.mask r = false
  guardClean : ∀ n neg, hd.guard = .pred n neg → ∀ l ∈ lanesOf c.lanes, c.p.g.rdPP n l = false

/-- No trap enable of FPCR is set in an active lane that is no helper lane (R77, R165). -/
def NoEnables (c : Ctx) (hd : Hd) : Prop := ∀ l ∈ lanesOf (c.real hd), enables c.p.g l = 0

/-- The uniform registers an operand names. -/
def opndK : Opnd → List Nat
  | .k r => [r]
  | .kpair r => [r, r + 1]
  | _ => []

/-- The form of a lane instruction: its guard, source and destination operands, whether it runs once for the entry on uniform
registers (R183), whether its result has variable latency (R172), whether it can raise flags or take rounding words or draws,
whether a poisoned source poisons every destination (R160), whether it needs whole quads (R229) and whether it latches CYCH. -/
structure LaneForm where
  hd : Hd
  srcs : List Opnd
  dsts : List Opnd
  uniform : Bool := false
  late : Bool := false
  flags : Bool := false
  draws : Bool := false
  strict : Bool := true
  quad : Bool := false
  latch : Bool := false
deriving DecidableEq, Repr

namespace LaneForm

def touch (f : LaneForm) : Touch := if f.uniform then {} else touchOf f.srcs f.dsts
def vdst (f : LaneForm) : List Nat := f.dsts.flatMap Opnd.vregs
def pdst (f : LaneForm) : List Nat := f.dsts.flatMap Opnd.pregs
def kdst (f : LaneForm) : List Nat := f.dsts.flatMap opndK

end LaneForm

/-- Forms of format V by operand classes, and of format I (R124, R130). -/
def vForm (o : VOp) (d a b e : Cls) : LaneForm :=
  { hd := o.hd, srcs := [vopA o a, vopB o b, vopC o e], dsts := [vopD o d], uniform := o.oc == .uniform }
def iForm (o : IOp) (d a : Cls) : LaneForm :=
  { hd := o.hd, srcs := [iopA o a], dsts := [iopD o d], uniform := o.oc == .uniform }
/-- A rounding instruction on the sources given. -/
def fForm (o : VOp) (srcs : List Opnd) (D : Opnd) (late draws : Bool) : LaneForm :=
  { hd := o.hd, srcs := srcs, dsts := [D], late := late, flags := true, draws := draws }
def f1Form (o : VOp) (late draws : Bool) : LaneForm :=
  fForm o [vopA o (Cls.ofTy o.ty)] (vopD o (Cls.ofTy o.ty)) late draws
def f2Form (o : VOp) (late draws : Bool) : LaneForm :=
  fForm o [vopA o (Cls.ofTy o.ty), vopB o (Cls.ofTy o.ty)] (vopD o (Cls.ofTy o.ty)) late draws
def f2FormI (o : IOp) : LaneForm :=
  { hd := o.hd, srcs := [iopA o (Cls.ofTy o.ty), Opnd.imm (immVal o false)], dsts := [iopD o (Cls.ofTy o.ty)], flags := true,
    draws := true }
def cmpForm (hd : Hd) (minor d : Nat) (A B : Opnd) : LaneForm :=
  { hd := hd, srcs := [A, B], dsts := if minor < 8 then [Opnd.pred d] else [Opnd.pred d, Opnd.pred 47], flags := true }
def dotForm (o : VOp) : LaneForm := fForm o [Opnd.v o.a, vopB o .v, Opnd.v o.c] (Opnd.v o.d) false true
def sideForm (hd : Hd) (A D : Opnd) (Bs : List Opnd) (flags : Bool) : LaneForm :=
  { hd := hd, srcs := A :: Bs, dsts := [D], flags := flags }
def drawForm (o : VOp) (srcs : List Opnd) (late flags : Bool) : LaneForm :=
  { hd := o.hd, srcs := srcs, dsts := [Opnd.v o.d], late := late, flags := flags, draws := true }
def swapForm (hd : Hd) (srcs dsts : List Opnd) : LaneForm := { hd := hd, srcs := srcs, dsts := dsts, strict := false }
/-- SHFL's destinations: the value and, unless PV is 63, the predicate (R203). -/
def shflDsts (ty : Ty) (d fields : Nat) : List Opnd :=
  if shflPv fields = 63 then [clsOpnd (Cls.ofTy ty) d] else [clsOpnd (Cls.ofTy ty) d, Opnd.pred (shflPv fields)]

/-- The forms of the integer instructions. MOV to a uniform register, which consumes poison, is not among them. -/
def integerForm : Instr → Option LaneForm
  | .iadd o | .isub o | .imin o | .imax o => some (vForm o .v .v .v .zero)
  | .iaddI o | .isubI o => some (iForm o .v .v)
  | .imul o => some (vForm o (mulDest o.minor) .v .v .zero)
  | .imulI o => some (iForm o (mulDest o.minor) .v)
  | .imad o => some (vForm o (mulDest o.minor) .v .v (mulDest o.minor))
  | .iabs o | .ineg o | .popc o | .clz o | .ctz o | .brev o | .bfx o => some (vForm o .v .v .zero .zero)
  | .idiv o | .irem o => some { vForm o .v .v .v .zero with late := o.oc != .uniform }
  | .shl o | .shr o | .sar o => some (vForm o (Cls.ofTy o.ty) (Cls.ofTy o.ty) .v .zero)
  | .shlI o | .shrI o | .sarI o | .andI o | .orI o | .xorI o => some (iForm o (Cls.ofTy o.ty) (Cls.ofTy o.ty))
  | .shf o | .lop3 o | .bperm o | .dp8 o | .dp4 o => some (vForm o .v .v .v .v)
  | .and o | .or o | .xor o => some (vForm o (Cls.ofTy o.ty) (Cls.ofTy o.ty) (Cls.ofTy o.ty) .zero)
  | .not o => some (vForm o (Cls.ofTy o.ty) (Cls.ofTy o.ty) .zero .zero)
  | .bfi o => some (vForm o .v .v .v .zero)
  | .sel o => some { hd := o.hd, srcs := [vopA o (Cls.ofTy o.ty), vopB o (Cls.ofTy o.ty), Opnd.pred (o.ext % 64)],
                     dsts := [vopD o (Cls.ofTy o.ty)] }
  | .iset o => some (vForm o .pred (Cls.ofTy o.ty) (Cls.ofTy o.ty) .zero)
  | .mov o =>
    if o.minor = 4 then none
    else if o.oc == .uniform then some (vForm o (Cls.ofTy o.ty) (Cls.ofTy o.ty) .zero .zero)
    else some { hd := o.hd, srcs := [clsOpnd (if o.minor = 2 then (Cls.ofTy o.ty).toUniform else Cls.ofTy o.ty) o.a],
                dsts := [clsOpnd (Cls.ofTy o.ty) o.d] }
  | .movi o => some (iForm o (Cls.ofTy o.ty) .zero)
  | .cvt o => some (vForm { o with c := 0 } (Cls.ofTy o.ty) (Cls.ofTy (Ty.ofCode (cvtStype o.c))) .zero .zero)
  | .lea o => some (vForm o .pair .pair .v .zero)
  | .iadd64 o => some (vForm o .pair .pair .pair .zero)
  | .unpk o => some { hd := o.hd, srcs := [Opnd.v o.a], dsts := [Opnd.pair o.d], flags := true }
  | .pack o => some { hd := o.hd, srcs := if o.ty == .t5 then [Opnd.pair o.a, Opnd.v o.d] else [Opnd.pair o.a],
                      dsts := [Opnd.v o.d], flags := true }
  | _ => none

/-- The forms of the floating-point instructions. -/
def floatForm : Instr → Option LaneForm
  | .fadd o | .fsub o | .fmul o => some (f2Form o false true)
  | .faddI o | .fsubI o | .fmulI o => some (f2FormI o)
  | .fma o => some (fForm o [vopA o (Cls.ofTy o.ty), vopB o (Cls.ofTy o.ty), vopC o (Cls.ofTy o.ty)]
      (vopD o (Cls.ofTy o.ty)) false true)
  | .fmin o | .fmax o => some (f2Form o false false)
  | .fabs o | .fneg o | .fclass o => some { f1Form o false false with flags := false }
  | .fcmp o => some (cmpForm o.hd o.minor o.d (vopA o (Cls.ofTy o.ty)) (vopB o (Cls.ofTy o.ty)))
  | .fcmpI o => some (cmpForm o.hd o.minor o.d (iopA o (Cls.ofTy o.ty)) (Opnd.imm (immVal o false)))
  | .fdiv o => some (f2Form o true false)
  | .fsqrt o | .frcp o | .frsq o | .fexp2 o | .flog2 o | .fsin2pi o | .fcos2pi o => some (f1Form o true false)
  | .frnd o => some (f1Form o false true)
  | .cvtF o => some (fForm o (if decide (o.ty.bits < (Ty.ofCode (cvtStype o.c)).bits)
      then [clsOpnd (Cls.ofTy (Ty.ofCode (cvtStype o.c))) o.a, clsOpnd (Cls.ofTy o.ty) o.d]
      else [clsOpnd (Cls.ofTy (Ty.ofCode (cvtStype o.c))) o.a]) (clsOpnd (Cls.ofTy o.ty) o.d) false true)
  | .fscale o => some (fForm o [vopA o (Cls.ofTy o.ty), vopB o .v] (vopD o (Cls.ofTy o.ty)) false true)
  | .dp8F o | .dp4F o => some (dotForm o)
  | _ => none

/-- The forms of the instructions on sidecars and random values. SCTR, which consumes poison, is not among them. -/
def sidecarForm : Instr → Option LaneForm
  | .dvar o | .dstd o => some { hd := o.hd, srcs := [Opnd.v o.a], dsts := [Opnd.v o.d] }
  | .dset o => some (sideForm o.hd (distOpnd o.minor o.a) (distOpnd o.minor o.d) [vopB o .v] true)
  | .dsetI o => some (sideForm o.hd (distOpnd o.minor o.a) (distOpnd o.minor o.d) [.imm o.imm.toNat] true)
  | .dtag o => some (sideForm o.hd (distOpnd o.minor o.a) (distOpnd o.minor o.d) [vopB o .v] false)
  | .dtagI o => some (sideForm o.hd (distOpnd o.minor o.a) (distOpnd o.minor o.d) [.imm o.imm.toNat] false)
  | .dclr o => some (sideForm o.hd (distOpnd o.minor o.a) (distOpnd o.minor o.d) [] false)
  | .sample o => some (drawForm o [Opnd.v o.a] false true)
  | .gumb o => some (drawForm o [Opnd.v o.a] true true)
  | .rndu o => some (drawForm o [] false false)
  | .rndn o => some (drawForm o [] true false)
  | _ => none

/-- The forms of the instructions that exchange values between lanes, and of SRD. -/
def exchangeForm : Instr → Option LaneForm
  | .qmean o | .qvar o => some { swapForm o.hd [clsOpnd (Cls.ofTy o.ty) o.a] [clsOpnd (Cls.ofTy o.ty) o.d] with
      flags := true, quad := true }
  | .shfl o => some (swapForm o.hd [clsOpnd (Cls.ofTy o.ty) o.a, Opnd.v o.b] (shflDsts o.ty o.d o.ext))
  | .shflI o => some (swapForm o.hd [clsOpnd (Cls.ofTy o.ty) o.a] (shflDsts o.ty o.d (fieldOf o.imm 8 9)))
  | .vote o => some (swapForm o.hd [Opnd.pred o.a]
      [if o.minor < 4 then Opnd.pred o.d else if o.minor = 4 then Opnd.pair o.d else Opnd.v o.d])
  | .matchLanes o => some (swapForm o.hd [clsOpnd (Cls.ofTy o.ty) o.a]
      [if o.minor = 0 then Opnd.pair o.d else if o.minor = 2 then Opnd.pred o.d else Opnd.v o.d])
  | .qswap o | .qbcast o => some (swapForm o.hd [clsOpnd (Cls.ofTy o.ty) o.a] [clsOpnd (Cls.ofTy o.ty) o.d])
  | .qred o => some (swapForm o.hd [Opnd.v o.a] [Opnd.v o.d])
  | .srd o => some { swapForm o.hd [] [iopD o .v] with latch := o.imm.toNat == 0x18 }
  | _ => none

/-- The form of every lane instruction. -/
def laneForm (i : Instr) : Option LaneForm :=
  (integerForm i).or ((floatForm i).or ((sidecarForm i).or (exchangeForm i)))

/-- The group after its issuing entry has moved on and its other entries have merged with it where they can (R372, R378). -/
def Ctx.movedOn (c : Ctx) (irr : Bool) : Table Entry :=
  mergeEntries c.p.g.tm (tmod c.p.g.entries c.eid fun e => { e with pc := nextPc e.pc, irr := irr })

/-- A group without what a lane instruction may write: two groups are alike here when every other field agrees. -/
def laneRest (g : Group) : Group :=
  { g with entries := [], v := [], vp := [], side := [], p := [], pp := [], k := [], fpsr := [], drc := [], src := [], sri := [],
           cych := 0, inflight := [] }

/-- What a lane instruction of a form may change in its group: the entry moves on; only destination registers of active lanes, of
a fixed-latency result, are written (a result of variable latency is put in flight with its destinations pending); flags are only
added, in active lanes of an instruction that raises flags; streams advance only in active lanes of an instruction that draws;
everything else of the group stays. -/
structure LaneFrame (f : LaneForm) (c : Ctx) (g' : Group) : Prop where
  rest : laneRest g' = laneRest c.p.g
  entries : g'.entries = c.movedOn false
  vec : ∀ r l, l < 64 → ¬ (f.late = false ∧ r ∈ f.vdst ∧ bitOf (c.active f.hd) l = true) →
    g'.rdV r l = c.p.g.rdV r l ∧ g'.rdVP r l = c.p.g.rdVP r l ∧ g'.rdSide r l = c.p.g.rdSide r l
  pred : ∀ r l, l < 64 → ¬ (f.late = false ∧ r ∈ f.pdst ∧ bitOf (c.active f.hd) l = true) →
    g'.rdP r l = c.p.g.rdP r l ∧ g'.rdPP r l = c.p.g.rdPP r l
  uni : ∀ r, ¬ (f.late = false ∧ r ∈ f.kdst) → g'.rdK r = c.p.g.rdK r
  quiet : ∀ l, l < 64 → (f.flags = false ∨ f.late = true ∨ bitOf (c.active f.hd) l = false) → g'.rdFpsr l = c.p.g.rdFpsr l
  sticky : ∀ l, c.p.g.rdFpsr l &&& ~~~ g'.rdFpsr l = 0
  streams : ∀ l, l < 64 → (f.draws = false ∨ bitOf (c.active f.hd) l = false) →
    cget 0 g'.drc l = cget 0 c.p.g.drc l ∧ cget 0 g'.src l = cget 0 c.p.g.src l ∧ cget 0 g'.sri l = cget 0 c.p.g.sri l
  cycle : f.latch = false → g'.cych = c.p.g.cych
  flight : if f.late = true then
      ∃ x, g'.inflight = c.p.g.inflight ++ [x] ∧ x.vregs = f.vdst ∧ x.pregs = f.pdst ∧ x.lanes = c.active f.hd ∧ x.ready = true
    else g'.inflight = c.p.g.inflight

/-- A machine that differs from `s` in one group only. -/
def withGroup (s : State) (gid : Nat) (g : Group) : State := { s with groups := tset s.groups gid g }

/-! How results are stated: the numbers operands hold, read and reduced as R60, R63 and R180 say. -/

/-- The low w bits of a number, read unsigned or in two's complement (R60). -/
def readAs (uns : Bool) (w n : Nat) : Int := if uns then ((BitVec.ofNat w n).toNat : Int) else (BitVec.ofNat w n).toInt
/-- An exact result reduced to w bits: wrapped, or clamped to the ends of the format's range (R180). -/
def fitAs (uns sat : Bool) (w : Nat) (x : Int) : Nat :=
  let lo : Int := if uns then 0 else -2 ^ (w - 1)
  let hi : Int := if uns then 2 ^ w - 1 else 2 ^ (w - 1) - 1
  (BitVec.ofInt w (if sat then max lo (min hi x) else x)).toNat
/-- Element i of width w (R63). -/
def piece (w i n : Nat) : Nat := n / 2 ^ (w * i) % 2 ^ w
/-- A 32-bit value whose element i of width w is `f i`. -/
def Pieces (w v : Nat) (f : Nat → Nat) : Prop := ∀ i, i < 32 / w → piece w i v = f i
/-- The order of FP32 bit patterns that are no NaN: the two zeros equal, or -0 below +0. -/
def fpKey (x : Nat) : Int := if x < 2 ^ 31 then (x : Int) else -((x : Int) - 2 ^ 31)
def fpKeyZ (x : Nat) : Int := if x < 2 ^ 31 then (x : Int) else -((x : Int) - 2 ^ 31) - 1
/-- The sidecar of a point, where there are sidecars (R90, R181). -/
def PointSide (c : Ctx) (sd : Word) : Prop := c.p.dist = true → sd = 0

/-- A lane instruction of a form, ready and with no trap enable set, answers a next state in which its group alone has changed,
within the frame; in every active lane whose sources are not poisoned its destination is not poisoned, and `R` says its value and
sidecar. Under `.k` it runs once, where an active lane is no helper lane (R183). -/
def Results (i : Instr) (f : LaneForm) (D : Opnd) (R : Ctx → Nat → Nat → Word → Prop) : Prop :=
  ∀ s c, Ready s c f.hd f.touch → NoEnables c f.hd → (f.quad = true → divergent c (c.active f.hd) = 0) →
    ∃ g', exec i s = .next (withGroup s c.gid g') ∧ LaneFrame f c g' ∧
      (f.uniform = false → ∀ l, l < 64 → bitOf (c.active f.hd) l = true → (∀ o ∈ f.srcs, o.poison c.p.g l = none) →
        R c l (D.val g' l) (D.side g' l) ∧ D.poison g' l = none) ∧
      (f.uniform = true → c.real f.hd ≠ 0 → R c 0 (D.val g' 0) 0)

/-- The same of an instruction of variable latency: its result is put in flight, and `R` says what it delivers when it returns
(R172). -/
def LateResults (i : Instr) (f : LaneForm) (D : Opnd) (R : Ctx → Nat → Nat → Word → Prop) : Prop :=
  ∀ s c, Ready s c f.hd f.touch → NoEnables c f.hd →
    ∃ g' x, exec i s = .next (withGroup s c.gid g') ∧ LaneFrame f c g' ∧ g'.inflight = c.p.g.inflight ++ [x] ∧
      ∀ l, l < 64 → bitOf (c.active f.hd) l = true → (∀ o ∈ f.srcs, o.poison c.p.g l = none) →
        R c l (D.val (deliverOne c.p.dist g' x) l) (D.side (deliverOne c.p.dist g' x) l) ∧
          D.poison (deliverOne c.p.dist g' x) l = none

/-- RESULTS of an instruction of format V by operand classes: `R` relates the values of A, B and C to the value D holds, and D's
sidecar is a point's (R181). -/
def VRes (i : Instr) (o : VOp) (d a b e : Cls) (R : Nat → Nat → Nat → Nat → Prop) : Prop :=
  i.wf = true → Results i (vForm o d a b e) (vopD o d) fun c l x sd =>
    PointSide c sd ∧ R ((vopA o a).val c.p.g l) ((vopB o b).val c.p.g l) ((vopC o e).val c.p.g l) x
/-- The same of format I: `R` relates the value of A and D's new value. -/
def IRes (i : Instr) (o : IOp) (d a : Cls) (R : Nat → Nat → Prop) : Prop :=
  i.wf = true → Results i (iForm o d a) (iopD o d) fun c l x sd => PointSide c sd ∧ R ((iopA o a).val c.p.g l) x
/-- What a rule says of the words of an instruction of format V: its major opcode (bits 87 to 79, R120), and the formats, minor codes
and operand classes it takes, all of which some word of it has. -/
def VWords (mk : VOp → Instr) (op : Nat) (tys : List Ty) (minors : List Nat) (ocs : List Oc) : Prop :=
  (∀ o, (mk o).wf = true → fieldOf (encode (mk o)) 79 9 = op ∧ o.ty ∈ tys ∧ o.minor ∈ minors ∧ o.oc ∈ ocs) ∧
    ∀ t ∈ tys, ∀ m ∈ minors, ∀ k ∈ ocs, ∃ o, (mk o).wf = true ∧ o.ty = t ∧ o.minor = m ∧ o.oc = k
/-- The same of format I. -/
def IWords (mk : IOp → Instr) (op : Nat) (tys : List Ty) (minors : List Nat) (ocs : List Oc) : Prop :=
  (∀ o, (mk o).wf = true → fieldOf (encode (mk o)) 79 9 = op ∧ o.ty ∈ tys ∧ o.minor ∈ minors ∧ o.oc ∈ ocs) ∧
    ∀ t ∈ tys, ∀ m ∈ minors, ∀ k ∈ ocs, ∃ o, (mk o).wf = true ∧ o.ty = t ∧ o.minor = m ∧ o.oc = k
/-- Every lane instruction of a family of forms completes within its frame. -/
def Frames (form : Instr → Option LaneForm) : Prop :=
  ∀ i f, i.wf = true → form i = some f → ∀ s c, Ready s c f.hd f.touch → NoEnables c f.hd →
    (f.quad = true → divergent c (c.active f.hd) = 0) →
      ∃ g', exec i s = .next (withGroup s c.gid g') ∧ LaneFrame f c g'

/-- The issuer's group changed by `f`, its entry moved on to the next instruction, and nothing else (R378). -/
def Ctx.goesOn (c : Ctx) (s : State) (irr : Bool) (f : Group → Group) : State :=
  withGroup s c.gid { f c.p.g with entries := c.movedOn irr }

/-! How control flow is stated. -/

/-- A group without its frontier. -/
def frontierRest (g : Group) : Group := { g with entries := [], nextEid := 0 }

/-- A lane of a group stands at a pc, in an entry that has the region start and the flags of `e`. -/
def Stands (g : Group) (l : Nat) (pc : DWord) (e : Entry) : Prop :=
  ∃ x ∈ g.entries, bitOf x.2.mask l = true ∧ x.2.pc = pc ∧ x.2.rstart = e.rstart ∧ x.2.handler = e.handler ∧ x.2.counted = e.counted

/-- Each lane of the issuing entry goes where `dst` says, or on to the next instruction; lanes of other entries stay (R378). -/
def LanesGo (c : Ctx) (g' : Group) (dst : Nat → Option DWord) : Prop :=
  (∀ l, l < 64 → bitOf c.e.mask l = true → Stands g' l ((dst l).getD (nextPc c.e.pc)) c.e) ∧
    ∀ x ∈ c.p.g.entries, x.1 ≠ c.eid → ∀ l, bitOf x.2.mask l = true → Stands g' l x.2.pc x.2

/-- Reading target lines changes only translations held, the lines L2 holds and error counts. -/
def LooksUp (s s1 : State) : Prop := s1 = { s with coreTlb := s1.coreTlb, dieTlb := s1.dieTlb, l2 := s1.l2, hreg := s1.hreg }

/-- Lanes of a group that are parked at the JOIN at a pc or have exited (R382). -/
def joinedAt (g : Group) (pc : DWord) : LaneMask :=
  (g.entries.filter fun x => x.2.park == some .join && x.2.pc == pc).foldl (fun m x => m ||| x.2.mask) g.exited

/-- The rejoin stack that is left once records have been released whose JOINs stood at the pcs `past`: an outer record goes too while the
lanes that exited, and those parked at its JOIN, cover its mask (R382). -/
def stackLeft (g : Group) : List DWord → List Rejoin → List Rejoin
  | _, [] => []
  | past, t :: rest =>
    if t.mask &&& ~~~(if past.contains t.pc then g.exited else joinedAt g t.pc) = 0 then stackLeft g (t.pc :: past) rest else t :: rest

/-! How accesses to memory are stated. -/

/-- No earlier access of the group is outstanding and no watchpoint can cover one (R298, R328). -/
def Undisturbed (s : State) (c : Ctx) : Prop := (∀ r ∈ s.areqs, r.gid ≠ c.gid) ∧ c.p.l.attached = none
/-- Reads and writes of the sidecar form (R331). -/
def sideOf (o : MOp) : Bool := o.sub % 2 == 1
/-- What the checks of R324 find for a lane of an access. -/
def fateOf (s : State) (c : Ctx) (o : MOp) (side : Bool) (need : Need) (l : Nat) : Fate :=
  checkLane s c (some l) o.space (memAddr o c.p.g l) (moveBytes o side) (moveAlign o side) need
/-- What they find for each lane beside the others, too: before stage B no lane takes the room in the caches that another needs (R556); later
there is no such limit. -/
def EachAlone (s : State) (c : Ctx) (o : MOp) (side : Bool) (need : Need) (ls : List Nat) : Prop :=
  ∀ x ∈ laneFates s c o side need ls, x.2 = fateOf s c o side need x.1
/-- A lane's access raises a fault, or has no translation. -/
def Fate.faults : Fate → Bool
  | .bad _ _ => true
  | _ => false
def Fate.lacks : Fate → Bool
  | .xfail _ _ => true
  | _ => false
/-- A lane's access can be performed or sent: no fault, no failed translation. -/
abbrev Fate.passes (f : Fate) : Prop := (f.faults || f.lacks) = false

/-- A lane of a load finds the bytes `bs`: in the scratchpad, or in one line of plain storage, of which the core's L1 holds no other
copy (R307, R312, R341). -/
def LoadSees (s : State) (c : Ctx) (o : MOp) (l : Nat) (bs : List Byte) : Prop :=
  let n := moveBytes o (sideOf o)
  (memAddr o c.p.g l).toNat % moveAlign o (sideOf o) = 0 ∧
  ((∃ bid x b, locate s c.p (some l) o.space (memAddr o c.p.g l) n .read = .ok (.sp bid x, none) ∧ tget s.blocks bid = some b ∧
      absentLine s bid x n = false ∧ tgtBad s (.sp bid x) n = false ∧ bs = b.rdSp x n) ∨
   (∃ k off, locate s c.p (some l) o.space (memAddr o c.p.g l) n .read = .ok (.line (.plain k) off, none) ∧ off + n ≤ 128 ∧
      c.p.b.staged = [] ∧ tgtClosed s (.line (.plain k) off) = false ∧ s.badLines.contains k = false ∧ bs = s.rdMem (k + off) n ∧
      ∀ x ∈ l1Of s c.core, x.asid = c.p.l.rec0.asid → x.vline = vaOf c o.space (memAddr o c.p.g l) / 128 → x.line = k →
        x.bytes = s.rdMem k 128 ∧ x.bad = []))
/-- A load's lanes wait for no line: none that it touches is absent, or it is a `.split` load, whose lanes run on their own (R310, R332). -/
def NoneAbsent (s : State) (c : Ctx) (o : MOp) : Prop :=
  o.split = true ∨ ∀ q ∈ lanesOf (c.active o.hd), (memBase o).poison c.p.g q = none → ∀ ps h,
    fateOf s c o (sideOf o) .read q = .hit ps h → ∀ x ∈ ps, tgtAbsent s x.1 x.2 = false
/-- No lower active lane touches a lane's line, which it would bring into L1 first. -/
def FirstTouch (c : Ctx) (o : MOp) (l : Nat) : Prop :=
  ∀ q, q < l → bitOf (c.active o.hd) q = true →
    let a := vaOf c o.space (memAddr o c.p.g q)
    a / 128 ≠ vaOf c o.space (memAddr o c.p.g l) / 128 ∧
      (a + moveBytes o (sideOf o) - 1) / 128 ≠ vaOf c o.space (memAddr o c.p.g l) / 128
/-- Register i of what a load delivers from the bytes it read (R322). -/
def loadedWord (o : MOp) (bs : List Byte) (i : Nat) : Word :=
  if o.size = .s8 then ((BitVec.ofNat 8 (ofBytes bs)).signExtend 32 : Word)
  else if o.size = .s16 then ((BitVec.ofNat 16 (ofBytes bs)).signExtend 32 : Word)
  else BitVec.ofNat 32 (ofBytes ((bs.drop (4 * i)).take 4))
/-- Its sidecar (R331): of a pair, only the lower register has one. -/
def loadedSide (o : MOp) (bs : List Byte) (i : Nat) : Word :=
  if sideOf o = true ∧ ¬(o.size.regs = 2 ∧ i = 1) then BitVec.ofNat 32 (ofBytes ((bs.drop (4 * (o.size.regs + i))).take 4)) else 0

/-- Where a lane of a store puts its bytes, when that is at this device. -/
def storeTgt (s : State) (c : Ctx) (o : MOp) (l : Nat) : Option Tgt :=
  match locate s c.p (some l) o.space (memAddr o c.p.g l) (moveBytes o (sideOf o)) .write with
  | .ok x => match land s x .write with
    | .here t => some t
    | _ => none
  | .error _ => none
/-- The bytes of storage that a write of n bytes at a target can change: of a windowed line, its whole image and its scale (R501). -/
def tgtBytes (s : State) (t : Tgt) (n a : Nat) : Prop :=
  match t with
  | .line (.plain k) off => k + off ≤ a ∧ a < k + off + n
  | .line (.view k sk d w) _ => (k ≤ a ∧ a < k + 4 * (fwTy s d w).bits) ∨ sk = some a
  | _ => False

/-- An atomic instruction has left as the requests `rs`, whose replacement classes are left open (R316, R323, R335): memory and scratchpads
are as before, and the group has the result in flight. The region of an irrevocable instruction (`irr`) commits when they are performed;
at once when there is none, or for an atomic in fabric space (R42, R44). -/
def Left (s : State) (c : Ctx) (o : MOp) (irr : Bool) (vregs : List Nat) (rs : List AReq) (t : State) : Prop :=
  let held := irr = true ∧ c.p.g.tm = false ∧ rs ≠ [] ∧ (o.space ≠ .fabric ∨ ∀ r ∈ rs, r.kind ≠ 0)
  ∃ g' x rs', tget t.groups c.gid = some g' ∧ t.mem = s.mem ∧ t.blocks = s.blocks ∧ t.areqs = s.areqs ++ rs' ∧
    rs'.map (fun r => { r with cls := 0, cls2 := 0 }) = rs ∧
    g' = { c.p.g with entries := g'.entries, inflight := c.p.g.inflight ++ [x], fpsr := g'.fpsr, snapDrc := g'.snapDrc,
                      snapSrc := g'.snapSrc, snapSri := g'.snapSri, rtime := g'.rtime, guardRep := g'.guardRep,
                      lastPage := g'.lastPage } ∧
    (∀ l, l < 64 → bitOf c.e.mask l = true →
      (held → Stands g' l (nextPc c.e.pc) c.e) ∧
      (¬ held → Stands g' l (nextPc c.e.pc) (if irr = true ∧ c.p.g.tm = false then { c.e with rstart := nextPc c.e.pc } else c.e))) ∧
    (held → ∃ d, x.commit = some (c.e.mask, nextPc c.e.pc, d)) ∧ (¬ held → x.commit = none) ∧
    x.vregs = vregs ∧ x.lanes = c.active o.hd ∧ x.req = s.nextId ∧ x.ready = rs.isEmpty ∧ x.writes = []

/-- The registers DCAS and AMOV name: address, second address, `args` operands, `vals` results (R337). -/
def twoTouch (o : MOp) (args vals : Nat) : Touch :=
  { vr := (memBase o).vregs ++ (List.range (2 + args * o.size.regs)).map fun j => o.b + j,
    vw := (List.range (vals * o.size.regs)).map fun j => o.d + j, irr := true }

/-- Nothing DCAS or AMOV reads is poisoned, and no check of its two addresses fails (R324, R337). -/
def TwoClean (s : State) (c : Ctx) (o : MOp) (args : Nat) : Prop :=
  ∀ l ∈ lanesOf (c.real o.hd), (∀ x ∈ memBase o :: ((List.range (2 + args * o.size.regs)).map fun j => o.b + j).map Opnd.v,
    x.poison c.p.g l = none) ∧ twoFaults s c o l = []
/-- Their requests, one for each lane, with `args` operands (R337). -/
def twoReqs (s : State) (c : Ctx) (o : MOp) (kind args : Nat) : List AReq :=
  (lanesOf (c.real o.hd)).map fun l =>
    ⟨s.nextId, c.gid, l, kind, 0, 0, o.size.bytes, o.space, memAddr o c.p.g l, secondAddr c.p.g o l,
     (List.range args).map fun j => operand c.p.g o (o.b + 2) l j, true, o.d, false, false, 0, 0, true, []⟩

/-- The new value of a location under an integer atomic, from its old value and the operands (R335). -/
def atomNew (op ty w old b b2 : Nat) : Nat :=
  match op with
  | 0 => (old + b) % 2 ^ w
  | 1 => (old + (2 ^ w - b)) % 2 ^ w
  | 2 => if readAs (ty == 1) w b < readAs (ty == 1) w old then b else old
  | 3 => if readAs (ty == 1) w old < readAs (ty == 1) w b then b else old
  | 4 => old &&& b
  | 5 => old ||| b
  | 6 => old ^^^ b
  | 7 => b
  | 8 => if old = b then b2 else old
  | 9 => if b ≤ old then 0 else old + 1
  | 10 => if old = 0 ∨ b < old then b else old - 1
  | _ => if old < b then b else old
/-- A request that can take effect now: nothing of its group comes before it, no line its instruction touches is absent (R310), and it
was not returned. -/
def Acts (s : State) (i : Nat) (r : AReq) : Prop :=
  s.areqs[i]? = some r ∧ r.closed = false ∧ reqBehind s r = false ∧ reqAbsent s r = false
/-- An address of a request lands in one line of plain storage, in order, at the key given. -/
def LandsPlain (s : State) (r : AReq) (addr : DWord) (a : Nat) : Prop :=
  ∃ k off, reqLand s r addr = .here (.line (.plain k) off) ∧ a = k + off ∧ off + r.size ≤ 128 ∧
    tgtClosed s (.line (.plain k) off) = false ∧ s.badLines.contains k = false
/-- What a request returns reaches every in-flight result that waits for it (R335). -/
def Returned (s t : State) (r : AReq) (ws : List Dest) : Prop :=
  ∀ gid g x, tget s.groups gid = some g → x ∈ g.inflight → x.req = r.id → bitOf x.lanes r.lane = true →
    ∃ g' x', tget t.groups gid = some g' ∧ x' ∈ g'.inflight ∧ x' = { x with writes := x'.writes, flags := x'.flags, ready := x'.ready } ∧
      (∀ w ∈ x.writes, w ∈ x'.writes) ∧ (r.ret = true → ∀ w ∈ ws, w ∈ x'.writes)
/-- Memory changes only in n bytes from an address, which then hold the number v. -/
def Puts (s t : State) (ps : List (Nat × Nat × Nat)) : Prop :=
  (∀ p ∈ ps, ofBytes (t.rdMem p.1 p.2.1) = p.2.2) ∧
    ∀ a, (∀ p ∈ ps, ¬(p.1 ≤ a ∧ a < p.1 + p.2.1)) → cget memDefault t.mem a = cget memDefault s.mem a

/-! How instructions that act once for their entry are stated. -/

/-- The entry moves on past an irrevocable instruction and its region is committed (R44); in trap mode there is no region (R284).
Besides that the group is `f`. -/
def EndsRegion (c : Ctx) (f g' : Group) : Prop :=
  g' = { f with entries := g'.entries, snapDrc := g'.snapDrc, snapSrc := g'.snapSrc, snapSri := g'.snapSri, rtime := g'.rtime } ∧
    ∀ l, l < 64 → bitOf c.e.mask l = true →
      Stands g' l (nextPc c.e.pc) (if c.p.g.tm = true then c.e else { c.e with rstart := nextPc c.e.pc })

/-- What an attempt leaves that ends before its instruction has issued (R370, R373, R385): the group is `g`, with the ages, the entry that
issued last and the one that stands back as they were when the attempt began, and so are the performance counts. -/
def Unissued (s t : State) (c : Ctx) (g : Group) : Prop :=
  let flat (es : Table Entry) : Table Entry := es.map fun e => (e.1, { e.2 with age := 0 })
  ∃ g', t = { withGroup s c.gid g' with pass := none, pmc := t.pmc, tally := t.tally } ∧
    g' = { g with entries := g'.entries, lastEid := g'.lastEid, yielded := g'.yielded } ∧ flat g'.entries = flat g.entries ∧
    (s.pass = none → g' = g ∧ t.pmc = s.pmc ∧ t.tally = s.tally) ∧
    ∀ x, s.pass = some x → t.pmc = x.pmc ∧ t.tally = x.tally ∧ g'.lastEid = x.last ∧ g'.yielded = x.yielded ∧
      ∀ e ∈ g'.entries, ∀ a, tget x.ages e.1 = some a → e.2.age = a
/-- The issuing entry parks before issue (R370). -/
def Parks (s t : State) (c : Ctx) (k : Park) : Prop :=
  Unissued s t c { c.p.g with entries := tset c.p.g.entries c.eid { c.e with park := some k } }

/-- A command or a slice enters a queue register as the newest, counted on a counter when one is named (R359, R388, R389). -/
def Enters (c : Ctx) (q : Nat) (oc : Option Nat) (g' : Group) (x : Cmd) : Prop :=
  qreg g' q = { qreg c.p.g q with cmds := (qreg c.p.g q).cmds ++ [x], pushes := (qreg c.p.g q).pushes + 1 } ∧
    (∀ k, k ≠ q → qreg g' k = qreg c.p.g k) ∧
    (∀ n, cget 0 g'.oc n = if oc = some n then cget 0 c.p.g.oc n + 1 else cget 0 c.p.g.oc n) ∧
    x.seq = (qreg c.p.g q).pushes ∧ x.oc = oc ∧ x.started = false ∧ x.result = none
/-- A register takes a push (R122, R359, R388). -/
def TakesPush (c : Ctx) (q : Nat) (oc ring : Option Nat) : Prop :=
  c.p.g.tm = false ∧ q < 12 ∧ (unstarted (qreg c.p.g q)).length < 8 ∧ (∀ n, oc = some n → cget 0 c.p.g.oc n < 65535) ∧
    ∀ k, ring = some k → ringOf c.p k ≠ none

/-- TLBINV: a sweep starts, of a page or of the whole ASID, counted on oc7 (R482). -/
def sweepFrom (s : State) (c : Ctx) (va : Option Nat) : State :=
  c.goesOn { s with sweeps := s.sweeps ++ [⟨c.p.l.rec0.asid, va, some c.gid, cget 0 c.p.g.ocIssued 7⟩] } false fun g =>
    { g with oc := cset 0 g.oc 7 (cget 0 g.oc 7 + 1), ocIssued := cset 0 g.ocIssued 7 (cget 0 g.ocIssued 7 + 1) }
/-- The space RBIND and RUNBIND name (R353). -/
def namedSpace (n : Nat) : BindSpace := if n = 0 then .global else if n = 1 then .scratch else .fabric
/-- RBIND's status (R353): 4 no range, 3 a level the launch has not, 2 an overlap with another binding, 1 a full table, 0 done. -/
def bindCode (l : Launch) (b : Binding) : Nat :=
  let r := l.rec0
  if b.len = 0 ∨ (b.space = .global ∧ 2 ^ 56 < b.base + b.len) ∨ (b.space = .scratch ∧ 2 ^ 32 < b.base + b.len) ∨
    (b.space = .fabric ∧ (b.base + b.len - 1) % 2 ^ 64 / 2 ^ 50 ≠ b.base / 2 ^ 50) then 4
  else if (b.level = .grid ∧ r.prog ≠ .concurrent) ∨
    (b.space ≠ .scratch ∧ (b.level = .grp ∨ b.level = .blk) ∧ (r.det = true ∨ r.red = true ∨ r.rel = true)) then 3
  else if ∃ x ∈ l.binds, x.space = b.space ∧ x.base < b.base + b.len ∧ b.base < x.base + x.len ∧ x ≠ b then 2
  else if b ∈ l.binds then 0 else if 64 ≤ l.binds.length then 1 else 0

/-- A form of a fixed-latency instruction that writes a vector register in its active lanes. -/
def writeForm (hd : Hd) (d : Nat) : LaneForm := { hd := hd, srcs := [], dsts := [.v d] }
/-- Every active lane's register holds a point of a value, its poison clear. -/
def LanesHold (c : Ctx) (hd : Hd) (g' : Group) (d : Nat) (v : Nat → Word) : Prop :=
  ∀ l, l < 64 → bitOf (c.active hd) l = true → g'.rdV d l = v l ∧ g'.rdVP d l = false ∧ (c.p.dist = true → g'.rdSide d l = 0)

/-- What a control register reads in a lane (R163, R165-R170): each lane's FPCR, FPSR, DRC, SRC and SRI, the issuing entry's RSTART and
LIDP, the group's trap registers, PRQFREE, counters and poison records, and the block's TST; in trap mode FPCR's enables read as zero
(R284). -/
def CsrHolds (c : Ctx) (csr l : Nat) (v : Word) : Prop :=
  let g := c.p.g
  (csr = 0 → v = if g.tm = true then g.rdFpcr l &&& 0xFF else g.rdFpcr l) ∧
  (csr = 1 → v = g.rdFpsr l) ∧ (csr = 2 → v = cget 0 g.drc l) ∧ (csr = 3 → v = cget 0 g.src l) ∧
  (csr = 4 → v = BitVec.ofNat 32 (cget 0 g.sri l)) ∧
  (csr = 0x10 → v = loWord c.e.rstart) ∧ (csr = 0x11 → v = hiWord c.e.rstart) ∧
  (csr = 0x12 → v = loWord c.e.lidp) ∧ (csr = 0x13 → v = hiWord c.e.lidp) ∧
  (csr = 0x20 → v = g.tcause) ∧ (csr = 0x21 → v = loWord g.tpc) ∧ (csr = 0x22 → v = hiWord g.tpc) ∧
  (∀ i, i < 4 → csr = 0x24 + i → v = g.tval.extractLsb' (32 * i) 32) ∧
  (csr = 0x28 → v = loWord g.tmask) ∧ (csr = 0x29 → v = hiWord g.tmask) ∧
  (∀ i n, i < 2 → n < 32 → csr = 0x30 + i → (bitOf v n = true ↔ (tget g.prq (32 * i + n)).isSome = true)) ∧
  (∀ i, i < 8 → csr = 0x40 + i → v = BitVec.ofNat 32 (cget 0 g.oc i)) ∧
  (csr = 0x50 → v = c.p.b.tile.tst) ∧
  (∀ i w, w < 8 → csr = 0x100 + 8 * i + w →
    (tget g.prq i = none → v = 0) ∧
    ∀ r, tget g.prq i = some r →
      (w = 0 → v = BitVec.ofNat 32 r.addr) ∧ (w = 1 → v = BitVec.ofNat 32 (r.kind * 2 ^ 24 + r.addr / 2 ^ 32 % 2 ^ 24)) ∧
      (w = 2 → v = BitVec.ofNat 32 (r.reg % 2 ^ 10 + (if r.prd = true then 2 ^ 10 else 0) + if r.pair = true then 2 ^ 11 else 0)) ∧
      (w = 3 → v = loWord r.mask) ∧ (w = 4 → v = hiWord r.mask) ∧ (5 ≤ w → v = 0))

/-- What a selector of SRD reads in a lane (R11, R14, R15, R20, R22, R171): placement and cycle counter are those of the group, and in the
second copy of a redundant block those of the first (R428). -/
def SelectorReads (s : State) (c : Ctx) (sel l : Nat) (v : Word) : Prop :=
  let r := c.p.l.rec0
  let b := c.p.b.index
  let lib := c.p.g.gidx * r.width + l
  let tid := b * 1024 + lib
  let q := seatOf s c
  (c.p.ga.copy = 0 → q = c.p) ∧
  (sel = 0x00 → v = BitVec.ofNat 32 l) ∧ (sel = 0x01 → v = BitVec.ofNat 32 c.p.g.gidx) ∧ (sel = 0x02 → v = BitVec.ofNat 32 lib) ∧
  (sel = 0x03 → v = BitVec.ofNat 32 (b % r.gx)) ∧ (sel = 0x04 → v = BitVec.ofNat 32 (b / r.gx % r.gy)) ∧
  (sel = 0x05 → v = BitVec.ofNat 32 (b / r.gx / r.gy)) ∧
  (sel = 0x06 → v = BitVec.ofNat 32 b) ∧ (sel = 0x07 → v = BitVec.ofNat 32 (b / 2 ^ 32)) ∧
  (sel = 0x08 → v = BitVec.ofNat 32 tid) ∧ (sel = 0x09 → v = BitVec.ofNat 32 (tid / 2 ^ 32)) ∧
  (sel = 0x0A → v = BitVec.ofNat 32 (b % r.gang)) ∧
  (sel = 0x0B → v = BitVec.ofNat 32 q.b.core) ∧ (sel = 0x0C → v = BitVec.ofNat 32 (corePen q.b.core)) ∧
  (sel = 0x0D → v = BitVec.ofNat 32 (coreDie s q.b.core)) ∧ (sel = 0x0E → v = BitVec.ofNat 32 (q.b.core % s.part.coresPerDie)) ∧
  (sel = 0x0F → v = BitVec.ofNat 32 q.g.slot) ∧ (sel = 0x10 → v = BitVec.ofNat 32 q.g.lofs) ∧
  (sel = 0x11 → v = BitVec.ofNat 32 r.gx) ∧ (sel = 0x12 → v = BitVec.ofNat 32 r.gy) ∧ (sel = 0x13 → v = BitVec.ofNat 32 r.gz) ∧
  (sel = 0x14 → v = if bitOf c.helpers l = true then 1 else 0) ∧
  (sel = 0x18 → v = loWord (cget 0 s.cyc q.b.core)) ∧ (sel = 0x19 → v = c.p.g.cych)

/-- What the dispatcher finds of the binding list of the record at a queue's head (R422, R424): nothing of a record that fails an earlier
check, or whose list does not translate or breaks a rule. -/
def BindsFound (s : State) (q : Nat) (binds : Option (List Binding)) : Prop :=
  let bs := s.rdLossy (queueSlot s q) 512
  if (recEarly s bs).isSome = true then binds = none
  else readBinds s [3, q] (recOf bs) = .ok binds ∨ (binds = none ∧ ∃ k, readBinds s [3, q] (recOf bs) = .error (.fails k))

/-! How the tile stream is stated. -/

/-- The machine with one sequencer changed, and with one that has also moved on (R237). -/
def tileOn (s : State) (c : TCtx) (x : Tile) : State := { s with blocks := tset s.blocks c.bid { c.b with tile := x } }
def tileNext (s : State) (c : TCtx) (x : Tile) : State := tileOn s c { x with pc := nextPc c.b.tile.pc }
/-- A fragment's register `j` of fragment lane `n` is register r of lane l of a group (R240). -/
def TCtx.puts (c : TCtx) (f : Frag) (gid r l n j : Nat) : Prop :=
  n < f.lanes ∧ j < f.regs ∧ c.gidAt f.grp n = gid ∧ (c.place f.grp n).2 = l ∧ r = f.base + j
/-- Registers of every group after a tile instruction: `R` says what a register of the fragment holds, the others are as before, and
so is the rest of every group. -/
def FragHolds (s t : State) (c : TCtx) (f : Frag) (R : Group → Nat → Nat → Nat → Nat → Group → Prop) : Prop :=
  ∀ gid g, tget s.groups gid = some g → ∃ g', tget t.groups gid = some g' ∧
    g' = { g with v := g'.v, vp := g'.vp, side := g'.side } ∧
    ∀ r l, l < 64 →
      (∀ n j, c.puts f gid r l n j → R g r l n j g') ∧
      ((∀ n j, ¬ c.puts f gid r l n j) → g'.rdV r l = g.rdV r l ∧ g'.rdVP r l = g.rdVP r l ∧ g'.rdSide r l = g.rdSide r l)
/-- A fragment's places are all different, as the checks of R247 leave them. -/
def TCtx.oneEach (c : TCtx) (f : Frag) : Prop :=
  ∀ gid r l n j n' j', c.puts f gid r l n j → c.puts f gid r l n' j' → n = n' ∧ j = j'

/-! How events are stated. -/

/-- An error counter after one more event (R547). -/
def countUp (w : Word) : Word := if w = 0xFFFFFFFF then w else w + 1
/-- One port of a device out of reset, which serves what it is asked (R445, R555). -/
def OnePort (s : State) (ps : Ports) (serves : State → Nat → Bool) : Prop :=
  s.running = true ∧ (ps = .p0 ∨ ps = .p1) ∧ serves s (firstPort ps) = true
/-- Writes of registers through host ports, by what serves them (R445, R555, R557). -/
def PortWrite (mk : Ports → Instr) (serves : State → Nat → Bool) : Prop :=
  (∃ v w, serves = portServes ∧ ((mk = fun p => .planinStore p ⟨v, w⟩) ∨ (mk = fun p => .hswpcmd p ⟨v, w⟩) ∨ (mk = fun p => .ttcommit p ⟨v, w⟩) ∨
    (∃ d, d < 2 ∧ mk = fun p => .mcmdgo p d ⟨v, w⟩) ∨ (∃ d i, d < 2 ∧ i < 16 ∧ mk = fun p => .fwcfgWrite p d i ⟨v, w⟩) ∨
    (mk = fun p => .cgtdataWrite p ⟨v, w⟩) ∨ mk = fun p => .uemodeWrite p ⟨v, w⟩)) ∨
  (∃ v w, serves = portAttests ∧ ((mk = fun p => .atgo p ⟨v, w⟩) ∨ ∃ i, i < 8 ∧ mk = fun p => .atnonceWrite p i ⟨v, w⟩)) ∨
  (serves = portLids ∧ ∃ i, i < 8 ∧ mk = fun p => .lidWrite p i) ∨
  (∃ v w, serves = portTalks ∧ mk = fun p => .trapQueueReply p ⟨v, w⟩) ∨
  ∃ off v w, sharedReg off = true ∧ serves = regServes off ∧ mk = fun p => .registerWrite p off v w
/-- Reads of registers that change something (R547, R562, R563, R295, R447). -/
def PortRead (mk : Ports → Instr) (serves : State → Nat → Bool) : Prop :=
  (serves = portServes ∧ ((∃ d i l, d < 2 ∧ i < 10 ∧ mk = fun p => .errCounterRead p d i l) ∨
    (∃ d i, d < 2 ∧ i < 16 ∧ mk = fun p => .fwclampRead p d i) ∨ (mk = fun p => .fbdropRead p) ∨ (mk = fun p => .planoutRemove p))) ∨
  (serves = portTalks ∧ ((mk = fun p => .trapQueueRemove p) ∨ (∃ i, i < 11 ∧ mk = fun p => .mailboxDataRead p i) ∨
    mk = fun p => .mailboxErrRead p))

/-- A started command of an engine that is still to have its effect (R388, R390, R440). -/
structure Performs (s : State) (gid q idx code : Nat) (p : Party) (x : Cmd) : Prop where
  party : party? s gid = some p
  cmd : cmdAt p q idx = some x
  code : x.code = code
  started : x.started = true
  open_ : x.result = none
  own : x.shadow = false
  runs : engineRuns p q = true
/-- A command has had its effect and waits to complete with these words, and for what it sent to other devices to land there; the group
is otherwise as before (R359, R390). -/
def Finished (t : State) (gid q idx : Nat) (p : Party) (x : Cmd) (ws : List Word) : Prop :=
  ∃ g' y, tget t.groups gid = some g' ∧ g' = { p.g with qs := g'.qs } ∧ (qreg g' q).cmds[idx]? = some y ∧
    y = { x with result := some ws, landing := y.landing } ∧ (qreg g' q).comps = (qreg p.g q).comps
/-- A ring slot holds completion words (R398). -/
def SlotHolds (t : State) (bid : Nat) (r : Ring) (slot : Nat) (ws : List Word) : Prop :=
  ∃ b', tget t.blocks bid = some b' ∧ ∀ i, i < 4 → ofBytes (b'.rdSp (r.at slot + 4 * i) 4) = (ws.getD i 0).toNat
/-- A ring lies in its block's allocation (R397). -/
def ringInside (b : Block) (r : Ring) : Prop := ∀ x, r.base ≤ x → x < r.base + r.slots * r.stride → spByte b.asize x = .inside

/-- The ages of the physical pens that the plan records give (R546, R561): a record's 64-bit count, of a pen that has any. -/
def plannedAges (recs : List (Nat × List Word)) : List (Nat × DWord) :=
  recs.filterMap fun r =>
    let n := (r.2.getD 0 0).toNat + (r.2.getD 1 0).toNat * 2 ^ 32
    if n = 0 then none else some (r.1, BitVec.ofNat 64 n)
/-- A request for a move of a page (R494, R495). -/
def moveReq (die asid va new : Nat) (gid : Option Nat) (dreg : Nat) : Mig :=
  { die := die, slot := 0, asid := asid, va := va, pte := 0, old := 0, new := new, sz := 0, attempt := 0, ver := [], closed := false,
    gid := gid, twin := none, dreg := dreg }
/-- A move has started (R492): MLOCK is set in the leaf, and the move is in its first attempt. -/
def MoveStarted (s t : State) (r : Mig) : Prop :=
  ∃ m l, walk s r.asid r.va = .leaf l ∧ t.migs = [m] ∧ m.attempt = 1 ∧ m.pte = l.pte ∧ m.die = r.die ∧ m.gid = r.gid ∧ m.dreg = r.dreg ∧
    m.new = r.new ∧ rdEntry t l.pte = (l.lo, l.plw, l.attr ||| 0x80)

/-- The debugger of a port is attached to a launch (R293), and has a group selected (R296). -/
structure Debugs (s : State) (p lid : Nat) (l : Launch) : Prop where
  idle : (mailbox s p).busy = false
  named : (mailbox s p).lid = some lid
  launch : tget s.launches lid = some l
  attached : l.attached = some p
  allowed : l.rec0.dbgen = true
def Selects (s : State) (p gid : Nat) (g : Group) : Prop :=
  dbgGroup s (mailbox s p) = some (gid, g) ∧ tget s.groups gid = some g
/-- The mailbox of a port once a command of it has been carried out (R295). -/
def taken (s : State) (p : Nat) (cmd : Word) : Dbg := { mailbox s p with cmd := cmd, err := false }

/-! How steps are stated. -/

/-- The next action of a step, and the state it acts in: the agenda's first input, or without inputs the scheduler's choice. -/
def NextAct (s : State) (a : Act) (s1 : State) : Prop :=
  (s.agenda = a :: s1.agenda ∧ s1 = { s with agenda := s1.agenda }) ∨
    (s.agenda = [] ∧ ∃ k, pickAct s.turn (internalActs s) = some (k, a) ∧ s1 = { s with turn := k })

/-- Group `p` offers its entry `e`: its block and its gang let it issue (R37, R439), no checkpoint and no departure is due (R294, R439),
no halt is asked for, and `e` is the one it is ready to issue from (R371). -/
structure Offers (s : State) (gid : Nat) (p : Party) (eid : Nat) (e : Entry) : Prop where
  party : party? s gid = some p
  ckpt : (p.l.rec0.red && p.b.ckptDue) = false
  awake : p.g.sitOut = false
  block : blockIssues s p = true
  group : groupIssues p = true
  departed : departDue s p = none
  asked : p.g.haltReq = false
  ready : readyEntry s p = some (eid, e)
/-- It may issue: it is in the issue set of its slot (R376), and `e` at no breakpoint (R297). -/
structure MayIssue (s : State) (gid : Nat) (p : Party) (eid : Nat) (e : Entry) : Prop where
  offers : Offers s gid p eid e
  turn : gid ∈ issueSet s p.b.core p.g.slot
  noBreak : breakAt p.l e.pc = none

/-- The line at an entry's pc can be read and its word is in order (R114-R117). -/
structure LineReady (s : State) (p : Party) (e : Entry) (l : Line) : Prop where
  legal : pcLegal e.pc = true
  clean : p.g.badLine ≠ some (pcLine e.pc)
  fetched : fetchLine s p.gid p.l.rec0.asid p.b.core (pcLine e.pc) = .ok l
  follows : nextLine s p e = none
  reserved : fieldOf l.lw 15 17 = 0

end Sys2Proof.Machine
end

