-- ==== Sys2Proof/Certificates/Slice0/Obligations.lean ====
section
/-! DEFINITION. The statements for the provers. Each docstring names the rules of spec/ it formalises. -/

open Sys2Proof Sys2Proof.Machine

/-! Encoding, decoding and steps. -/

/-- Decoding the encoding of a well-formed instruction word gives the instruction back, with every operand at every value the
encoding admits (R120-R139). -/
def Obligations.DecodeEncode : Prop := ∀ i : Instr, i.wf = true → decode (encode i) = .ok i

/-- A word that decodes is the encoding of what it decodes to, which is well-formed, or its major opcode is unallocated: the decoder
ignores no bit (R123, R139). -/
def Obligations.EncodeDecode : Prop :=
  ∀ (w : IWord) (i : Instr), decode w = .ok i → encode i = w ∧ (i.wf = true ∨ i = .unallocatedOpcode w)

/-- Words written out bit by bit from the tables of 04_encoding decode to what they stand for: the worked example of R207, and one
word each of formats I, M, J, Q, B, S and T. -/
def Obligations.SampleWords : Prop :=
  decode 0x7E0D8120080401F0000000E8 = .ok (.lop3 {
    hd := ⟨false, .always⟩, d := 9, a := 1, b := 2, c := 3, ty := .i32, rnd := .dyn, cv := .indep, nt := false, sat := false,
    oc := .plain, minor := 0, ext := 0xE8 }) ∧
  decode 0x070080A03091A2B3C6800600 = .ok (.iaddI {
    hd := ⟨false, .pred 3 true⟩, d := 5, a := 6, imm := 0x12345678, ty := .i16, rnd := .dyn, cv := .indep, oc := .plain,
    minor := 1, sat := true }) ∧
  decode 0x7E8001001001FFFFE000A000 = .ok (.ld {
    hd := ⟨false, .always⟩, d := 8, a := 2, b := 0, off := 0xFFFFF0, space := .global, hint := .normal, scope := .grp,
    size := .b64, split := false, basek := false, sub := 0 }) ∧
  decode 0x7EA0001FFFFFFD0390000000 = .ok (.bra {
    hd := ⟨false, .always⟩, d := 0, loff := 0x7FFFFFF, tslot := 2, prio := 7, kind := .any }) ∧
  decode 0xFEB000008000002500220000 = .ok (.qpush {
    hd := ⟨true, .always⟩, d := 0, a := 16, b := 0, c := 0, qn := 4, oce := true, ocn := 2, ring := 0, cmd := 0x11, sub := 0 }) ∧
  decode 0x7EC000000000003180000000 = .ok (.bar {
    hd := ⟨false, .always⟩, level := .blk, act := .sync, barn := 3, ocn := 0, thr := 0 }) ∧
  decode 0x7EE180003800000008000000 = .ok (.csrw {
    hd := ⟨false, .always⟩, d := 0, a := 7, b := 0, c := 0, csr := 1, mode := 0, sub := 0, imm := 0 }) ∧
  decode 0x7EF000201006022A80000000 = .ok (.tmma {
    d := 1, a := 2, b := 3, c := 4, fa := .e4m3, fb := .e4m3, slot := 0, spn := 0, spm := .m4, timm := 0 })

/-- PRED values 48 to 62, and 63 with PNEG set, are FLT_ENCODING: no such word of group code decodes to an instruction (R121). -/
def Obligations.ReservedGuards : Prop :=
  ∀ w : IWord, tileWord w = false →
    (48 ≤ fieldOf w 89 6 ∧ fieldOf w 89 6 ≤ 62) ∨ (fieldOf w 89 6 = 63 ∧ bitOf w 88 = true) →
    (∃ e, decode w = .error e) ∨ decode w = .ok (.unallocatedOpcode w)

/-- A step runs the decoded instruction: when the next action is the issue of a group that may issue and the word at the pc of the
entry it offers decodes, the step is `exec` of that instruction, with the fetch noted, the issuer named and the other entries aged. A
group outside its slot's issue set only loses (R373, R376); the group first in rank is in it, and one that is not meets a group of the
set that it does not rank before (R376).
A step runs the decoded instruction of a tile stream: the same for a sequencer that may issue (R235, R237).
A step whose next action is an event is that event; an event that is not enabled changes nothing but the inputs (the model's
agenda).
Rests on the model's own choices: log entries 5, 31, 137. -/
def Obligations.StepsRunInstructions : Prop :=
  ((∀ s s1 gid p eid e, NextAct s (.issue gid) s1 → Offers s1 gid p eid e → atMarker s1 p e = false →
     gid ∉ issueSet s1 p.b.core p.g.slot → step s = .next (lose s1 p.b.core gid eid e)) ∧
   (∀ s core slot x, x ∈ slotCands s core slot → (∀ y ∈ slotCands s core slot, y.gid ≠ x.gid → x.first y = true) →
     x.gid ∈ issueSet s core slot) ∧
   (∀ s core slot x, x ∈ slotCands s core slot → x.gid ∉ issueSet s core slot →
     ∃ y ∈ slotCands s core slot, y.gid ∈ issueSet s core slot ∧ x.overlaps y = true ∧ x.first y = false) ∧
   ∀ s s1 gid p eid e l i, NextAct s (.issue gid) s1 → MayIssue s1 gid p eid e → LineReady s1 p e l →
     tileWord (l.words.getD (pcSlot e.pc) 0) = false → decode (l.words.getD (pcSlot e.pc) 0) = .ok i →
     (bitOf (l.words.getD (pcSlot e.pc) 0) 95 = true → markerWaits p.g e.mask = false) →
     step s = exec i (beginIssue (noteFetch s1 p.l.rec0.asid p.b.core (pcLine e.pc) (.ok l)) p eid (l.words.getD (pcSlot e.pc) 0))) ∧
  (∀ s s1 bid c l i, NextAct s (.tile bid) s1 → tctxOf s1 bid 0 = some c →
     c.b.tile.ended = false → c.b.tile.fault = none → c.b.tile.job = none → c.b.tile.barWait = none → c.b.ticket = none → c.b.exited = false →
     c.ga.st = .resident → c.l.st = .running → c.l.rec0.red = false → c.b.tile.badLine = none →
     fetchLine s1 bid c.l.rec0.asid c.b.core (pcLine c.b.tile.pc) = .ok l → fieldOf l.lw 15 17 = 0 → fieldOf l.lw 5 4 = 0 →
     tileWord (l.words.getD (pcSlot c.b.tile.pc) 0) = true → decode (l.words.getD (pcSlot c.b.tile.pc) 0) = .ok i →
     (usesEngine i = true → engineTaken s1 bid c.b.core = false) →
     step s = exec i (modTile { noteFetch s1 c.l.rec0.asid c.b.core (pcLine c.b.tile.pc) (.ok l) with
         cur := some ⟨true, bid, 0, l.words.getD (pcSlot c.b.tile.pc) 0⟩,
         stamp := (noteFetch s1 c.l.rec0.asid c.b.core (pcLine c.b.tile.pc) (.ok l)).stamp + 1 } bid
       fun t => { t with badLine := none })) ∧
  (∀ s s1 i, NextAct s (.event i) s1 → isEvent i = true →
     (∀ t, exec i { s1 with cur := none } = .next t → step s = .next t) ∧
     (∀ f, exec i { s1 with cur := none } = .fault f → step s = .next s1))

/-- A word that is no instruction, met at issue, is FLT_ENCODING with the word as TVAL (R139, R140), raised after the fetch; a word
of an unallocated major opcode likewise, and in a tile stream a tile fault of subcode 1.
Rests on the model's own choices: log entry 53. -/
def Obligations.EncodingFaults : Prop :=
  (∀ s s1 gid p eid e l err, NextAct s (.issue gid) s1 → MayIssue s1 gid p eid e → LineReady s1 p e l →
    tileWord (l.words.getD (pcSlot e.pc) 0) = false → decode (l.words.getD (pcSlot e.pc) 0) = .error err →
    step s = .next (fetchFault (noteFetch s1 p.l.rec0.asid p.b.core (pcLine e.pc) (.ok l)) p eid e 0x01
      (l.words.getD (pcSlot e.pc) 0).toNat)) ∧
  (∀ s c w, ctx? s = some c → c.lanes ≠ 0 → exec (.unallocatedOpcode w) s =
    .next (takeTrap s c.gid c.eid { code := 0x01, tval := w.toNat, tmask := c.lanes, pc := c.e.pc })) ∧
  (∀ s c w, tctx? s = some c → exec (.unallocatedOpcode w) s = .next (tileFault s c.bid
    ⟨1, w, c.b.tile.pc &&& ~~~(63 : DWord), pcSlot c.b.tile.pc, 0, 0⟩ c.l.rec0.tbarm))

/-! Lane instructions: what every one of a family leaves unchanged, and what its lanes receive. -/

/-- Every integer, logic, move and width instruction that is ready completes, and changes in its group nothing but what `LaneFrame`
allows: its destinations in active lanes, or one result in flight, and the entry's pc (R9, R121, R172, R181, R183). -/
def Obligations.IntegerFrames : Prop := Frames integerForm
/-- The same of the floating-point instructions with no trap enable set; they may add flags and take rounding words in active lanes
(R70, R76). -/
def Obligations.FloatFrames : Prop := Frames floatForm
/-- The same of the instructions on sidecars and random values. -/
def Obligations.SidecarFrames : Prop := Frames sidecarForm
/-- The same of the instructions that exchange values between lanes, of the quad instructions where every quad is whole, and of SRD. -/
def Obligations.ExchangeFrames : Prop := Frames exchangeForm

/-- Poison passes through: in an active lane with a poisoned source, every register and predicate the instruction writes there is
poisoned, registers with the index of the first poisoned source, and no flag is raised (R159, R160, R182).
Rests on the model's own choices: log entry 13. -/
def Obligations.PoisonPasses : Prop :=
  ∀ i f, i.wf = true → laneForm i = some f → f.strict = true → f.late = false → f.uniform = false →
    ∀ s c, Ready s c f.hd f.touch → NoEnables c f.hd →
      ∃ g', exec i s = .next (withGroup s c.gid g') ∧
        ∀ l, l < 64 → bitOf (c.active f.hd) l = true → ∀ k, firstPoison f.srcs c.p.g l = some k →
          (∀ r ∈ f.vdst, g'.rdVP r l = true ∧ g'.rdV r l = poisonWord k) ∧
          (∀ r ∈ f.pdst, g'.rdPP r l = true ∧ g'.rdP r l = false) ∧ g'.rdFpsr l = c.p.g.rdFpsr l

/-- IADD, ISUB, IMIN and IMAX work element by element on exact results, which wrap or saturate (R180, R185).
IABS and INEG are signed: the exact results |a| and -a wrap for the most negative value, or clamp under SAT (R180, R185). -/
def Obligations.AddSubMinMax : Prop :=
  ((∀ o, VRes (.iadd o) o .v .v .v .zero fun a b _ x => Pieces o.ty.bits x fun i =>
     fitAs (isU o.minor) o.sat o.ty.bits (readAs (isU o.minor) o.ty.bits (piece o.ty.bits i a) + readAs (isU o.minor) o.ty.bits (piece o.ty.bits i b))) ∧
   (∀ o, IRes (.iaddI o) o .v .v fun a x => Pieces o.ty.bits x fun i =>
     fitAs (isU o.minor) o.sat o.ty.bits (readAs (isU o.minor) o.ty.bits (piece o.ty.bits i a) + readAs (isU o.minor) o.ty.bits (piece o.ty.bits i o.imm.toNat))) ∧
   (∀ o, VRes (.isub o) o .v .v .v .zero fun a b _ x => Pieces o.ty.bits x fun i =>
     fitAs (isU o.minor) o.sat o.ty.bits (readAs (isU o.minor) o.ty.bits (piece o.ty.bits i a) - readAs (isU o.minor) o.ty.bits (piece o.ty.bits i b))) ∧
   (∀ o, IRes (.isubI o) o .v .v fun a x => Pieces o.ty.bits x fun i =>
     fitAs (isU o.minor) o.sat o.ty.bits (readAs (isU o.minor) o.ty.bits (piece o.ty.bits i a) - readAs (isU o.minor) o.ty.bits (piece o.ty.bits i o.imm.toNat))) ∧
   (∀ o, VRes (.imin o) o .v .v .v .zero fun a b _ x => Pieces o.ty.bits x fun i =>
     fitAs (isU o.minor) false o.ty.bits (min (readAs (isU o.minor) o.ty.bits (piece o.ty.bits i a)) (readAs (isU o.minor) o.ty.bits (piece o.ty.bits i b)))) ∧
   (∀ o, VRes (.imax o) o .v .v .v .zero fun a b _ x => Pieces o.ty.bits x fun i =>
     fitAs (isU o.minor) false o.ty.bits (max (readAs (isU o.minor) o.ty.bits (piece o.ty.bits i a)) (readAs (isU o.minor) o.ty.bits (piece o.ty.bits i b))))) ∧
  ((∀ o, VRes (.iabs o) o .v .v .zero .zero fun a _ _ x => Pieces o.ty.bits x fun i =>
     fitAs false o.sat o.ty.bits |readAs false o.ty.bits (piece o.ty.bits i a)|) ∧
   (∀ o, VRes (.ineg o) o .v .v .zero .zero fun a _ _ x => Pieces o.ty.bits x fun i =>
     fitAs false o.sat o.ty.bits (-(readAs false o.ty.bits (piece o.ty.bits i a)))))

/-- IMUL and IMAD: the exact product, its low word, its high word or all of it, and C added (R186).
IDIV and IREM divide with the quotient truncated toward zero; a zero divisor gives all ones, and the dividend (R187). The results
come back from flight. -/
def Obligations.MulDivide : Prop :=
  ((∀ o, VRes (.imul o) o (mulDest o.minor) .v .v .zero fun a b _ x =>
     x = if o.minor / 2 = 1 then fitAs false false 64 (readAs (isU o.minor) 32 a * readAs (isU o.minor) 32 b) / 2 ^ 32
       else fitAs false false (if o.minor / 2 = 0 then 32 else 64) (readAs (isU o.minor) 32 a * readAs (isU o.minor) 32 b)) ∧
   (∀ o, IRes (.imulI o) o (mulDest o.minor) .v fun a x =>
     x = if o.minor / 2 = 1 then fitAs false false 64 (readAs (isU o.minor) 32 a * readAs (isU o.minor) 32 o.imm.toNat) / 2 ^ 32
       else fitAs false false (if o.minor / 2 = 0 then 32 else 64) (readAs (isU o.minor) 32 a * readAs (isU o.minor) 32 o.imm.toNat)) ∧
   (∀ o, VRes (.imad o) o (mulDest o.minor) .v .v (mulDest o.minor) fun a b k x =>
     x = if minorWide o.minor then fitAs false false 64 (readAs (isU o.minor) 32 a * readAs (isU o.minor) 32 b + (k : Int))
       else fitAs (isU o.minor) o.sat 32 (readAs (isU o.minor) 32 a * readAs (isU o.minor) 32 b + readAs (isU o.minor) 32 k))) ∧
  ((∀ o, (Instr.idiv o).wf = true → LateResults (.idiv o) { vForm o .v .v .v .zero with late := true } (vopD o .v) fun c l x sd =>
     PointSide c sd ∧ x = if (vopB o .v).val c.p.g l = 0 then 0xFFFFFFFF
       else fitAs (isU o.minor) false 32 ((readAs (isU o.minor) 32 ((vopA o .v).val c.p.g l)).tdiv (readAs (isU o.minor) 32 ((vopB o .v).val c.p.g l)))) ∧
   (∀ o, (Instr.irem o).wf = true → LateResults (.irem o) { vForm o .v .v .v .zero with late := true } (vopD o .v) fun c l x sd =>
     PointSide c sd ∧ x = if (vopB o .v).val c.p.g l = 0 then (vopA o .v).val c.p.g l
       else fitAs (isU o.minor) false 32 ((readAs (isU o.minor) 32 ((vopA o .v).val c.p.g l)).tmod (readAs (isU o.minor) 32 ((vopB o .v).val c.p.g l)))))

/-- SHL, SHR and SAR by the unsigned count in B or IMM32: zeros, or sign bits, from the width on (R188).
SHF takes a 32-bit window of {b, a} at the start its form gives; `.win.ring` wraps around (R189). -/
def Obligations.Shifts : Prop :=
  ((∀ o, VRes (.shl o) o (Cls.ofTy o.ty) (Cls.ofTy o.ty) .v .zero fun a n _ x => x = a * 2 ^ n % 2 ^ o.ty.bits) ∧
   (∀ o, IRes (.shlI o) o (Cls.ofTy o.ty) (Cls.ofTy o.ty) fun a x => x = a * 2 ^ o.imm.toNat % 2 ^ o.ty.bits) ∧
   (∀ o, VRes (.shr o) o (Cls.ofTy o.ty) (Cls.ofTy o.ty) .v .zero fun a n _ x => x = a / 2 ^ n) ∧
   (∀ o, IRes (.shrI o) o (Cls.ofTy o.ty) (Cls.ofTy o.ty) fun a x => x = a / 2 ^ o.imm.toNat) ∧
   (∀ o, VRes (.sar o) o (Cls.ofTy o.ty) (Cls.ofTy o.ty) .v .zero fun a n _ x =>
     x = fitAs false false o.ty.bits (readAs false o.ty.bits a / 2 ^ n)) ∧
   (∀ o, IRes (.sarI o) o (Cls.ofTy o.ty) (Cls.ofTy o.ty) fun a x =>
     x = fitAs false false o.ty.bits (readAs false o.ty.bits a / 2 ^ o.imm.toNat))) ∧
  (∀ o, VRes (.shf o) o .v .v .v .v fun a b k x => ∀ i, i < 32 →
     x.testBit i = (a + b * 2 ^ 32).testBit
       (if o.minor = 0 then k % 32 + i else if o.minor = 2 then min k 32 + i else if o.minor = 4 then (k % 64 + i) % 64 else 32 - min k 32 + i)) ∧
  VWords .shl 0x00D [.i32, .i64] [0] [.plain, .bUniform, .uniform] ∧
  IWords .shlI 0x010 [.i32, .i64] [0] [.plain, .uniform] ∧
  VWords .shr 0x00E [.i32, .i64] [0] [.plain, .bUniform, .uniform] ∧
  IWords .shrI 0x011 [.i32, .i64] [0] [.plain, .uniform] ∧
  VWords .sar 0x00F [.i32, .i64] [0] [.plain, .bUniform, .uniform] ∧
  IWords .sarI 0x012 [.i32, .i64] [0] [.plain, .uniform] ∧
  VWords .shf 0x013 [.i32] [0, 2, 4, 6] [.plain, .bUniform, .uniform]

/-- AND, OR, XOR, NOT, LOP3 and BREV, bit by bit (R190).
POPC, CLZ and CTZ count ones, leading and trailing zeros (R190); BFX and BFI move bit fields (R191). -/
def Obligations.BitOperations : Prop :=
  ((∀ o, VRes (.and o) o (Cls.ofTy o.ty) (Cls.ofTy o.ty) (Cls.ofTy o.ty) .zero fun a b _ x =>
     ∀ i, i < o.ty.bits → x.testBit i = (a.testBit i && b.testBit i)) ∧
   (∀ o, IRes (.andI o) o (Cls.ofTy o.ty) (Cls.ofTy o.ty) fun a x =>
     ∀ i, i < o.ty.bits → x.testBit i = (a.testBit i && (immVal o false).testBit i)) ∧
   (∀ o, VRes (.or o) o (Cls.ofTy o.ty) (Cls.ofTy o.ty) (Cls.ofTy o.ty) .zero fun a b _ x =>
     ∀ i, i < o.ty.bits → x.testBit i = (a.testBit i || b.testBit i)) ∧
   (∀ o, IRes (.orI o) o (Cls.ofTy o.ty) (Cls.ofTy o.ty) fun a x =>
     ∀ i, i < o.ty.bits → x.testBit i = (a.testBit i || (immVal o false).testBit i)) ∧
   (∀ o, VRes (.xor o) o (Cls.ofTy o.ty) (Cls.ofTy o.ty) (Cls.ofTy o.ty) .zero fun a b _ x =>
     ∀ i, i < o.ty.bits → x.testBit i = (a.testBit i != b.testBit i)) ∧
   (∀ o, IRes (.xorI o) o (Cls.ofTy o.ty) (Cls.ofTy o.ty) fun a x =>
     ∀ i, i < o.ty.bits → x.testBit i = (a.testBit i != (immVal o false).testBit i)) ∧
   (∀ o, VRes (.not o) o (Cls.ofTy o.ty) (Cls.ofTy o.ty) .zero .zero fun a _ _ x =>
     ∀ i, i < o.ty.bits → x.testBit i = !a.testBit i) ∧
   (∀ o, VRes (.lop3 o) o .v .v .v .v fun a b k x => ∀ i, i < 32 →
     x.testBit i = o.ext.testBit (bit01 a i + 2 * bit01 b i + 4 * bit01 k i)) ∧
   (∀ o, VRes (.brev o) o .v .v .zero .zero fun a _ _ x => ∀ i, i < 32 → x.testBit i = a.testBit (31 - i))) ∧
  ((∀ o, VRes (.popc o) o .v .v .zero .zero fun a _ _ x => x = ((List.range 32).filter fun i => a.testBit i).length) ∧
   (∀ o, VRes (.clz o) o .v .v .zero .zero fun a _ _ x => x ≤ 32 ∧ a < 2 ^ (32 - x) ∧ (x < 32 → a.testBit (31 - x) = true)) ∧
   (∀ o, VRes (.ctz o) o .v .v .zero .zero fun a _ _ x =>
     x ≤ 32 ∧ (∀ i, i < x → a.testBit i = false) ∧ (x < 32 → a.testBit x = true)) ∧
   (∀ o, VRes (.bfx o) o .v .v .zero .zero fun a _ _ x => ∀ i, i < 32 →
     x.testBit i = if i < bfLen o.ext ∧ bfPos o.ext + i < 32 then a.testBit (bfPos o.ext + i)
       else !isU o.minor && a.testBit (min (bfPos o.ext + bfLen o.ext) 32 - 1)) ∧
   (∀ o, VRes (.bfi o) o .v .v .v .zero fun a b _ x => ∀ i, i < 32 →
     x.testBit i = if bfPos o.ext ≤ i ∧ i < bfPos o.ext + bfLen o.ext then a.testBit (i - bfPos o.ext) else b.testBit i)) ∧
  VWords .and 0x014 [.i32, .i64] [0] [.plain, .bUniform, .uniform] ∧
  IWords .andI 0x015 [.i32, .i64] [0] [.plain, .uniform] ∧
  VWords .or 0x016 [.i32, .i64] [0] [.plain, .bUniform, .uniform] ∧
  IWords .orI 0x017 [.i32, .i64] [0] [.plain, .uniform] ∧
  VWords .xor 0x018 [.i32, .i64] [0] [.plain, .bUniform, .uniform] ∧
  IWords .xorI 0x019 [.i32, .i64] [0] [.plain, .uniform] ∧
  VWords .not 0x01A [.i32, .i64] [0] [.plain, .uniform] ∧
  VWords .lop3 0x01B [.i32] [0] [.plain, .bUniform, .uniform] ∧
  VWords .popc 0x01C [.i32] [0] [.plain, .uniform] ∧
  VWords .clz 0x01D [.i32] [0] [.plain, .uniform] ∧
  VWords .ctz 0x01E [.i32] [0] [.plain, .uniform] ∧
  VWords .brev 0x01F [.i32] [0] [.plain, .uniform] ∧
  VWords .bfx 0x020 [.i32] [0, 1] [.plain, .uniform] ∧
  VWords .bfi 0x021 [.i32] [0] [.plain, .bUniform, .uniform] ∧
  (∀ o, (Instr.lop3 o).wf = true → o.ext < 256) ∧
  (∀ o, (Instr.bfx o).wf = true ∨ (Instr.bfi o).wf = true → o.ext < 2 ^ 11 ∧ 1 ≤ o.ext / 32 ∧ o.ext / 32 ≤ 32 ∧ bfPos o.ext = o.ext % 32 ∧
     bfLen o.ext = o.ext / 32)

/-- ISET compares, SEL selects with the sidecar of the operand chosen, LEA and IADD64 add modulo 2^64, and CVT reduces element 0 to
the destination's width and extends it (R193, R194, R197, R198).
DP8 and DP4 add an exact dot product of packed integers to C, and wrap or saturate (R199); BPERM picks bytes of {b, a} (R192). -/
def Obligations.SelectConvertDot : Prop :=
  ((∀ o, VRes (.iset o) o .pred (Cls.ofTy o.ty) (Cls.ofTy o.ty) .zero fun a b _ x =>
     x = if icond (o.minor / 2) (readAs (isU o.minor) o.ty.bits a) (readAs (isU o.minor) o.ty.bits b) then 1 else 0) ∧
   (∀ o f, (Instr.sel o).wf = true → integerForm (.sel o) = some f → Results (.sel o) f (vopD o (Cls.ofTy o.ty)) fun c l x sd =>
     let S := if c.p.g.rdP (o.ext % 64) l != o.ext.testBit 6 then vopA o (Cls.ofTy o.ty) else vopB o (Cls.ofTy o.ty)
     x = S.val c.p.g l ∧ (c.p.dist = true → sd = S.side c.p.g l)) ∧
   (∀ o, VRes (.lea o) o .pair .pair .v .zero fun a b _ x =>
     x = fitAs false false 64 ((a : Int) + readAs (isU o.minor) 32 b * 2 ^ (o.ext % 8))) ∧
   (∀ o, VRes (.iadd64 o) o .pair .pair .pair .zero fun a b _ x => x = (a + b) % 2 ^ 64) ∧
   (∀ o, VRes (.cvt o) { o with c := 0 } (Cls.ofTy o.ty) (Cls.ofTy (Ty.ofCode (cvtStype o.c))) .zero .zero fun a _ _ x =>
     x = fitAs false false (max 32 o.ty.bits) (readAs (cvtUdst o.c) o.ty.bits
       (fitAs (cvtUdst o.c) o.sat o.ty.bits (readAs (cvtUsrc o.c) (Ty.ofCode (cvtStype o.c)).bits a))))) ∧
  ((∀ o, VRes (.dp8 o) o .v .v .v .v fun a b k x => x = fitAs false o.sat 32 (readAs false 32 k +
     ((List.range 4).map fun i => readAs (o.minor % 2 == 1) 8 (piece 8 i a) * readAs (o.minor / 2 % 2 == 1) 8 (piece 8 i b)).sum)) ∧
   (∀ o, VRes (.dp4 o) o .v .v .v .v fun a b k x => x = fitAs false o.sat 32 (readAs false 32 k +
     ((List.range 8).map fun i => readAs (o.minor % 2 == 1) 4 (piece 4 i a) * readAs (o.minor / 2 % 2 == 1) 4 (piece 4 i b)).sum)) ∧
   (∀ o, VRes (.bperm o) o .v .v .v .v fun a b k x => Pieces 8 x fun i =>
     if 8 ≤ piece 4 i k then 0 else piece 8 (piece 4 i k % 8) (a + b * 2 ^ 32))) ∧
  VWords .bperm 0x022 [.i32] [0] [.plain, .bUniform, .uniform] ∧
  VWords .dp8 0x02A [.i8] [0, 1, 2, 3] [.plain, .bUniform] ∧
  VWords .dp4 0x02B [.i4] [0, 1, 2, 3] [.plain, .bUniform]

/-- MOVI writes its immediate, as written, widened or extended (R196); MOV copies bits with the sidecar, or a uniform register as a
point (R195). -/
def Obligations.Moves : Prop :=
  (∀ o, IRes (.movi o) o (Cls.ofTy o.ty) .zero fun _ x => x = immVal o (isU o.minor)) ∧
  (∀ o f, (Instr.mov o).wf = true → integerForm (.mov o) = some f → o.oc = .plain →
    Results (.mov o) f (vopD o (Cls.ofTy o.ty)) fun c l x sd =>
      let A := clsOpnd (if o.minor = 2 then (Cls.ofTy o.ty).toUniform else Cls.ofTy o.ty) o.a
      x = A.val c.p.g l ∧ (c.p.dist = true → sd = A.side c.p.g l)) ∧
  (∀ o, o.oc = .uniform → VRes (.mov o) o (Cls.ofTy o.ty) (Cls.ofTy o.ty) .zero .zero fun a _ _ x => x = a) ∧
  (∀ o s c, (Instr.mov o).wf = true → o.minor = 4 →
    Ready s c o.hd (touchOf [clsOpnd (Cls.ofTy o.ty) o.a] []) →
    (∀ l, lowLane (c.real o.hd) = some l → (clsOpnd (Cls.ofTy o.ty) o.a).poison c.p.g l = none) →
    exec (.mov o) s = .next (c.goesOn s false fun g => match lowLane (c.real o.hd) with
      | none => g
      | some l => g.putAll c.p.dist ((clsOpnd (Cls.ofTy o.ty).toUniform o.d).dests 0 ((clsOpnd (Cls.ofTy o.ty) o.a).val g l) 0)))

/-- FABS clears and FNEG inverts the sign bit of every element, on every value; the sidecar is A's, unchanged (R214). -/
def Obligations.SignBits : Prop :=
  (∀ o, (Instr.fabs o).wf = true → Results (.fabs o) { f1Form o false false with flags := false } (vopD o (Cls.ofTy o.ty)) fun c l x sd =>
    (∀ i, i < max 32 o.ty.bits → x.testBit i = (decide ((i + 1) % o.ty.bits ≠ 0) && ((vopA o (Cls.ofTy o.ty)).val c.p.g l).testBit i)) ∧
    (c.p.dist = true → sd = (vopA o (Cls.ofTy o.ty)).side c.p.g l)) ∧
  (∀ o, (Instr.fneg o).wf = true → Results (.fneg o) { f1Form o false false with flags := false } (vopD o (Cls.ofTy o.ty)) fun c l x sd =>
    (∀ i, i < max 32 o.ty.bits → x.testBit i = (decide ((i + 1) % o.ty.bits = 0) != ((vopA o (Cls.ofTy o.ty)).val c.p.g l).testBit i)) ∧
    (c.p.dist = true → sd = (vopA o (Cls.ofTy o.ty)).side c.p.g l)) ∧
  (∀ o, (Instr.fabs o).wf = true → fieldOf (encode (.fabs o)) 79 9 = 0x049) ∧
  (∀ o, (Instr.fneg o).wf = true → fieldOf (encode (.fneg o)) 79 9 = 0x04A)

/-- VOTE: the active non-helper lanes vote, and every active lane receives the result; a poisoned vote poisons it everywhere with index
0x3F (R204).
SHFL moves A from the lane its mode names, with sidecar and poison, and says in the predicate whether that lane was valid and a
member; otherwise a lane keeps its own A (R202, R203).
Rests on the model's own choices: log entry 163. -/
def Obligations.VotesAndShuffles : Prop :=
  (∀ o f, (Instr.vote o).wf = true → exchangeForm (.vote o) = some f → ∀ s c, Ready s c f.hd f.touch → NoEnables c f.hd →
     ∃ g', exec (.vote o) s = .next (withGroup s c.gid g') ∧ LaneFrame f c g' ∧
       ∀ l, l < 64 → bitOf (c.active o.hd) l = true →
         let yes := (lanesOf (c.real o.hd)).filter fun v => c.p.g.rdP o.a v != o.ext.testBit 0
         if (lanesOf (c.real o.hd)).any (fun v => c.p.g.rdPP o.a v) = true then
           (∀ r ∈ f.vdst, g'.rdVP r l = true ∧ g'.rdV r l = poisonWord 0x3F) ∧ (∀ r ∈ f.pdst, g'.rdPP r l = true ∧ g'.rdP r l = false)
         else
           (∀ r ∈ f.vdst, g'.rdVP r l = false) ∧ (∀ r ∈ f.pdst, g'.rdPP r l = false) ∧
           (o.minor = 0 → g'.rdP o.d l = decide (yes ≠ [])) ∧
           (o.minor = 2 → g'.rdP o.d l = decide (yes = lanesOf (c.real o.hd))) ∧
           (o.minor = 4 → g'.rdV2 o.d l = maskOf yes) ∧
           (o.minor = 6 → (g'.rdV o.d l).toNat = yes.length)) ∧
  (∀ o f, (Instr.shfl o).wf = true → exchangeForm (.shfl o) = some f → ∀ s c, Ready s c f.hd f.touch → NoEnables c f.hd →
     ∃ g', exec (.shfl o) s = .next (withGroup s c.gid g') ∧ LaneFrame f c g' ∧
       ∀ l, l < 64 → bitOf (c.active o.hd) l = true →
         let A := clsOpnd (Cls.ofTy o.ty) o.a
         let S := min (2 ^ shflSeg o.ext) c.p.l.rec0.width
         let base := l / S * S
         let b := (c.p.g.rdV o.b l).toNat
         let src : Int := if o.minor = 0 then (base : Int) + b else if o.minor = 2 then ((base + (l - base + b) % S : Nat) : Int)
           else if o.minor = 4 then ((base + ((l - base) ^^^ b) : Nat) : Int) else (l : Int) + (c.p.g.rdV o.b l).toInt
         let ok := if o.minor = 2 then c.member src.toNat
           else if o.minor = 6 then decide ((base : Int) ≤ src ∧ src < (base : Int) + S) && c.member src.toNat
           else decide (b < S) && c.member src.toNat
         let from_ := if ok then src.toNat else l
         A.poison c.p.g from_ = none → (Opnd.v o.b).poison c.p.g l = none →
           (clsOpnd (Cls.ofTy o.ty) o.d).val g' l = A.val c.p.g from_ ∧ (clsOpnd (Cls.ofTy o.ty) o.d).poison g' l = none ∧
           (c.p.dist = true → g'.rdSide o.d l = A.side c.p.g from_) ∧
           (shflPv o.ext ≠ 63 → g'.rdP (shflPv o.ext) l = ok ∧ g'.rdPP (shflPv o.ext) l = false)) ∧
  VWords .vote 0x0E2 [.f32] [0, 2, 4, 6] [.plain] ∧
  (∀ o, (Instr.vote o).wf = true → o.a < 48 ∧ o.ext < 2)

/-- QSWAP and QBCAST bring A from the partner lane of the quad, with its sidecar, where the partner is a member (R206); SRD reads its
selector as a point, and reading CYCL latches the upper half of the same count into CYCH (R171, R207).
Rests on the model's own choices: log entries 44, 157. -/
def Obligations.QuadsAndSpecials : Prop :=
  (∀ o f, (Instr.qswap o).wf = true → exchangeForm (.qswap o) = some f → ∀ s c, Ready s c f.hd f.touch → NoEnables c f.hd →
    ∃ g', exec (.qswap o) s = .next (withGroup s c.gid g') ∧ LaneFrame f c g' ∧
      ∀ l, l < 64 → bitOf (c.active o.hd) l = true →
        let A := clsOpnd (Cls.ofTy o.ty) o.a
        let p := l ^^^ (o.minor / 2 + 1)
        let q := if bitOf c.e.mask p then p else l
        A.poison c.p.g q = none → (clsOpnd (Cls.ofTy o.ty) o.d).val g' l = A.val c.p.g q ∧ (c.p.dist = true → g'.rdSide o.d l = A.side c.p.g q)) ∧
  (∀ o f, (Instr.qbcast o).wf = true → exchangeForm (.qbcast o) = some f → ∀ s c, Ready s c f.hd f.touch → NoEnables c f.hd →
    ∃ g', exec (.qbcast o) s = .next (withGroup s c.gid g') ∧ LaneFrame f c g' ∧
      ∀ l, l < 64 → bitOf (c.active o.hd) l = true →
        let A := clsOpnd (Cls.ofTy o.ty) o.a
        let p := l / 4 * 4 + o.ext
        let q := if bitOf c.e.mask p then p else l
        A.poison c.p.g q = none → (clsOpnd (Cls.ofTy o.ty) o.d).val g' l = A.val c.p.g q ∧ (c.p.dist = true → g'.rdSide o.d l = A.side c.p.g q)) ∧
  (∀ o f, (Instr.srd o).wf = true → exchangeForm (.srd o) = some f → ∀ s c, Ready s c f.hd f.touch → NoEnables c f.hd →
    ∃ g', exec (.srd o) s = .next (withGroup s c.gid g') ∧ LaneFrame f c g' ∧
      (o.oc = .plain → ∀ l, l < 64 → bitOf (c.active o.hd) l = true →
        SelectorReads s c o.imm.toNat l (g'.rdV o.d l) ∧ g'.rdVP o.d l = false ∧ PointSide c (g'.rdSide o.d l)) ∧
      (o.oc = .uniform → c.real o.hd ≠ 0 → SelectorReads s c o.imm.toNat 0 (g'.rdK o.d)) ∧
      (o.imm.toNat = 0x18 → (if o.oc = .uniform then c.real o.hd else c.active o.hd) ≠ 0 →
        g'.cych = hiWord (cget 0 s.cyc (seatOf s c).b.core)))

/-! Floating point, sidecars and random values. -/

/-- FLT_IEEE is precise: a floating-point, sidecar or quad instruction that is ready either completes within its frame, or takes
FLT_IEEE from the state as it stood, so that no destination, sidecar, flag or stream of any lane changes; its mask names active lanes
that are no helper lanes, each with a trap enable among the flags reported (R77).
Rests on the model's own choices: log entry 22. -/
def Obligations.IeeeTraps : Prop :=
  ∀ i f, i.wf = true → laneForm i = some f → f.uniform = false → ∀ s c, Ready s c f.hd f.touch →
    (f.quad = true → divergent c (c.active f.hd) = 0) →
    (∃ g', exec i s = .next (withGroup s c.gid g') ∧ LaneFrame f c g') ∨
      ∃ t : Trap, t.code = 0x08 ∧ t.tval = c.word.toNat ∧ t.pc = c.e.pc ∧ t.tmask ≠ 0 ∧ t.tmask &&& ~~~ c.real f.hd = 0 ∧
        (∀ l ∈ lanesOf t.tmask, enables c.p.g l &&& BitVec.ofNat 6 t.flags ≠ 0) ∧
        exec i s = .next (takeTrap s c.gid c.eid t)

/-- FCMP of FP32 numbers orders them as their values lie, with the two zeros equal (R215): `fpKey` is the order of the bit patterns.
FMIN and FMAX of FP32 numbers return one of them bit for bit, with -0 below +0 (R213). -/
def Obligations.FloatOrder : Prop :=
  (∀ o, (Instr.fcmp o).wf = true → o.ty = .f32 → o.minor < 8 →
     Results (.fcmp o) (cmpForm o.hd o.minor o.d (vopA o .v) (vopB o .v)) (.pred o.d) fun c l x _ =>
       let a := (vopA o .v).val c.p.g l
       let b := (vopB o .v).val c.p.g l
       fpcrZeroSub (c.p.g.rdFpcr l) = false → a % 2 ^ 31 ≤ 0x7F800000 → b % 2 ^ 31 ≤ 0x7F800000 →
         (x = 1 ↔ if o.minor = 0 then fpKey a = fpKey b else if o.minor = 1 then fpKey a ≠ fpKey b
           else if o.minor = 2 then fpKey a < fpKey b else if o.minor = 3 then fpKey a ≤ fpKey b
           else if o.minor = 4 then fpKey b < fpKey a else if o.minor = 5 then fpKey b ≤ fpKey a else o.minor = 7)) ∧
  ((∀ o, (Instr.fmin o).wf = true → o.ty = .f32 → Results (.fmin o) (f2Form o false false) (vopD o .v) fun c l x _ =>
     let a := (vopA o .v).val c.p.g l
     let b := (vopB o .v).val c.p.g l
     fpcrZeroSub (c.p.g.rdFpcr l) = false → a % 2 ^ 31 ≤ 0x7F800000 → b % 2 ^ 31 ≤ 0x7F800000 →
       x = if fpKeyZ b < fpKeyZ a then b else a) ∧
   (∀ o, (Instr.fmax o).wf = true → o.ty = .f32 → Results (.fmax o) (f2Form o false false) (vopD o .v) fun c l x _ =>
     let a := (vopA o .v).val c.p.g l
     let b := (vopB o .v).val c.p.g l
     fpcrZeroSub (c.p.g.rdFpcr l) = false → a % 2 ^ 31 ≤ 0x7F800000 → b % 2 ^ 31 ≤ 0x7F800000 →
       x = if fpKeyZ a < fpKeyZ b then b else a))

/-- DTAG, DCLR and DSET copy A and write the sidecar in distribution mode; DVAR and DSTD write zero in the other modes (R226, R227). -/
def Obligations.SidecarResults : Prop :=
  (∀ o f, (Instr.dtag o).wf = true → sidecarForm (.dtag o) = some f → Results (.dtag o) f (distOpnd o.minor o.d) fun c l x sd =>
    x = (distOpnd o.minor o.a).val c.p.g l ∧ (c.p.dist = true → sd =
      BitVec.ofNat 32 ((vopB o .v).val c.p.g l % 256 * 2 ^ 24 + (c.p.g.rdSide o.a l).toNat % 2 ^ 24))) ∧
  (∀ o f, (Instr.dclr o).wf = true → sidecarForm (.dclr o) = some f → Results (.dclr o) f (distOpnd o.minor o.d) fun c l x sd =>
    x = (distOpnd o.minor o.a).val c.p.g l ∧ (c.p.dist = true → sd = 0)) ∧
  (∀ o f, (Instr.dset o).wf = true → sidecarForm (.dset o) = some f → o.ty = .uv24 →
    Results (.dset o) f (distOpnd o.minor o.d) fun c l x sd =>
      let b := (vopB o .v).val c.p.g l % 2 ^ 24
      x = (distOpnd o.minor o.a).val c.p.g l ∧ (c.p.dist = true → sd =
        BitVec.ofNat 32 ((c.p.g.rdSide o.a l).toNat / 2 ^ 24 * 2 ^ 24 + if b / 2 ^ 16 = 255 then 0xFF0000 else b))) ∧
  (∀ i f D, i.wf = true → sidecarForm i = some f → (∃ o, (i = .dvar o ∨ i = .dstd o) ∧ D = Opnd.v o.d) →
    Results i f D fun c _ x sd => PointSide c sd ∧ (c.p.dist = false → x = 0))

/-- RNDU, RNDN, GUMB and SAMPLE take one draw in each active lane, helper lanes and poisoned results included: DRC goes up by one,
and the rounding stream stays (R230); RNDU.i32 delivers the first 32 bits of the draw as a point (R232).
SCTR sets the stream counters of each active lane from clean operands, and nothing else (R233). -/
def Obligations.DrawsAndStreams : Prop :=
  ((∀ i f, i.wf = true → sidecarForm i = some f → f.draws = true → ∀ s c, Ready s c f.hd f.touch → NoEnables c f.hd →
     ∃ g', exec i s = .next (withGroup s c.gid g') ∧ LaneFrame f c g' ∧
       ∀ l, l < 64 → bitOf (c.active f.hd) l = true →
         cget 0 g'.drc l = cget 0 c.p.g.drc l + 1 ∧ cget 0 g'.src l = cget 0 c.p.g.src l ∧ cget 0 g'.sri l = cget 0 c.p.g.sri l) ∧
   (∀ o, (Instr.rndu o).wf = true → o.ty = .i32 → Results (.rndu o) (drawForm o [] false false) (.v o.d) fun c l x sd =>
     PointSide c sd ∧ x = drawOf c l % 2 ^ 32)) ∧
  (∀ o s c, (Instr.sctr o).wf = true → Ready s c o.hd (touchOf [Opnd.v o.a, if o.minor = 0 then Opnd.v o.b else .none] []) →
     (∀ l ∈ lanesOf (c.real o.hd), c.p.g.rdVP o.a l = false ∧ (o.minor = 0 → c.p.g.rdVP o.b l = false)) →
     ∃ g', exec (.sctr o) s = .next (withGroup s c.gid g') ∧
       g' = { c.p.g with entries := c.movedOn false, drc := g'.drc, src := g'.src, sri := g'.sri } ∧
       ∀ l, l < 64 →
         (cget 0 g'.drc l = if bitOf (c.active o.hd) l ∧ o.minor ≠ 4 then c.p.g.rdV o.a l else cget 0 c.p.g.drc l) ∧
         (cget 0 g'.src l = if bitOf (c.active o.hd) l ∧ o.minor ≠ 2 then c.p.g.rdV (if o.minor = 0 then o.b else o.a) l
           else cget 0 c.p.g.src l) ∧
         (cget 0 g'.sri l = if bitOf (c.active o.hd) l ∧ o.minor ≠ 2 then 0 else cget 0 c.p.g.sri l))

/-! Control flow. -/

/-- NOP only moves its entry's pc on (R385); YIELD does, and notes that the entry
stands back and the group sits out its next turn; MJOIN pushes the record (rejoin pc,
mask, PRIO) for an entry with a lane that is no helper lane (R381); RGN sets the region start and the descriptor and takes the
snapshot of DRC, SRC, SRI and the rejoin stack (R40, R384), and does nothing in trap mode (R284). -/
def Obligations.StraightControl : Prop :=
  (∀ o s c, (Instr.nop o).wf = true → Ready s c o.hd {} → exec (.nop o) s = .next (c.goesOn s false id)) ∧
  (∀ o s c, (Instr.yieldHint o).wf = true → Ready s c o.hd {} →
    exec (.yieldHint o) s = .next (c.goesOn s false fun g => { g with yielded := some c.eid, sitOut := true })) ∧
  (∀ o s c, (Instr.mjoin o).wf = true → Ready s c o.hd {} → c.lanes ≠ 0 → c.p.g.tm = false → c.p.g.rejoin.length < 32 →
    targetFault s c (jTarget o c.e.pc) = none → ∃ s1, LooksUp s s1 ∧ exec (.mjoin o) s = .next (c.goesOn s1 false fun g =>
      { g with rejoin := ⟨jTarget o c.e.pc, c.e.mask, o.prio⟩ :: g.rejoin })) ∧
  (∀ o s c, (Instr.rgn o).wf = true → Ready s c o.hd { rgn := true } → c.p.g.tm = true →
    exec (.rgn o) s = .next (c.goesOn s false id)) ∧
  (∀ o s c bs s1, (Instr.rgn o).wf = true → Ready s c o.hd { rgn := true } → c.p.g.tm = false →
    o.imm.toNat + 168 ≤ c.p.l.rec0.cseglen → readDesc s c (c.p.l.rec0.cseg.toNat + o.imm.toNat) = .ok bs s1 →
    Live.ok bs c.p.l.rec0.regs = true →
    ∃ g', exec (.rgn o) s = .next (withGroup (dropFars s1 [1, c.gid]) c.gid g') ∧
      g' = { c.p.g with entries := g'.entries, snapDrc := g'.snapDrc, snapSrc := g'.snapSrc, snapSri := g'.snapSri,
                        rtime := g'.rtime } ∧
      (∀ l, l < 64 → bitOf c.e.mask l = true →
        cget 0 g'.snapDrc l = cget 0 c.p.g.drc l ∧ cget 0 g'.snapSrc l = cget 0 c.p.g.src l ∧
        cget 0 g'.snapSri l = cget 0 c.p.g.sri l ∧ cget 0 g'.rtime l = s.stamp ∧
        Stands g' l (nextPc c.e.pc) { c.e with rstart := c.e.pc }) ∧
      ((∀ x ∈ c.p.g.entries, x.2.pc ≠ nextPc c.e.pc) → c.e.mask ≠ 0 → ∃ x ∈ g'.entries, x.2 = { c.e with
        pc := nextPc c.e.pc, rstart := c.e.pc, lidp := c.p.l.rec0.cseg + o.imm.setWidth 64, snapStack := c.p.g.rejoin,
        snapTime := s.stamp, irr := false }))

/-- BRA takes the lanes its KIND says to its target (R379); CALL its active lanes, and writes the link, a point, in them (R380); BRX
and RET take each active lane to the pc in its pair (R380). Every other lane of the entry goes on to the next instruction, and no
other entry's lanes move (R378).
Rests on the model's own choices: log entry 173. -/
def Obligations.Branches : Prop :=
  (∀ o s c, (Instr.bra o).wf = true → Ready s c o.hd {} → targetFault s c (jTarget o c.e.pc) = none →
    ∃ s1 g', LooksUp s s1 ∧ exec (.bra o) s = .next (withGroup s1 c.gid g') ∧ frontierRest g' = frontierRest c.p.g ∧
      LanesGo c g' fun l =>
        if (match o.kind with
          | .perLane => bitOf (c.active o.hd) l
          | .any => (lanesOf (c.active o.hd)).any fun q => !bitOf c.helpers q
          | .all => (lanesOf c.e.mask).all fun q => bitOf c.helpers q || bitOf (c.active o.hd) q) = true
        then some (jTarget o c.e.pc) else none) ∧
  (∀ o s c, (Instr.call o).wf = true → Ready s c o.hd { vw := [o.d, o.d + 1] } → targetFault s c (jTarget o c.e.pc) = none →
    ∃ s1 g', LooksUp s s1 ∧ exec (.call o) s = .next (withGroup s1 c.gid g') ∧
      frontierRest g' = frontierRest { c.p.g with v := g'.v, vp := g'.vp, side := g'.side } ∧
      (LanesGo c g' fun l => if bitOf (c.active o.hd) l = true then some (jTarget o c.e.pc) else none) ∧
      ∀ r l, l < 64 → if bitOf (c.active o.hd) l = true ∧ (r = o.d ∨ r = o.d + 1) then
          g'.rdV r l = (if r = o.d then loWord (nextPc c.e.pc) else hiWord (nextPc c.e.pc)) ∧ g'.rdVP r l = false ∧
            (c.p.dist = true → g'.rdSide r l = 0)
        else g'.rdV r l = c.p.g.rdV r l ∧ g'.rdVP r l = c.p.g.rdVP r l ∧ g'.rdSide r l = c.p.g.rdSide r l) ∧
  (∀ o i s c, i = Instr.brx o ∨ i = Instr.ret o → i.wf = true → Ready s c o.hd { vr := [o.d, o.d + 1] } →
    (∀ l ∈ lanesOf (c.real o.hd), (Opnd.pair o.d).poison c.p.g l = none ∧ targetFault s c (c.p.g.rdV2 o.d l) = none) →
    (∀ l ∈ lanesOf (c.active o.hd), targetWaits s c [c.p.g.rdV2 o.d l] = none) →
    ∃ s1 g', LooksUp s s1 ∧ exec i s = .next (withGroup s1 c.gid g') ∧ frontierRest g' = frontierRest c.p.g ∧
      LanesGo c g' fun l =>
        if bitOf (c.active o.hd) l = true ∧ (Opnd.pair o.d).poison c.p.g l = none ∧ targetFault s c (c.p.g.rdV2 o.d l) = none then
          some (c.p.g.rdV2 o.d l)
        else none)

/-- JOIN parks its entry at the top record till the lanes parked there and the lanes that exited cover the record's mask. Then the
record is popped, and every lane parked at that JOIN goes on at the next instruction with the record's PRIO; so do those of an outer
record that is covered as well, and the stack is what that leaves (R382).
EXIT retires its active lanes for good, with the helper lanes of quads left without another lane (R13, R383): no entry holds an
exited lane, the entry's other lanes go on, registers and memory stay, and a group left without a live lane is done.
Rests on the model's own choices: log entry 55. -/
def Obligations.JoinAndExit : Prop :=
  (∀ o s c t rest, (Instr.join o).wf = true → Ready s c o.hd {} → c.p.g.tm = false → c.p.g.rejoin = t :: rest → t.pc = c.e.pc →
     c.e.mask &&& ~~~t.mask = 0 → c.p.g.rejoin.length ≤ 32 →
     ∃ g', exec (.join o) s = .next (withGroup s c.gid g') ∧ frontierRest g' = frontierRest { c.p.g with rejoin := g'.rejoin } ∧
       (t.mask &&& ~~~(joinedAt c.p.g c.e.pc ||| c.e.mask) = 0 →
         g'.rejoin = stackLeft c.p.g [c.e.pc] rest ∧
         (∀ x, x = (c.eid, c.e) ∨ (x ∈ c.p.g.entries ∧ x.2.park = some .join ∧ x.2.pc = c.e.pc) → ∀ l, bitOf x.2.mask l = true →
           ∃ y ∈ g'.entries, bitOf y.2.mask l = true ∧ y.2.pc = nextPc c.e.pc ∧ y.2.rstart = x.2.rstart ∧ y.2.handler = x.2.handler ∧
             y.2.counted = x.2.counted ∧ y.2.park = none ∧ t.prio ≤ y.2.prio) ∧
         ∀ x ∈ c.p.g.entries, x.1 ≠ c.eid → ∀ l, bitOf x.2.mask l = true →
           (x.2.park ≠ some .join → Stands g' l x.2.pc x.2) ∧
           (x.2.park = some .join → x.2.pc ≠ c.e.pc → Stands g' l x.2.pc x.2 ∨ Stands g' l (nextPc x.2.pc) x.2)) ∧
       (t.mask &&& ~~~(joinedAt c.p.g c.e.pc ||| c.e.mask) ≠ 0 →
         g'.rejoin = t :: rest ∧
         (∀ l, bitOf c.e.mask l = true → ∃ y ∈ g'.entries, bitOf y.2.mask l = true ∧ y.2.pc = c.e.pc ∧ y.2.park = some .join) ∧
         ∀ x ∈ c.p.g.entries, x.1 ≠ c.eid → ∀ l, bitOf x.2.mask l = true →
           ∃ y ∈ g'.entries, bitOf y.2.mask l = true ∧ y.2.pc = x.2.pc ∧ y.2.park = x.2.park)) ∧
  (∀ o s c, (Instr.exit o).wf = true → Ready s c o.hd {} → c.p.g.tm = false → c.p.g.guardRep = none →
     ∃ t g', exec (.exit o) s = .next t ∧ tget t.groups c.gid = some g' ∧ t.mem = s.mem ∧ t.areqs = s.areqs ∧
       frontierRest g' = frontierRest { c.p.g with exited := g'.exited, rejoin := g'.rejoin, done := g'.done } ∧
       (∀ l, l < 64 → (bitOf g'.exited l = true ↔ bitOf (c.p.g.exited ||| c.active o.hd) l = true ∨
         (bitOf c.helpers l = true ∧ ∀ i, i < 4 → bitOf c.helpers (l / 4 * 4 + i) = true ∨
           bitOf (c.p.g.exited ||| c.active o.hd) (l / 4 * 4 + i) = true))) ∧
       (∀ x ∈ g'.entries, x.2.mask &&& g'.exited = 0) ∧
       (∀ l, l < 64 → bitOf c.e.mask l = true → bitOf g'.exited l = false → Stands g' l (nextPc c.e.pc) c.e) ∧
       (liveLanes g' = 0 → g'.done = true))

/-! Memory. -/

/-- LD completes whatever its addresses translate to: memory stays and the result is in flight with its registers pending (R172, R330).
A lane that finds its bytes gets them, extended as the size says, with sidecars in the sidecar form (R322, R331); a lane whose base
is poisoned gets that poison (R325), a lane whose translation fails gets poison that a record describes (R162, R326). A uniform load
reads once, and what it read is in its registers for every instruction issued after it (R183, R330).
Rests on the model's own choices: log entries 33, 34, 36. -/
def Obligations.Loads : Prop :=
  (∀ o s c, (Instr.ld o).wf = true → o.basek = false → Ready s c o.hd { vr := (memBase o).vregs, vw := dataRegs o o.d } →
    Undisturbed s c →
    EachAlone s c o (sideOf o) .read ((lanesOf (c.active o.hd)).filter fun l => ((memBase o).poison c.p.g l).isNone) →
    (∀ l ∈ lanesOf (c.real o.hd), (memBase o).poison c.p.g l = none → (fateOf s c o (sideOf o) .read l).faults = false) →
    ∃ t g' x, exec (.ld o) s = .next t ∧ tget t.groups c.gid = some g' ∧ t.mem = s.mem ∧ t.blocks = s.blocks ∧
      g' = { c.p.g with entries := c.movedOn false, inflight := c.p.g.inflight ++ [x], prq := g'.prq, guardRep := g'.guardRep,
                        lastPage := g'.lastPage } ∧
      x.vregs = dataRegs o o.d ∧ x.lanes = c.active o.hd ∧
      ∀ l i, l < 64 → bitOf (c.active o.hd) l = true → i < o.size.regs →
        (∀ idx, (memBase o).poison c.p.g l = some idx → (deliverOne c.p.dist g' x).rdVP (o.d + i) l = true ∧
          poisonIdx ((deliverOne c.p.dist g' x).rdV (o.d + i) l) = idx % 64) ∧
        ((memBase o).poison c.p.g l = none →
          (∀ k va, fateOf s c o (sideOf o) .read l = .xfail k va → (deliverOne c.p.dist g' x).rdVP (o.d + i) l = true ∧
            ∃ r, tget g'.prq (poisonIdx ((deliverOne c.p.dist g' x).rdV (o.d + i) l)) = some r ∧ bitOf r.mask l = true ∧
              (r.kind = k ∨ r.kind = 0xF)) ∧
          (∀ bs, LoadSees s c o l bs → NoneAbsent s c o → (o.space = .global ∨ o.space = .const → FirstTouch c o l) →
            (deliverOne c.p.dist g' x).rdV (o.d + i) l = loadedWord o bs i ∧
            (deliverOne c.p.dist g' x).rdVP (o.d + i) l = false ∧
            (c.p.dist = true → (deliverOne c.p.dist g' x).rdSide (o.d + i) l = loadedSide o bs i)))) ∧
  (∀ o s c l bs, (Instr.ld o).wf = true → o.basek = true → Ready s c o.hd { vr := (memBase o).vregs } → Undisturbed s c →
    lowLane (c.real o.hd) = some l → LoadSees s c o l bs → (∀ x ∈ c.p.g.inflight, x.kregs = dataRegs o o.d → x.req = 0) →
    ∃ t g', exec (.ld o) s = .next t ∧ tget t.groups c.gid = some g' ∧ t.mem = s.mem ∧ t.blocks = s.blocks ∧
      g' = { c.p.g with entries := c.movedOn false, k := g'.k, inflight := g'.inflight, guardRep := g'.guardRep,
                        lastPage := g'.lastPage } ∧
      (∀ i, i < o.size.regs → g'.rdK (o.d + i) = loadedWord o bs i) ∧ ∀ r, r ∉ dataRegs o o.d → g'.rdK r = c.p.g.rdK r)

/-- ST to memory or to a scratchpad, or of a launch that stages nothing: every lane's bytes are in their place when no page on the way
is closed and no line is absent, the highest lane's where two meet (R328, R330); nothing else of memory or of a scratchpad changes,
and no register (R324). A launch that stages keeps the stores for the sieve, and memory stays (R338).
Rests on the model's own choices: log entries 34, 36. -/
def Obligations.Stores : Prop :=
  (∀ o s c, (Instr.st o).wf = true →
    Ready s c o.hd { vr := (memBase o).vregs ++ dataRegs o o.b, irr := o.space == .fabric } → Undisturbed s c →
    (∀ l ∈ lanesOf (c.real o.hd), (∀ x ∈ memBase o :: (dataRegs o o.b).map Opnd.v, x.poison c.p.g l = none) ∧
      (fateOf s c o (sideOf o) .write l).passes) → EachAlone s c o (sideOf o) .write (lanesOf (c.real o.hd)) →
    (c.p.staged = false ∨ (o.space ≠ .global ∧ o.space ≠ .fabric)) →
    ∃ t g', exec (.st o) s = .next t ∧ tget t.groups c.gid = some g' ∧
      g' = { c.p.g with entries := g'.entries, snapDrc := g'.snapDrc, snapSrc := g'.snapSrc, snapSri := g'.snapSri,
                        rtime := g'.rtime, guardRep := g'.guardRep, lastPage := g'.lastPage } ∧
      (∀ l, l < 64 → bitOf c.e.mask l = true → Stands g' l (nextPc c.e.pc)
        (if o.space = .fabric ∧ c.p.g.tm = false then { c.e with rstart := nextPc c.e.pc } else c.e)) ∧
      (∀ a, (∀ l ∈ lanesOf (c.real o.hd), ∀ x, storeTgt s c o l = some x → ¬ tgtBytes s x (moveBytes o (sideOf o)) a) →
        cget memDefault t.mem a = cget memDefault s.mem a) ∧
      (∀ bid b, tget s.blocks bid = some b → ∃ b', tget t.blocks bid = some b' ∧ ∀ off,
        (∀ l ∈ lanesOf (c.real o.hd), ∀ x, storeTgt s c o l = some (.sp bid x) → ¬(x ≤ off ∧ off < x + moveBytes o (sideOf o))) →
        cget 0 b'.spad off = cget 0 b.spad off) ∧
      ((∀ q ∈ lanesOf (c.real o.hd), ∃ x, storeTgt s c o q = some x ∧ tgtClosed s x = false ∧
          tgtAbsent s x (moveBytes o (sideOf o)) = false) →
        ∀ l ∈ lanesOf (c.real o.hd), ∀ i, i < moveBytes o (sideOf o) →
          (∀ k off, storeTgt s c o l = some (.line (.plain k) off) → off + moveBytes o (sideOf o) ≤ 128 →
            (∀ q ∈ lanesOf (c.real o.hd), l < q → ∀ x, storeTgt s c o q = some x →
              ¬ tgtBytes s x (moveBytes o (sideOf o)) (k + off + i)) →
            cget memDefault t.mem (k + off + i) = (storeBytes c o (sideOf o) l).getD i 0) ∧
          (∀ bid x b, storeTgt s c o l = some (.sp bid x) → tget s.blocks bid = some b → spByte b.asize (x + i) = .inside →
            (∀ q ∈ lanesOf (c.real o.hd), l < q → ∀ y, storeTgt s c o q = some (.sp bid y) →
              ¬(y ≤ x + i ∧ x + i < y + moveBytes o (sideOf o))) →
            ∃ b', tget t.blocks bid = some b' ∧ cget 0 b'.spad (x + i) = (storeBytes c o (sideOf o) l).getD i 0))) ∧
  (∀ o s c, (Instr.st o).wf = true →
    Ready s c o.hd { vr := (memBase o).vregs ++ dataRegs o o.b, irr := o.space == .fabric } → Undisturbed s c →
    (∀ l ∈ lanesOf (c.real o.hd), (∀ x ∈ memBase o :: (dataRegs o o.b).map Opnd.v, x.poison c.p.g l = none) ∧
      (fateOf s c o (sideOf o) .write l).passes) → EachAlone s c o (sideOf o) .write (lanesOf (c.real o.hd)) →
    c.p.staged = true → c.p.l.rec0.red = false → c.p.b.direct = false → c.p.b.extra = none → c.p.ga.st = .resident →
    (o.space = .global ∨ o.space = .fabric) → coreStaged s c.core + 512 ≤ bufferCap →
    ∃ t g' b', exec (.st o) s = .next t ∧ tget t.groups c.gid = some g' ∧ tget t.blocks c.p.g.bid = some b' ∧ t.mem = s.mem ∧
      g' = { c.p.g with entries := g'.entries, snapDrc := g'.snapDrc, snapSrc := g'.snapSrc, snapSri := g'.snapSri,
                        rtime := g'.rtime, lastPage := g'.lastPage } ∧
      b' = { c.p.b with
        ticket := if c.p.b.ticket = some (c.gid, c.eid) then none else c.p.b.ticket,
        staged := c.p.b.staged ++ (lanesOf (c.real o.hd)).map fun l =>
          ⟨c.p.g.gidx, l, s.stamp, 0, o.space == .fabric, (memAddr o c.p.g l).toNat, moveBytes o (sideOf o),
           storeBytes c o (sideOf o) l, 0, false, lanePart s c.p l, laneCls s c o l, s.stamp⟩ })

/-- In a launch that stages nothing, ALD, AST, ATOM, DCAS and AMOV complete: they leave as one request for each lane, and what they return
is on its way (R333-R337); helper lanes send none but ALD's (R13). The region of an irrevocable one stays open till they
are performed; in fabric space, or with no request, it commits at once (R42, R44).
Rests on the model's own choices: log entries 34, 36. -/
def Obligations.AtomicsLeave : Prop :=
  (∀ o s c, (Instr.ald o).wf = true → Ready s c o.hd { vr := (memBase o).vregs, vw := dataRegs o o.d } → Undisturbed s c →
    c.p.staged = false →
    (∀ l ∈ lanesOf (c.active o.hd), (memBase o).poison c.p.g l = none ∧ (fateOf s c o false .read l).passes) →
    EachAlone s c o false .read (lanesOf (c.active o.hd)) →
    ∃ t, exec (.ald o) s = .next t ∧ Left s c o false (dataRegs o o.d) ((lanesOf (c.active o.hd)).map fun l =>
      ⟨s.nextId, c.gid, l, 2, 0, 0, o.size.bytes, o.space, memAddr o c.p.g l, 0, [], true, o.d, false, false, 0, 0, true, []⟩) t) ∧
  (∀ o s c, (Instr.ast o).wf = true → Ready s c o.hd { vr := (memBase o).vregs ++ dataRegs o o.b, irr := true } → Undisturbed s c →
    c.p.staged = false →
    (∀ l ∈ lanesOf (c.real o.hd), (∀ x ∈ memBase o :: (dataRegs o o.b).map Opnd.v, x.poison c.p.g l = none) ∧
      (fateOf s c o false .write l).passes) → EachAlone s c o false .write (lanesOf (c.real o.hd)) →
    ∃ t, exec (.ast o) s = .next t ∧ Left s c o true [] ((lanesOf (c.real o.hd)).map fun l =>
      ⟨s.nextId, c.gid, l, 1, 0, 0, o.size.bytes, o.space, memAddr o c.p.g l, 0, [ofBytes (storeBytes c o false l)], false, 0,
       false, false, 0, 0, true, []⟩) t) ∧
  (∀ o s c, (Instr.atom o).wf = true →
    Ready s c o.hd { vr := (memBase o).vregs ++ atomOpRegs o, vw := if atomNr o.sub then [] else dataRegs o o.d, irr := true } →
    Undisturbed s c → c.p.staged = false → NoEnables c o.hd →
    (∀ l ∈ lanesOf (c.real o.hd), (∀ x ∈ memBase o :: (atomOpRegs o).map Opnd.v, x.poison c.p.g l = none) ∧
      (fateOf s c o false .atomic l).passes) → EachAlone s c o false .atomic (lanesOf (c.real o.hd)) →
    ∃ t, exec (.atom o) s = .next t ∧ Left s c o true (if atomNr o.sub then [] else dataRegs o o.d) ((lanesOf (c.real o.hd)).map fun l =>
      ⟨s.nextId, c.gid, l, 0, atomAop o.sub, atomTy o.sub, o.size.bytes, o.space, memAddr o c.p.g l, 0, (atomArgs c.p.g o l).1,
       !atomNr o.sub, o.d, false, false, 0, 0, true, []⟩) t) ∧
  (∀ o s c, (Instr.dcas o).wf = true → Ready s c o.hd (twoTouch o 4 2) → Undisturbed s c → c.p.staged = false → TwoClean s c o 4 →
    ∃ t, exec (.dcas o) s = .next t ∧ Left s c o true ((List.range (2 * o.size.regs)).map fun j => o.d + j) (twoReqs s c o 3 4) t) ∧
  (∀ o s c, (Instr.amov o).wf = true → Ready s c o.hd (twoTouch o 1 1) → Undisturbed s c → c.p.staged = false → TwoClean s c o 1 →
    ∃ t, exec (.amov o) s = .next t ∧ Left s c o true ((List.range (1 * o.size.regs)).map fun j => o.d + j) (twoReqs s c o 4 1) t)

/-- A request takes effect at its place (R316, R335, R337): ATOM replaces the location's value by its operation and returns the old
one, AST writes it, ALD reads it; two merged requests act as one after the other (R317, R318); DCAS replaces both values when both
compare equal; AMOV moves one location to another and replaces it. Nothing else of memory changes. -/
def Obligations.AtomicEffects : Prop :=
  (∀ s i r a, Acts s i r → r.kind = 0 → r.op ≤ 11 → r.ty ≤ 1 → r.size = 4 ∨ r.size = 8 → LandsPlain s r r.addr a →
    (∀ b ∈ r.opnd, b < 2 ^ (8 * r.size)) →
    ∃ t, exec (.atomicTakeEffect (.one i)) s = .next t ∧
      Puts s t [(a, r.size, atomNew r.op r.ty (8 * r.size) (ofBytes (s.rdMem a r.size)) (r.opnd.getD 0 0) (r.opnd.getD 1 0))] ∧
      Returned s t r (valueDests r.dreg r.lane r.size (ofBytes (s.rdMem a r.size))) ∧
      ∀ q ∈ t.areqs, q ∈ s.areqs ∧ ¬(q.id = r.id ∧ q.lane = r.lane)) ∧
  (∀ s i r a, Acts s i r → r.kind = 1 → r.opnd.getD 0 0 < 2 ^ (8 * r.size) → LandsPlain s r r.addr a →
    ∃ t, exec (.atomicTakeEffect (.one i)) s = .next t ∧ Puts s t [(a, r.size, r.opnd.getD 0 0)]) ∧
  (∀ s i r a, Acts s i r → r.kind = 2 → LandsPlain s r r.addr a →
    ∃ t, exec (.atomicTakeEffect (.one i)) s = .next t ∧ t.mem = s.mem ∧
      Returned s t r (valueDests r.dreg r.lane r.size (ofBytes (s.rdMem a r.size)))) ∧
  (∀ s i j a b k, i ≠ j → Acts s i a → Acts s j b → (∀ x ∈ [a, b], mayMerge s a x = true ∧ mayMerge s x a = true) → a.op ≤ 11 →
    a.ty ≤ 1 → a.size = 4 ∨ a.size = 8 → LandsPlain s a a.addr k →
    (∀ x ∈ [a, b], ∃ v, x.opnd = [v] ∧ v < 2 ^ (8 * a.size)) →
    let f := fun x y => atomNew a.op a.ty (8 * a.size) x y 0
    let old := ofBytes (s.rdMem k a.size)
    ∃ t, exec (.atomicTakeEffect (.two (.one i) (.one j))) s = .next t ∧
      Puts s t [(k, a.size, f old (f (a.opnd.getD 0 0) (b.opnd.getD 0 0)))] ∧
      Returned s t a (valueDests a.dreg a.lane a.size old) ∧
      Returned s t b (valueDests b.dreg b.lane b.size (f old (a.opnd.getD 0 0)))) ∧
  (∀ s i r a b, Acts s i r → r.kind = 3 → r.size = 4 ∨ r.size = 8 → LandsPlain s r r.addr a → LandsPlain s r r.addr2 b →
    (a + r.size ≤ b ∨ b + r.size ≤ a) → (∀ x ∈ r.opnd, x < 2 ^ (8 * r.size)) →
    let x := ofBytes (s.rdMem a r.size)
    let y := ofBytes (s.rdMem b r.size)
    ∃ t, exec (.atomicTakeEffect (.one i)) s = .next t ∧
      Puts s t (if x = r.opnd.getD 0 0 ∧ y = r.opnd.getD 2 0 then [(a, r.size, r.opnd.getD 1 0), (b, r.size, r.opnd.getD 3 0)] else []) ∧
      Returned s t r (valueDests r.dreg r.lane r.size x ++ valueDests (r.dreg + r.size / 4) r.lane r.size y)) ∧
  (∀ s i r a b, Acts s i r → r.kind = 4 → r.size = 4 ∨ r.size = 8 → LandsPlain s r r.addr a → LandsPlain s r r.addr2 b →
    (a + r.size ≤ b ∨ b + r.size ≤ a) → r.opnd.getD 0 0 < 2 ^ (8 * r.size) →
    let x := ofBytes (s.rdMem a r.size)
    ∃ t, exec (.atomicTakeEffect (.one i)) s = .next t ∧ Puts s t [(a, r.size, r.opnd.getD 0 0), (b, r.size, x)] ∧
      Returned s t r (valueDests r.dreg r.lane r.size x))

/-- FENCE goes on at once when the group has no access outstanding at its scope, whatever its guard, and else holds the whole group
(R340); tried again, it does the same and has not issued twice (R373). PREF, CWB and CINV go on and change no register of a group and no byte of memory (R339): after CWB its lines are clean, after CINV they
have left this core's L1 and, under `.l2`, their slice.
Rests on the model's own choices: log entries 34, 35. -/
def Obligations.FencesAndHints : Prop :=
  (∀ o s c, (Instr.fence o).wf = true → Ready s c { o.hd with guard := .always } {} →
    (c.p.g.fence ≠ some c.eid →
      (unperformed s c.gid o.scope = false → exec (.fence o) s = .next (c.goesOn s false fun g => { g with fence := none })) ∧
      (unperformed s c.gid o.scope = true → exec (.fence o) s = .next (withGroup s c.gid { c.p.g with
        entries := tset c.p.g.entries c.eid { c.e with park := some .retry }, fence := some c.eid }))) ∧
    (c.p.g.fence = some c.eid →
      (unperformed s c.gid o.scope = false → ∃ g, Unissued s (withGroup (unissue s c.gid) c.gid g) c c.p.g ∧
        exec (.fence o) s = .next (({ c with p := { c.p with g := g } } : Ctx).goesOn (unissue s c.gid) false fun g => { g with fence := none })) ∧
      (unperformed s c.gid o.scope = true → ∃ t, exec (.fence o) s = .next t ∧ Parks s t c .retry))) ∧
  (∀ i o s c, i = Instr.pref o ∨ i = Instr.cwb o ∨ i = Instr.cinv o → i.wf = true → Ready s c o.hd { vr := (memBase o).vregs } →
    ∃ t, exec i s = .next t ∧ t = { c.goesOn s false id with l1 := t.l1, l2 := t.l2, tally := t.tally, hreg := t.hreg } ∧
      ∀ l k off, bitOf (c.active o.hd) l = true → l < 64 → (memBase o).poison c.p.g l = none →
        locate s c.p (some l) o.space (memAddr o c.p.g l) 1 .read = .ok (.line (.plain k) off, none) → k % 128 = 0 →
        (i = .cwb o → ∀ y ∈ t.l2, y.line = k → y.dirty = false) ∧
        (i = .cinv o → (∀ y ∈ l1Of t c.core, y.line ≠ k) ∧ (o.sub % 2 = 1 → ∀ y ∈ t.l2, y.line ≠ k)))

/-! Queues, rings, barriers and tables. -/

/-- A push enters its command as the register's newest, with its argument block, its lane payload and its sequence number, and
commits the region (R44, R388, R389, R391): QPUSH, MOV to a queue register (R393) and COPY (R401).
Rests on the model's own choices: log entry 135. -/
def Obligations.Pushes : Prop :=
  (∀ o s c, (Instr.qpush o).wf = true → Ready s c o.hd { vr := if o.sub % 2 = 1 then [o.b] else [], irr := true } → c.real o.hd ≠ 0 →
    TakesPush c o.qn (if o.oce then some o.ocn else none) (if o.sub / 2 % 2 = 1 then some o.ring else none) →
    (c.p.l.rec0.red = false ∨ o.qn < 4) → (o.sub % 2 = 1 → ∀ l ∈ lanesOf (c.real o.hd), c.p.g.rdVP o.b l = false) →
    ∃ g' x, exec (.qpush o) s = .next (withGroup s c.gid g') ∧
      EndsRegion c { c.p.g with qs := g'.qs, oc := g'.oc, ocIssued := g'.ocIssued } g' ∧
      Enters c o.qn (if o.oce then some o.ocn else none) g' x ∧ x.code = o.cmd ∧
      x.args = (List.range 8).map (fun i => c.p.g.rdK (o.a + i)) ∧ x.ring = (if o.sub / 2 % 2 = 1 then some o.ring else none) ∧
      (o.sub % 2 = 1 → x.pmask = c.real o.hd ∧ x.payload.length = 64 ∧ ∀ l, l < 64 → (x.payload.getD l (0, 0)).1 =
        if bitOf (c.real o.hd) l = true then c.p.g.rdV o.b l else 0)) ∧
  (∀ o s c, (Instr.movToQueue o).wf = true → Ready s c o.hd { vr := [o.a], irr := true } → c.real o.hd ≠ 0 →
    TakesPush c (o.d - 0x3F0) none none → (c.p.l.rec0.red = false ∨ o.d - 0x3F0 < 4) →
    (∀ l ∈ lanesOf (c.real o.hd), c.p.g.rdVP o.a l = false) →
    ∃ g' x, exec (.movToQueue o) s = .next (withGroup s c.gid g') ∧ EndsRegion c { c.p.g with qs := g'.qs } g' ∧
      Enters c (o.d - 0x3F0) none g' x ∧ x.code = 0 ∧ x.args = List.replicate 8 0 ∧ x.ring = none ∧ x.pmask = c.real o.hd ∧
      ∀ l, l < 64 → (x.payload.getD l (0, 0)).1 = if bitOf (c.real o.hd) l = true then c.p.g.rdV o.a l else 0) ∧
  (∀ o s c, (Instr.copy o).wf = true → Ready s c o.hd { irr := true } → c.lanes ≠ 0 →
    TakesPush c o.qn (if o.oce then some o.ocn else none) (some o.ring) → liveLanes c.p.g &&& ~~~c.e.mask = 0 →
    ∃ g' x, exec (.copy o) s = .next (withGroup s c.gid g') ∧
      EndsRegion c { c.p.g with qs := g'.qs, oc := g'.oc, ocIssued := g'.ocIssued } g' ∧
      Enters c o.qn (if o.oce then some o.ocn else none) g' x ∧ x.ring = some o.ring ∧
      x.args = (List.range 24).map fun i => c.p.g.rdK (o.a + i))

/-- QPOP, QTRY and MOV from a queue register take the oldest completion and put its words in flight to the active lanes (R392, R393);
QTRY on an empty queue writes zeros and a false predicate, and commits nothing (R42, R44).
Rests on the model's own choices: log entry 56. -/
def Obligations.Pops : Prop :=
  (∀ o s c ws rest, (Instr.qpop o).wf = true → Ready s c o.hd { vw := (List.range 4).map fun i => o.d + i, irr := true } →
    c.real o.hd ≠ 0 → c.p.g.tm = false → o.qn < 12 → (qreg c.p.g o.qn).comps = ws :: rest → ws.length = 4 →
    ∃ g' x, exec (.qpop o) s = .next (withGroup s c.gid g') ∧
      EndsRegion c { c.p.g with qs := g'.qs, inflight := c.p.g.inflight ++ [x] } g' ∧
      qreg g' o.qn = { qreg c.p.g o.qn with comps := rest } ∧ x.ready = true ∧ x.vregs = (List.range 4).map (fun i => o.d + i) ∧
      x.lanes = c.active o.hd ∧
      ∀ i, i < 4 → LanesHold c o.hd (deliverOne c.p.dist g' x) (o.d + i) fun _ => ws.getD i 0) ∧
  (∀ o s c, (Instr.qtry o).wf = true → Ready s c o.hd { vw := (List.range 4).map fun i => o.d + i, pw := [o.c], irr := true } →
    c.real o.hd ≠ 0 → c.p.g.tm = false → o.qn < 12 → (∀ ws ∈ (qreg c.p.g o.qn).comps, ws.length = 4) →
    ∃ g' x, exec (.qtry o) s = .next (withGroup s c.gid g') ∧
      ((qreg c.p.g o.qn).comps ≠ [] → EndsRegion c { c.p.g with qs := g'.qs, inflight := c.p.g.inflight ++ [x] } g') ∧
      ((qreg c.p.g o.qn).comps = [] → g' = { c.p.g with entries := g'.entries, inflight := c.p.g.inflight ++ [x] } ∧
        ∀ l, l < 64 → bitOf c.e.mask l = true → Stands g' l (nextPc c.e.pc) c.e) ∧
      (qreg g' o.qn).comps = (qreg c.p.g o.qn).comps.drop 1 ∧ x.ready = true ∧ x.pregs = [o.c] ∧
      ∀ l, l < 64 → bitOf (c.active o.hd) l = true →
        (deliverOne c.p.dist g' x).rdP o.c l = !(qreg c.p.g o.qn).comps.isEmpty ∧
        ∀ i, i < 4 → (deliverOne c.p.dist g' x).rdV (o.d + i) l = ((qreg c.p.g o.qn).comps.headD [0, 0, 0, 0]).getD i 0) ∧
  (∀ o s c ws rest, (Instr.movFromQueue o).wf = true → Ready s c o.hd { vw := [o.d], irr := true } →
    c.real o.hd ≠ 0 → c.p.g.tm = false → o.a - 0x3F0 < 12 → (qreg c.p.g (o.a - 0x3F0)).comps = ws :: rest → ws ≠ [] →
    ∃ g' x, exec (.movFromQueue o) s = .next (withGroup s c.gid g') ∧
      EndsRegion c { c.p.g with qs := g'.qs, inflight := c.p.g.inflight ++ [x] } g' ∧
      (qreg g' (o.a - 0x3F0)).comps = rest ∧ x.vregs = [o.d] ∧
      LanesHold c o.hd (deliverOne c.p.dist g' x) o.d fun _ => ws.getD 0 0)

/-- RAWAIT delivers the offset of a filled slot RP and leaves the ring (R399); RAREL clears the slot's word 0 and moves RP and CNT;
RAREL.init lays the ring out and clears word 0 of every slot (R397, R400).
Rests on the model's own choices: log entry 57. -/
def Obligations.Rings : Prop :=
  (∀ o s c r, (Instr.rawait o).wf = true → Ready s c o.hd (writeForm o.hd o.d).touch → c.p.g.tm = false → ringOf c.p o.ring = some r →
    ringFull c.p.b r = true →
    ∃ g', exec (.rawait o) s = .next (withGroup s c.gid g') ∧ LaneFrame (writeForm o.hd o.d) c g' ∧
      LanesHold c o.hd g' o.d fun _ => BitVec.ofNat 32 (r.base + r.rp * (16 * (r.sm1 + 1)))) ∧
  (∀ o s c r, (Instr.rarel o).wf = true → Ready s c o.hd { irr := true } → c.real o.hd ≠ 0 → c.p.g.tm = false →
    ringOf c.p o.ring = some r → ringFull c.p.b r = true →
    ∃ g' b', exec (.rarel o) s = .next (withGroup { s with blocks := tset s.blocks c.p.g.bid b' } c.gid g') ∧
      EndsRegion c c.p.g g' ∧
      b' = { c.p.b with spad := b'.spad, badWords := b'.badWords,
                        rings := tset c.p.b.rings o.ring { r with rp := (r.rp + 1) % (r.nm1 + 1), cnt := r.cnt - 1 } } ∧
      ofBytes (b'.rdSp (r.at r.rp) 4) = 0 ∧
      ∀ a, a < r.at r.rp ∨ r.at r.rp + 4 ≤ a → cget 0 b'.spad a = cget 0 c.p.b.spad a) ∧
  (∀ o s c, (Instr.rarelInit o).wf = true → Ready s c o.hd { irr := true } → c.real o.hd ≠ 0 → c.p.g.tm = false →
    o.ring < c.p.l.rec0.ringn → (∀ x, tget c.p.b.rings o.ring = some x → x.cnt = 0) → ringNamed s c.p o.ring = false →
    (c.p.g.rdK o.a).toNat < 2 ^ 20 → (c.p.g.rdK (o.a + 1)) &&& 0x7FFFC0F0 = 0 →
    (c.p.g.rdK o.a).toNat % 16 = 0 →
    (c.p.g.rdK o.a).toNat + ((c.p.g.rdK (o.a + 1)).toNat / 256 % 64 + 1) * (16 * ((c.p.g.rdK (o.a + 1)).toNat % 16 + 1)) ≤ c.p.b.asize →
    ∃ g' b', exec (.rarelInit o) s = .next (withGroup { s with blocks := tset s.blocks c.p.g.bid b' } c.gid g') ∧
      EndsRegion c c.p.g g' ∧
      b' = { c.p.b with spad := b'.spad, badWords := b'.badWords, rings := tset c.p.b.rings o.ring
                          ⟨(c.p.g.rdK o.a).toNat, true, (c.p.g.rdK (o.a + 1)).toNat / 256 % 64,
                           (c.p.g.rdK (o.a + 1)).toNat % 16, 0, 0, 0⟩ } ∧
      ∀ a, cget 0 b'.spad a = if ∃ i, i < (c.p.g.rdK (o.a + 1)).toNat / 256 % 64 + 1 ∧
          let w := (c.p.g.rdK o.a).toNat + i * (16 * ((c.p.g.rdK (o.a + 1)).toNat % 16 + 1))
          w ≤ a ∧ a < w + 4 then 0 else cget 0 c.p.b.spad a)

/-- BAR (R534): its lanes arrive at the current instance, unless one of them is recorded there already; `.sync` and a `.wait` for an
instance that is not complete park the entry, `.arv` and a `.wait` for a complete one go on. WAIT goes on once its counter is at most
the threshold, and parks before issue till then (R370, R535). -/
def Obligations.BarAndWait : Prop :=
  (∀ o s c, (Instr.wait o).wf = true → Ready s c o.hd {} → cget 0 c.p.g.oc o.ocn ≤ o.thr →
    exec (.wait o) s = .next (c.goesOn s false id)) ∧
  (∀ o s c, (Instr.wait o).wf = true → Ready s c o.hd {} → o.thr < cget 0 c.p.g.oc o.ocn →
    ∃ t, exec (.wait o) s = .next t ∧ Parks s t c .retry) ∧
  (∀ o s c, (Instr.bar o).wf = true → o.act = .arv → Ready s c o.hd { irr := true } → barFault o s c = none →
    (scopeBar s o.level (c.p.scope o.level) o.barn).latest c.gid c.e.mask ≠ (scopeBar s o.level (c.p.scope o.level) o.barn).inst + 1 →
    ∃ t g', exec (.bar o) s = .next t ∧ t.mem = s.mem ∧ tget t.groups c.gid = some g' ∧ EndsRegion c { c.p.g with bars := g'.bars } g' ∧
      scopeBar t o.level (c.p.scope o.level) o.barn =
        (scopeBar s o.level (c.p.scope o.level) o.barn).record c.gid c.e.mask) ∧
  (∀ o s c, (Instr.bar o).wf = true → o.act = .sync → Ready s c o.hd { irr := true } → barFault o s c = none →
    (scopeBar s o.level (c.p.scope o.level) o.barn).latest c.gid c.e.mask ≠ (scopeBar s o.level (c.p.scope o.level) o.barn).inst + 1 →
    ∃ t g', exec (.bar o) s = .next t ∧ t.mem = s.mem ∧ tget t.groups c.gid = some g' ∧
      frontierRest g' = frontierRest { c.p.g with bars := g'.bars, snapDrc := g'.snapDrc, snapSrc := g'.snapSrc,
                                                  snapSri := g'.snapSri, rtime := g'.rtime } ∧
      (∀ l, l < 64 → bitOf c.e.mask l = true → ∃ x ∈ g'.entries, bitOf x.2.mask l = true ∧ x.2.pc = c.e.pc ∧ x.2.counted = true ∧
        x.2.park = some (.barrier o.level o.barn (scopeBar s o.level (c.p.scope o.level) o.barn).inst false)) ∧
      scopeBar t o.level (c.p.scope o.level) o.barn =
        (scopeBar s o.level (c.p.scope o.level) o.barn).record c.gid c.e.mask) ∧
  (∀ o s c, (Instr.bar o).wf = true → o.act = .wait → Ready s c o.hd {} → barFault o s c = none →
    let b := scopeBar s o.level (c.p.scope o.level) o.barn
    (b.latest c.gid c.e.mask = b.inst + 1 →
      exec (.bar o) s = .next (withGroup s c.gid
        { c.p.g with entries := tset c.p.g.entries c.eid { c.e with park := some (.barrier o.level o.barn b.inst false) } })) ∧
    (b.latest c.gid c.e.mask ≠ b.inst + 1 → ∃ g' l1, exec (.bar o) s = .next (withGroup { s with l1 := l1 } c.gid g') ∧
      frontierRest g' = frontierRest c.p.g ∧
      ∀ l, l < 64 → bitOf c.e.mask l = true → Stands g' l (nextPc c.e.pc)
        (if b.latest c.gid c.e.mask = 0 then c.e else { c.e with counted := false })))

/-- TLBINV, RBIND, RUNBIND, PMAP and PDROP complete. TLBINV starts a sweep counted on oc7 (R482). RBIND and RUNBIND change their launch's
table and report a status (R353). PMAP takes the last frame off its pool and writes it into the leaf when the slot is free (R488, R489);
PDROP clears V of its leaves and puts their frames back on the pool as far as it has room; each leaves its result in kD.
Rests on the model's own choices: log entries 80, 81, 82, 83. -/
def Obligations.TableInstructions : Prop :=
  (∀ o s c, (Instr.tlbinvPage o).wf = true → Ready s c o.hd {} → c.real o.hd ≠ 0 → cget 0 c.p.g.oc 7 < 65535 →
    exec (.tlbinvPage o) s = .next (sweepFrom s c (some (c.p.g.rdK2 o.a).toNat))) ∧
  (∀ o s c, (Instr.tlbinvAsid o).wf = true → Ready s c o.hd {} → c.real o.hd ≠ 0 → cget 0 c.p.g.oc 7 < 65535 →
    exec (.tlbinvAsid o) s = .next (sweepFrom s c none)) ∧
  (∀ o s c, (Instr.rbind o).wf = true → Ready s c o.hd {} → c.real o.hd ≠ 0 → c.p.g.tm = false → c.p.l.rec0.red = false →
    let b : Binding := ⟨namedSpace (o.imm.toNat / 64 % 4), (c.p.g.rdK2 o.a).toNat, (c.p.g.rdK2 o.b).toNat,
      Level.ofCode (o.imm.toNat / 16 % 4), o.imm.toNat % 16⟩
    exec (.rbind o) s = .next (c.goesOn { s with launches := tset s.launches c.p.ga.lid { c.p.l with
        binds := if bindCode c.p.l b = 0 ∧ b ∉ c.p.l.binds then c.p.l.binds ++ [b] else c.p.l.binds } } false fun g =>
      g.wrK o.d (BitVec.ofNat 32 (bindCode c.p.l b)))) ∧
  (∀ o s c, (Instr.runbind o).wf = true → Ready s c o.hd {} → c.real o.hd ≠ 0 → c.p.g.tm = false → c.p.l.rec0.red = false →
    ∃ l', exec (.runbind o) s = .next (c.goesOn { s with launches := tset s.launches c.p.ga.lid l' } false fun g => g.wrK o.d 0) ∧
      l' = { c.p.l with binds := l'.binds } ∧
      ∀ x, x ∈ l'.binds ↔
        x ∈ c.p.l.binds ∧ ¬(x.base = (c.p.g.rdK2 o.a).toNat ∧ x.space = namedSpace (o.imm.toNat / 64 % 4))) ∧
  (∀ o s c, (Instr.pmap o).wf = true → Ready s c o.hd { irr := true } → c.real o.hd ≠ 0 → c.p.g.tm = false → c.p.l.rec0.red = false →
    mapBusy s c = false →
    let asid := c.p.l.rec0.asid
    let va := (c.p.g.rdK2 o.a).toNat
    ∃ s1 g' v, exec (.pmap o) s = .next (withGroup s1 c.gid g') ∧ EndsRegion c (c.p.g.wrK o.d v) g' ∧ s1.blocks = s.blocks ∧
      s1.groups = s.groups ∧
      (mapWin s asid (o.imm.toNat % 4) = none → s1 = s ∧ v = 0x50000000) ∧
      ∀ w, mapWin s asid (o.imm.toNat % 4) = some w →
        (w.holds va 1 = false → s1 = s ∧ v = 0x30000000) ∧
        (w.holds va 1 = true →
          (slotOf s asid va w.level = .broken → s1 = { s with l2 := s1.l2 } ∧ v = 0x40000000) ∧
          (slotOf s asid va w.level = .lost →
            ∃ s0 : State, s0 = { s with l2 := s0.l2 } ∧ s1 = s0.countErr true (coreDie s c.core) 9 ∧ v = 0x40000000) ∧
          (slotOf s asid va w.level = .larger → s1 = { s with l2 := s1.l2 } ∧ v = 0x10000000) ∧
          ∀ a, slotOf s asid va w.level = .at_ a →
            if bitOf (rdEntry s a).1 0 = true then s1 = { s with l2 := s1.l2 } ∧ v = 0x10000000
            else if poolCnt s w.pool = 0 then s1 = { s with l2 := s1.l2 } ∧ v = 0x20000000
            else
              let e := poolBase s w.pool + 16 * (poolCnt s w.pool - 1)
              v = 1 ∧ poolCnt s1 w.pool = poolCnt s w.pool - 1 ∧
                (e / 128 * 128 ∉ s.badLines →
                  rdEntry s1 a = (BitVec.ofNat 64 (fieldOf (rdEntry s e).1 9 41 * 512 + w.perm * 4 + 3), (rdEntry s e).2.1, w.attr)) ∧
                ∀ x, x < a ∨ a + 16 ≤ x → cget memDefault s1.mem x = cget memDefault s.mem x)) ∧
  (∀ o s c, (Instr.pdrop o).wf = true → Ready s c o.hd { irr := true } → c.real o.hd ≠ 0 → c.p.g.tm = false → c.p.l.rec0.red = false →
    mapBusy s c = false →
    let asid := c.p.l.rec0.asid
    let va := (c.p.g.rdK2 o.a).toNat
    let n := (c.p.g.rdK o.b).toNat
    let win := dropWin s c (o.imm.toNat % 4)
    dropReady s win asid va n = true →
    ∃ s1 g' v, exec (.pdrop o) s = .next (withGroup s1 c.gid g') ∧
      EndsRegion c ({ c.p.g with lastPage := g'.lastPage }.wrK o.d v) g' ∧ s1.blocks = s.blocks ∧
      (∀ k g, tget s.groups k = some g → ∃ g1, tget s1.groups k = some g1 ∧ g1 = { g with lastPage := g1.lastPage }) ∧
      (win = none → v = 0x50000000 ∧ s1 = { s with drops := s1.drops }) ∧
      ∀ w, win = some w →
        if n = 0 ∨ 2 ^ 20 < n ∨ w.holds va n = false then v = 0x30000000 ∧ s1 = { s with drops := s1.drops }
        else
          let ps := dropPages s win asid va n
          let cnt := poolCnt s w.pool
          let room := poolCap s w.pool - cnt
          let e := fun i => poolBase s w.pool + 16 * (cnt + i)
          v.toNat = ps.length + (if ps.length ≤ room then 0 else 6 * 2 ^ 28) ∧
            poolCnt s1 w.pool = cnt + min room ps.length ∧
            (∀ p ∈ ps, (∀ i, i < min room ps.length → e i ≠ p.1) →
              rdEntry s1 p.1 = ((rdEntry s p.1).1 &&& ~~~1, (rdEntry s p.1).2)) ∧
            (∀ i p, i < room → ps[i]? = some p →
              rdEntry s1 (e i) = (BitVec.ofNat 64 (fieldOf (rdEntry s p.1).1 9 41 * 512), (rdEntry s p.1).2.1, 0)) ∧
            ∀ x, (∀ p ∈ ps, x < p.1 ∨ p.1 + 16 ≤ x) → (∀ i, i < min room ps.length → x < e i ∨ e i + 16 ≤ x) →
              cget memDefault s1.mem x = cget memDefault s.mem x)

/-! Control registers, traps and their return. -/

/-- CSRR delivers in every active lane what the register it names holds for that lane, a point (R165-R170, R290).
The uniform form of CSRR takes the value of the lowest active lane that is no helper lane (R290).
Rests on the model's own choices: log entries 26, 72. -/
def Obligations.ControlRegisterReads : Prop :=
  (∀ o s c, (Instr.csrr o).wf = true → o.sub = 0 → Ready s c o.hd (writeForm o.hd o.d).touch →
     ∃ g' f, exec (.csrr o) s = .next (withGroup s c.gid g') ∧ LaneFrame (writeForm o.hd o.d) c g' ∧ LanesHold c o.hd g' o.d f ∧
       ∀ l, CsrHolds c o.csr l (f l)) ∧
  (∀ o s c l, (Instr.csrr o).wf = true → o.sub = 1 → Ready s c o.hd {} → lowLane (c.real o.hd) = some l →
     ∃ v, exec (.csrr o) s = .next (c.goesOn s false fun g => g.wrK o.d v) ∧ CsrHolds c o.csr l v)

/-- CSRW writes each active lane's own register, keeping reserved bits zero and, under an RM of 000 or 111, FPCR's RM (R66, R165, R170);
a group register takes the value of the lowest active lane that is no helper lane, and writing one to a bit of PRQFREE frees the
record (R167, R169).
Rests on the model's own choices: log entries 26, 79. -/
def Obligations.ControlRegisterWrites : Prop :=
  (∀ o s c, (Instr.csrw o).wf = true → o.csr ≤ 4 → Ready s c o.hd { vr := (if o.sub = 0 then Opnd.v o.a else .k o.a).vregs } →
    (o.sub = 0 → ∀ l ∈ lanesOf (c.real o.hd), c.p.g.rdVP o.a l = false) →
    ∃ g', exec (.csrw o) s = .next (withGroup s c.gid g') ∧
      g' = { c.p.g with entries := c.movedOn false, fpcr := g'.fpcr, fpsr := g'.fpsr, drc := g'.drc, src := g'.src, sri := g'.sri } ∧
      ∀ l, l < 64 →
        let v : Word := if o.sub = 0 then c.p.g.rdV o.a l else c.p.g.rdK o.a
        let on := bitOf (c.active o.hd) l
        g'.rdFpcr l = (if on = true ∧ o.csr = 0 then (v &&& 0x1FF8) ||| (if v &&& 7 = 0 ∨ v &&& 7 = 7 then c.p.g.rdFpcr l &&& 7 else v &&& 7)
          else c.p.g.rdFpcr l) ∧
        g'.rdFpsr l = (if on = true ∧ o.csr = 1 then v &&& 0x3F else c.p.g.rdFpsr l) ∧
        cget 0 g'.drc l = (if on = true ∧ o.csr = 2 then v else cget 0 c.p.g.drc l) ∧
        cget 0 g'.src l = (if on = true ∧ o.csr = 3 then v else cget 0 c.p.g.src l) ∧
        cget 0 g'.sri l = (if on = true ∧ o.csr = 4 then v.toNat % 8 else cget 0 c.p.g.sri l)) ∧
  (∀ o s c l, (Instr.csrw o).wf = true → Ready s c o.hd { vr := (if o.sub = 0 then Opnd.v o.a else .k o.a).vregs } →
    (o.sub = 0 → ∀ q ∈ lanesOf (c.real o.hd), c.p.g.rdVP o.a q = false) → lowLane (c.real o.hd) = some l →
    let v : Word := if o.sub = 0 then c.p.g.rdV o.a l else c.p.g.rdK o.a
    (c.p.g.tm = true → o.csr = 0x20 → exec (.csrw o) s = .next (c.goesOn s false fun g => { g with tcause := v &&& 0x001FFDFF })) ∧
    (c.p.g.tm = true → o.csr = 0x21 → exec (.csrw o) s = .next (c.goesOn s false fun g => { g with tpc := pairOf v (hiWord g.tpc) })) ∧
    (c.p.g.tm = true → o.csr = 0x22 → exec (.csrw o) s = .next (c.goesOn s false fun g => { g with tpc := pairOf (loWord g.tpc) v })) ∧
    (c.p.g.tm = true → o.csr = 0x28 → exec (.csrw o) s = .next (c.goesOn s false fun g => { g with tmask := pairOf v (hiWord g.tmask) })) ∧
    (c.p.g.tm = true → o.csr = 0x29 → exec (.csrw o) s = .next (c.goesOn s false fun g => { g with tmask := pairOf (loWord g.tmask) v })) ∧
    (∀ i, i < 4 → c.p.g.tm = true → o.csr = 0x24 + i → ∃ x, exec (.csrw o) s = .next (c.goesOn s false fun g => { g with tval := x }) ∧
      ∀ j, j < 4 → x.extractLsb' (32 * j) 32 = if j = i then v else c.p.g.tval.extractLsb' (32 * j) 32) ∧
    (∀ i, i < 2 → o.csr = 0x30 + i → ∃ x, exec (.csrw o) s = .next (c.goesOn s false fun g => { g with prq := x }) ∧
      ∀ e, e ∈ x ↔ e ∈ c.p.g.prq ∧ ¬(e.1 / 32 = i ∧ bitOf v (e.1 % 32) = true)) ∧
    (o.csr = 0x50 → ∃ b', b' = { c.p.b with tile := { c.p.b.tile with tst := c.p.b.tile.tst &&& ~~~(v &&& 0xE0) } } ∧
      exec (.csrw o) s = .next (c.goesOn { s with blocks := tset s.blocks c.p.g.bid b' } false id)))

/-- Taking a trap (R277, R283): with nothing of the group pending, TCAUSE, TPC, TVAL and TMASK are written, the trapping entry is
retained, trap mode is set, and a handler entry with the trapping entry's lanes stands at THND; no other register and no entry
changes. Without a handler the group is killed (R282), and so it is by a fault in trap mode (R285): all its lanes exit, a KILL entry
is posted unless the queue is full, and GKILLS counts it.
TRAP outside trap mode raises FLT_TRAP with its immediate as TVAL in its active lanes that are no helper lanes (R289); BPT halts the
group of an attached launch, and else raises FLT_BREAK, or does nothing in trap mode (R289, R293).
Rests on the model's own choices: log entry 77. -/
def Obligations.TrapsTaken : Prop :=
  (∀ s gid eid (t : Trap) p e, party? s gid = some p → (∀ r ∈ s.areqs, r.gid ≠ gid) → p.g.inflight = [] →
     tget p.g.entries eid = some e → t.code < 256 → t.prqi < 64 → t.flags < 32 →
     (p.g.tm = false → p.l.rec0.thnd ≠ 0 →
       ∃ g', takeTrap s gid eid t = withGroup s gid g' ∧
         g' = { p.g with tcause := g'.tcause, tpc := t.pc, tval := BitVec.ofNat 128 t.tval, tmask := t.tmask, tm := true,
                         retained := some eid, waitTrap := none, fence := none, entries := g'.entries, nextEid := g'.nextEid } ∧
         g'.tcause.toNat = t.code + (if t.impr = true then 256 else 0) + t.prqi * 1024 + t.flags * 65536 ∧
         (∀ x ∈ p.g.entries, x ∈ g'.entries) ∧
         ∃ x ∈ g'.entries, x.2.pc = p.l.rec0.thnd ∧ x.2.rstart = p.l.rec0.thnd ∧ x.2.mask = e.mask ∧ x.2.handler = true ∧ x.2.age = 0) ∧
     (p.g.tm = true ∨ p.l.rec0.thnd = 0 →
       ∃ g' l' ws, tget (takeTrap s gid eid t).groups gid = some g' ∧ g'.done = true ∧ g'.exited = BitVec.allOnes 64 ∧ g'.entries = [] ∧
         (takeTrap s gid eid t).mem = s.mem ∧
         tget (takeTrap s gid eid t).launches p.ga.lid = some l' ∧ l'.gkills = Nat.min 0xFFFFFFFF (p.l.gkills + 1) ∧
         (takeTrap s gid eid t).trapq = (if s.trapq.length < 256 then s.trapq ++ [ws] else s.trapq) ∧
         ws.getD 0 0 = 0x20000000 ∧ fieldOf (ws.getD 1 0) 0 8 = (if p.g.tm = true then 0x22 else t.code) ∧
         pairOf (ws.getD 2 0) (ws.getD 3 0) = (if p.g.tm = true then p.g.tpc else t.pc) ∧
         (p.g.tm = true → ws.getD 1 0 &&& ~~~0xFF = p.g.tcause &&& ~~~0xFF) ∧
         ws.getD 13 0 = p.l.rec0.handle ∧ ws.getD 15 0 = if p.g.tm = true then BitVec.ofNat 32 t.code else 0)) ∧
  ((∀ o s c, (Instr.trap o).wf = true → Ready s c o.hd {} → c.real o.hd ≠ 0 → c.p.g.tm = false →
     exec (.trap o) s = .next (takeTrap s c.gid c.eid { code := 0x13, tval := o.imm.toNat, tmask := c.real o.hd, pc := c.e.pc })) ∧
   (∀ o s c, (Instr.bpt o).wf = true → Ready s c o.hd {} → c.real o.hd ≠ 0 →
     (c.p.l.attached = none → c.p.g.tm = false →
       exec (.bpt o) s = .next (takeTrap s c.gid c.eid { code := 0x14, tval := o.imm.toNat, tmask := c.real o.hd, pc := c.e.pc })) ∧
     (c.p.l.attached = none → c.p.g.tm = true → exec (.bpt o) s = .next (c.goesOn s false id)) ∧
     (c.p.l.attached ≠ none → c.p.g.stepping = none →
       ∃ t, exec (.bpt o) s = .next t ∧ Unissued s t c { c.p.g with
         halted := true, haltReason := 2, haltWhich := 0, haltCode := o.imm.toNat, haltReq := false, stepping := none, brkSkip := false })))

/-- In trap mode TRAP.post posts an entry with the trap registers, the launch's handle and the next tag, and holds the group till the
reply (R289, R446). RTR discards the handler entries and leaves trap mode (R288): `.next` continues the retained entry after the
instruction at TPC, or at TPC after an imprecise fault; `.restart` at its region start with DRC, SRC, SRI and the rejoin stack of its
snapshot; `.kill`, or a TPC that is no legal pc, ends every lane of the group. DBGW fills a word of a mailbox; while the host has not read it,
the whole group waits (R300).
Rests on the model's own choices: log entries 74, 75, 76, 78. -/
def Obligations.TrapReturns : Prop :=
  (∀ o s c, (Instr.trapPost o).wf = true → Ready s c o.hd {} → c.p.g.tm = true → c.active o.hd ≠ 0 → postRoom s = true →
    c.p.l.rec0.red = false →
    ∃ g' ws, exec (.trapPost o) s = .next (withGroup { s with posts := nextTag s.posts, trapq := s.trapq ++ [ws] } c.gid g') ∧
      frontierRest g' = frontierRest { c.p.g with fence := some c.eid } ∧
      (∀ l, l < 64 → bitOf c.e.mask l = true → ∃ x ∈ g'.entries, bitOf x.2.mask l = true ∧ x.2.pc = nextPc c.e.pc ∧
        x.2.park = some (.reply (nextTag s.posts) o.d)) ∧
      ws.getD 0 0 = BitVec.ofNat 32 (0x10000000 + o.imm.toNat) ∧ ws.getD 1 0 = c.p.g.tcause ∧
      pairOf (ws.getD 2 0) (ws.getD 3 0) = c.p.g.tpc ∧ (∀ i, i < 4 → ws.getD (4 + i) 0 = c.p.g.tval.extractLsb' (32 * i) 32) ∧
      pairOf (ws.getD 8 0) (ws.getD 9 0) = c.p.g.tmask ∧ ws.getD 13 0 = c.p.l.rec0.handle ∧ ws.getD 14 0 = nextTag s.posts) ∧
  (∀ o s c eid e, (Instr.rtrNext o).wf = true → Ready s c o.hd {} → c.p.g.tm = true → c.active o.hd ≠ 0 → pcLegal c.p.g.tpc = true →
    c.p.g.retained = some eid → tget c.p.g.entries eid = some e → e.handler = false →
    ∃ g', exec (.rtrNext o) s = .next (withGroup s c.gid g') ∧
      frontierRest g' = frontierRest { c.p.g with tm := false, retained := none } ∧ (∀ x ∈ g'.entries, x.2.handler = false) ∧
      (∀ l, l < 64 → bitOf e.mask l = true → Stands g' l (if bitOf c.p.g.tcause 8 = true then c.p.g.tpc else nextPc c.p.g.tpc) e) ∧
      ∀ x ∈ c.p.g.entries, x.1 ≠ eid → x.2.handler = false → ∀ l, bitOf x.2.mask l = true → Stands g' l x.2.pc x.2) ∧
  (∀ o s c eid e, (Instr.rtrRestart o).wf = true → Ready s c o.hd {} → c.p.g.tm = true → c.active o.hd ≠ 0 →
    c.p.g.retained = some eid → tget c.p.g.entries eid = some e → e.handler = false →
    ∃ t g', exec (.rtrRestart o) s = .next t ∧ t.mem = s.mem ∧ tget t.groups c.gid = some g' ∧
      frontierRest g' = frontierRest { c.p.g with tm := false, retained := none, drc := g'.drc, src := g'.src, sri := g'.sri,
                                                  rejoin := e.snapStack } ∧
      (∀ x ∈ g'.entries, x.2.handler = false) ∧
      (∀ l, l < 64 → bitOf e.mask l = true → Stands g' l e.rstart e) ∧
      ∀ l, l < 64 → if bitOf e.mask l = true then cget 0 g'.drc l = cget 0 c.p.g.snapDrc l ∧ cget 0 g'.src l = cget 0 c.p.g.snapSrc l ∧
          cget 0 g'.sri l = cget 0 c.p.g.snapSri l
        else cget 0 g'.drc l = cget 0 c.p.g.drc l ∧ cget 0 g'.src l = cget 0 c.p.g.src l ∧ cget 0 g'.sri l = cget 0 c.p.g.sri l) ∧
  (∀ o i s c, i = Instr.rtrKill o ∨ (i = Instr.rtrNext o ∧ pcLegal c.p.g.tpc = false) → i.wf = true → Ready s c o.hd {} →
    c.p.g.tm = true → c.active o.hd ≠ 0 →
    ∃ t g' l', exec i s = .next t ∧ t.mem = s.mem ∧ tget t.groups c.gid = some g' ∧ g'.done = true ∧ g'.entries = [] ∧
      g'.exited = BitVec.allOnes 64 ∧ g'.tm = false ∧
      tget t.launches c.p.ga.lid = some l' ∧ l'.gkills = Nat.min 0xFFFFFFFF (c.p.l.gkills + 1)) ∧
  (∀ o s c l d, (Instr.dbgw o).wf = true → Ready s c o.hd { vr := (if o.sub = 0 then Opnd.v o.a else .k o.a).vregs } →
    lowLane (c.real o.hd) = some l → c.p.l.rec0.dbgen = true → c.p.l.rec0.red = false → c.p.ga.copy = 0 → tget s.dbg (o.imm.toNat / 16 % 2) = some d →
    d.full.testBit (o.imm.toNat % 16) = false →
    exec (.dbgw o) s = .next (c.goesOn { s with dbg := tset s.dbg (o.imm.toNat / 16 % 2) { d with
      data := d.data.set (o.imm.toNat % 16) (if o.sub = 0 then c.p.g.rdV o.a l else c.p.g.rdK o.a),
      full := d.full ||| 2 ^ (o.imm.toNat % 16) } } false fun g => { g with fence := none })) ∧
  (∀ o s c l d, (Instr.dbgw o).wf = true → Ready s c o.hd { vr := (if o.sub = 0 then Opnd.v o.a else .k o.a).vregs } →
    lowLane (c.real o.hd) = some l → c.p.l.rec0.dbgen = true → tget s.dbg (o.imm.toNat / 16 % 2) = some d →
    d.full.testBit (o.imm.toNat % 16) = true →
    ∃ t, exec (.dbgw o) s = .next t ∧ Unissued s t c { c.p.g with
      entries := tset c.p.g.entries c.eid { c.e with park := some .retry }, fence := some c.eid })

/-- FLT_PRIVILEGE is raised in the active lanes that are no helper lanes, with the instruction word as TVAL: outside trap mode by RTR and
TRAP.post, in trap mode by TRAP, EXIT, QPUSH, QPOP, QTRY, MOV to and from a queue register, RAWAIT, RAREL, PMAP, PDROP, RBIND and
RUNBIND, and in all the entry's lanes that are no helper lanes by MJOIN, JOIN, BAR and COPY (R284, R292).
Rests on the model's own choices: log entry 73. -/
def Obligations.PrivilegeFaults : Prop :=
  (∀ i o s c, i = Instr.rtrRestart o ∨ i = Instr.rtrNext o ∨ i = Instr.rtrKill o ∨ i = Instr.trapPost o → Ready s c o.hd {} →
    c.real o.hd ≠ 0 → c.p.g.tm = false → exec i s = .next (takeTrap s c.gid c.eid (c.wordTrap 0x07 (c.real o.hd)))) ∧
  (∀ i o s c, i = Instr.trap o ∨ i = Instr.rbind o ∨ i = Instr.runbind o → Ready s c o.hd {} →
    c.real o.hd ≠ 0 → c.p.g.tm = true → exec i s = .next (takeTrap s c.gid c.eid (c.wordTrap 0x07 (c.real o.hd)))) ∧
  (∀ i o s c, i = Instr.pmap o ∨ i = Instr.pdrop o → Ready s c o.hd { irr := true } →
    c.real o.hd ≠ 0 → c.p.g.tm = true → exec i s = .next (takeTrap s c.gid c.eid (c.wordTrap 0x07 (c.real o.hd)))) ∧
  (∀ o s c, Ready s c o.hd {} → c.real o.hd ≠ 0 → ¬(c.p.g.tm = true ∧ c.p.l.rec0.sys = true) →
    exec (.place o) s = .next (takeTrap s c.gid c.eid (c.wordTrap 0x07 (c.real o.hd)))) ∧
  (∀ i o t s c, (i = Instr.qpush o ∧ t = { vr := if o.sub % 2 = 1 then [o.b] else [], irr := true }) ∨
    (i = Instr.qpop o ∧ t = { vw := (List.range 4).map fun j => o.d + j, irr := true }) ∨
    (i = Instr.qtry o ∧ t = { vw := (List.range 4).map fun j => o.d + j, pw := [o.c], irr := true }) ∨
    (i = Instr.rawait o ∧ t = { vw := [o.d] }) ∨ (i = Instr.rarel o ∧ t = { irr := true }) ∨ (i = Instr.rarelInit o ∧ t = { irr := true }) →
    Ready s c o.hd t → c.real o.hd ≠ 0 → c.p.g.tm = true →
    exec i s = .next (takeTrap s c.gid c.eid (c.wordTrap 0x07 (c.real o.hd)))) ∧
  (∀ i o t s c, (i = Instr.movToQueue o ∧ t = { vr := [o.a], irr := true }) ∨ (i = Instr.movFromQueue o ∧ t = { vw := [o.d], irr := true }) →
    Ready s c o.hd t → c.real o.hd ≠ 0 → c.p.g.tm = true →
    exec i s = .next (takeTrap s c.gid c.eid (c.wordTrap 0x07 (c.real o.hd)))) ∧
  (∀ i o s c, i = Instr.mjoin o ∨ i = Instr.join o → Ready s c o.hd {} → c.lanes ≠ 0 → c.p.g.tm = true →
    exec i s = .next (takeTrap s c.gid c.eid (c.wordTrap 0x07 c.lanes))) ∧
  (∀ o s c, Ready s c o.hd {} → c.real o.hd ≠ 0 → c.p.g.tm = true →
    exec (.exit o) s = .next (takeTrap s c.gid c.eid (c.wordTrap 0x07 (c.real o.hd)))) ∧
  (∀ o s c, Ready s c o.hd { irr := o.act ≠ .wait } → c.lanes ≠ 0 → c.p.g.tm = true →
    exec (.bar o) s = .next (takeTrap s c.gid c.eid (c.wordTrap 0x07 c.lanes))) ∧
  (∀ o s c, Ready s c o.hd { irr := true } → c.lanes ≠ 0 → c.p.g.tm = true →
    exec (.copy o) s = .next (takeTrap s c.gid c.eid (c.wordTrap 0x07 c.lanes)))

/-! The tile stream. -/

/-- TSET, TGET, TLOOP, TJMP and TEND change the t registers, the items and the pc of their sequencer only (R257-R260).
TBAR at a barrier of TBARM (R259, R534): `.arv` and `.sync` record the sequencer as arrived at the current instance, unless it is
recorded there already and waits; `.sync`, and `.wait` for an instance it arrived at that is not complete, wait. -/
def Obligations.TileControl : Prop :=
  ((∀ o s c, (Instr.tset o).wf = true → tctx? s = some c →
     (o.fb = .f32 → exec (.tset o) s = .next (tileNext s c { c.b.tile with t := cset 0 c.b.tile.t o.d (o.timm.setWidth 32) })) ∧
     (o.fb = .f64 → exec (.tset o) s = .next (tileNext s c { c.b.tile with
       t := cset 0 c.b.tile.t o.d (BitVec.ofNat 32 (o.timm.toNat * 2 ^ 16 + (c.t o.d).toNat % 2 ^ 16)) })) ∧
     (o.fb = .f16 → exec (.tset o) s = .next (tileNext s c { c.b.tile with
       t := cset 0 c.b.tile.t o.d (c.t o.a + BitVec.ofInt 32 o.timm.toInt) })) ∧
     (o.fb = .bf16 → o.timm = 0 → exec (.tset o) s = .next (tileNext s c { c.b.tile with
       tst := c.b.tile.tst &&& ~~~(c.t o.a &&& 0xE0) })) ∧
     (o.fb = .bf16 → o.timm = 0x10 → exec (.tset o) s = .next (tileNext s c { c.b.tile with nbud := c.t o.a &&& 0xFFFFFF })) ∧
     (o.fb = .bf16 → o.timm = 0x11 → exec (.tset o) s = .next (tileNext s c { c.b.tile with nctl := c.t o.a &&& 0x7F })) ∧
     (o.fb = .bf16 → o.timm = 0x12 → exec (.tset o) s = .next (tileNext s c { c.b.tile with nbnd := c.t o.a })) ∧
     (o.fb = .bf16 → o.timm = 0x14 → exec (.tset o) s = .next (tileNext s c { c.b.tile with nrep := c.t o.a }))) ∧
   (∀ o s c, (Instr.tget o).wf = true → tctx? s = some c → ∃ v,
     exec (.tget o) s = .next (tileNext s c { c.b.tile with t := cset 0 c.b.tile.t o.d v }) ∧
       (o.timm = 0 → v = c.b.tile.tst) ∧
       (o.timm = 1 → c.b.tile.kinds < 256 → c.l.rec0.tslotn ≤ 8 → v.toNat = (2 ^ c.l.rec0.tslotn - 1) * 256 + c.b.tile.kinds) ∧
       (o.timm = 2 → v = BitVec.ofNat 32 (c.l.rec0.trsn * 1024 + c.l.rec0.trsb)) ∧
       (o.timm = 3 → v = BitVec.ofNat 32 c.l.rec0.tbarm) ∧
       (o.timm = 4 → v = BitVec.ofNat 32 (c.l.rec0.groups * 256 + c.l.rec0.width % 128)) ∧
       (o.timm = 0x10 → v = c.b.tile.nbud) ∧ (o.timm = 0x11 → v = c.b.tile.nctl) ∧ (o.timm = 0x12 → v = c.b.tile.nbnd) ∧
       (o.timm = 0x13 → v = c.b.tile.nmon) ∧ (o.timm = 0x14 → v = c.b.tile.nrep) ∧ (o.timm = 0x15 → v = c.b.tile.nout)) ∧
   (∀ o s c pc s1, (Instr.tloop o).wf = true → tctx? s = some c → c.target s o.timm = (.ok pc, s1) →
     LooksUp s s1 ∧ exec (.tloop o) s = .next (tileOn s1 c { c.b.tile with
       t := cset 0 c.b.tile.t o.d (c.t o.d - 1), pc := if c.t o.d = 1 then nextPc c.b.tile.pc else pc })) ∧
   (∀ o s c pc s1, (Instr.tjmp o).wf = true → tctx? s = some c → c.target s o.timm = (.ok pc, s1) →
     LooksUp s s1 ∧ exec (.tjmp o) s = .next (tileOn s1 c { c.b.tile with pc := pc })) ∧
   (∀ o s c, (Instr.tend o).wf = true → tctx? s = some c →
     ∃ x, exec (.tend o) s = .next (tileOn s c x) ∧ x = { c.b.tile with ended := true, tst := x.tst } ∧ fieldOf x.tst 0 4 = 0)) ∧
  (∀ o s c, (Instr.tbar o).wf = true → tctx? s = some c → c.l.rec0.tbarm.testBit (o.timm.toNat % 16) = true →
     let n := o.timm.toNat % 16
     let b := scopeBar s .blk c.bid n
     ∃ t b' x, exec (.tbar o) s = .next t ∧ t = { s with blocks := tset s.blocks c.bid b' } ∧
       b' = { c.b with bars := b'.bars, tile := x } ∧ x = { c.b.tile with pc := x.pc, barWait := x.barWait, tst := x.tst } ∧
       if b.lane c.bid 0 = b.inst + 1 then
         x.barWait = some (n, b.inst) ∧ fieldOf x.tst 0 4 = 2 ∧ b'.bars = c.b.bars ∧
           x.pc = if o.timm.toNat / 16 = 1 then nextPc c.b.tile.pc else c.b.tile.pc
       else x.pc = nextPc c.b.tile.pc ∧
         (if o.timm.toNat / 16 = 1 then b'.bars = c.b.bars
           else 16 ∈ (scopeBar t .blk c.bid n).arrived ∧ (scopeBar t .blk c.bid n).lane c.bid 0 = b.inst + 1) ∧
         (if o.timm.toNat / 16 = 2 then x.barWait = some (n, b.inst) ∧ fieldOf x.tst 0 4 = 2 else x.barWait = c.b.tile.barWait))

/-- TZERO clears its fragment; TSAVE puts a fragment's data, or its sidecars, into a slot; TLOAD brings them back, data with sidecar 0 and
poison clear, or the sidecars alone; TZERO.s clears a slot (R256). TMON puts `nout` and `nmon` into one lane's registers (R276).
Rests on the model's own choices: log entries 91, 92. -/
def Obligations.TileStores : Prop :=
  (∀ o s c f, (Instr.tzero o).wf = true → tctx? s = some c → c.accFrag o.d (o.fa == .f64) = .ok f →
    ∃ t, exec (.tzero o) s = .next t ∧ t = { tileNext s c c.b.tile with groups := t.groups } ∧
      FragHolds s t c f fun _ r l _ _ g' => g'.rdV r l = 0 ∧ g'.rdVP r l = false ∧ (c.dist = true → g'.rdSide r l = 0)) ∧
  (∀ o s c, (Instr.tzeroSlot o).wf = true → tctx? s = some c → o.slot < c.l.rec0.tslotn →
    ∃ x, exec (.tzeroSlot o) s = .next (tileNext s c x) ∧
      x = { c.b.tile with slots := x.slots, badSlots := x.badSlots, kinds := x.kinds } ∧
      (∀ row col, row < 64 → col < 64 → cget 0 x.slots (slotKey o.slot row col) = 0) ∧
      (∀ q row col, q ≠ o.slot → row < 64 → col < 64 →
        cget 0 x.slots (slotKey q row col) = cget 0 c.b.tile.slots (slotKey q row col)) ∧
      (o.slot < 8 → x.kinds.testBit o.slot = false)) ∧
  (∀ o s c f, (Instr.tsave o).wf = true → tctx? s = some c → c.accFrag o.a (o.fa == .f64) = .ok f →
    c.slotBad o.slot (o.fa == .f64) none = false → c.poisoned s [f] = none →
    ∃ x, exec (.tsave o) s = .next (tileNext s c x) ∧
      x = { c.b.tile with slots := x.slots, badSlots := x.badSlots, kinds := x.kinds } ∧
      (∀ n j, n < 64 → j < f.regs → cget 0 x.slots (slotKey (slotRow o.slot (o.fa == .f64) j).1 (slotRow o.slot (o.fa == .f64) j).2 n) =
        if o.timm = 1 then (c.read s f.grp n (f.base + j)).2 else (c.read s f.grp n (f.base + j)).1) ∧
      ∀ k, (∀ n j, n < 64 → j < f.regs → k ≠ slotKey (slotRow o.slot (o.fa == .f64) j).1 (slotRow o.slot (o.fa == .f64) j).2 n) →
        cget 0 x.slots k = cget 0 c.b.tile.slots k) ∧
  (∀ o s c f, (Instr.tload o).wf = true → tctx? s = some c → c.accFrag o.d (o.fa == .f64) = .ok f → c.oneEach f →
    c.slotBad o.slot (o.fa == .f64) (some (o.timm == 1)) = false → c.b.tile.badSlots = [] →
    ∃ t, exec (.tload o) s = .next t ∧ t = { tileNext s c c.b.tile with groups := t.groups } ∧
      FragHolds s t c f fun g r l n j g' =>
        let w := cget 0 c.b.tile.slots (slotKey (slotRow o.slot (o.fa == .f64) j).1 (slotRow o.slot (o.fa == .f64) j).2 n)
        if o.timm = 1 then g'.rdV r l = g.rdV r l ∧ g'.rdVP r l = g.rdVP r l ∧ (c.dist = true → g'.rdSide r l = w)
        else g'.rdV r l = w ∧ g'.rdVP r l = false ∧ (c.dist = true → g'.rdSide r l = 0)) ∧
  (∀ o s c g, (Instr.tmon o).wf = true → tctx? s = some c → (c.record o.a).bad = false → (c.record o.a).mreg = 0 →
    c.l.rec0.trsb ≤ (c.record o.a).base → (c.record o.a).base + 2 ≤ c.l.rec0.trsb + c.l.rec0.trsn →
    (c.place (c.record o.a).grp (o.timm.toNat % 64)).1 < c.l.rec0.groups →
    isAbsent c.l.rec0 (c.place (c.record o.a).grp (o.timm.toNat % 64)).1 (c.place (c.record o.a).grp (o.timm.toNat % 64)).2 = false →
    tget s.groups (c.gidAt (c.record o.a).grp (o.timm.toNat % 64)) = some g →
    ∃ g', exec (.tmon o) s = .next { tileNext s c c.b.tile with
        groups := tset s.groups (c.gidAt (c.record o.a).grp (o.timm.toNat % 64)) g' } ∧
      g' = (g.wrV c.dist (c.record o.a).base (c.place (c.record o.a).grp (o.timm.toNat % 64)).2 c.b.tile.nout 0 false).wrV c.dist
        ((c.record o.a).base + 1) (c.place (c.record o.a).grp (o.timm.toNat % 64)).2 c.b.tile.nmon 0 false)

/-- A matrix instruction whose records pass the checks of R247 and whose operands hold no poison takes its operands and moves on, its
write point to come (R244, R251, R266); TMMA's is to write, for each output element (i, n), the element of row i of A, column n of B
and C into register i of the lane that holds column n of D (R252, R255).
Rests on the model's own choices: log entry 90. -/
def Obligations.TileMatrices : Prop :=
  (∀ i o sparse wide na nb nm s c, ((i = Instr.tmma o ∧ sparse = false ∧ wide = (o.fa == .f64) ∧ nm = 0 ∧
        (pairShape o.fa o.fb).map (fun p => (16, p.2)) = some (na, nb)) ∨
      (i = Instr.tmmas o ∧ sparse = true ∧ wide = false ∧ sparseFa o.fa = true ∧ ∃ p, pairShape o.fa o.fb = some p ∧ na = 16 ∧
        nb = ceilDiv (p.1 / o.spn * o.spm.len * o.fb.bits) 32 ∧ nm = ceilDiv (p.1 / o.spn * o.spn * Nat.log2 o.spm.len) 32) ∨
      (i = Instr.tmman o ∧ sparse = false ∧ wide = false ∧ nm = 0 ∧ (∃ a b, rungOf o.fa = some a ∧ rungOf o.fb = some b ∧ a ≤ b) ∧
        na = 16 * (o.timm.toNat / 4 % 16 + 1) ∧ nb = na)) →
    i.wf = true → tctx? s = some c →
    let ra := c.record o.a
    let rb := c.record o.b
    let rc := c.record o.c
    let rd := c.record o.d
    let n := if wide = true then 2 * rd.rows else rd.rows
    let A : Frag := ⟨ra.grp, ra.base, ra.rows, na⟩
    let B : Frag := ⟨rb.grp, rb.base, 64, nb⟩
    let C : List Frag := if bitOf o.timm 0 = true then [] else [⟨rc.grp, rc.base, 64, n⟩]
    let D : Frag := ⟨rd.grp, rd.base, 64, n⟩
    let M : List Frag := if sparse = true then [⟨ra.grp, ra.mreg, ra.rows, nm⟩] else []
    recordsBad (bitOf o.timm 0) sparse o.fa o.fb ra rb rc rd = false → c.placed ([A, B] ++ C ++ M ++ [D]) = none →
    c.overlap D A = false → c.overlap D B = false → (∀ f ∈ M, c.overlap D f = false) →
    ((rc.raw == rd.raw) = true ∨ ∀ f ∈ C, c.overlap D f = false) → c.poisoned s ([A, B] ++ C ++ M) = none →
    ∃ j, exec i s = .next (tileNext s c { c.b.tile with job := some j }) ∧ j.passes ≠ [] ∧ j.made = 1 ∧
      (i = .tmma o → o.fa ≠ .f64 → ∃ p, j.passes = [p] ∧ ∀ x y row col,
        ((c.lanesElems s A o.fa (((pairShape o.fa o.fb).map (·.1)).getD 0)).map denseRow)[x]? = some row →
        (c.lanesElems s B o.fb (((pairShape o.fa o.fb).map (·.1)).getD 0))[y]? = some col →
        ∃ out, out = tileOut { f := fF32, chunk := pairChunk o.fa, trunc := o.fa == .bf16 || o.fa == .f16, ct := 0,
                               k := ((pairShape o.fa o.fb).map (·.1)).getD 0, dist := c.dist } row.1 col.1 row.2 col.2
            (if bitOf o.timm 0 = true then none
              else some ((c.read s rc.grp y (rc.base + x)).1.toNat, (c.read s rc.grp y (rc.base + x)).2)) ∧
          (⟨c.gidAt rd.grp y, rd.base + x, (c.place rd.grp y).2, some (BitVec.ofNat 32 out.bits), out.side⟩ : TileWrite) ∈ p.writes)) ∧
  (∀ bid s b p, tget s.blocks bid = some b → (tctxOf s bid 0).isSome = true → (∃ j, b.tile.job = some j ∧ j.passes = [p]) →
    ∃ t b', exec (.matrixWritePoint bid) s = .next t ∧ tget t.blocks bid = some b' ∧ b'.tile.job = none ∧ t.mem = s.mem ∧
      ∀ gid g, tget s.groups gid = some g → ∃ g', tget t.groups gid = some g' ∧
        g' = { g with v := g'.v, vp := g'.vp, side := g'.side, fpsr := g'.fpsr } ∧
        (∀ w ∈ p.writes, w.gid = gid → w.lane < 64 → (∀ w' ∈ p.writes, w'.lane < 64) →
          (∀ w' ∈ p.writes, w'.gid = gid → w'.reg = w.reg → w'.lane = w.lane → w' = w) → ∀ d, w.data = some d →
          g'.rdV w.reg w.lane = d ∧ g'.rdVP w.reg w.lane = false) ∧
        (∀ f ∈ p.flags, f.1 = gid → g'.rdFpsr f.2.1 &&& f.2.2.setWidth 32 = f.2.2.setWidth 32) ∧
        ∀ r l, l < 64 → (∀ w ∈ p.writes, w.lane < 64 ∧ ¬(w.gid = gid ∧ w.reg = r ∧ w.lane = l)) →
          g'.rdV r l = g.rdV r l ∧ g'.rdVP r l = g.rdVP r l) ∧
  (∀ bid s b p q rest j, tget s.blocks bid = some b → b.tile.job = some j → j.passes = p :: q :: rest →
    ∃ t b' j', exec (.tmmanPassEnd bid) s = .next t ∧ t = { s with blocks := tset s.blocks bid b', tally := t.tally } ∧
      b' = { b with tile := { b.tile with job := some j' } } ∧ j'.passes = q :: rest ∧ j'.made = j.made + 1)

/-! Reset, memory's form, and moves of pages. -/

/-- Right after reset the device is in reset: nothing is loaded or queued, every table and cache is empty, no lid is held, no die is
fenced, and every register reads zero but FBTO, PORTW and the remap table (R366, R416, R441, R447, R467, R515, R525, R541, R554, R558,
R563). Memory lists nothing; that it then reads zero is the model's choice (log entry 1).
Rests on the model's own choices: log entries 1, 2, 3, 4, 136. -/
def Obligations.ResetState : Prop :=
  let s := State.reset
  s.running = false ∧ s.stage = 0 ∧ s.stageFail = false ∧ s.mem = [] ∧ Memory.wf s.mem ∧ s.launches = [] ∧ s.gangs = [] ∧ s.blocks = [] ∧
  s.groups = [] ∧ s.l1 = [] ∧ s.l2 = [] ∧ s.coreTlb = [] ∧ s.dieTlb = [] ∧ s.trapq = [] ∧ s.posts = 0 ∧ s.areqs = [] ∧ s.migs = [] ∧
  s.vers = [] ∧ s.sweeps = [] ∧ s.srt = [] ∧ s.colls = [] ∧ s.uctx = [] ∧ s.flowsOut = [] ∧ s.flowsIn = [] ∧ s.vcq = [] ∧ s.vcin = [] ∧ s.fwaits = [] ∧ s.fenced = [] ∧ s.lids = [] ∧
  s.cyc = [] ∧ s.pmc = [] ∧ s.page = [] ∧ s.ttActive = [] ∧ s.cgt = [] ∧ s.rdReg rFBTO = 0x00100000 ∧
  (∀ k, k < 32 → s.rdReg (rPORTW k) = 0x44) ∧
  (∀ off, off < 0x100000 → off ≠ rFBTO → (∀ k, k < 32 → off ≠ rPORTW k) → s.rdReg off = 0) ∧
  ∀ d o, d < 2 → o < 0x100000 → ¬(0x100 ≤ o ∧ o < 0x170) → s.rdReg (rDie d + o) = 0

/-- Every step keeps memory's canonical form: addresses strictly rising, and no entry equal to what an unlisted address reads as.
Rests on the model's own choices: log entries 1, 5. -/
def Obligations.MemoryKept : Prop := ∀ s t, Memory.wf s.mem → step s = .next t → Memory.wf t.mem

/-- Moves of pages (R491-R495). PLACE in trap mode with the SYS right, and a write of MCMDGO, start a move that passes the checks, or
report why not: PLACE then goes on with the status, MSTAT shows it. A copy that finished unraced, and the one with the page closed,
commit: the new leaf stands in the page table and the mover learns it; a raced one is tried again, the ninth time with the page
closed. An access returned from a closed page is sent again (R493).
Rests on the model's own choices: log entries 84, 85, 86, 87, 88. -/
def Obligations.PageMoves : Prop :=
  (∀ o s c, (Instr.place o).wf = true → Ready s c o.hd {} → c.real o.hd ≠ 0 → c.p.g.tm = true → c.p.l.rec0.sys = true →
    c.p.l.rec0.red = false → s.migs = [] →
    let m := moveReq (coreDie s c.core) c.p.l.rec0.asid (c.p.g.rdK2 o.a).toNat ((c.p.g.rdK o.b).toNat + (c.p.g.rdK (o.b + 1)).toNat * 2 ^ 32 +
      (c.p.g.rdK (o.b + 2)).toNat * 2 ^ 64 + (c.p.g.rdK (o.b + 3)).toNat * 2 ^ 96) (some c.gid) o.d
    (∀ st, moveRefusal s m = some st → ∃ g', exec (.place o) s = .next (withGroup (moveErr s m) c.gid g') ∧
      frontierRest g' = frontierRest ({ c.p.g with fence := none }.wrK o.d (BitVec.ofNat 32 st)) ∧
      ∀ l, l < 64 → bitOf c.e.mask l = true → Stands g' l (nextPc c.e.pc) c.e) ∧
    (moveRefusal s m = none → ∃ t g', exec (.place o) s = .next t ∧ MoveStarted s t m ∧ tget t.groups c.gid = some g' ∧
      frontierRest g' = frontierRest { c.p.g with fence := some c.eid } ∧
      ∀ l, l < 64 → bitOf c.e.mask l = true → ∃ x ∈ g'.entries, bitOf x.2.mask l = true ∧ x.2.pc = nextPc c.e.pc ∧ x.2.park = some .busy)) ∧
  (∀ s ps die (v0 v1 : Word), die < 2 → OnePort s ps portServes → s.fenced.contains die = false → s.migs = [] →
    bitOf (s.rdReg (rMCMD die 8)) 31 = false → bitOf (portVal (firstPort ps) v0 v1) 0 = true →
    let w (i : Nat) : Nat := (s.rdReg (rMCMD die i)).toNat
    let m := moveReq die (w 2 % 64) ((w 0 + w 1 * 2 ^ 32) % 2 ^ 56) (w 3 + w 4 * 2 ^ 32 + w 5 * 2 ^ 64 + w 6 * 2 ^ 96) none 0
    let s0 := s.wrReg (rMCMD die 8) 0x80000000
    (∀ st, moveRefusal s0 m = some st → exec (.mcmdgo ps die ⟨v0, v1⟩) s = .next ((moveErr s0 m).wrReg (rMCMD die 8) (BitVec.ofNat 32 st))) ∧
    (moveRefusal s0 m = none → ∃ t, exec (.mcmdgo ps die ⟨v0, v1⟩) s = .next t ∧ MoveStarted s0 t m ∧ t.rdReg (rMCMD die 8) = 0x80000000)) ∧
  (∀ s m, s.migs = [m] → m.attempt ≠ 0 → m.new < 2 ^ 128 →
    (∀ w ∈ s.fwaits, ∀ h l off, w.hold = some h → h.t = .line l off → m.holds s l.line = false) → uRuns s m.asid = false →
    (m.attempt = 9 ∨ (m.counters s = m.ver ∧ ∀ v ∈ s.vers, m.owns v = true → v.over_ = false) →
      ∃ t, exec (.migrationCopyDone m.die 0) s = .next t ∧ t.migs = [] ∧ ofBytes (t.rdMem m.pte 16) = m.new ∧
        (m.gid = none → t.rdReg (rMCMD m.die 8) = if m.attempt = 9 then 1 else 0) ∧
        ∀ gid g, m.gid = some gid → tget s.groups gid = some g → ∃ g', tget t.groups gid = some g' ∧ g'.fence = none ∧
          g'.rdK m.dreg = if m.attempt = 9 then 1 else 0) ∧
    (m.attempt ≠ 9 → ¬(m.counters s = m.ver ∧ ∀ v ∈ s.vers, m.owns v = true → v.over_ = false) →
      ∃ t x, exec (.migrationCopyDone m.die 0) s = .next t ∧ t.migs = [x] ∧ x.attempt = m.attempt + 1 ∧
        x.closed = (m.closed || m.attempt == 8) ∧ (m.attempt = 8 → ∀ v ∈ t.vers, m.owns v = true → v.closed = true))) ∧
  (∀ s i r a, s.areqs[i]? = some r → r.closed = true → (∀ q ∈ s.areqs, q.gid = r.gid → q = r) → reqAbsent s r = false → r.kind = 1 →
    r.opnd.getD 0 0 < 2 ^ (8 * r.size) → LandsPlain s r r.addr a →
    ∃ t, exec (.accessResend i) s = .next t ∧ Puts s t [(a, r.size, r.opnd.getD 0 0)])

/-! What happens to a group between its issues, and at barriers. -/

/-- A result that has come is written and its registers are pending no more (R172). A fetch counts a parity failure as transient when
the second copy is good, and as lasting, with the line unusable, when it is not (R116). An entry leaves its switch marker when nothing
of the group is pending in its lanes, and a late `.split` part when its data has come (R332, R375); a division parts the lanes without
data, and the others take theirs. A trap that waited for register writes enters its handler (R283).
Rests on the model's own choices: log entry 54. -/
def Obligations.GroupEvents : Prop :=
  (∀ s gid idx p x, party? s gid = some p → p.g.inflight[idx]? = some x → x.ready = true → x.held = false →
    ∃ g', exec (.variableLatencyReturn gid idx) s = .next (withGroup s gid g') ∧
      g' = { p.g with inflight := p.g.inflight.eraseIdx idx, v := g'.v, vp := g'.vp, side := g'.side, p := g'.p, pp := g'.pp,
                      k := g'.k, fpsr := g'.fpsr } ∧
      (∀ r l d sd b, l < 64 → .vec r l d sd b ∈ x.writes →
        (∀ r' l' d' sd' b', .vec r' l' d' sd' b' ∈ x.writes → lkey r' l' = lkey r l → d' = d ∧ b' = b) →
        g'.rdV r l = d ∧ g'.rdVP r l = b) ∧
      ∀ f ∈ x.flags, g'.rdFpsr f.1 &&& f.2.setWidth 32 = f.2.setWidth 32) ∧
  (∀ s gid u1 u2 p eid e l, party? s gid = some p → offered p.g = some (eid, e) →
    fetchLine s gid p.l.rec0.asid p.b.core (pcLine e.pc) = .ok l →
    ∃ t g', exec (.lineFetch gid u1 u2) s = .next t ∧
      t = { s with coreTlb := t.coreTlb, dieTlb := t.dieTlb, l2 := t.l2, hreg := t.hreg, groups := t.groups } ∧ tget t.groups gid = some g' ∧
      g' = (if u1 = true ∧ u2 = true then { p.g with badLine := some (pcLine e.pc) } else p.g) ∧
      ∀ off, t.rdReg off =
        if u1 = true ∧ off = (if u2 = true then rERRL (coreDie s p.b.core) 5 else rERRT (coreDie s p.b.core) 5) then countUp (s.rdReg off)
        else s.rdReg off) ∧
  (∀ s bid u1 u2 b ga l ln, party? s bid = none → tget s.blocks bid = some b → tget s.gangs b.gang = some ga →
    tget s.launches ga.lid = some l → b.tile.ended = false → b.tile.fault = none →
    fetchLine s bid l.rec0.asid b.core (pcLine b.tile.pc) = .ok ln →
    ∃ t b', exec (.lineFetch bid u1 u2) s = .next t ∧ tget t.blocks bid = some b' ∧
      b' = if u1 = true ∧ u2 = true then { b with tile := { b.tile with badLine := some (pcLine b.tile.pc) } } else b) ∧
  (∀ s gid eid p e i, party? s gid = some p → tget p.g.entries eid = some e →
    (i = .switchMarkerRelease gid eid ∧ e.park = some .marker ∧ markerWaits p.g e.mask = false) ∨
    (i = .splitLateWake gid eid ∧ e.park = some .splitLate ∧
      (p.g.inflight.any fun x => x.late && (x.lanes &&& e.mask) != 0) = false) →
    ∃ g', exec i s = .next (withGroup s gid g') ∧ frontierRest g' = frontierRest p.g ∧
      ∀ l, l < 64 → bitOf e.mask l = true → ∃ y ∈ g'.entries, bitOf y.2.mask l = true ∧ y.2.pc = e.pc ∧ y.2.park = none) ∧
  (∀ s gid eid late p e x, party? s gid = some p → tget p.g.entries eid = some e → e.park = some .marker →
    (p.g.inflight.find? fun x => x.split && (x.lanes &&& e.mask) != 0) = some x → late ≠ 0 → late &&& ~~~(x.lanes &&& e.mask) = 0 →
    late ≠ e.mask → outstanding s x.req &&& (x.lanes &&& e.mask) &&& ~~~late = 0 →
    ∃ t g', exec (.splitDivision gid eid late) s = .next t ∧ tget t.groups gid = some g' ∧ t.mem = s.mem ∧
      (∃ y ∈ g'.entries, y.2.mask = late ∧ y.2.pc = e.pc ∧ y.2.park = some .splitLate) ∧
      (∃ y ∈ g'.entries, y.2.mask = e.mask &&& ~~~late ∧ y.2.pc = e.pc ∧ y.2.park = some .marker) ∧
      ∀ r l d sd b, l < 64 → bitOf (x.lanes &&& e.mask) l = true → bitOf late l = false → .vec r l d sd b ∈ x.writes →
        (∀ r' l' d' sd' b', .vec r' l' d' sd' b' ∈ x.writes → lkey r' l' = lkey r l → d' = d ∧ b' = b) →
        g'.rdV r l = d ∧ g'.rdVP r l = b) ∧
  (∀ s gid (t : Trap) p eid e, party? s gid = some p → p.g.waitTrap = some t → p.g.retained = some eid → tget p.g.entries eid = some e →
    (p.g.inflight.any fun x => x.vregs != [] || x.pregs != []) = false → p.g.tm = false → p.l.rec0.thnd ≠ 0 →
    t.code < 256 → t.prqi < 64 → t.flags < 32 →
    ∃ g', exec (.trapEntry gid) s = .next (withGroup s gid g') ∧
      g' = { p.g with tcause := g'.tcause, tpc := t.pc, tval := BitVec.ofNat 128 t.tval, tmask := t.tmask, tm := true,
                      waitTrap := none, fence := none, entries := g'.entries, nextEid := g'.nextEid } ∧
      g'.tcause.toNat = t.code + (if t.impr = true then 256 else 0) + t.prqi * 1024 + t.flags * 65536 ∧
      (∀ x ∈ p.g.entries, x ∈ g'.entries) ∧
      ∃ x ∈ g'.entries, x.2.pc = p.l.rec0.thnd ∧ x.2.rstart = p.l.rec0.thnd ∧ x.2.mask = e.mask ∧ x.2.handler = true)

/-- A group whose live lanes are all recorded at the current instance of a block barrier, with no write pending and no guard report,
is counted as arrived (R528), and so are the members of any level whose conditions are met. A complete instance gives way to the next,
and the entries that waited for it go on; of a halted group, once it resumes (R294, R527, R530, R534).
Rests on the model's own choices: log entry 37. -/
def Obligations.BarrierEvents : Prop :=
  (∀ s gid n p, party? s gid = some p → groupReady s .blk n (scopeBar s .blk p.g.bid n) gid p.g = true →
    p.g.gidx ∉ (scopeBar s .blk p.g.bid n).arrived →
    ∃ t, exec (.groupArrivalCount gid .blk n) s = .next t ∧ t = { s with blocks := t.blocks } ∧
      scopeBar t .blk p.g.bid n = { scopeBar s .blk p.g.bid n with arrived := (scopeBar s .blk p.g.bid n).arrived ++ [p.g.gidx] }) ∧
  (∀ s gid lv n p, party? s gid = some p → countable s p lv n ≠ [] →
    ∃ t, exec (.groupArrivalCount gid lv n) s = .next t ∧ t.mem = s.mem ∧
      scopeBar t lv (p.scope lv) n =
        { scopeBar s lv (p.scope lv) n with arrived := (scopeBar s lv (p.scope lv) n).arrived ++ countable s p lv n }) ∧
  (∀ s lv scope n, n < lv.count → instanceDone s lv scope n = true →
    ∃ t, exec (.barrierInstanceComplete lv scope n) s = .next t ∧ t.mem = s.mem ∧
      scopeBar t lv scope n = { scopeBar s lv scope n with inst := nextInst (scopeBar s lv scope n).inst, arrived := [] } ∧
      ∀ gid p e, party? s gid = some p → p.scope lv = scope → e ∈ p.g.entries → (p.g.halted && p.g.stepping.isNone) = false →
        e.2.park = some (.barrier lv n (scopeBar s lv scope n).inst false) →
        ∃ g', tget t.groups gid = some g' ∧ ∀ l, l < 64 → bitOf e.2.mask l = true →
          ∃ y ∈ g'.entries, bitOf y.2.mask l = true ∧ y.2.pc = nextPc e.2.pc ∧ y.2.park = none ∧ y.2.counted = false)

/-- A block at a release point of a staged launch that is not redundant releases its set in ticket order (R433, R434): a set of one
plain store takes effect, and the block's next set begins. Of a redundant launch, copies whose signatures agree may release; at the
first difference both go back to their checkpoints, and at the second the gang is contained with both cores suspect (R437-R442).
Rests on the model's own choices: log entries 38, 40, 115, 116, 168. -/
def Obligations.ReleaseEvents : Prop :=
  (∀ s bid b g l pt, blockParty s bid = some (b, g, l) → pointOf s bid = some pt → pt ≠ .extra → l.rec0.red = false →
    holdsTicket s bid = true → setClosed s bid (currentSet b) = false →
    ∃ t b', exec (.stagedSetRelease bid) s = .next t ∧ tget t.blocks bid = some b' ∧ b'.released = true ∧ b'.direct = false ∧
      b'.divided = false ∧
      (∀ lv n, pt = .bar lv n → b'.gdep = (if lv = .grid then b.gdep + 1 else b.gdep) ∧ b'.epoch = if lv = .grid then 0 else b.epoch + 1) ∧
      (b.staged = [] → t.mem = s.mem) ∧
      ∀ x p k off, b.staged = [x] → x.part = 0 → x.op = 0 → party? s (b.gid x.gidx) = some p →
        landStaged s p x = .here (.line (.plain k) off) → off + x.data.length ≤ 128 →
        Puts s t [(k + off, x.data.length, ofBytes x.data)] ∧ b'.staged = []) ∧
  (∀ s bid tid b t0 g l pt qt, blockParty s bid = some (b, g, l) → twinBlock s bid = some tid → tget s.blocks tid = some t0 →
    pointOf s bid = some pt → pointOf s tid = some qt → pt ≠ .extra → l.rec0.red = true → b.matched = false →
    (t0.full && t0.extra.isSome && !t0.granted) = false →
    (pt = qt → signature b = signature t0 → b.reruns = 0 → ∃ t, exec (.signatureCompare bid) s = .next t ∧
      t = { s with blocks := t.blocks } ∧ tget t.blocks bid = some { b with matched := true } ∧
      tget t.blocks tid = some { t0 with matched := true }) ∧
    (¬(pt = qt ∧ signature b = signature t0) → b.reruns = 0 → ∀ cb ct, b.ckpt = some cb → t0.ckpt = some ct →
      ∃ t b' t', exec (.signatureCompare bid) s = .next t ∧ t.mem = s.mem ∧ tget t.blocks bid = some b' ∧ tget t.blocks tid = some t' ∧
        b'.spad = cb.spad ∧ b'.staged = cb.staged ∧ b'.reruns = 1 ∧ b'.exited = false ∧ t'.spad = ct.spad ∧ t'.staged = ct.staged ∧
        t'.reruns = t0.reruns + 1) ∧
    (¬(pt = qt ∧ signature b = signature t0) → b.reruns ≠ 0 → s.areqs = [] →
      ∃ t g', exec (.signatureCompare bid) s = .next t ∧ t.mem = s.mem ∧ suspect t b.core = true ∧ suspect t t0.core = true ∧
        tget t.gangs b.gang = some g' ∧ g'.st = .killed))

/-! The copy, collective and unmasking engines. -/

/-- A copy starts with its block's slices and the ring's next slot (R398, R402); it completes with a code for records it cannot use,
or moves its elements and fills the slot (R404, R405, R398). A command starts with its place in start order (R388), CSET with the
active nodes (R512), and completes to its register or its slot (R390). DRAIN waits for the copies before it (R409). CSET registers a
collective, BREADY completes a bucket with every participant's, with a fault or a mismatch, CFREE frees the CID (R410-R413, R484). An all-reduce of u32
over a ring is the sum (R412).
Rests on the model's own choices: log entries 59, 60, 61, 62, 63, 64, 66, 68. -/
def Obligations.EngineEvents : Prop :=
  (∀ s bid q b g0 x0 more p r, tget s.blocks bid = some b → nextSlices s b q = some ((g0, x0) :: more) → party? s g0 = some p →
    tget b.rings (x0.ring.getD 0) = some r → r.cnt < r.slots → engineRuns p q = true →
    (∀ ga, tget s.gangs b.gang = some ga → ga.st ≠ .killed) →
    ∃ t b' cp, exec (.copyStart bid q) s = .next t ∧ t.mem = s.mem ∧ tget t.blocks bid = some b' ∧
      b' = { b with rings := tset b.rings (x0.ring.getD 0) { r with wp := (r.wp + 1) % r.slots, cnt := r.cnt + 1 },
                    copies := b.copies ++ [cp] } ∧
      cp.q = q ∧ cp.slices = ((g0, x0) :: more).map (fun x => (x.1, x.2.args)) ∧ cp.ring = x0.ring.getD 0 ∧ cp.slot = r.wp ∧
      cp.result = none ∧ (cp.code = 0 ↔ ∀ x ∈ (g0, x0) :: more, x.2.ring = x0.ring ∧ recBad x.2.args = false)) ∧
  (∀ s bid idx b c gid w seq p r, tget s.blocks bid = some b → b.copies[idx]? = some c → c.result = none →
    c.slices.head? = some (gid, w) → c.seqs.head? = some (gid, seq) → party? s gid = some p → engineRuns p c.q = true →
    c.code = 2 ∨ c.code = 3 → tget b.rings c.ring = some r → ringInside b r → c.slot < r.slots →
    ∃ t b', exec (.copyComplete bid idx) s = .next t ∧ t.mem = s.mem ∧ tget t.blocks bid = some b' ∧
      b'.copies = b.copies.eraseIdx idx ∧
      SlotHolds t bid r c.slot [BitVec.ofNat 32 (0x80000000 + c.code * 65536 + seq % 256), 0, 0, 0]) ∧
  (∀ s bid idx b c gid w seq p r src dst k1 o1 k2 o2, tget s.blocks bid = some b → b.copies[idx]? = some c → c.result = none →
    c.code = 0 → c.slices = [(gid, w)] → c.seqs = [(gid, seq)] → party? s gid = some p → engineRuns p c.q = true → p.staged = false →
    s.backed = true → copyWaits (modBlock s bid fun b => { b with copies := b.copies.eraseIdx idx }) [(p, w)] = false → recCount w = 1 → recElem w 0 = (dst, some src) →
    copyLand s p (spaceOfCode (recSpace w false)) src (recEsz w) .read = .here (.line (.plain k1) o1) →
    s.badLines.contains k1 = false → o1 + recEsz w ≤ 128 →
    copyLand s p (spaceOfCode (recSpace w true)) dst (recEsz w) .write = .here (.line (.plain k2) o2) → o2 + recEsz w ≤ 128 →
    tget b.rings c.ring = some r → ringInside b r → c.slot < r.slots →
    ∃ t b', exec (.copyComplete bid idx) s = .next t ∧ Puts s t [(k2 + o2, recEsz w, ofBytes (s.rdMem (k1 + o1) (recEsz w)))] ∧
      tget t.blocks bid = some b' ∧ b'.copies = b.copies.eraseIdx idx ∧
      SlotHolds t bid r c.slot [BitVec.ofNat 32 (0x80000000 + seq % 256), 1, 0, 0]) ∧
  (∀ s gid q p x i a b s0 s1 x1, party? s gid = some p → ((qreg p.g q).cmds.zipIdx.find? fun y => !y.1.started) = some (x, i) →
    x.code ≠ copyCode → x.shadow = false → p.l.rec0.red = false → delivers p = true →
    ((qreg p.g q).cmds.any fun y => y.started && y.code == 0x10 && y.result.isNone) = false →
    (x.ring = none → regRoom (qreg p.g q) = true) → (8 ≤ q → x.code = 0 → confFull s (coreDie s x.core) = false) →
    startColl s p q x = some (s0, some x1) → startSlots s p x none ≠ none → startSlots s0 p x none = some (a, b, s1) →
    ∃ t g', exec (.engineCommandStart gid q) s = .next t ∧ t.mem = s.mem ∧ tget t.groups gid = some g' ∧
      g' = { p.g with qs := g'.qs } ∧
      (qreg g' q).cmds = lset (qreg p.g q).cmds i
        { x1 with started := true, order := if x1.order = 0 then s.nextId else x1.order, slot := a }) ∧
  (∀ s p q x, x.ring = none → x.code ≠ 0x10 → x.code ≠ 0x11 →
    startSlots s p x none = some (0, 0, s) ∧ startColl s p q x = some (s, some x)) ∧
  (∀ s p q x, x.code = 0x10 → x.order = 0 → x.args.length = 8 → ∃ x1, startColl s p q x = some (s, some x1) ∧
    ∀ k, k < fieldOf (x.args.getD 1 0) 16 16 → x1.args.getD (8 + k) 0 = cget 0 s.ttActive (fieldOf (x.args.getD 1 0) 0 16 + k)) ∧
  (∀ s gid q idx p x ws, party? s gid = some p → cmdAt p q idx = some x → x.result = some ws → delivers p = true →
    p.l.rec0.red = false → ws.length = 4 → x.landed s = true → completesAfter s p q idx = false →
    ∃ t g', exec (.engineCompletion gid q idx) s = .next t ∧ t.mem = s.mem ∧ tget t.groups gid = some g' ∧
      g' = { p.g with qs := g'.qs, oc := g'.oc, ocDone := g'.ocDone } ∧ (qreg g' q).cmds = (qreg p.g q).cmds.eraseIdx idx ∧
      (qreg g' q).comps = (if x.ring = none then (qreg p.g q).comps ++ [ws] else (qreg p.g q).comps) ∧
      (x.oc = none → ∀ n, cget 0 g'.oc n = cget 0 p.g.oc n) ∧
      ∀ k r, x.ring = some k → tget p.b.rings k = some r → ringInside p.b r → x.slot < r.slots → SlotHolds t p.g.bid r x.slot ws) ∧
  (∀ s gid q idx p x, Performs s gid q idx 0x01 p x →
    (p.b.copies.any fun c => c.q == q && c.seqs.any fun y => y.1 == gid && decide (y.2 < x.seq)) = false →
    ∃ t, exec (.drain gid q idx) s = .next t ∧ t.mem = s.mem ∧
      Finished t gid q idx p x [BitVec.ofNat 32 (0x80000100 + x.seq % 256), 0, 0, 0]) ∧
  (∀ s gid q idx p x, Performs s gid q idx 0x10 p x →
    let c := csetFrom (coreDie s x.core) p.ga.lid s.nextId x
    ∃ t, exec (.cset gid q idx) s = .next t ∧ t.mem = s.mem ∧
      (csetBad s c x = true → t.colls = s.colls ∧ Finished t gid q idx p x [BitVec.ofNat 32 (0x80021000 + x.seq % 256), 0, 0, 0]) ∧
      (csetBad s c x = false → collOf t c.die c.lid c.cid = some c ∧
        Finished t gid q idx p x [BitVec.ofNat 32 (0x80001000 + x.seq % 256), 0, 0, 0])) ∧
  (∀ s gid q idx p x c, Performs s gid q idx 0x11 p x →
    collOf s (coreDie s x.core) p.ga.lid (fieldOf (x.args.getD 0 0) 0 6) = some c →
    let b := (x.args.getD 1 0).toNat
    (c.mism = 2 → ∃ t, exec (.bready gid q idx) s = .next t ∧ t.mem = s.mem ∧
      Finished t gid q idx p x [BitVec.ofNat 32 (0x80031100 + x.seq % 256), x.args.getD 1 0, 0, 0]) ∧
    (∀ xs, c.mism = 1 → contributions s c b (c.done.filter fun d => d.1 == b).length = some xs →
      let bs := if c.op = 6 then xs.flatten else (reduceAll c xs).1
      let die := coreDie s x.core
      virtClosed s p.l.rec0.asid die (bucketAt c b 0) bs.length .write = false →
      (∀ s1, writeVirt s p.gid p.l.rec0.asid die (bucketAt c b 0) bs = .ok s1 →
        ∃ t w, exec (.bready gid q idx) s = .next t ∧ t.mem = s1.mem ∧ (c.op = 6 → w = 0) ∧
          Finished t gid q idx p x [BitVec.ofNat 32 (0x80001100 + x.seq % 256), x.args.getD 1 0, w, 0]) ∧
      (∀ k, writeVirt s p.gid p.l.rec0.asid die (bucketAt c b 0) bs = .error k →
        ∃ t, exec (.bready gid q idx) s = .next t ∧ t.mem = s.mem ∧
          Finished t gid q idx p x [BitVec.ofNat 32 (0x80011100 + x.seq % 256), x.args.getD 1 0, 0, 0]))) ∧
  (∀ s gid q idx p x, Performs s gid q idx 0x12 p x →
    (collOf s (coreDie s x.core) p.ga.lid (fieldOf (x.args.getD 0 0) 0 6) = none →
      ∃ t, exec (.cfree gid q idx) s = .next t ∧ t.mem = s.mem ∧
        Finished t gid q idx p x [BitVec.ofNat 32 (0x80021200 + x.seq % 256), 0, 0, 0]) ∧
    (∀ c, collOf s (coreDie s x.core) p.ga.lid (fieldOf (x.args.getD 0 0) 0 6) = some c → bucketsOpen s p c = false →
      fieldOf (x.args.getD 0 0) 6 26 = 0 → (∀ i, i < 7 → x.args.getD (1 + i) 0 = 0) →
      ∃ t, exec (.cfree gid q idx) s = .next t ∧ t.mem = s.mem ∧ collOf t c.die c.lid c.cid = none ∧
        Finished t gid q idx p x [BitVec.ofNat 32 (0x80001200 + x.seq % 256), 0, 0, 0])) ∧
  (∀ c xs i, c.op = 3 → c.tree = false → xs.length = c.p → (∀ l ∈ xs, l.length = c.bsz) → 1 ≤ c.p → i < c.bsz / 4 →
    ofBytes (((reduceAll c xs).1.drop (4 * i)).take 4) = (xs.map fun l => ofBytes ((l.drop (4 * i)).take 4)).sum % 2 ^ 32)

/-- Commands of the unmasking engine whose turn it is in their context come to BADREC, to a FAULT that reports one of the failures met
and writes nothing (none is a page a move has closed), or write and leave their context as they say (R453-R456). UINIT makes a context (R457); UCONF writes the lanes'
confidences and moves the cursor by 64 (R458); UCOMMIT commits as many masked positions as its share says (R461, R462); UCLEAN keeps
the context and UFREE ends it (R464, R465).
Rests on the model's own choices: log entries 69, 70, 71, 169. -/
def Obligations.UnmaskEvents : Prop :=
  (∀ s gid q idx p x i code f, Performs s gid q idx code p x → 8 ≤ q → uBehind s x = false →
    s.fenced.contains (coreDie s x.core) = false →
    let asid := p.l.rec0.asid
    let die := coreDie s x.core
    let n := fieldOf (x.args.getD 0 0) 0 6
    let own := [4, gid, q, x.seq]
    (i = .uinit gid q idx ∧ code = 0x20 ∧ f = uinitOut s own asid die x) ∨ (i = .uconf gid q idx ∧ code = 0x00 ∧ f = uconfOut s own asid die x) ∨
      (i = .ucommit gid q idx ∧ code = 0x21 ∧ f = ucommitOut s own asid die x) ∨
      (i = .uclean gid q idx ∧ code = 0x22 ∧ f = ucleanOut s own asid die x) ∨ (i = .ufree gid q idx ∧ code = 0x23 ∧ f = ufreeOut s own asid die x) →
    (f = .bad → ∃ t, exec i s = .next t ∧ t.mem = s.mem ∧ t.uctx = s.uctx ∧ Finished t gid q idx p x [statusWord 2 code x.seq, 0, 0, 0]) ∧
    (∀ fs, f = .fault fs → fs ≠ [] → (∀ y ∈ fs, y.2.2 < uWaits) → ∃ t y, exec i s = .next t ∧ y ∈ fs ∧ t.mem = s.mem ∧ t.uctx = s.uctx ∧
      Finished t gid q idx p x [statusWord 1 code x.seq, 0, BitVec.ofNat 32 y.1,
        BitVec.ofNat 32 ((if y.2.1 = true then 2 ^ 28 else 0) + y.2.2 * 2 ^ 24 + y.1 / 2 ^ 32 % 2 ^ 24)]) ∧
    ∀ rs ws ctx w1 w2 w3, f = .ok rs ws ctx w1 w2 w3 → (∀ w ∈ ws, uFails s own asid die true w.va w.data.length = []) →
      ∃ t, exec i s = .next t ∧
        Finished t gid q idx p x [statusWord 0 code x.seq, BitVec.ofNat 32 w1, BitVec.ofNat 32 w2, BitVec.ofNat 32 w3] ∧
        (∀ c, ctx = some c → c.die = die → c.ctx = n → uCtxOf t die n = some c) ∧ (ctx = none → uCtxOf t die n = none) ∧
        (ws = [] → t.mem = s.mem) ∧
        ∀ w k off, s.backed = true → ws = [w] → w.mask.length = w.data.length → w.data ≠ [] → w.va % 128 + w.data.length ≤ 128 →
          locatePiece s asid die w.va .write = .ok (.here (.line (.plain k) off)) → off + w.data.length ≤ 128 →
          (∀ j, j < w.data.length → cget memDefault t.mem (k + off + j) =
            (cget memDefault s.mem (k + off + j) &&& ~~~ w.mask.getD j 0) ||| (w.data.getD j 0 &&& w.mask.getD j 0)) ∧
          ∀ a, a < k + off ∨ k + off + w.data.length ≤ a → cget memDefault t.mem a = cget memDefault s.mem a) ∧
  (∀ s own asid die (x : Cmd), uReserved x [0x7F3F, 0xFFFF, 0xFFFFFFFF, 0xFFFFFF, 0xFFFFFFFF, 0xFFFFFF, 0xFFFF0001, 0] = false →
    uCtxOf s die (fieldOf (x.args.getD 0 0) 0 6) = none → fieldOf (x.args.getD 2 0) 0 12 = 0 → fieldOf (x.args.getD 4 0) 0 6 = 0 →
    bitOf (x.args.getD 6 0) 0 = true →
    ∃ ws c, uinitOut s own asid die x = .ok [] ws (some c) c.n 0 0 ∧ c.die = die ∧ c.ctx = fieldOf (x.args.getD 0 0) 0 6 ∧ c.asid = asid ∧
      c.n = fieldOf (x.args.getD 1 0) 0 16 + 1 ∧ c.l = fieldOf (x.args.getD 0 0) 8 7 + 1 ∧ c.cur = fieldOf (x.args.getD 6 0) 16 16 ∧
      c.pcur = 0 ∧ ∀ k, k < c.n → uWhole (c.area + 0x8000 + 8 * k) (bytesOf 0xFF800000 8) ∈ ws) ∧
  (∀ s own asid die (x : Cmd) c, uMine s die asid x = some c → uReserved x [0x8000003F, 0xFFFF, 0, 0, 0, 0, 0, 0] = false →
    x.payload.isEmpty = false → (bitOf (x.args.getD 0 0) 31 = false → x.args.getD 1 0 = 0) →
    let base := if bitOf (x.args.getD 0 0) 31 = true then fieldOf (x.args.getD 1 0) 0 16 else c.pcur
    ∃ ws, uconfOut s own asid die x = .ok [] ws (some { c with pcur := (base + 64) % 65536 }) ws.length base 0 ∧
      ∀ l, l < 64 → bitOf x.pmask l = true → base + l < c.n →
        uWhole (c.area + 0x8000 + 8 * (base + l)) (bytesOf (x.payload.getD l (0, 0)).1.toNat 4 ++ bytesOf (x.payload.getD l (0, 0)).2.toNat 4)
          ∈ ws) ∧
  (∀ s own asid die (x : Cmd) rs ws ctx w1 w2 w3, ucommitOut s own asid die x = .ok rs ws ctx w1 w2 w3 → ∃ c, uMine s die asid x = some c ∧
    ctx = some { c with cur := (c.cur + w1) % 65536 } ∧ w2 = c.cur ∧
    let m := (uMasked c (uRead s own asid die c.area (ceilDiv c.n 8))).length
    w1 + w3 = m ∧ (fieldOf (x.args.getD 0 0) 8 2 = 0 → w1 = min (x.args.getD 1 0).toNat m) ∧
      (fieldOf (x.args.getD 0 0) 8 2 = 1 → w1 = ((x.args.getD 1 0).toNat * m + 255) / 256)) ∧
  (∀ s own asid die (x : Cmd) c, uMine s die asid x = some c → uReserved x [0x8000003F, 0x7F, 0x3FF, 0x7FF, 0, 0, 0, 0] = false →
    fieldOf (x.args.getD 1 0) 0 7 < c.l → (bitOf (x.args.getD 0 0) 31 = true → fieldOf (x.args.getD 1 0) 0 7 = 0) →
    1 ≤ fieldOf (x.args.getD 3 0) 0 11 → fieldOf (x.args.getD 3 0) 0 11 ≤ 1024 →
    fieldOf (x.args.getD 2 0) 0 10 + fieldOf (x.args.getD 3 0) 0 11 ≤ (c.n + 63) / 64 →
    ∃ ws, ucleanOut s own asid die x = .ok [] ws (some c) 0 0 0 ∧ ∀ w ∈ ws, w.data.getD 0 0 = 0) ∧
  ∀ s own asid die (x : Cmd) c, uMine s die asid x = some c → uReserved x [0x3F, 0, 0, 0, 0, 0, 0, 0] = false →
    ufreeOut s own asid die x = .ok [] [] none 0 0 0

/-! Launches. -/

/-- A queue's record is taken: HEAD moves on, and the launch waits, or is refused for a reason its completion record shows (R419, R424,
R426). A taken launch that is ready and that no other goes before is admitted, with all its gangs to place (R423, R425); a gang that
fits takes cores of a pen (R427); gangs of a suspended launch are set aside, and restored once it runs (R430, R431, R52); a launch whose
gangs are over completes with its status, once its record is where it belongs (R426). A set-aside gang's bytes in the save area are free
values.
Rests on the model's own choices: log entries 28, 96, 99, 100, 103, 104, 105, 106, 107, 109, 110, 111, 113. -/
def Obligations.LaunchEvents : Prop :=
  (∀ s q binds, queueReady s q = true → BindsFound s q binds →
    (recReason s (s.rdLossy (queueSlot s q) 512) binds = none → ∃ t l, exec (.launchTake q) s = .next t ∧ t.mem = s.mem ∧
      t.rdReg (rLQHEAD q) = s.rdReg (rLQHEAD q) + 1 ∧ tget t.launches s.nextId = some l ∧ l.st = .taken ∧
      l.rec0 = recOf (s.rdLossy (queueSlot s q) 512) ∧ l.queue = q ∧ l.seq = (s.rdReg (rLQHEAD q)).toNat) ∧
    ∀ n, recReason s (s.rdLossy (queueSlot s q) 512) binds = some n → n < 256 → completionWaits s (recOf (s.rdLossy (queueSlot s q) 512)) = false →
      (∀ w ∈ s.fwaits, w.gid ≠ s.nextId) →
      ∃ t, exec (.launchTake q) s = .next t ∧ t.rdReg (rLQHEAD q) = s.rdReg (rLQHEAD q) + 1 ∧
        ∀ k off, s.backed = true → locatePiece s (recOf (s.rdLossy (queueSlot s q) 512)).asid 0 (recOf (s.rdLossy (queueSlot s q) 512)).cpla.toNat .write =
            .ok (.here (.line (.plain k) off)) → s.badLines.contains k = false → off + 64 ≤ 128 →
          tget t.launches s.nextId = none ∧ ofBytes (t.rdMem (k + off) 4) = 0x01000000 + n * 65536 ∧ ofBytes (t.rdMem (k + off + 60) 4) = 0x80000000) ∧
  (∀ s lid l binds, tget s.launches lid = some l → admitReady s l = true → lateReason s l = none →
    readBinds s [6, lid] l.rec0 = .ok (some binds) →
    (s.launches.any fun x => decide (queueTurn s x.2 < queueTurn s l) && (admitReady s x.2 && (admitted s x.1 x.2).isSome)) = false →
    (l.rec0.prog ≠ .concurrent → ∃ t l', exec (.launchAdmit lid) s = .next t ∧ t.mem = s.mem ∧ tget t.launches lid = some l' ∧
      l' = { l with st := .running, place := l'.place, binds := binds } ∧ tget t.served l.prio = some l.queue ∧
      ∀ g c, (g, c) ∈ l'.place ↔ g < l.rec0.gangs ∧ (c = 0 ∨ (c = 1 ∧ l.rec0.red = true))) ∧
    ∀ s1, admitted s lid l = some s1 → ∃ t l', exec (.launchAdmit lid) s = .next t ∧ t.mem = s.mem ∧ tget t.launches lid = some l' ∧
      l'.st = .running ∧ l'.binds = binds) ∧
  (∀ s lid l gang at_, tget s.launches lid = some l → l.st = .running → gangTurn l gang = true → restoreFirst s l.prio = false →
    heldBack s lid l = false →
    (∃ c, (gang, c) ∈ l.place) → seatsFor s l.rec0 (oldCores s lid gang) = some at_ →
    ∃ t ga l', exec (.gangPlace lid gang) s = .next t ∧ t.mem = s.mem ∧ tget t.gangs s.nextId = some ga ∧ ga.lid = lid ∧
      ga.index = gang ∧ ga.st = .resident ∧ ga.blocks.length = l.rec0.gang ∧ tget t.launches lid = some l' ∧
      ∀ x ∈ l'.place, x ∈ l.place ∧ x.1 ≠ gang) ∧
  (∀ s lid l gang, tget s.launches lid = some l → l.st = .suspended → saveFits s lid l = true → s.areqs = [] →
    (∃ x ∈ gangsOf s lid, x.2.st = .resident ∧ x.2.index = gang) →
    (∀ x ∈ gangsOf s lid, x.2.st = .resident → (l.rec0.prog ≠ .weak ∨ x.2.index = gang) →
      gangQuiet s x.2 = true ∧ ∀ gid ∈ gangGroups s x.2, ∀ p, party? s gid = some p → descsWait s p = false) →
    ∃ t, exec (.gangSetAside lid gang) s = .next t ∧
      ∀ k ga, tget s.gangs k = some ga → ga.lid = lid → ga.st = .resident → (l.rec0.prog ≠ .weak ∨ ga.index = gang) →
        ∃ ga', tget t.gangs k = some ga' ∧ ga'.st = .setAside) ∧
  (∀ s lid gang l, tget s.launches lid = some l → waitsAbove s l.prio = false →
    (∀ t, restoreGangs s lid gang = some t → exec (.gangRestore lid gang) s = .next t) ∧
    ∀ k ga at_ rest, l.st = .running → l.rec0.prog = .weak →
      ((gangsOf s lid).filter fun g => g.2.index == gang && g.2.st == .setAside) = (k, ga) :: rest → findSeats s l.rec0 [] = some at_ →
      ∃ t ga', exec (.gangRestore lid gang) s = .next t ∧ t.mem = s.mem ∧ tget t.gangs k = some ga' ∧ ga'.st = .resident) ∧
  (∀ s lid l, tget s.launches lid = some l → l.posted = true → (∀ w ∈ s.fwaits, w.gid ≠ lid) →
    ∃ t, exec (.launchComplete lid) s = .next t ∧ t.mem = s.mem ∧ tget t.launches lid = none ∧ (∀ g ∈ t.gangs, g.2.lid ≠ lid) ∧
      ∀ x ∈ t.srt, x.lid ≠ lid) ∧
  (∀ s lid l, tget s.launches lid = some l → l.posted = false → launchOver s lid l = true → completionWaits s l.rec0 = false →
    l.status < 256 → (∀ w ∈ s.fwaits, w.gid ≠ lid) →
    ∃ t, exec (.launchComplete lid) s = .next t ∧
      (∀ fa n, l.rec0.cpla.toNat % 64 = 0 → locatePiece s l.rec0.asid 0 l.rec0.cpla.toNat .write = .ok (.there fa n) →
        t.mem = s.mem ∧ ∃ l', tget t.launches lid = some l' ∧ l'.posted = true) ∧
      ∀ k off, locatePiece s l.rec0.asid 0 l.rec0.cpla.toNat .write = .ok (.here (.line (.plain k) off)) →
        s.badLines.contains k = false → off + 64 ≤ 128 →
        tget t.launches lid = none ∧ (∀ g ∈ t.gangs, g.2.lid ≠ lid) ∧ (∀ x ∈ t.srt, x.lid ≠ lid) ∧
        ofBytes (t.rdMem (k + off) 4) =
          (if l.status ≠ 0 then l.status else if l.kills ≠ 0 ∨ l.gkills ≠ 0 then 2 else 0) * 2 ^ 24 ∧
        ofBytes (t.rdMem (k + off + 4) 4) = l.rec0.handle.toNat ∧ ofBytes (t.rdMem (k + off + 60) 4) = 0x80000000)

/-- SUSPEND stops a launch whose state fits its save area, RESUME lets it run, CANCEL ends it; a launch that is not there, or does not
fit, and any other code set LCMDST (R431); with no port that serves them nothing changes (R445). A lasting error contains a gang: it is killed, and relaunched or counted (R442, R443). A die
fence kills the launches that span the die and abandons its moves and contexts (R444, R496).
Rests on the model's own choices: log entries 23, 108, 109, 112, 114, 167. -/
def Obligations.LaunchControl : Prop :=
  (∀ s lid l, namedLaunch s = some (lid, l) → tget s.launches lid = some l → (portServes s 0 || portServes s 1) = true →
    (saveFits s lid l = true → exec .suspend s = .next { s with launches := tset s.launches lid { l with st := .suspended } }) ∧
    (saveFits s lid l = false → exec .suspend s = .next (s.wrReg rLCMDST (s.rdReg rLCMDST ||| 1))) ∧
    exec .resume s = .next { s with launches := tset s.launches lid { l with st := .running } } ∧
    ∃ t l', exec .cancel s = .next t ∧ t.mem = s.mem ∧ tget t.launches lid = some l' ∧
      l' = { l with st := .running, place := [], status := 4, kills := l'.kills, relaunches := l'.relaunches, first := l'.first } ∧
      (∀ xs : List Nat, xs.Nodup →
        (∀ i, i ∈ xs ↔ ∃ x ∈ gangsOf s lid, x.2.st ≠ .retired ∧ x.2.st ≠ .killed ∧ x.2.index = i) → l.relaunched = [] →
        l'.kills = l.kills + xs.length ∧ l'.relaunches = l.relaunches) ∧
      ∀ k ga, tget s.gangs k = some ga → ga.lid = lid → ∃ ga', tget t.gangs k = some ga' ∧ (ga'.st = .killed ∨ ga'.st = .retired)) ∧
  (∀ i s, i = Instr.suspend ∨ i = Instr.resume ∨ i = Instr.cancel →
    ((portServes s 0 || portServes s 1) = true → namedLaunch s = none → exec i s = .next (s.wrReg rLCMDST (s.rdReg rLCMDST ||| 1))) ∧
    ((portServes s 0 || portServes s 1) = false → exec i s = .next s)) ∧
  (∀ s ps (val : Word), OnePort s ps portServes → ¬(1 ≤ fieldOf val 28 4 ∧ fieldOf val 28 4 ≤ 3) →
    exec (.undefinedLaunchCommand ps val) s = .next (s.wrReg rLCMDST (s.rdReg rLCMDST ||| 1))) ∧
  (∀ s lid gang core (code : BitVec 8) l k ga b k0 ga0 rest, tget s.launches lid = some l → s.areqs = [] → tget s.gangs k = some ga →
    ga.lid = lid → ga.index = gang → ga.st = .resident → killCode code.toNat = true →
    (∃ bid ∈ ga.blocks, tget s.blocks bid = some b) → b.core = core →
    (s.gangs.filter fun g => g.2.lid == lid && g.2.index == gang && g.2.st != .retired && g.2.st != .killed) = (k0, ga0) :: rest →
    ∃ t l' ga', exec (.gangContainment lid gang ⟨core, code⟩) s = .next t ∧ t.mem = s.mem ∧ tget t.gangs k = some ga' ∧ ga'.st = .killed ∧
      tget t.launches lid = some l' ∧
      if l.rec0.rel = true ∧ ga0.relaunches < l.rec0.reln + 1 ∧ ga0.forfeit = false then
        l'.relaunches = l.relaunches + 1 ∧ l'.kills = l.kills ∧ ∃ c, (gang, c) ∈ l'.place
      else l'.kills = l.kills + 1 ∧ l'.relaunches = l.relaunches ∧ l'.place = l.place) ∧
  (∀ s die, die < 2 → s.fenced.contains die = false → ∃ t, exec (.dieFence die) s = .next t ∧
    t.fenced = s.fenced ++ [die] ∧ (∀ u ∈ t.uctx, u.die ≠ die) ∧
    ((∀ m ∈ s.migs, m.attempt ≠ 0 ∨ m.die = die) → t.mem = s.mem ∧ ∀ m ∈ t.migs, moveSpans m die = false ∧ m ∈ s.migs) ∧
    ∀ lid l, tget s.launches lid = some l → launchSpans s lid l die = true →
      ∃ l', tget t.launches lid = some l' ∧ l'.status = 3 ∧ l'.place = [])

/-! The debugger and the trap queue. -/

/-- Commands of a port's mailbox (R293-R299): one that finds another running is discarded with ERR; ATTACH, DETACH, SELECT, HALT, RESUME,
STEP, RDREG, WRREG, SETBRK and SETWATCH do as they say, and another OP is ERR. The end of a step halts the group again. Reading a
mailbox word clears it, reading word 15 clears ERR (R295).
Reading TQWIN15 removes the oldest entry of the trap queue; a reply reaches the group that waits for its tag, whose register takes
TQRVAL and which goes on, and one that names no waiting group sets TQERR (R289, R447).
Rests on the model's own choices: log entries 29, 126, 127. -/
def Obligations.DebugEvents : Prop :=
  ((∀ s ps p (cmd : Word), OnePort s ps portTalks → p = firstPort ps → (mailbox s p).busy = true →
     ∀ i op, (i, op) ∈ [(Instr.attach ps cmd, 1), (.detach ps cmd, 2), (.select ps cmd, 3), (.halt ps cmd, 4), (.debugResume ps cmd, 5),
       (.step ps cmd, 6), (.rdreg ps cmd, 7), (.wrreg ps cmd, 8), (.setbrk ps cmd, 9), (.setwatch ps cmd, 10)] → cmdOp cmd = op →
     exec i s = .next (setMailbox s p { mailbox s p with err := true })) ∧
   (∀ s ps p (cmd : Word), OnePort s ps portTalks → p = firstPort ps → (mailbox s p).busy = false →
     (cmdOp cmd = 1 → (mailbox s p).lid = none → ∀ lid l,
       (s.launches.find? fun l => l.2.st != .taken && l.2.rec0.handle == (mailbox s p).dargl) = some (lid, l) →
       tget s.launches lid = some l → l.rec0.dbgen = true → l.attached = none →
       exec (.attach ps cmd) s = .next (setMailbox { s with launches := tset s.launches lid { l with attached := some p } } p
         { taken s p cmd with lid := some lid, blk := 0, grp := 0 })) ∧
     (cmdOp cmd = 1 → (∀ x ∈ s.launches, x.2.st = .taken ∨ x.2.rec0.handle ≠ (mailbox s p).dargl) →
       exec (.attach ps cmd) s = .next (setMailbox s p { taken s p cmd with err := true })) ∧
     (¬(1 ≤ cmdOp cmd ∧ cmdOp cmd ≤ 10) →
       exec (.undefinedDebugCommand ps cmd) s = .next (setMailbox s p { taken s p cmd with err := true }))) ∧
   (∀ s (cmd : Word) s1 s2, exec (.attach (if s.tieAttach = true then .p1 else .p0) cmd) s = .next s1 →
     exec (.attach (if s.tieAttach = true then .p0 else .p1) cmd) s1 = .next s2 →
     exec (.attach .both cmd) s = .next { s2 with tieAttach := !s.tieAttach }) ∧
   (∀ s ps p (cmd : Word) lid l, OnePort s ps portTalks → p = firstPort ps → Debugs s p lid l →
     (cmdOp cmd = 2 → ∃ t l', exec (.detach ps cmd) s = .next t ∧ mailbox t p = { taken s p cmd with lid := none, busy := false } ∧
       tget t.launches lid = some l' ∧ l' = { l with attached := none, brks := [], watches := [] } ∧
       ∀ gid g, tget s.groups gid = some g → gid ∈ launchGroups s lid → ∃ g', tget t.groups gid = some g' ∧ g'.halted = false) ∧
     (cmdOp cmd = 3 → (mailbox s p).dargl.toNat < l.rec0.blocks → fieldOf cmd 20 4 < l.rec0.groups →
       exec (.select ps cmd) s = .next (setMailbox s p
         { taken s p cmd with blk := (mailbox s p).dargl.toNat, grp := fieldOf cmd 20 4 })) ∧
     (cmdOp cmd = 9 → cmdIndex cmd < 4 → ∃ l', exec (.setbrk ps cmd) s = .next (setMailbox
         { s with launches := tset s.launches lid l' } p (taken s p cmd)) ∧ l' = { l with brks := l'.brks } ∧
       tget l'.brks (cmdIndex cmd) = if pairOf (mailbox s p).dargl (mailbox s p).dargh = 0 then none
         else some (pairOf (mailbox s p).dargl (mailbox s p).dargh))) ∧
   (∀ s ps p (cmd : Word) lid l gid g, OnePort s ps portTalks → p = firstPort ps → Debugs s p lid l → Selects s p gid g →
     (cmdOp cmd = 4 → g.halted = false → exec (.halt ps cmd) s =
       .next (setMailbox (withGroup s gid { g with haltReq := true }) p (taken s p cmd))) ∧
     (cmdOp cmd = 5 → exec (.debugResume ps cmd) s = .next (setMailbox
       (withGroup s gid { g with halted := false, haltReq := false, stepping := none, brkSkip := false }) p (taken s p cmd))) ∧
     (∀ eid, cmdOp cmd = 6 → g.halted = true →
       (if cmdIndex cmd = 15 then (offered g).map (·.1) else (g.entries[cmdIndex cmd]?).map (·.1)) = some eid →
       exec (.step ps cmd) s = .next (setMailbox (withGroup s gid { g with stepping := some eid, brkSkip := true }) p
         { taken s p cmd with busy := true })) ∧
     (cmdOp cmd = 7 → g.halted = true → cmdLane cmd < l.rec0.width →
       ∃ v, (cmdKind cmd ≤ 3 → (cmdKind cmd ≤ 1 → cmdReg cmd < l.rec0.regs) →
           (cmdKind cmd = 2 → cmdReg cmd < 48) → (cmdKind cmd = 3 → cmdReg cmd < 256) →
           exec (.rdreg ps cmd) s = .next (setMailbox s p { taken s p cmd with dargl := v })) ∧
         (cmdKind cmd = 0 → v = g.rdV (cmdReg cmd) (cmdLane cmd)) ∧ (cmdKind cmd = 1 → v = if l.rec0.mode = .dist then g.rdSide (cmdReg cmd) (cmdLane cmd) else 0) ∧
         (cmdKind cmd = 2 → v = if g.rdP (cmdReg cmd) (cmdLane cmd) = true then 1 else 0) ∧
         (cmdKind cmd = 3 → v = g.rdK (cmdReg cmd))) ∧
     (∀ v, cmdOp cmd = 7 → g.halted = true → dbgRead s l gid g cmd = some v →
       exec (.rdreg ps cmd) s = .next (setMailbox s p { taken s p cmd with dargl := v })) ∧
     (cmdOp cmd = 8 → g.halted = true → regNamed l cmd = true →
       (cmdKind cmd = 4 → csrWritable true (cmdReg cmd) = true ∧ cmdReg cmd ≠ 0x50) →
       exec (.wrreg ps cmd) s = .next (setMailbox (withGroup s gid (dbgWrite (l.rec0.mode == .dist) g cmd (mailbox s p).dargl)) p (taken s p cmd))) ∧
     (cmdOp cmd = 8 → g.halted = true → cmdLane cmd < l.rec0.width →
       (cmdKind cmd = 0 → cmdReg cmd < l.rec0.regs → ∃ g', exec (.wrreg ps cmd) s =
           .next (setMailbox (withGroup s gid g') p (taken s p cmd)) ∧ g' = { g with v := g'.v, vp := g'.vp } ∧
         g'.rdV (cmdReg cmd) (cmdLane cmd) = (mailbox s p).dargl ∧ g'.rdVP (cmdReg cmd) (cmdLane cmd) = false) ∧
       (cmdKind cmd = 2 → cmdReg cmd < 48 → ∃ g', exec (.wrreg ps cmd) s =
           .next (setMailbox (withGroup s gid g') p (taken s p cmd)) ∧ g' = { g with p := g'.p, pp := g'.pp } ∧
         g'.rdP (cmdReg cmd) (cmdLane cmd) = bitOf (mailbox s p).dargl 0) ∧
       (cmdKind cmd = 3 → cmdReg cmd < 256 → exec (.wrreg ps cmd) s =
         .next (setMailbox (withGroup s gid (g.wrK (cmdReg cmd) (mailbox s p).dargl)) p (taken s p cmd)))) ∧
     (cmdOp cmd = 10 → cmdIndex cmd < 2 → ∃ l', exec (.setwatch ps cmd) s = .next (setMailbox
         { s with launches := tset s.launches lid l' } p (taken s p cmd)) ∧ l' = { l with watches := l'.watches } ∧
       let n := fieldOf (mailbox s p).dargh 0 20
       tget l'.watches (2 * g.bid + cmdIndex cmd) = if n = 0 then none
         else some (g.bid, (mailbox s p).dargl.toNat, n,
           (if bitOf (mailbox s p).dargh 30 = true then 1 else 0) + if bitOf (mailbox s p).dargh 31 = true then 2 else 0))) ∧
   (∀ s gid p eid, party? s gid = some p → p.g.stepping = some eid → (stepWaits p.g eid = false ∨ p.g.done = true) →
     ∃ t, exec (.stepDone gid) s = .next t ∧ t = { s with dbg := t.dbg, groups := t.groups } ∧
       tget t.groups gid = some { p.g with halted := true, haltReason := 5, haltWhich := 0, haltCode := 0, haltReq := false,
                                           stepping := none, brkSkip := false } ∧
       ∀ q, p.l.attached = some q → (mailbox t q).busy = false) ∧
   (∀ s ps p i, OnePort s ps portTalks → p = firstPort ps → i < 11 → ∃ d, exec (.mailboxDataRead ps i) s = .next (setMailbox s p d) ∧
     d = { mailbox s p with data := (mailbox s p).data.set i 0, full := d.full } ∧ d.full.testBit i = false ∧
     ∀ j, j ≠ i → d.full.testBit j = (mailbox s p).full.testBit j) ∧
   ∀ s ps p, OnePort s ps portTalks → p = firstPort ps →
     exec (.mailboxErrRead ps) s = .next (setMailbox s p { mailbox s p with err := false })) ∧
  ((∀ s ps, OnePort s ps portTalks → exec (.trapQueueRemove ps) s = .next { s with trapq := s.trapq.drop 1 }) ∧
   (∀ s ps (v w tag : Word) gid g eid e reg, OnePort s ps portTalks → tag = portVal (firstPort ps) v w → tget s.groups gid = some g → g.done = false →
     (g.entries.filter fun x => match x.2.park with
       | some (.reply t _) => t == tag
       | _ => false) = [(eid, e)] → e.park = some (.reply tag reg) →
     ∃ t g', exec (.trapQueueReply ps ⟨v, w⟩) s = .next t ∧ t = { s with groups := t.groups } ∧ tget t.groups gid = some g' ∧
       frontierRest g' = frontierRest { g.wrK reg (s.rdReg rTQRVAL) with fence := none } ∧
       ∀ l, l < 64 → bitOf e.mask l = true → ∃ y ∈ g'.entries, bitOf y.2.mask l = true ∧ y.2.pc = e.pc ∧ y.2.park = none) ∧
   ∀ s ps (v w tag : Word), OnePort s ps portTalks → tag = portVal (firstPort ps) v w → (∀ x ∈ s.groups, x.2.done = true ∨ replyReg x.2 tag = none) →
     exec (.trapQueueReply ps ⟨v, w⟩) s = .next (s.wrReg rTQERR (s.rdReg rTQERR ||| 1)))

/-! The device, the host's registers and the fabric. -/

/-- DEVICE_RESET leaves the machine as after reset of the part it is (R1), its fuses as they were (R506). The staged start (R554, R555): reset release begins it; a stage ends well or with its
failure code; stage A waits for PLANRDY or the time-out and a remap table in order, stage D for JOIN. Plans (R561, R562): a plan record
is stored before stage A ends, an ageing plan is posted and its reading removes it. Attestation (R559). Clocks (R543, R545, R546, R549, R550): a
delivered clock counts on every core that has started (log 165), a bubble on none; a port's clock counts its own and sends a waiting flit, one of the control channel first (R416, R544).
Rests on the model's own choices: log entries 25, 117, 118, 119, 122, 165. -/
def Obligations.DeviceEvents : Prop :=
  (∀ s, ∃ t, exec .deviceReset s = .next t ∧
    t = { State.resetOf s.part with hreg := t.hreg, agenda := s.agenda, turn := s.turn, free := s.free } ∧
    ∀ off, t.rdReg off = if off ∈ fuses then s.rdReg off else (State.resetOf s.part).rdReg off) ∧
  (∀ s, s.running = false → exec .resetRelease s = .next { s with running := true }) ∧
  (∀ s, s.running = true → s.stageFail = false →
    (s.stage = 0 → remapOk s = true → (s.planRdy = true ∨ s.planTo = true) → exec (.stageComplete 0) s =
      .next { s with stage := 1, replan := presentedPens s, page := plannedAges s.plansIn }) ∧
    (s.stage = 1 → exec (.stageComplete 0) s = .next { s with stage := 2, backed := true, l2 := s.l2.map fun x => { x with dirty := true } }) ∧
    (s.stage = 2 → exec (.stageComplete 0) s = .next { s with stage := 3 }) ∧
    (s.stage = 3 → s.joinReq = true → ∃ t, exec (.stageComplete 0) s = .next t ∧ t.stage = 4 ∧ bitOf (t.rdReg rFBID) 31 = true ∧
      t.flowsOut = [] ∧ t.flowsIn = []) ∧
    (∀ n, (n = 1 ∧ s.stage = 0) ∨ (n = 2 ∧ s.stage = 0 ∧ remapOk s = false) ∨ (n = 3 ∧ s.stage = 1) ∨ (n = 4 ∧ s.stage = 2) ∨
      (n = 5 ∧ s.stage = 3 ∧ s.joinReq = true) →
      exec (.stageComplete n) s = .next { s with stageFail := true, fcode := n, fwBad := s.fwBad || n == 1 }) ∧
    (s.stage = 0 → s.planRdy = false → s.planTo = false → exec .planTimeout s = .next { s with planTo := true })) ∧
  (∀ s, s.running = true →
    ((portServes s 0 || portServes s 1) = true → exec .planrdy s = .next { s with planRdy := s.planRdy || s.stage == 0 } ∧
      exec .joinStart s = .next { s with joinReq := s.joinReq || s.stage == 3 }) ∧
    ((portServes s 0 || portServes s 1) = false → exec .planrdy s = .next s ∧ exec .joinStart s = .next s)) ∧
  (∀ s ps (v w w3 : Word), OnePort s ps portServes → w3 = portVal (firstPort ps) v w → ∃ t, exec (.planinStore ps ⟨v, w⟩) s = .next t ∧ t.rdReg (rPLANIN 3) = w3 ∧
    let w2 := s.rdReg (rPLANIN 2)
    let ok := s.stage = 0 ∧ bitOf w2 31 = true ∧ fieldOf w2 20 4 < 12 ∧ fieldOf w2 25 5 = 0 ∧ fieldOf w2 16 4 = 0 ∧ w3 = 0
    (ok → tget t.plansIn (12 * fieldOf w2 24 1 + fieldOf w2 20 4) = some [s.rdReg (rPLANIN 0), s.rdReg (rPLANIN 1), w2, w3]) ∧
    (¬ok → t.plansIn = s.plansIn)) ∧
  (∀ s ps, OnePort s ps portServes → exec (.planoutRemove ps) s = .next { s with planOut := s.planOut.drop 1 }) ∧
  (∀ s die pen (offs : BitVec 16) weak, s.running = true → die < 2 → pen < 12 → 12 * die + pen ∈ s.replan →
    weak = decide (Config.railCeiling ≤ offs.toInt) →
    ∃ t r, exec (.ageingReplan die pen offs weak) s = .next t ∧ t.planOut.getLast? = some r ∧
      pairOf (r.getD 0 0) (r.getD 1 0) = cget 0 s.page (12 * die + pen) ∧ fieldOf (r.getD 2 0) 0 16 = offs.toNat ∧
      fieldOf (r.getD 2 0) 20 4 = pen ∧ fieldOf (r.getD 2 0) 24 1 = die ∧ bitOf (r.getD 2 0) 30 = weak ∧ bitOf (r.getD 2 0) 31 = true ∧
      (∀ q ∈ t.planOut, q = r ∨ q ∈ s.planOut) ∧ t.replan = s.replan.erase (12 * die + pen) ∧
      (t.rdReg rPLANCNT).toNat = (fieldOf (s.rdReg rPLANCNT) 0 16 + 1) % 65536) ∧
  (∀ s ps (v w : Word), OnePort s ps portAttests → bitOf (portVal (firstPort ps) v w) 0 = true →
    ∃ t, exec (.atgo ps ⟨v, w⟩) s = .next t ∧ bitOf (t.rdReg rATSTAT) 31 = true ∧ t.atRep = s.atRep) ∧
  (∀ s ps i (v w : Word), OnePort s ps portAttests → i < 8 → exec (.atnonceWrite ps i ⟨v, w⟩) s =
    .next { s.wrReg (rATNONCE i) (portVal (firstPort ps) v w) with atRep := [], atSig := [] }) ∧
  (∀ s, bitOf (s.rdReg rATSTAT) 31 = true → ∃ t, exec .attestationDone s = .next t ∧ bitOf (t.rdReg rATSTAT) 31 = false ∧
    t.atRep.length = 28 ∧ t.atSig.length = 384 ∧ (∀ i, i < 8 → t.atRep.getD (20 + i) 0 = s.rdReg (rATNONCE i)) ∧
    t.atRep.getD 19 0 = startStage s) ∧
  (∀ s, s.running = true → ∃ t, exec .arithmeticClock s = .next t ∧
    (∀ core, cget 0 t.cyc core = if core < s.part.cores ∧ coreStarted s core = true then cget 0 s.cyc core + 1
      else cget 0 s.cyc core) ∧
    (∀ p ∈ t.replan, p ∈ s.replan ∨ (cget 0 t.page p).toNat % 2 ^ 40 = 0) ∧ t.mem = s.mem ∧ t.groups = s.groups) ∧
  (∀ s, s.running = true → ∃ t, exec .throttleBubble s = .next t ∧ t = { s with pmc := t.pmc, free := t.free } ∧
    ∀ d c i, d < 2 → c < s.part.coresPerDie → i < 8 →
      let sel := s.rdReg (rPMSEL d c i)
      let k := 8 * (s.part.coresPerDie * d + c) + i
      (bitOf sel 8 = false → cget 0 t.pmc k = cget 0 s.pmc k) ∧
      (bitOf sel 8 = true → (fieldOf sel 0 8 = 0x01 ∨ fieldOf sel 0 8 = 0x0E) → cget 0 t.pmc k = (cget 0 s.pmc k + 1) % 2 ^ 48)) ∧
  (∀ s port, port < 32 → s.running = true → ∃ t, exec (.portClock port) s = .next t ∧
    t = { s with portClk := cset 0 s.portClk port (cget 0 s.portClk port + 1), vcq := t.vcq, vcin := t.vcin, rounds := t.rounds } ∧
    (s.vcin = [] → t.vcin = [] ∧ ((∀ q ∈ s.vcq, q.1 ≠ port) → t.vcq = s.vcq) ∧
      ((∃ q ∈ s.vcq, q.1 = port) → ∃ q ∈ s.vcq, q.1 = port ∧ t.vcq = s.vcq.erase q ∧
        ((∃ y ∈ s.vcq, y.1 = port ∧ y.2.1 = 6) → q.2.1 = 6))))

/-- Errors (R164, R320, R444, R547): a retried link transfer counts as transient, a failed one as lasting and fences the die; a corrected
word counts as transient; one that cannot be corrected counts as lasting and is poison where it lies; a line comes into its slice
good, corrected or poisoned, and one that is there may go bad. Reading an error counter, FWCLAMP or FBDROP clears it (R497, R513, R547).
Rests on the model's own choices: log entries 47, 121. -/
def Obligations.ErrorEvents : Prop :=
  (∀ s die, die < 2 → s.running = true → exec (.linkRetry die true) s = .next (s.wrReg (rERRT die 8) (countUp (s.rdReg (rERRT die 8)))) ∨
    s.rdReg (rERRT die 8) = 0xFFFFFFFF ∧ exec (.linkRetry die true) s = .next s) ∧
  (∀ s die, die < 2 → s.running = true → ∃ t, exec (.linkRetry die false) s = .next t ∧ die ∈ t.fenced ∧
    t.rdReg (rERRL die 8) = countUp (s.rdReg (rERRL die 8))) ∧
  (∀ s gid part reg (lanes : LaneMask) p, party? s gid = some p → p.ga.st = .resident → lanes ≠ 0 →
    (∀ l, bitOf lanes l = true → l < p.l.rec0.width) → reg < p.l.rec0.regs → part = .vec ∨ (part = .side ∧ p.dist = true) →
    (∃ t, exec (.eccWriteback gid part reg lanes false) s = .next t ∧ t = { s with hreg := t.hreg } ∧
      t.rdReg (rERRT (coreDie s p.b.core) 0) = countUp (s.rdReg (rERRT (coreDie s p.b.core) 0))) ∧
    ∃ t g', exec (.eccWriteback gid part reg lanes true) s = .next t ∧ tget t.groups gid = some g' ∧
      t.rdReg (rERRL (coreDie s p.b.core) 0) = countUp (s.rdReg (rERRL (coreDie s p.b.core) 0)) ∧
      (∀ r l, l < 64 → g'.rdVP r l = (p.g.rdVP r l || (r == reg && bitOf lanes l))) ∧
      ∀ r l, l < 64 → ¬(r = reg ∧ bitOf lanes l = true) → g'.rdV r l = p.g.rdV r l) ∧
  (∀ s gid reg (lanes : LaneMask) d p, party? s gid = some p → p.ga.st = .resident → lanes ≠ 0 →
    (∀ l, bitOf lanes l = true → l < p.l.rec0.width) → reg < 48 →
    ∃ t g', exec (.eccWriteback gid .pred reg lanes d) s = .next t ∧ tget t.groups gid = some g' ∧
      (∀ r l, l < 64 → g'.rdPP r l = (p.g.rdPP r l || (r == reg && bitOf lanes l))) ∧
      ∀ r l, l < 64 → g'.rdP r l = (p.g.rdP r l && !(r == reg && bitOf lanes l))) ∧
  (∀ s gid w (lanes : LaneMask) p, party? s gid = some p → p.ga.st = .resident → 4 * w < p.b.asize →
    ∃ t b', exec (.eccWriteback gid .scratch w lanes true) s = .next t ∧ tget t.blocks p.g.bid = some b' ∧
      b' = { p.b with badWords := b'.badWords } ∧ ∀ x, x ∈ b'.badWords ↔ x ∈ p.b.badWords ∨ x = w) ∧
  (∀ s gid w (lanes : LaneMask) p, party? s gid = some p → p.ga.st = .resident → w < 4096 * p.l.rec0.tslotn →
    ∃ t b', exec (.eccWriteback gid .slot w lanes true) s = .next t ∧ tget t.blocks p.g.bid = some b' ∧
      b' = { p.b with tile := { p.b.tile with badSlots := b'.tile.badSlots } } ∧
      ∀ x, x ∈ b'.tile.badSlots ↔ x ∈ p.b.tile.badSlots ∨ x = w) ∧
  (∀ s pa err, paOk pa = true → pa % 128 = 0 → s.backed = true → (s.l2.any fun x => x.line == pa) = false →
    ∃ t, exec (.l2Fill pa err) s = .next t ∧ t.mem = s.mem ∧ (∃ x ∈ t.l2, x.line = pa ∧ x.dirty = false) ∧
      (∀ k, k ∈ t.badLines ↔ k ∈ s.badLines ∨ (k = pa ∧ err = .uncorrectable)) ∧
      (err = .corrected → t.rdReg (rERRT (keyDie pa) 4) = countUp (s.rdReg (rERRT (keyDie pa) 4))) ∧
      (err = .uncorrectable → t.rdReg (rERRL (keyDie pa) 4) = countUp (s.rdReg (rERRL (keyDie pa) 4)))) ∧
  (∀ s pa, paOk pa = true → pa % 128 = 0 → (s.l2.any fun x => x.line == pa) = true →
    ∃ t, exec (.l2Fill pa .uncorrectable) s = .next t ∧ t.mem = s.mem ∧ t.l2 = s.l2 ∧
      (∀ k, k ∈ t.badLines ↔ k ∈ s.badLines ∨ k = pa) ∧ t.rdReg (rERRL (keyDie pa) 3) = countUp (s.rdReg (rERRL (keyDie pa) 3))) ∧
  (∀ s ps die i, OnePort s ps portServes → die < 2 → i < 10 →
    exec (.errCounterRead ps die i true) s = .next (s.wrReg (rERRL die i) 0) ∧
    exec (.errCounterRead ps die i false) s = .next (s.wrReg (rERRT die i) 0)) ∧
  (∀ s ps die i, OnePort s ps portServes → die < 2 → i < 16 → exec (.fwclampRead ps die i) s = .next (s.wrReg (rFWCLAMP die i) 0)) ∧
  ∀ s ps, OnePort s ps portServes → exec (.fbdropRead ps) s = .next (s.wrReg rFBDROP 0)

/-- Registers through the host ports (R557, R558, R563): of two writes in one clock, that of the port that lost the previous tie goes
last; two reads make no tie; a port that does not serve what it is asked changes nothing. A free lid goes to its reader, and back when its
owner writes; a word pair's high half is latched when its low half is read; a register's writable bits take what is written, and ones
clear. A sweep starts and ends (R483); format windows open and close (R497, R503); a pool is disabled (R487); the staged topology is
taken over whole or not at all (R511); a connected-group entry and the ports' mode change (R514, R523); host accesses reach memory
(R365).
Rests on the model's own choices: log entries 20, 81, 124, 125, 129, 158, 171. -/
def Obligations.HostEvents : Prop :=
  (∀ mk serves s s1 s2, PortWrite mk serves →
    exec (mk (if s.tieReg = true then .p0 else .p1)) s = .next s1 → exec (mk (if s.tieReg = true then .p1 else .p0)) s1 = .next s2 →
    exec (mk .both) s = .next (if serves s 0 = true ∧ serves s 1 = true then { s2 with tieReg := !s2.tieReg } else s2)) ∧
  (∀ mk serves s s1 s2, PortRead mk serves →
    exec (mk (if s.tieReg = true then .p0 else .p1)) s = .next s1 → exec (mk (if s.tieReg = true then .p1 else .p0)) s1 = .next s2 →
    exec (mk .both) s = .next s2) ∧
  (∀ mk serves s ps, PortWrite mk serves ∨ PortRead mk serves → s.running = true → ps = .p0 ∨ ps = .p1 →
    serves s (firstPort ps) = false → exec (mk ps) s = .next s) ∧
  (∀ s ps i, i < 8 → s.running = true →
    (cget 0 s.lids i ≠ 0 → exec (.lidRead ps i) s = .next s) ∧
    (cget 0 s.lids i = 0 → ∃ t, exec (.lidRead ps i) s = .next t ∧ t = { s with lids := t.lids, tieLid := t.tieLid } ∧
      (cget 0 t.lids i = if ps = .p0 ∨ (ps = .both ∧ s.tieLid = false) then 1 else 2) ∧ (t.tieLid = if ps = .both then !s.tieLid else s.tieLid)) ∧
    ((ps = .p0 ∨ ps = .p1) → exec (.lidWrite ps i) s =
      .next (if cget 0 s.lids i = firstPort ps + 1 then { s with lids := cset 0 s.lids i 0 } else s))) ∧
  (∀ s ps off v, OnePort s ps portServes → pairAt s off = some (v, 0) → exec (.wordPairLatchRead ps off) s =
    .next { s with latch := tset s.latch (2 ^ 24 * firstPort ps + off + 4) (hiWord v) }) ∧
  (∀ s ps off (v w : Word), OnePort s ps (regServes off) → ∃ t, exec (.registerWrite ps off v w) s = .next t ∧ t.mem = s.mem ∧
    let x := if firstPort ps = 0 then v else w
    (off = rTQRVAL ∨ off = rFBTO ∨ (∃ i, i < 3 ∧ off = rPLANIN i) → t = s.wrReg off x) ∧
    (off = rTTSEL → t = s.wrReg off ((s.rdReg off &&& ~~~0x3FF) ||| (x &&& 0x3FF))) ∧
    (off = 4 → t = { s with planRdy := s.planRdy || (bitOf x 1 && s.stage == 0), joinReq := s.joinReq || (bitOf x 0 && s.stage == 3) }) ∧
    (off = rLCMDST → t = s.wrReg off (s.rdReg off &&& ~~~(x &&& 1))) ∧
    ∀ n k, n < 3 → (off = rSUSP 0 n ∨ off = rSUSP 1 n) → k < 32 →
      bitOf (t.rdReg off) k = (bitOf (s.rdReg off) k && !bitOf x k)) ∧
  (∀ s ps (v w val : Word), OnePort s ps portServes → val = portVal (firstPort ps) v w → bitOf (s.rdReg rHSWPCMD) 31 = false →
    ∃ t va, exec (.hswpcmd ps ⟨v, w⟩) s = .next t ∧ t.sweeps = s.sweeps ++ [⟨fieldOf val 0 6, va, none, 0⟩] ∧ bitOf (t.rdReg rHSWPCMD) 31 = true ∧
      (bitOf val 30 = true → va = none) ∧
      (bitOf val 30 = false → va = some (fieldOf (s.rdReg rHSWPVAL) 16 16 * 2 ^ 16 + fieldOf (s.rdReg rHSWPVAH) 0 24 * 2 ^ 32))) ∧
  (∀ s idx w, s.sweeps[idx]? = some w → sweepWaits s w.asid w.va = false →
    ∃ t, exec (.sweepComplete idx) s = .next t ∧ t.mem = s.mem ∧ t.sweeps = s.sweeps.eraseIdx idx ∧
      (∀ k ls, (k, ls) ∈ t.coreTlb ++ t.dieTlb → ∀ x ∈ ls, sweeps w.asid w.va x = false) ∧
      (w.gid = none → bitOf (t.rdReg rHSWPCMD) 31 = false) ∧
      ∀ gid g, w.gid = some gid → tget s.groups gid = some g → ∃ g', tget t.groups gid = some g' ∧
        (g.ocDone = [] → 0 < cget 0 g.oc 7 → cget 0 g.ocIssued 7 = w.ocSeq + cget 0 g.oc 7 → cget 0 g'.oc 7 = cget 0 g.oc 7 - 1)) ∧
  (∀ s ps die i (v w val : Word), OnePort s ps portServes → val = portVal (firstPort ps) v w → die < 2 → i < 16 →
    ∃ t, exec (.fwcfgWrite ps die i ⟨v, w⟩) s = .next t ∧
    let r := rFWCFG die i
    let fmt := fieldOf val 12 4
    (bitOf (s.rdReg r) 31 = true → bitOf val 31 = true → t = s) ∧
    (bitOf (s.rdReg r) 31 = true → bitOf val 31 = false → bitOf (t.rdReg r) 30 = true ∧ bitOf (t.rdReg r) 31 = true) ∧
    (bitOf (s.rdReg r) 31 = false → bitOf val 31 = true → (fmt < 2 ∨ 6 < fmt ∨ (bitOf val 11 = true ∧ fmt < 4)) →
      bitOf (t.rdReg r) 29 = true ∧ bitOf (t.rdReg r) 31 = false) ∧
    (bitOf (s.rdReg r) 31 = false → bitOf val 31 = true → 2 ≤ fmt → fmt ≤ 6 → (bitOf val 11 = true → 4 ≤ fmt) →
      bitOf (t.rdReg r) 31 = true ∧ fieldOf (t.rdReg r) 12 4 = fmt ∧ bitOf (t.rdReg r) 30 = false)) ∧
  (∀ s die i, die < 2 → i < 16 → bitOf (s.rdReg (rFWCFG die i)) 31 = true → bitOf (s.rdReg (rFWCFG die i)) 30 = true →
    ∃ t, exec (.fwDisableDone die i) s = .next t ∧ t.mem = s.mem ∧ bitOf (t.rdReg (rFWCFG die i)) 31 = false ∧
      bitOf (t.rdReg (rFWCFG die i)) 30 = false ∧
      (∀ y ∈ t.l2, y.win ≠ some (16 * die + i)) ∧
      ∀ e ∈ t.l1, coreDie s e.1 = die → ∀ x ∈ e.2, x.win ≠ some (16 * die + i)) ∧
  (∀ s p, p < 16 → p ∈ s.poolOff → dropsOn s p = false → ∃ t, exec (.poolDisable p) s = .next t ∧
    t = { s with hreg := t.hreg, poolOff := s.poolOff.filter fun x => x != p } ∧
    bitOf (t.rdReg (rPPCFG p)) 31 = false ∧ ∀ off, off ≠ rPPCFG p → t.rdReg off = s.rdReg off) ∧
  (∀ s ps (v w val : Word), OnePort s ps portServes → val = portVal (firstPort ps) v w →
    (bitOf val 0 = false → exec (.ttcommit ps ⟨v, w⟩) s = .next s) ∧
    (bitOf val 0 = true → (∀ n, n < 1024 → nodeBad s.ttStaged n = false) →
      exec (.ttcommit ps ⟨v, w⟩) s = .next { s.wrReg rTTSTAT 0 with ttActive := s.ttStaged }) ∧
    ∀ n, bitOf val 0 = true → n < 1024 → nodeBad s.ttStaged n = true → (∀ k, k < n → nodeBad s.ttStaged k = false) →
      exec (.ttcommit ps ⟨v, w⟩) s = .next (s.wrReg rTTSTAT (BitVec.ofNat 32 (0x210000 + n)))) ∧
  (∀ s ps (v w val : Word), OnePort s ps portServes → val = portVal (firstPort ps) v w → ∃ t, exec (.cgtdataWrite ps ⟨v, w⟩) s = .next t ∧
    t = { s with hreg := t.hreg, cgt := t.cgt } ∧
    let d := fieldOf (s.rdReg rCGTSEL) 0 14
    let full := bitOf val 31 = true ∧ 4096 ≤ (s.cgt.filter fun e => e.1 != d && bitOf e.2 31).length
    (∀ k, k ≠ d → cget 0 t.cgt k = cget 0 s.cgt k) ∧ (full → bitOf (cget 0 t.cgt d) 31 = false ∧ bitOf (t.rdReg rFBID) 30 = true) ∧
    (¬full → bitOf (cget 0 t.cgt d) 31 = bitOf val 31 ∧ t.hreg = s.hreg) ∧ fieldOf (cget 0 t.cgt d) 0 24 = fieldOf val 0 24) ∧
  (∀ s ps (v w val : Word), OnePort s ps portServes → val = portVal (firstPort ps) v w → ∃ t, exec (.uemodeWrite ps ⟨v, w⟩) s = .next t ∧ t = { s with hreg := t.hreg } ∧
    ∀ g, g < 8 → if ((List.range 4).any fun i => bitOf (s.rdReg (rPORTCFG (4 * g + i))) 31) = true then bitOf (t.rdReg rUEMODE) g = bitOf (s.rdReg rUEMODE) g
      else bitOf (t.rdReg rUEMODE) g = bitOf val g ∧ ∀ i, i < 4 → bitOf (t.rdReg (rPORTCFG (4 * g + i))) 29 = bitOf val g) ∧
  (∀ s ps pa (data : List Byte), OnePort s ps portServes → data ≠ [] → pa % 128 + data.length ≤ 128 → pa < 2 ^ 62 → paOk pa = true →
    tgtClosed s (.line (.plain (pa / 128 * 128)) 0) = false → noRoom s (pa / 128 * 128) = false →
    s.fenced.contains (keyDie (pa / 128 * 128)) = false →
    (∃ t, exec (.hostAccess ps pa false data) s = .next t ∧ t = { s with l2 := t.l2 }) ∧
    ∃ t, exec (.hostAccess ps pa true data) s = .next t ∧ Puts s t [(pa, data.length, ofBytes data)])

/-- The fabric (R417, R517-R521): a flit that arrives for another device goes on by a port, or waits while a queue is full, one for this device waits
at its place in its flow, where a flow entry is free; the one a flow expects next is delivered, and its access takes effect; an acknowledgement retires flits, and their writes are
done; a flit not acknowledged in time is sent again, and the second time its device is lost, and the die of a
collective it takes part in is fenced, as it is when the transport gives up an Ultra Ethernet peer (R417, R524).
Rests on the model's own choices: log entries 48, 49, 123. -/
def Obligations.FabricEvents : Prop :=
  (∀ s port f, 4 ≤ s.stage → (upPorts s).contains port = true →
    (f.flow.dst ≠ myId s → vcInLen s port (vcOf f.flow.cls f.hops) < 32 →
      ∃ t, exec (.flitArrival port f) s = .next t ∧ t = { s with vcq := t.vcq, vcin := t.vcin } ∧
      (routePort s f = none → t.vcq = s.vcq) ∧
      ∀ k, routePort s f = some k → hopsBy s k f.hops ≤ 2 → vcInLen s port (vcOf f.flow.cls f.hops) = 0 →
        (32 ≤ vcLen s k (vcOf f.flow.cls (hopsBy s k f.hops)) →
          t.vcq = s.vcq ∧ t.vcin = s.vcin ++ [(port, vcOf f.flow.cls f.hops, f)]) ∧
        (vcLen s k (vcOf f.flow.cls (hopsBy s k f.hops)) < 32 →
          t.vcin = s.vcin ∧ ∃ x, t.vcq = s.vcq ++ [(k, vcOf f.flow.cls (hopsBy s k f.hops), x)] ∧
            x = { f with hops := hopsBy s k f.hops, mark := x.mark })) ∧
    (f.flow.dst = myId s → ∃ t, exec (.flitArrival port f) s = .next t ∧ t = { s with flowsIn := t.flowsIn } ∧
      let x := flowIn s f.flow
      let full := f.seq ≠ x.next ∧ (∀ h ∈ x.held, h.1 = x.next) ∧ 256 ≤ flowEntries s x.port
      ((32768 ≤ (f.seq - x.next).toNat ∨ (∃ h ∈ x.held, h.1 = f.seq) ∨ full) → t = s) ∧
      ((f.seq - x.next).toNat < 32768 → (∀ h ∈ x.held, h.1 ≠ f.seq) → ¬ full →
        flowIn t f.flow = { x with held := x.held ++ [(f.seq, f.acc, f.mark)] }))) ∧
  (∀ s port flow x seq acc mark a, (s.flowsIn.find? fun x => x.flow == flow && x.port == port) = some x →
    (x.held.find? fun h => h.1 == x.next) = some (seq, acc, mark) → flow.cls = .request → acc.kind = .store →
    (∃ k off, incomingTgt s acc.addr .write = .ok (.line (.plain k) off) ∧ a = k + off ∧ off + acc.data.length ≤ 128 ∧
      tgtClosed s (.line (.plain k) off) = false) →
    ∃ t, exec (.flitReorderDeliver port flow) s = .next t ∧ Puts s t [(a, acc.data.length, ofBytes acc.data)] ∧
      (flowIn t flow).next = x.next + 1) ∧
  (∀ s src acc a, 4 ≤ s.stage →
    (∃ k off, incomingTgt s acc.addr (if acc.kind = .store then .write else .read) = .ok (.line (.plain k) off) ∧ a = k + off ∧
      tgtClosed s (.line (.plain k) off) = false ∧ s.badLines.contains k = false ∧ off + acc.data.length ≤ 128) →
    (acc.kind = .store → ∃ t, exec (.fabricIncomingAccess src acc) s = .next t ∧ Puts s t [(a, acc.data.length, ofBytes acc.data)]) ∧
    (acc.kind = .load → flowFull s ⟨myId s, src, hashLane acc.addr 0, .response⟩ = false →
      ∃ t, exec (.fabricIncomingAccess src acc) s = .next t ∧ t.mem = s.mem ∧ t.groups = s.groups)) ∧
  (∀ s src acc k w, 4 ≤ s.stage → acc.kind = .reply k → (s.fwaits.find? fun w => w.tag == acc.tag) = some w → w.hold = none →
    w.more = [] →
    ∃ t, exec (.fabricIncomingAccess src acc) s = .next t ∧ t.mem = s.mem ∧ ∀ x ∈ t.fwaits, x.tag ≠ acc.tag) ∧
  (∀ s flow upTo marked f i, (s.flowsOut.find? fun f => f.flow == flow) = some f →
    (f.unacked.findIdx? fun u => u.1 == upTo) = some i →
    (∀ u ∈ f.unacked, ∀ w ∈ s.fwaits, w.tag = u.2.1.tag → (∃ x ∈ s.fwaits, x.tag = w.tag ∧ (x.form = 0 ∨ x.form = 7)) →
      w.hold = none ∧ w.more = []) →
    ∃ t more, exec (.fabricAck flow upTo marked) s = .next t ∧ t.mem = s.mem ∧
      (flowOut t flow).unacked = f.unacked.drop (i + 1) ++ more ∧ (f.queued = [] → more = []) ∧
      ∀ u ∈ f.unacked.take (i + 1), ∀ w ∈ t.fwaits, w.tag = u.2.1.tag → w.form ≠ 0 ∧ w.form ≠ 7) ∧
  (∀ s flow seq e, uePeer flow = some e → peerBad s (BitVec.ofNat 32 (2 ^ 30 + e * 2 ^ 16)) = false →
    ∃ t, exec (.retransmitTimeout flow seq) s = .next t ∧
      ∀ c ∈ s.colls, ∀ n ∈ c.nodes, bitOf n 30 = true → fieldOf n 16 8 = e → c.die ∈ t.fenced) ∧
  (∀ s flow seq f acc r stamp, uePeer flow = none → (s.flowsOut.find? fun f => f.flow == flow) = some f →
    (f.unacked.find? fun u => u.1 == seq) = some (seq, acc, r, stamp) → (s.rdReg rFBTO).toNat ≤ clocksSince s stamp →
    ∃ t, exec (.retransmitTimeout flow seq) s = .next t ∧
      (r = false ∨ (∀ m ∈ s.migs, m.attempt ≠ 0) → t.mem = s.mem) ∧
      (r = true → ∀ c ∈ s.colls, ∀ n ∈ c.nodes, bitOf n 30 = false → fieldOf n 16 14 = flow.dst → c.die ∈ t.fenced) ∧
      (r = false → ∀ u ∈ (flowOut t flow).unacked, u.1 = seq → u.2.2.1 = true) ∧
      (r = true → bitOf (cget 0 t.cgt flow.dst) 31 = false ∧ bitOf (cget 0 t.cgt flow.dst) 30 = true ∧
        ∀ w ∈ t.fwaits, w.dev ≠ flow.dst))
end

