-- ==== Sys2Proof/Laws/Cells.lean ====
section
/-! SUPPORT. Laws of sparse storage and tables: a read after a write, the canonical form, and that every write keeps it. -/

namespace Sys2Proof.Machine

variable {α : Type}

theorem cget_cput_same (d : α) (m : Cells α) (k : Nat) (v : α) : cget d (cput m k v) k = v := by
  induction m with
  | nil => simp [cput, cget]
  | cons e r ih =>
    obtain ⟨j, w⟩ := e
    simp only [cput]
    split
    · rename_i h
      simp [cget, Nat.ne_of_lt h, ih]
    · split <;> simp [cget]

theorem cget_cput_other (d : α) (m : Cells α) {k j : Nat} (v : α) (h : j ≠ k) :
    cget d (cput m k v) j = cget d m j := by
  induction m with
  | nil => simp [cput, cget, Ne.symm h]
  | cons e r ih =>
    obtain ⟨i, w⟩ := e
    simp only [cput]
    split
    · simp [cget, ih]
    · split
      · rename_i hi
        subst hi
        simp [cget, Ne.symm h]
      · simp [cget, Ne.symm h]

theorem cget_cdel_same (d : α) (m : Cells α) (k : Nat) : cget d (cdel m k) k = d := by
  induction m with
  | nil => rfl
  | cons e r ih =>
    obtain ⟨j, w⟩ := e
    by_cases hj : j = k <;> simp_all [cdel, cget]

theorem cget_cdel_other (d : α) (m : Cells α) {k j : Nat} (h : j ≠ k) : cget d (cdel m k) j = cget d m j := by
  induction m with
  | nil => rfl
  | cons e r ih =>
    obtain ⟨i, w⟩ := e
    by_cases hi : i = k
    · subst hi
      simp_all [cdel, cget, Ne.symm h]
    · simp_all [cdel, cget]

/-- What is written is read back. -/
@[simp] theorem cget_cset_same [DecidableEq α] (d : α) (m : Cells α) (k : Nat) (v : α) : cget d (cset d m k v) k = v := by
  simp only [cset]
  split
  · rename_i h
    rw [h, cget_cdel_same]
  · rw [cget_cput_same]

/-- A write leaves every other key alone. -/
theorem cget_cset_other [DecidableEq α] (d : α) (m : Cells α) {k j : Nat} (v : α) (h : j ≠ k) :
    cget d (cset d m k v) j = cget d m j := by
  simp only [cset]
  split
  · exact cget_cdel_other d m h
  · exact cget_cput_other d m v h

/-- What a key reads as after a write. -/
theorem cget_cset [DecidableEq α] (d : α) (m : Cells α) (k j : Nat) (v : α) :
    cget d (cset d m k v) j = if j = k then v else cget d m j := by
  split
  · rename_i h
    rw [h, cget_cset_same]
  · rename_i h
    exact cget_cset_other d m v h

/-- Every listed key is above a bound. -/
def keysAbove (b : Nat) (m : Cells α) : Prop := ∀ e ∈ m, b < e.1

theorem keysRising_cons (e : Nat × α) (r : Cells α) : keysRising (e :: r) = true ↔ keysAbove e.1 r ∧ keysRising r = true := by
  induction r generalizing e with
  | nil => simp [keysRising, keysAbove]
  | cons f r ih =>
    obtain ⟨j, v⟩ := e
    obtain ⟨k, w⟩ := f
    simp only [keysRising, Bool.and_eq_true, decide_eq_true_eq, ih (k, w)]
    constructor
    · rintro ⟨h, ha, hr⟩
      refine ⟨?_, ha, hr⟩
      intro x hx
      rcases List.mem_cons.1 hx with rfl | hx
      · exact h
      · exact Nat.lt_trans h (ha x hx)
    · rintro ⟨hb, ha, hr⟩
      exact ⟨hb _ (List.mem_cons_self ..), ha, hr⟩

theorem mem_cput {m : Cells α} {k : Nat} {v : α} {e : Nat × α} (h : e ∈ cput m k v) : e = (k, v) ∨ e ∈ m := by
  induction m with
  | nil => simp_all [cput]
  | cons f r ih =>
    obtain ⟨j, w⟩ := f
    simp only [cput] at h
    split at h
    · rcases List.mem_cons.1 h with h | h
      · exact .inr (by simp [h])
      · rcases ih h with h | h
        · exact .inl h
        · exact .inr (by simp [h])
    · split at h
      · rcases List.mem_cons.1 h with h | h
        · exact .inl h
        · exact .inr (by simp [h])
      · rcases List.mem_cons.1 h with h | h
        · exact .inl h
        · exact .inr h

theorem keysRising_cput {m : Cells α} {k : Nat} {v : α} (h : keysRising m = true) : keysRising (cput m k v) = true := by
  induction m with
  | nil => simp [cput, keysRising]
  | cons f r ih =>
    obtain ⟨j, w⟩ := f
    obtain ⟨ha, hr⟩ := (keysRising_cons (j, w) r).1 h
    simp only [cput]
    split
    · rename_i hj
      refine (keysRising_cons _ _).2 ⟨?_, ih hr⟩
      intro e he
      rcases mem_cput he with rfl | he
      · exact hj
      · exact ha e he
    · split
      · rename_i hj
        refine (keysRising_cons _ _).2 ⟨?_, hr⟩
        intro e he
        have := ha e he
        simp only at this ⊢
        omega
      · refine (keysRising_cons _ _).2 ⟨?_, h⟩
        intro e he
        rcases List.mem_cons.1 he with rfl | he
        · simp only
          omega
        · have := ha e he
          simp only at this ⊢
          omega

theorem keysRising_filter {m : Cells α} (p : Nat × α → Bool) (h : keysRising m = true) : keysRising (m.filter p) = true := by
  induction m with
  | nil => simp [keysRising]
  | cons f r ih =>
    obtain ⟨ha, hr⟩ := (keysRising_cons f r).1 h
    by_cases hp : p f
    · rw [List.filter_cons_of_pos hp]
      exact (keysRising_cons _ _).2 ⟨fun e he => ha e (List.mem_filter.1 he).1, ih hr⟩
    · rw [List.filter_cons_of_neg hp]
      exact ih hr

/-- A write keeps the canonical form. -/
theorem cset_wf [DecidableEq α] {d : α} {m : Cells α} (k : Nat) (v : α) (h : cellsWf d m = true) :
    cellsWf d (cset d m k v) = true := by
  simp only [cellsWf, Bool.and_eq_true, List.all_eq_true, decide_eq_true_eq] at h ⊢
  simp only [cset]
  split
  · exact ⟨keysRising_filter _ h.1, fun e he => h.2 e (List.mem_filter.1 he).1⟩
  · rename_i hv
    refine ⟨keysRising_cput h.1, fun e he => ?_⟩
    rcases mem_cput he with rfl | he
    · exact hv
    · exact h.2 e he

/-- Writes of a list keep the canonical form. -/
theorem foldl_cset_wf [DecidableEq α] {β : Type} {d : α} (ks : List β) (key : β → Nat) (val : Cells α → β → α) (m : Cells α)
    (h : cellsWf d m = true) : cellsWf d (ks.foldl (fun m b => cset d m (key b) (val m b)) m) = true := by
  induction ks generalizing m with
  | nil => exact h
  | cons b r ih => exact ih _ (cset_wf _ _ h)

theorem tget_cput_same (m : Table α) (k : Nat) (v : α) : tget (cput m k v) k = some v := by
  induction m with
  | nil => simp [cput, tget]
  | cons e r ih =>
    obtain ⟨j, w⟩ := e
    simp only [cput]
    split
    · rename_i h
      simp [tget, Nat.ne_of_lt h, ih]
    · split <;> simp [tget]

theorem tget_cput_other (m : Table α) {k j : Nat} (v : α) (h : j ≠ k) : tget (cput m k v) j = tget m j := by
  induction m with
  | nil => simp [cput, tget, Ne.symm h]
  | cons e r ih =>
    obtain ⟨i, w⟩ := e
    simp only [cput]
    split
    · simp [tget, ih]
    · split
      · rename_i hi
        subst hi
        simp [tget, Ne.symm h]
      · simp [tget, Ne.symm h]

/-- A record just put is found. -/
@[simp] theorem tget_tset_same (m : Table α) (k : Nat) (v : α) : tget (tset m k v) k = some v := tget_cput_same m k v
/-- Putting a record leaves the others alone. -/
theorem tget_tset_other (m : Table α) {k j : Nat} (v : α) (h : j ≠ k) : tget (tset m k v) j = tget m j :=
  tget_cput_other m v h
/-- A record changed in place. -/
theorem tget_tmod_same (m : Table α) (k : Nat) (f : α → α) : tget (tmod m k f) k = (tget m k).map f := by
  unfold tmod
  cases h : tget m k with
  | none => simp [h]
  | some v => simp [tget_cput_same]
theorem tget_tmod_other (m : Table α) {k j : Nat} (f : α → α) (h : j ≠ k) : tget (tmod m k f) j = tget m j := by
  unfold tmod
  cases tget m k with
  | none => rfl
  | some v => exact tget_cput_other m _ h
/-- Changing a record that is there is putting the changed one. -/
theorem tmod_eq_tset {m : Table α} {k : Nat} {v : α} (f : α → α) (h : tget m k = some v) : tmod m k f = tset m k (f v) := by
  simp [tmod, tset, h]

end Sys2Proof.Machine
end

