-- ==== Sys2Proof/Laws/Lane.lean ====
section
/-! SUPPORT. What the shared operations of lane instructions do: the issue of a ready instruction, register writes and flags one
lane at a time, and the frame of `runLanes` and `runUniform`. -/

namespace Sys2Proof.Machine

open Sys2Proof

/-! Register files: reading back what was written. -/

theorem lkey_inj {r r' l l' : Nat} (h : l < 64) (h' : l' < 64) : lkey r l = lkey r' l' ↔ r = r' ∧ l = l' := by
  unfold lkey
  omega

theorem rdV_wrV (g : Group) (dist : Bool) (r l r' l' : Nat) (d sd : Word) (p : Bool) (h : l < 64) (h' : l' < 64) :
    (g.wrV dist r l d sd p).rdV r' l' = if r' = r ∧ l' = l then d else g.rdV r' l' := by
  simp only [Group.rdV, Group.wrV, cget_cset, lkey_inj h' h]

theorem rdVP_wrV (g : Group) (dist : Bool) (r l r' l' : Nat) (d sd : Word) (p : Bool) (h : l < 64) (h' : l' < 64) :
    (g.wrV dist r l d sd p).rdVP r' l' = if r' = r ∧ l' = l then p else g.rdVP r' l' := by
  simp only [Group.rdVP, Group.wrV, cget_cset, lkey_inj h' h]

theorem rdSide_wrV (g : Group) (dist : Bool) (r l r' l' : Nat) (d sd : Word) (p : Bool) (h : l < 64) (h' : l' < 64) :
    (g.wrV dist r l d sd p).rdSide r' l' = if dist = true ∧ r' = r ∧ l' = l then sd else g.rdSide r' l' := by
  cases dist <;> simp [Group.rdSide, Group.wrV, cget_cset, lkey_inj h' h]

theorem rdP_wrP (g : Group) (r l r' l' : Nat) (x p : Bool) (h : l < 64) (h' : l' < 64) :
    (g.wrP r l x p).rdP r' l' = if r' = r ∧ l' = l then (x && !p) else g.rdP r' l' := by
  simp only [Group.rdP, Group.wrP, cget_cset, lkey_inj h' h]

theorem rdPP_wrP (g : Group) (r l r' l' : Nat) (x p : Bool) (h : l < 64) (h' : l' < 64) :
    (g.wrP r l x p).rdPP r' l' = if r' = r ∧ l' = l then p else g.rdPP r' l' := by
  simp only [Group.rdPP, Group.wrP, cget_cset, lkey_inj h' h]

@[simp] theorem rdP_wrV (g : Group) (dist : Bool) (r l r' l' : Nat) (d sd : Word) (p : Bool) :
    (g.wrV dist r l d sd p).rdP r' l' = g.rdP r' l' := rfl
@[simp] theorem rdPP_wrV (g : Group) (dist : Bool) (r l r' l' : Nat) (d sd : Word) (p : Bool) :
    (g.wrV dist r l d sd p).rdPP r' l' = g.rdPP r' l' := rfl
@[simp] theorem rdK_wrV (g : Group) (dist : Bool) (r l k : Nat) (d sd : Word) (p : Bool) :
    (g.wrV dist r l d sd p).rdK k = g.rdK k := rfl
@[simp] theorem rdFpsr_wrV (g : Group) (dist : Bool) (r l k : Nat) (d sd : Word) (p : Bool) :
    (g.wrV dist r l d sd p).rdFpsr k = g.rdFpsr k := rfl
@[simp] theorem rdV_wrP (g : Group) (r l r' l' : Nat) (x p : Bool) : (g.wrP r l x p).rdV r' l' = g.rdV r' l' := rfl
@[simp] theorem rdVP_wrP (g : Group) (r l r' l' : Nat) (x p : Bool) : (g.wrP r l x p).rdVP r' l' = g.rdVP r' l' := rfl
@[simp] theorem rdSide_wrP (g : Group) (r l r' l' : Nat) (x p : Bool) : (g.wrP r l x p).rdSide r' l' = g.rdSide r' l' := rfl
@[simp] theorem rdK_wrP (g : Group) (r l k : Nat) (x p : Bool) : (g.wrP r l x p).rdK k = g.rdK k := rfl
@[simp] theorem rdFpsr_wrP (g : Group) (r l k : Nat) (x p : Bool) : (g.wrP r l x p).rdFpsr k = g.rdFpsr k := rfl
@[simp] theorem rdV_wrK (g : Group) (r r' l' : Nat) (d : Word) : (g.wrK r d).rdV r' l' = g.rdV r' l' := rfl
@[simp] theorem rdVP_wrK (g : Group) (r r' l' : Nat) (d : Word) : (g.wrK r d).rdVP r' l' = g.rdVP r' l' := rfl
@[simp] theorem rdSide_wrK (g : Group) (r r' l' : Nat) (d : Word) : (g.wrK r d).rdSide r' l' = g.rdSide r' l' := rfl
@[simp] theorem rdP_wrK (g : Group) (r r' l' : Nat) (d : Word) : (g.wrK r d).rdP r' l' = g.rdP r' l' := rfl
@[simp] theorem rdPP_wrK (g : Group) (r r' l' : Nat) (d : Word) : (g.wrK r d).rdPP r' l' = g.rdPP r' l' := rfl
@[simp] theorem rdFpsr_wrK (g : Group) (r k : Nat) (d : Word) : (g.wrK r d).rdFpsr k = g.rdFpsr k := rfl
theorem rdK_wrK (g : Group) (r k : Nat) (d : Word) : (g.wrK r d).rdK k = if k = r then d else g.rdK k := by
  simp only [Group.rdK, Group.wrK, cget_cset]

theorem rdFpsr_orFpsr (g : Group) (l l' : Nat) (f : Flg) :
    (g.orFpsr l f).rdFpsr l' = if l' = l then g.rdFpsr l ||| f.setWidth 32 else g.rdFpsr l' := by
  simp only [Group.rdFpsr, Group.orFpsr, cget_cset]

@[simp] theorem rdV_orFpsr (g : Group) (l r' l' : Nat) (f : Flg) : (g.orFpsr l f).rdV r' l' = g.rdV r' l' := rfl
@[simp] theorem rdVP_orFpsr (g : Group) (l r' l' : Nat) (f : Flg) : (g.orFpsr l f).rdVP r' l' = g.rdVP r' l' := rfl
@[simp] theorem rdSide_orFpsr (g : Group) (l r' l' : Nat) (f : Flg) : (g.orFpsr l f).rdSide r' l' = g.rdSide r' l' := rfl
@[simp] theorem rdP_orFpsr (g : Group) (l r' l' : Nat) (f : Flg) : (g.orFpsr l f).rdP r' l' = g.rdP r' l' := rfl
@[simp] theorem rdPP_orFpsr (g : Group) (l r' l' : Nat) (f : Flg) : (g.orFpsr l f).rdPP r' l' = g.rdPP r' l' := rfl
@[simp] theorem rdK_orFpsr (g : Group) (l r' : Nat) (f : Flg) : (g.orFpsr l f).rdK r' = g.rdK r' := rfl

/-! Lanes of a mask. -/

theorem mem_lanesOf {m : LaneMask} {l : Nat} : l ∈ lanesOf m ↔ l < 64 ∧ bitOf m l = true := by
  simp [lanesOf]

theorem nodup_lanesOf (m : LaneMask) : (lanesOf m).Nodup := List.Nodup.filter _ List.nodup_range

theorem bitOf_and (a b : LaneMask) (l : Nat) : bitOf (a &&& b) l = (bitOf a l && bitOf b l) := by
  simp [bitOf]

theorem bitOf_not (a : LaneMask) {l : Nat} (h : l < 64) : bitOf (~~~a) l = !bitOf a l := by
  simp only [bitOf]
  rw [BitVec.testBit_toNat, BitVec.testBit_toNat, BitVec.getLsbD_not]
  simp [h]

theorem bitOf_or (a b : LaneMask) (l : Nat) : bitOf (a ||| b) l = (bitOf a l || bitOf b l) := by
  simp [bitOf]

/-- An active lane that is no helper lane is a real one. -/
theorem mem_real {c : Ctx} {hd : Hd} {l : Nat} (hl : l < 64) :
    bitOf (c.real hd) l = true ↔ bitOf (c.active hd) l = true ∧ bitOf c.helpers l = false := by
  simp [Ctx.real, bitOf_and, bitOf_not _ hl]

/-! Issue. -/

theorem hazardReg_none {c : Ctx} {hd : Hd} {t : Touch}
    (hv : ∀ r ∈ t.vr ++ t.vw, pendingV c.p.g c.e.mask r = false)
    (hp : ∀ r ∈ guardRegs hd.guard ++ (t.pr ++ t.pw), pendingP c.p.g c.e.mask r = false) : hazardReg c hd t = none := by
  have h1 : (guardRegs hd.guard).find? (fun r => pendingP c.p.g c.e.mask r) = none :=
    List.find?_eq_none.2 fun r hr => by simp [hp r (List.mem_append_left _ hr)]
  have h2 : (t.pr ++ t.pw).find? (fun r => pendingP c.p.g c.e.mask r) = none :=
    List.find?_eq_none.2 fun r hr => by simp [hp r (List.mem_append_right _ hr)]
  have h3 : (t.vr ++ t.vw).find? (fun r => pendingV c.p.g c.e.mask r) = none :=
    List.find?_eq_none.2 fun r hr => by simp [hv r hr]
  simp only [hazardReg, h1, h2, h3, ite_self]

theorem Ready.issueFault_none {s : State} {c : Ctx} {hd : Hd} {t : Touch} (h : Ready s c hd t) : issueFault c hd t = none := by
  unfold issueFault
  have h1 : (c.e.irr && !t.rgn && !c.p.g.tm) = false := by
    cases hi : c.e.irr with
    | false => simp
    | true => rcases h.region hi with hr | hr <;> simp [hr]
  have h2 : ((t.vr ++ t.vw).any fun r => decide (c.p.l.rec0.regs ≤ r)) = false := by
    rw [List.any_eq_false]
    intro r hr
    have := h.alloc r hr
    simp only [decide_eq_true_eq]
    omega
  rw [h1, h2, hazardReg_none h.vecFree h.predFree]
  simp

theorem Ready.guardTrap_none {s : State} {c : Ctx} {hd : Hd} {t : Touch} (h : Ready s c hd t) : guardTrap c hd = none := by
  unfold guardTrap
  have hg : guardPoison c.p.g c.lanes hd.guard = [] := by
    cases hgd : hd.guard with
    | always => rfl
    | pred n neg =>
      simp only [guardPoison, List.filter_eq_nil_iff]
      intro l hl
      simp [h.guardClean n neg hgd l hl]
  rw [hg]
  rfl

/-- RUNNING A READY INSTRUCTION is running its body. -/
theorem runGroup_ready {s : State} {c : Ctx} {hd : Hd} {t : Touch} (h : Ready s c hd t) (body : Ctx → Res) :
    runGroup s hd t body = outcome s c (body c) := by
  simp only [runGroup, h.issuer, h.issueFault_none, h.guardTrap_none]

/-- The issuer's group, as the issuer's context holds it. -/
theorem ctx?_group {s : State} {c : Ctx} (h : ctx? s = some c) : tget s.groups c.gid = some c.p.g := by
  unfold ctx? at h
  split at h
  · rename_i gid eid w _
    split at h
    · cases h
    · rename_i p hp
      split at h
      · cases h
      · cases h
        unfold party? at hp
        split at hp
        · cases hp
        · rename_i g hg
          split at hp
          · cases hp
          · split at hp
            · cases hp
            · split at hp
              · cases hp
              · cases hp
                exact hg
  · cases h

/-- Changing the issuer's group is putting the changed one. -/
theorem modGroup_ctx {s : State} {c : Ctx} (h : ctx? s = some c) (f : Group → Group) :
    modGroup s c.gid f = withGroup s c.gid (f c.p.g) := by
  simp only [modGroup, withGroup, tmod_eq_tset f (ctx?_group h)]

/-- The entry moves on after the group has changed. -/
theorem advance_ctx {s : State} {c : Ctx} (h : ctx? s = some c) (irr : Bool) (f : Group → Group)
    (he : (f c.p.g).entries = c.p.g.entries) (ht : (f c.p.g).tm = c.p.g.tm) :
    c.advance s irr f = withGroup s c.gid { f c.p.g with entries := c.movedOn irr } := by
  simp only [Ctx.advance, modGroup_ctx h, he, ht, Ctx.movedOn]

/-! Writes of one lane. -/

/-- A write goes to a destination of the list, in lane l. -/
def destAt (dsts : List Opnd) (l : Nat) : Dest → Prop
  | .vec r lane _ _ _ => r ∈ dsts.flatMap Opnd.vregs ∧ lane = l
  | .pred r lane _ _ => r ∈ dsts.flatMap Opnd.pregs ∧ lane = l
  | .uni r _ => r ∈ dsts.flatMap opndK

theorem destAt_mono {d : Opnd} {dsts : List Opnd} (h : d ∈ dsts) {l : Nat} {w : Dest} (hw : destAt [d] l w) : destAt dsts l w := by
  cases w <;> simp only [destAt, List.flatMap_cons, List.flatMap_nil, List.append_nil] at hw ⊢
  · exact ⟨List.mem_flatMap.2 ⟨d, h, hw.1⟩, hw.2⟩
  · exact ⟨List.mem_flatMap.2 ⟨d, h, hw.1⟩, hw.2⟩
  · exact List.mem_flatMap.2 ⟨d, h, hw⟩

theorem destAt_dests (d : Opnd) (l data : Nat) (sd : Word) : ∀ w ∈ d.dests l data sd, destAt [d] l w := by
  intro w hw
  cases d <;> simp only [Opnd.dests, List.mem_cons, List.not_mem_nil, or_false] at hw <;>
    (try rcases hw with rfl | rfl) <;> simp_all [destAt, Opnd.vregs, Opnd.pregs, opndK]

theorem destAt_poisoned (d : Opnd) (l i : Nat) : ∀ w ∈ d.poisoned l i, destAt [d] l w := by
  intro w hw
  cases d <;> simp only [Opnd.poisoned, List.mem_cons, List.not_mem_nil, or_false] at hw <;>
    (try rcases hw with rfl | rfl) <;> simp_all [destAt, Opnd.vregs, Opnd.pregs]

@[simp] theorem laneRest_put (g : Group) (dist : Bool) (w : Dest) : laneRest (g.put dist w) = laneRest g := by cases w <;> rfl
@[simp] theorem put_entries (g : Group) (dist : Bool) (w : Dest) : (g.put dist w).entries = g.entries := by cases w <;> rfl
@[simp] theorem put_inflight (g : Group) (dist : Bool) (w : Dest) : (g.put dist w).inflight = g.inflight := by cases w <;> rfl
@[simp] theorem put_fpsr (g : Group) (dist : Bool) (w : Dest) : (g.put dist w).fpsr = g.fpsr := by cases w <;> rfl
@[simp] theorem put_drc (g : Group) (dist : Bool) (w : Dest) : (g.put dist w).drc = g.drc := by cases w <;> rfl
@[simp] theorem put_src (g : Group) (dist : Bool) (w : Dest) : (g.put dist w).src = g.src := by cases w <;> rfl
@[simp] theorem put_sri (g : Group) (dist : Bool) (w : Dest) : (g.put dist w).sri = g.sri := by cases w <;> rfl
@[simp] theorem put_cych (g : Group) (dist : Bool) (w : Dest) : (g.put dist w).cych = g.cych := by cases w <;> rfl
@[simp] theorem put_tm (g : Group) (dist : Bool) (w : Dest) : (g.put dist w).tm = g.tm := by cases w <;> rfl

/-- What a put keeps, a list of puts keeps. -/
theorem putAll_keeps {β : Type} (P : Group → β) (h : ∀ g dist w, P (Group.put g dist w) = P g) (ws : List Dest) (g : Group)
    (dist : Bool) : P (g.putAll dist ws) = P g := by
  induction ws generalizing g with
  | nil => rfl
  | cons w r ih => exact (ih (g.put dist w)).trans (h g dist w)

@[simp] theorem laneRest_putAll (g : Group) (dist : Bool) (ws : List Dest) : laneRest (g.putAll dist ws) = laneRest g :=
  putAll_keeps laneRest laneRest_put ws g dist
@[simp] theorem putAll_entries (g : Group) (dist : Bool) (ws : List Dest) : (g.putAll dist ws).entries = g.entries :=
  putAll_keeps Group.entries put_entries ws g dist
@[simp] theorem putAll_inflight (g : Group) (dist : Bool) (ws : List Dest) : (g.putAll dist ws).inflight = g.inflight :=
  putAll_keeps Group.inflight put_inflight ws g dist
@[simp] theorem putAll_fpsr (g : Group) (dist : Bool) (ws : List Dest) : (g.putAll dist ws).fpsr = g.fpsr :=
  putAll_keeps Group.fpsr put_fpsr ws g dist
@[simp] theorem putAll_drc (g : Group) (dist : Bool) (ws : List Dest) : (g.putAll dist ws).drc = g.drc :=
  putAll_keeps Group.drc put_drc ws g dist
@[simp] theorem putAll_src (g : Group) (dist : Bool) (ws : List Dest) : (g.putAll dist ws).src = g.src :=
  putAll_keeps Group.src put_src ws g dist
@[simp] theorem putAll_sri (g : Group) (dist : Bool) (ws : List Dest) : (g.putAll dist ws).sri = g.sri :=
  putAll_keeps Group.sri put_sri ws g dist
@[simp] theorem putAll_cych (g : Group) (dist : Bool) (ws : List Dest) : (g.putAll dist ws).cych = g.cych :=
  putAll_keeps Group.cych put_cych ws g dist
@[simp] theorem putAll_tm (g : Group) (dist : Bool) (ws : List Dest) : (g.putAll dist ws).tm = g.tm :=
  putAll_keeps Group.tm put_tm ws g dist

/-- A write at a lane's destinations leaves the other registers and the other lanes. -/
theorem put_frame {dsts : List Opnd} {l : Nat} (hl : l < 64) {w : Dest} (hw : destAt dsts l w) (g : Group) (dist : Bool) :
    (∀ r l', l' < 64 → ¬(r ∈ dsts.flatMap Opnd.vregs ∧ l' = l) →
      (g.put dist w).rdV r l' = g.rdV r l' ∧ (g.put dist w).rdVP r l' = g.rdVP r l' ∧ (g.put dist w).rdSide r l' = g.rdSide r l') ∧
    (∀ r l', l' < 64 → ¬(r ∈ dsts.flatMap Opnd.pregs ∧ l' = l) →
      (g.put dist w).rdP r l' = g.rdP r l' ∧ (g.put dist w).rdPP r l' = g.rdPP r l') ∧
    (∀ r, r ∉ dsts.flatMap opndK → (g.put dist w).rdK r = g.rdK r) := by
  cases w with
  | vec r lane d sd p =>
    obtain ⟨hr, rfl⟩ := hw
    refine ⟨fun r' l' hl' hn => ?_, fun _ _ _ _ => ⟨rfl, rfl⟩, fun _ _ => rfl⟩
    have hne : ¬(r' = r ∧ l' = lane) := by
      rintro ⟨rfl, rfl⟩
      exact hn ⟨hr, rfl⟩
    refine ⟨?_, ?_, ?_⟩
    · rw [Group.put, rdV_wrV _ _ _ _ _ _ _ _ _ hl hl', if_neg hne]
    · rw [Group.put, rdVP_wrV _ _ _ _ _ _ _ _ _ hl hl', if_neg hne]
    · rw [Group.put, rdSide_wrV _ _ _ _ _ _ _ _ _ hl hl', if_neg fun h => hne h.2]
  | pred r lane x p =>
    obtain ⟨hr, rfl⟩ := hw
    refine ⟨fun _ _ _ _ => ⟨rfl, rfl, rfl⟩, fun r' l' hl' hn => ?_, fun _ _ => rfl⟩
    have hne : ¬(r' = r ∧ l' = lane) := by
      rintro ⟨rfl, rfl⟩
      exact hn ⟨hr, rfl⟩
    exact ⟨by rw [Group.put, rdP_wrP _ _ _ _ _ _ _ hl hl', if_neg hne],
           by rw [Group.put, rdPP_wrP _ _ _ _ _ _ _ hl hl', if_neg hne]⟩
  | uni r d =>
    refine ⟨fun _ _ _ _ => ⟨rfl, rfl, rfl⟩, fun _ _ _ _ => ⟨rfl, rfl⟩, fun r' hn => ?_⟩
    have hne : r' ≠ r := by
      rintro rfl
      exact hn hw
    rw [Group.put, rdK_wrK, if_neg hne]

theorem putAll_frame {dsts : List Opnd} {l : Nat} (hl : l < 64) (dist : Bool) (ws : List Dest) (hw : ∀ w ∈ ws, destAt dsts l w)
    (g : Group) :
    (∀ r l', l' < 64 → ¬(r ∈ dsts.flatMap Opnd.vregs ∧ l' = l) → (g.putAll dist ws).rdV r l' = g.rdV r l' ∧
      (g.putAll dist ws).rdVP r l' = g.rdVP r l' ∧ (g.putAll dist ws).rdSide r l' = g.rdSide r l') ∧
    (∀ r l', l' < 64 → ¬(r ∈ dsts.flatMap Opnd.pregs ∧ l' = l) →
      (g.putAll dist ws).rdP r l' = g.rdP r l' ∧ (g.putAll dist ws).rdPP r l' = g.rdPP r l') ∧
    (∀ r, r ∉ dsts.flatMap opndK → (g.putAll dist ws).rdK r = g.rdK r) := by
  induction ws generalizing g with
  | nil => exact ⟨fun _ _ _ _ => ⟨rfl, rfl, rfl⟩, fun _ _ _ _ => ⟨rfl, rfl⟩, fun _ _ => rfl⟩
  | cons w r ih =>
    have h0 := put_frame hl (hw w (List.mem_cons_self ..)) g dist
    have h1 := ih (fun x hx => hw x (List.mem_cons_of_mem _ hx)) (g.put dist w)
    refine ⟨fun a b hb hn => ?_, fun a b hb hn => ?_, fun a hn => ?_⟩
    · have x := h1.1 a b hb hn
      have y := h0.1 a b hb hn
      exact ⟨x.1.trans y.1, x.2.1.trans y.2.1, x.2.2.trans y.2.2⟩
    · have x := h1.2.1 a b hb hn
      have y := h0.2.1 a b hb hn
      exact ⟨x.1.trans y.1, x.2.trans y.2⟩
    · exact (h1.2.2 a hn).trans (h0.2.2 a hn)

/-- What a lane's registers read as after writes depends on them before only where they are not written. -/
theorem put_congr {g h : Group} (dist : Bool) (w : Dest) {r l : Nat}
    (hv : g.rdV r l = h.rdV r l ∧ g.rdVP r l = h.rdVP r l ∧ g.rdSide r l = h.rdSide r l ∧ g.rdP r l = h.rdP r l ∧
      g.rdPP r l = h.rdPP r l) :
    (g.put dist w).rdV r l = (h.put dist w).rdV r l ∧ (g.put dist w).rdVP r l = (h.put dist w).rdVP r l ∧
      (g.put dist w).rdSide r l = (h.put dist w).rdSide r l ∧ (g.put dist w).rdP r l = (h.put dist w).rdP r l ∧
      (g.put dist w).rdPP r l = (h.put dist w).rdPP r l := by
  obtain ⟨h1, h2, h3, h4, h5⟩ := hv
  cases w with
  | vec r' l' d sd p =>
    simp only [Group.rdV, Group.rdVP, Group.rdSide, Group.rdP, Group.rdPP, Group.put, Group.wrV] at *
    cases dist <;> simp only [cget_cset, h1, h2, h3, h4, h5, if_true, and_self, Bool.false_eq_true, if_false]
  | pred r' l' x p =>
    simp only [Group.rdV, Group.rdVP, Group.rdSide, Group.rdP, Group.rdPP, Group.put, Group.wrP] at *
    simp only [cget_cset, h1, h2, h3, h4, h5, and_self]
  | uni r' d => exact ⟨h1, h2, h3, h4, h5⟩

theorem putAll_congr (dist : Bool) (ws : List Dest) {g h : Group} {r l : Nat}
    (hv : g.rdV r l = h.rdV r l ∧ g.rdVP r l = h.rdVP r l ∧ g.rdSide r l = h.rdSide r l ∧ g.rdP r l = h.rdP r l ∧
      g.rdPP r l = h.rdPP r l) :
    (g.putAll dist ws).rdV r l = (h.putAll dist ws).rdV r l ∧ (g.putAll dist ws).rdVP r l = (h.putAll dist ws).rdVP r l ∧
      (g.putAll dist ws).rdSide r l = (h.putAll dist ws).rdSide r l ∧ (g.putAll dist ws).rdP r l = (h.putAll dist ws).rdP r l ∧
      (g.putAll dist ws).rdPP r l = (h.putAll dist ws).rdPP r l := by
  induction ws generalizing g h with
  | nil => exact hv
  | cons w ws ih => exact ih (put_congr dist w hv)

/-! Words of the streams taken at issue. -/

theorem takeWords_keeps {β : Type} (P : Group → β) (h1 : ∀ g l n, P (srAdvance g l n) = P g)
    (h2 : ∀ g l n, P (drcAdvance g l n) = P g) (outs : List LaneOut) (g : Group) : P (takeWords outs g) = P g := by
  induction outs generalizing g with
  | nil => rfl
  | cons o r ih =>
    refine (ih _).trans ?_
    dsimp only
    split <;> split <;> simp [h1, h2]

theorem takeWords_streams (outs : List LaneOut) (g : Group) (l : Nat)
    (h : ∀ o ∈ outs, o.lane ≠ l ∨ (o.sr = 0 ∧ o.drc = 0)) :
    cget 0 (takeWords outs g).drc l = cget 0 g.drc l ∧ cget 0 (takeWords outs g).src l = cget 0 g.src l ∧
      cget 0 (takeWords outs g).sri l = cget 0 g.sri l := by
  induction outs generalizing g with
  | nil => exact ⟨rfl, rfl, rfl⟩
  | cons o r ih =>
    have hr := ih (let g := if o.sr = 0 then g else srAdvance g o.lane o.sr
      if o.drc = 0 then g else drcAdvance g o.lane o.drc) (fun x hx => h x (List.mem_cons_of_mem _ hx))
    have ho := h o (List.mem_cons_self ..)
    refine ⟨hr.1.trans ?_, hr.2.1.trans ?_, hr.2.2.trans ?_⟩ <;> rcases ho with ho | ho
    all_goals first
      | (simp only [ho.1, ho.2, if_true])
      | (split <;> split <;> simp [drcAdvance, srAdvance, cget_cset, Ne.symm ho])

/-! Delivery of the lanes of a fixed-latency instruction. -/

/-- One lane's delivery. -/
def deliverLane (dist : Bool) (g : Group) (o : LaneOut) : Group := (g.putAll dist o.ws).orFpsr o.lane o.flags

theorem putLanes_eq (c : Ctx) (outs : List LaneOut) (g : Group) :
    putLanes c outs g = outs.foldl (deliverLane c.p.dist) (takeWords outs g) := rfl

theorem deliver_keeps {β : Type} (P : Group → β) (h1 : ∀ g dist ws, P (Group.putAll g dist ws) = P g)
    (h2 : ∀ g l f, P (Group.orFpsr g l f) = P g) (dist : Bool) (outs : List LaneOut) (g : Group) :
    P (outs.foldl (deliverLane dist) g) = P g := by
  induction outs generalizing g with
  | nil => rfl
  | cons o r ih => exact (ih _).trans ((h2 _ _ _).trans (h1 _ _ _))

/-- The lanes' results go to destinations of the list in their own lanes. -/
structure LanesFit (dsts : List Opnd) (ls : List Nat) (F : Nat → LaneOut) : Prop where
  below : ∀ l ∈ ls, l < 64
  lane : ∀ l ∈ ls, (F l).lane = l
  fits : ∀ l ∈ ls, ∀ w ∈ (F l).ws, destAt dsts l w

theorem LanesFit.tail {dsts : List Opnd} {l : Nat} {ls : List Nat} {F : Nat → LaneOut} (h : LanesFit dsts (l :: ls) F) :
    LanesFit dsts ls F :=
  ⟨fun x hx => h.below x (List.mem_cons_of_mem _ hx), fun x hx => h.lane x (List.mem_cons_of_mem _ hx),
   fun x hx => h.fits x (List.mem_cons_of_mem _ hx)⟩

/-- Registers that are no destination, and other lanes, stay. -/
theorem deliver_frame {dsts : List Opnd} (dist : Bool) {F : Nat → LaneOut} {ls : List Nat} (h : LanesFit dsts ls F) (g : Group) :
    (∀ r l', l' < 64 → ¬(r ∈ dsts.flatMap Opnd.vregs ∧ l' ∈ ls) →
      ((ls.map F).foldl (deliverLane dist) g).rdV r l' = g.rdV r l' ∧
      ((ls.map F).foldl (deliverLane dist) g).rdVP r l' = g.rdVP r l' ∧
      ((ls.map F).foldl (deliverLane dist) g).rdSide r l' = g.rdSide r l') ∧
    (∀ r l', l' < 64 → ¬(r ∈ dsts.flatMap Opnd.pregs ∧ l' ∈ ls) →
      ((ls.map F).foldl (deliverLane dist) g).rdP r l' = g.rdP r l' ∧
      ((ls.map F).foldl (deliverLane dist) g).rdPP r l' = g.rdPP r l') ∧
    (∀ r, r ∉ dsts.flatMap opndK → ((ls.map F).foldl (deliverLane dist) g).rdK r = g.rdK r) := by
  induction ls generalizing g with
  | nil => exact ⟨fun _ _ _ _ => ⟨rfl, rfl, rfl⟩, fun _ _ _ _ => ⟨rfl, rfl⟩, fun _ _ => rfl⟩
  | cons l ls ih =>
    have h0 := putAll_frame (h.below l (List.mem_cons_self ..)) dist (F l).ws (h.fits l (List.mem_cons_self ..)) g
    have h1 := ih h.tail (deliverLane dist g (F l))
    simp only [List.map_cons, List.foldl_cons]
    refine ⟨fun r l' hl' hn => ?_, fun r l' hl' hn => ?_, fun r hn => ?_⟩
    · have a := h1.1 r l' hl' fun hx => hn ⟨hx.1, List.mem_cons_of_mem _ hx.2⟩
      have b := h0.1 r l' hl' fun hx => hn ⟨hx.1, hx.2 ▸ List.mem_cons_self ..⟩
      exact ⟨a.1.trans b.1, a.2.1.trans b.2.1, a.2.2.trans b.2.2⟩
    · have a := h1.2.1 r l' hl' fun hx => hn ⟨hx.1, List.mem_cons_of_mem _ hx.2⟩
      have b := h0.2.1 r l' hl' fun hx => hn ⟨hx.1, hx.2 ▸ List.mem_cons_self ..⟩
      exact ⟨a.1.trans b.1, a.2.trans b.2⟩
    · exact (h1.2.2 r hn).trans (h0.2.2 r hn)

/-- What a delivered lane's registers read as: its own writes over what was there. -/
theorem deliver_at {dsts : List Opnd} (dist : Bool) {F : Nat → LaneOut} {ls : List Nat} (h : LanesFit dsts ls F)
    (hn : ls.Nodup) {l : Nat} (hl : l ∈ ls) (g : Group) (r : Nat) :
    ((ls.map F).foldl (deliverLane dist) g).rdV r l = (g.putAll dist (F l).ws).rdV r l ∧
    ((ls.map F).foldl (deliverLane dist) g).rdVP r l = (g.putAll dist (F l).ws).rdVP r l ∧
    ((ls.map F).foldl (deliverLane dist) g).rdSide r l = (g.putAll dist (F l).ws).rdSide r l ∧
    ((ls.map F).foldl (deliverLane dist) g).rdP r l = (g.putAll dist (F l).ws).rdP r l ∧
    ((ls.map F).foldl (deliverLane dist) g).rdPP r l = (g.putAll dist (F l).ws).rdPP r l := by
  induction ls generalizing g with
  | nil => cases hl
  | cons k ls ih =>
    simp only [List.map_cons, List.foldl_cons]
    have hk := h.below k (List.mem_cons_self ..)
    have hlt := h.below l hl
    rcases List.mem_cons.1 hl with rfl | hl
    · have h1 := deliver_frame dist h.tail (deliverLane dist g (F l))
      have hnot : l ∉ ls := (List.nodup_cons.1 hn).1
      have a := h1.1 r l hlt fun hx => hnot hx.2
      have b := h1.2.1 r l hlt fun hx => hnot hx.2
      exact ⟨a.1, a.2.1, a.2.2, b.1, b.2⟩
    · have hne : l ≠ k := fun he => (List.nodup_cons.1 hn).1 (he ▸ hl)
      have h1 := ih h.tail (List.nodup_cons.1 hn).2 hl (deliverLane dist g (F k))
      have h0 := putAll_frame hk dist (F k).ws (h.fits k (List.mem_cons_self ..)) g
      have a := h0.1 r l hlt fun hx => hne hx.2
      have b := h0.2.1 r l hlt fun hx => hne hx.2
      have h2 := putAll_congr dist (F l).ws (g := deliverLane dist g (F k)) (h := g) (r := r) (l := l)
        ⟨a.1, a.2.1, a.2.2, b.1, b.2⟩
      exact ⟨h1.1.trans h2.1, h1.2.1.trans h2.2.1, h1.2.2.1.trans h2.2.2.1, h1.2.2.2.1.trans h2.2.2.2.1,
             h1.2.2.2.2.trans h2.2.2.2.2⟩

theorem and_not_of_or {a b x : Word} (h : (a ||| b) &&& ~~~x = 0) : a &&& ~~~x = 0 := by
  have h1 : a &&& ~~~x = a &&& ((a ||| b) &&& ~~~x) := by
    apply BitVec.eq_of_getLsbD_eq
    intro i _
    simp only [BitVec.getLsbD_and, BitVec.getLsbD_or]
    cases a.getLsbD i <;> simp
  rw [h1, h]
  simp

/-- Flags are only added, in delivered lanes that raise some. -/
theorem deliver_flags (dist : Bool) (outs : List LaneOut) (g : Group) (l : Nat) :
    (g.rdFpsr l &&& ~~~ (outs.foldl (deliverLane dist) g).rdFpsr l = 0) ∧
    ((∀ o ∈ outs, o.lane = l → o.flags = 0) → (outs.foldl (deliverLane dist) g).rdFpsr l = g.rdFpsr l) := by
  induction outs generalizing g with
  | nil => exact ⟨by simp, fun _ => rfl⟩
  | cons o r ih =>
    have h1 := ih (deliverLane dist g o)
    have h0 : (deliverLane dist g o).rdFpsr l = if l = o.lane then g.rdFpsr o.lane ||| o.flags.setWidth 32 else g.rdFpsr l := by
      simp only [deliverLane, rdFpsr_orFpsr]
      simp only [Group.rdFpsr, putAll_fpsr]
    simp only [List.foldl_cons]
    constructor
    · have h2 := h1.1
      rw [h0] at h2
      split at h2
      · rename_i he
        rw [he] at h2 ⊢
        exact and_not_of_or h2
      · exact h2
    · intro hz
      rw [h1.2 fun x hx => hz x (List.mem_cons_of_mem _ hx), h0]
      split
      · rename_i he
        rw [hz o (List.mem_cons_self ..) he.symm, he]
        simp
      · rfl

/-! The frame of whole instructions. -/

/-- Without trap enables there is no FLT_IEEE. -/
theorem ieeeTrap_none {c : Ctx} {hd : Hd} (h : NoEnables c hd) {F : Nat → LaneOut}
    (hl : ∀ l ∈ lanesOf (c.active hd), (F l).lane = l) : ieeeTrap c ((lanesOf (c.active hd)).map F) = none := by
  have h0 : ieeeLanes c ((lanesOf (c.active hd)).map F) = [] := by
    simp only [ieeeLanes, List.filterMap_eq_nil_iff, List.mem_map, forall_exists_index, and_imp, forall_apply_eq_imp_iff₂]
    intro l hm
    rw [hl l hm]
    obtain ⟨h64, ha⟩ := mem_lanesOf.1 hm
    by_cases hh : bitOf c.helpers l = true
    · simp [hh]
    · have : l ∈ lanesOf (c.real hd) := mem_lanesOf.2 ⟨h64, (mem_real h64).2 ⟨ha, by simpa using hh⟩⟩
      simp [h l this]
  simp [ieeeTrap, h0]

/-- A form's lanes: each active lane's output is named after it and goes to the form's destinations; it raises flags and takes
words only where the form says so. -/
structure FormFits (f : LaneForm) (c : Ctx) (F : Nat → LaneOut) : Prop where
  lane : ∀ l ∈ lanesOf (c.active f.hd), (F l).lane = l
  fits : ∀ l ∈ lanesOf (c.active f.hd), ∀ w ∈ (F l).ws, destAt f.dsts l w
  quiet : f.flags = false → ∀ l ∈ lanesOf (c.active f.hd), (F l).flags = 0
  still : f.draws = false → ∀ l ∈ lanesOf (c.active f.hd), (F l).sr = 0 ∧ (F l).drc = 0

theorem FormFits.lanesFit {f : LaneForm} {c : Ctx} {F : Nat → LaneOut} (h : FormFits f c F) :
    LanesFit f.dsts (lanesOf (c.active f.hd)) F :=
  ⟨fun _ hl => (mem_lanesOf.1 hl).1, h.lane, h.fits⟩

theorem FormFits.streams {f : LaneForm} {c : Ctx} {F : Nat → LaneOut} (h : FormFits f c F) {l : Nat}
    (hd : f.draws = false ∨ bitOf (c.active f.hd) l = false) :
    ∀ o ∈ (lanesOf (c.active f.hd)).map F, o.lane ≠ l ∨ (o.sr = 0 ∧ o.drc = 0) := by
  intro o ho
  obtain ⟨k, hk, rfl⟩ := List.mem_map.1 ho
  rcases hd with hd | hd
  · exact .inr (h.still hd k hk)
  · refine .inl ?_
    rw [h.lane k hk]
    rintro rfl
    simp [(mem_lanesOf.1 hk).2] at hd

@[simp] theorem laneRest_orFpsr (g : Group) (l : Nat) (f : Flg) : laneRest (g.orFpsr l f) = laneRest g := rfl
@[simp] theorem laneRest_srAdvance (g : Group) (l n : Nat) : laneRest (srAdvance g l n) = laneRest g := rfl
@[simp] theorem laneRest_drcAdvance (g : Group) (l n : Nat) : laneRest (drcAdvance g l n) = laneRest g := rfl

theorem putLanes_keeps {β : Type} (P : Group → β) (h1 : ∀ g dist ws, P (Group.putAll g dist ws) = P g)
    (h2 : ∀ g l f, P (Group.orFpsr g l f) = P g) (h3 : ∀ g l n, P (srAdvance g l n) = P g)
    (h4 : ∀ g l n, P (drcAdvance g l n) = P g) (c : Ctx) (outs : List LaneOut) (g : Group) :
    P (putLanes c outs g) = P g := by
  rw [putLanes_eq]
  exact (deliver_keeps P h1 h2 _ _ _).trans (takeWords_keeps P h3 h4 _ _)

/-- The group a fixed-latency instruction leaves is within the frame of its form. -/
theorem putLanes_frame {f : LaneForm} {c : Ctx} {F : Nat → LaneOut} (h : FormFits f c F) (hlate : f.late = false) :
    LaneFrame f c { putLanes c ((lanesOf (c.active f.hd)).map F) c.p.g with entries := c.movedOn false } := by
  have ht {β : Type} (P : Group → β) (h3 : ∀ g l n, P (srAdvance g l n) = P g) (h4 : ∀ g l n, P (drcAdvance g l n) = P g) :
      P (takeWords ((lanesOf (c.active f.hd)).map F) c.p.g) = P c.p.g := takeWords_keeps P h3 h4 _ _
  have hf := deliver_frame c.p.dist h.lanesFit (takeWords ((lanesOf (c.active f.hd)).map F) c.p.g)
  have hfl := deliver_flags c.p.dist ((lanesOf (c.active f.hd)).map F) (takeWords ((lanesOf (c.active f.hd)).map F) c.p.g)
  have tv : ∀ r l, (takeWords ((lanesOf (c.active f.hd)).map F) c.p.g).rdV r l = c.p.g.rdV r l :=
    fun r l => ht (fun g => g.rdV r l) (fun _ _ _ => rfl) (fun _ _ _ => rfl)
  have tvp : ∀ r l, (takeWords ((lanesOf (c.active f.hd)).map F) c.p.g).rdVP r l = c.p.g.rdVP r l :=
    fun r l => ht (fun g => g.rdVP r l) (fun _ _ _ => rfl) (fun _ _ _ => rfl)
  have tsd : ∀ r l, (takeWords ((lanesOf (c.active f.hd)).map F) c.p.g).rdSide r l = c.p.g.rdSide r l :=
    fun r l => ht (fun g => g.rdSide r l) (fun _ _ _ => rfl) (fun _ _ _ => rfl)
  have tp : ∀ r l, (takeWords ((lanesOf (c.active f.hd)).map F) c.p.g).rdP r l = c.p.g.rdP r l :=
    fun r l => ht (fun g => g.rdP r l) (fun _ _ _ => rfl) (fun _ _ _ => rfl)
  have tpp : ∀ r l, (takeWords ((lanesOf (c.active f.hd)).map F) c.p.g).rdPP r l = c.p.g.rdPP r l :=
    fun r l => ht (fun g => g.rdPP r l) (fun _ _ _ => rfl) (fun _ _ _ => rfl)
  have tk : ∀ r, (takeWords ((lanesOf (c.active f.hd)).map F) c.p.g).rdK r = c.p.g.rdK r :=
    fun r => ht (fun g => g.rdK r) (fun _ _ _ => rfl) (fun _ _ _ => rfl)
  have tf : ∀ l, (takeWords ((lanesOf (c.active f.hd)).map F) c.p.g).rdFpsr l = c.p.g.rdFpsr l :=
    fun l => ht (fun g => g.rdFpsr l) (fun _ _ _ => rfl) (fun _ _ _ => rfl)
  refine ⟨?_, rfl, ?_, ?_, ?_, ?_, ?_, ?_, ?_, ?_⟩
  · exact putLanes_keeps laneRest (fun _ _ _ => laneRest_putAll _ _ _) (fun _ _ _ => rfl) (fun _ _ _ => rfl) (fun _ _ _ => rfl) _ _ _
  · intro r l hl hn
    have a := hf.1 r l hl fun hx => hn ⟨hlate, hx.1, (mem_lanesOf.1 hx.2).2⟩
    exact ⟨a.1.trans (tv r l), a.2.1.trans (tvp r l), a.2.2.trans (tsd r l)⟩
  · intro r l hl hn
    have a := hf.2.1 r l hl fun hx => hn ⟨hlate, hx.1, (mem_lanesOf.1 hx.2).2⟩
    exact ⟨a.1.trans (tp r l), a.2.trans (tpp r l)⟩
  · intro r hn
    exact (hf.2.2 r fun hx => hn ⟨hlate, hx⟩).trans (tk r)
  · intro l hl hq
    refine ((hfl l).2 ?_).trans (tf l)
    intro o ho hol
    obtain ⟨k, hk, rfl⟩ := List.mem_map.1 ho
    rw [h.lane k hk] at hol
    subst hol
    rcases hq with hq | hq | hq
    · exact h.quiet hq _ hk
    · simp [hlate] at hq
    · simp [(mem_lanesOf.1 hk).2] at hq
  · intro l
    have a := (hfl l).1
    rw [tf] at a
    exact a
  · intro l hl hs
    have a := takeWords_streams ((lanesOf (c.active f.hd)).map F) c.p.g l (h.streams hs)
    have b1 : (putLanes c ((lanesOf (c.active f.hd)).map F) c.p.g).drc = (takeWords ((lanesOf (c.active f.hd)).map F) c.p.g).drc :=
      deliver_keeps Group.drc (fun _ _ _ => putAll_drc _ _ _) (fun _ _ _ => rfl) _ _ _
    have b2 : (putLanes c ((lanesOf (c.active f.hd)).map F) c.p.g).src = (takeWords ((lanesOf (c.active f.hd)).map F) c.p.g).src :=
      deliver_keeps Group.src (fun _ _ _ => putAll_src _ _ _) (fun _ _ _ => rfl) _ _ _
    have b3 : (putLanes c ((lanesOf (c.active f.hd)).map F) c.p.g).sri = (takeWords ((lanesOf (c.active f.hd)).map F) c.p.g).sri :=
      deliver_keeps Group.sri (fun _ _ _ => putAll_sri _ _ _) (fun _ _ _ => rfl) _ _ _
    simp only [b1, b2, b3]
    exact a
  · intro _
    exact putLanes_keeps Group.cych (fun _ _ _ => putAll_cych _ _ _) (fun _ _ _ => rfl) (fun _ _ _ => rfl) (fun _ _ _ => rfl) _ _ _
  · rw [if_neg (by simp [hlate])]
    exact putLanes_keeps Group.inflight (fun _ _ _ => putAll_inflight _ _ _) (fun _ _ _ => rfl) (fun _ _ _ => rfl) (fun _ _ _ => rfl) _ _ _

/-- The group an instruction of variable latency leaves is within the frame of its form. -/
theorem flyLanes_frame {f : LaneForm} {c : Ctx} {F : Nat → LaneOut} (h : FormFits f c F) (hlate : f.late = true) :
    LaneFrame f c { flyLanes f.vdst f.pdst (c.active f.hd) ((lanesOf (c.active f.hd)).map F) c.p.g with
      entries := c.movedOn false } := by
  have ht {β : Type} (P : Group → β) (h3 : ∀ g l n, P (srAdvance g l n) = P g) (h4 : ∀ g l n, P (drcAdvance g l n) = P g) :
      P (takeWords ((lanesOf (c.active f.hd)).map F) c.p.g) = P c.p.g := takeWords_keeps P h3 h4 _ _
  refine ⟨?_, rfl, ?_, ?_, ?_, ?_, ?_, ?_, ?_, ?_⟩
  · exact ht laneRest (fun _ _ _ => rfl) (fun _ _ _ => rfl)
  · intro r l _ _
    exact ⟨ht (fun g => g.rdV r l) (fun _ _ _ => rfl) (fun _ _ _ => rfl), ht (fun g => g.rdVP r l) (fun _ _ _ => rfl) (fun _ _ _ => rfl),
      ht (fun g => g.rdSide r l) (fun _ _ _ => rfl) (fun _ _ _ => rfl)⟩
  · intro r l _ _
    exact ⟨ht (fun g => g.rdP r l) (fun _ _ _ => rfl) (fun _ _ _ => rfl), ht (fun g => g.rdPP r l) (fun _ _ _ => rfl) (fun _ _ _ => rfl)⟩
  · intro r _
    exact ht (fun g => g.rdK r) (fun _ _ _ => rfl) (fun _ _ _ => rfl)
  · intro l _ _
    exact ht (fun g => g.rdFpsr l) (fun _ _ _ => rfl) (fun _ _ _ => rfl)
  · intro l
    have a : (takeWords ((lanesOf (c.active f.hd)).map F) c.p.g).rdFpsr l = c.p.g.rdFpsr l :=
      ht (fun g => g.rdFpsr l) (fun _ _ _ => rfl) (fun _ _ _ => rfl)
    have b : (flyLanes f.vdst f.pdst (c.active f.hd) ((lanesOf (c.active f.hd)).map F) c.p.g).rdFpsr l = c.p.g.rdFpsr l := a
    change c.p.g.rdFpsr l &&& ~~~ (flyLanes f.vdst f.pdst (c.active f.hd) ((lanesOf (c.active f.hd)).map F) c.p.g).rdFpsr l = 0
    rw [b]
    simp
  · intro l _ hs
    exact takeWords_streams ((lanesOf (c.active f.hd)).map F) c.p.g l (h.streams hs)
  · intro _
    exact ht Group.cych (fun _ _ _ => rfl) (fun _ _ _ => rfl)
  · rw [if_pos hlate]
    simp only [flyLanes]
    rw [ht Group.inflight (fun _ _ _ => rfl) (fun _ _ _ => rfl)]
    exact ⟨_, rfl, rfl, rfl, rfl, rfl⟩

/-- RUNNING A LANE INSTRUCTION of a form: the next state differs in the issuer's group alone, within the frame; in each active
lane the registers read as that lane's own writes leave them. -/
theorem runLanes_runs {s : State} {c : Ctx} (f : LaneForm) (F : Ctx → Nat → LaneOut)
    (hr : Ready s c f.hd (touchOf f.srcs f.dsts)) (he : NoEnables c f.hd) (h : FormFits f c (F c)) :
    ∃ g', runLanes s f.hd (touchOf f.srcs f.dsts) f.late F = .next (withGroup s c.gid g') ∧ LaneFrame f c g' ∧
      (f.late = false → ∀ r l, l ∈ lanesOf (c.active f.hd) →
        g'.rdV r l = (c.p.g.putAll c.p.dist (F c l).ws).rdV r l ∧ g'.rdVP r l = (c.p.g.putAll c.p.dist (F c l).ws).rdVP r l ∧
        g'.rdSide r l = (c.p.g.putAll c.p.dist (F c l).ws).rdSide r l ∧
        g'.rdP r l = (c.p.g.putAll c.p.dist (F c l).ws).rdP r l ∧ g'.rdPP r l = (c.p.g.putAll c.p.dist (F c l).ws).rdPP r l) := by
  simp only [runLanes, runGroup_ready hr, ieeeTrap_none he h.lane, outcome]
  cases hl : f.late with
  | false =>
    simp only [Bool.false_eq_true, if_false]
    refine ⟨_, ?_, putLanes_frame h hl, ?_⟩
    · rw [advance_ctx hr.issuer _ _
        (putLanes_keeps Group.entries (fun _ _ _ => putAll_entries _ _ _) (fun _ _ _ => rfl) (fun _ _ _ => rfl) (fun _ _ _ => rfl) _ _ _)
        (putLanes_keeps Group.tm (fun _ _ _ => putAll_tm _ _ _) (fun _ _ _ => rfl) (fun _ _ _ => rfl) (fun _ _ _ => rfl) _ _ _)]
      rfl
    · intro _ r l hm
      have a := deliver_at c.p.dist h.lanesFit (nodup_lanesOf _) hm (takeWords ((lanesOf (c.active f.hd)).map (F c)) c.p.g) r
      have tk {β : Type} (P : Group → β) (h3 : ∀ g l n, P (srAdvance g l n) = P g) (h4 : ∀ g l n, P (drcAdvance g l n) = P g) :
          P (takeWords ((lanesOf (c.active f.hd)).map (F c)) c.p.g) = P c.p.g := takeWords_keeps P h3 h4 _ _
      have b := putAll_congr c.p.dist (F c l).ws (g := takeWords ((lanesOf (c.active f.hd)).map (F c)) c.p.g) (h := c.p.g) (r := r) (l := l)
        ⟨tk (fun g => g.rdV r l) (fun _ _ _ => rfl) (fun _ _ _ => rfl), tk (fun g => g.rdVP r l) (fun _ _ _ => rfl) (fun _ _ _ => rfl),
         tk (fun g => g.rdSide r l) (fun _ _ _ => rfl) (fun _ _ _ => rfl), tk (fun g => g.rdP r l) (fun _ _ _ => rfl) (fun _ _ _ => rfl),
         tk (fun g => g.rdPP r l) (fun _ _ _ => rfl) (fun _ _ _ => rfl)⟩
      exact ⟨a.1.trans b.1, a.2.1.trans b.2.1, a.2.2.1.trans b.2.2.1, a.2.2.2.1.trans b.2.2.2.1, a.2.2.2.2.trans b.2.2.2.2⟩
  | true =>
    simp only [if_true]
    refine ⟨_, ?_, flyLanes_frame h hl, fun hx => by cases hx⟩
    rw [advance_ctx hr.issuer _ _ (by
      simp only [flyLanes]
      exact takeWords_keeps Group.entries (fun _ _ _ => rfl) (fun _ _ _ => rfl) _ _) (by
      simp only [flyLanes]
      exact takeWords_keeps Group.tm (fun _ _ _ => rfl) (fun _ _ _ => rfl) _ _)]
    rfl

/-- A lane whose result is poison when a source is fits the form its computation fits. -/
theorem poisonable_fits (f : LaneForm) (c : Ctx) (F : Ctx → Nat → LaneOut) (h : FormFits f c (F c)) :
    FormFits f c (poisonable f.srcs f.dsts F c) := by
  refine ⟨fun l hl => ?_, fun l hl w hw => ?_, fun hf l hl => ?_, fun hd l hl => ?_⟩
  · unfold poisonable
    split <;> simp [h.lane l hl]
  · unfold poisonable at hw
    split at hw
    · simp only [List.mem_flatMap] at hw
      obtain ⟨d, hd, hw⟩ := hw
      exact destAt_mono hd (destAt_poisoned d l _ w hw)
    · exact h.fits l hl w hw
  · unfold poisonable
    split <;> simp [h.quiet hf l hl]
  · unfold poisonable
    split <;> simp [h.still hd l hl]

/-- An unpoisoned lane computes. -/
theorem poisonable_clean {srcs dsts : List Opnd} {F : Ctx → Nat → LaneOut} {c : Ctx} {l : Nat}
    (h : ∀ o ∈ srcs, o.poison c.p.g l = none) : poisonable srcs dsts F c l = F c l := by
  have h0 : firstPoison srcs c.p.g l = none := List.findSome?_eq_none_iff.2 h
  simp [poisonable, h0]

/-- A uniform register write leaves everything but its destinations. -/
theorem putAll_uniform {D : Opnd} (g : Group) (dist : Bool) (data : Nat) (sd : Word) (hv : D.vregs = []) (hp : D.pregs = []) :
    (∀ r l, (g.putAll dist (D.dests 0 data sd)).rdV r l = g.rdV r l ∧ (g.putAll dist (D.dests 0 data sd)).rdVP r l = g.rdVP r l ∧
      (g.putAll dist (D.dests 0 data sd)).rdSide r l = g.rdSide r l) ∧
    (∀ r l, (g.putAll dist (D.dests 0 data sd)).rdP r l = g.rdP r l ∧ (g.putAll dist (D.dests 0 data sd)).rdPP r l = g.rdPP r l) := by
  cases D <;> simp_all [Opnd.vregs, Opnd.pregs, Opnd.dests, Group.putAll, Group.put]

end Sys2Proof.Machine
end

