-- ==== Sys2Proof/Laws/LaneOps.lean ====
section
/-! SUPPORT. What the operations that families of lane instructions share do: `mapV`, `mapI` and `runFloat`. -/

namespace Sys2Proof.Machine

open Sys2Proof

/-- What holds of a lane's registers after a lane's own writes. -/
def LaneHas (c : Ctx) (g' : Group) (l : Nat) (ws : List Dest) : Prop :=
  ∀ r, g'.rdV r l = (c.p.g.putAll c.p.dist ws).rdV r l ∧ g'.rdVP r l = (c.p.g.putAll c.p.dist ws).rdVP r l ∧
    g'.rdSide r l = (c.p.g.putAll c.p.dist ws).rdSide r l ∧ g'.rdP r l = (c.p.g.putAll c.p.dist ws).rdP r l ∧
    g'.rdPP r l = (c.p.g.putAll c.p.dist ws).rdPP r l

/-- A lane instruction whose lanes are poisoned by their sources: the frame, each clean lane's writes, each poisoned lane's poison. -/
theorem runLanes_strict {s : State} {c : Ctx} (f : LaneForm) (F : Ctx → Nat → LaneOut)
    (hr : Ready s c f.hd (touchOf f.srcs f.dsts)) (he : NoEnables c f.hd) (h : FormFits f c (F c)) :
    ∃ g', runLanes s f.hd (touchOf f.srcs f.dsts) f.late (poisonable f.srcs f.dsts F) = .next (withGroup s c.gid g') ∧
      LaneFrame f c g' ∧
      (f.late = false → ∀ l ∈ lanesOf (c.active f.hd), (∀ o ∈ f.srcs, o.poison c.p.g l = none) → LaneHas c g' l (F c l).ws) ∧
      (f.late = false → ∀ l ∈ lanesOf (c.active f.hd), ∀ i, firstPoison f.srcs c.p.g l = some i →
        LaneHas c g' l (f.dsts.flatMap fun d => d.poisoned l i)) := by
  obtain ⟨g', h1, h2, h3⟩ := runLanes_runs f (poisonable f.srcs f.dsts F) hr he (poisonable_fits f c F h)
  refine ⟨g', h1, h2, fun hl l hm hp r => ?_, fun hl l hm i hi r => ?_⟩
  · have := h3 hl r l hm
    rwa [poisonable_clean hp] at this
  · have := h3 hl r l hm
    simpa only [poisonable, hi] using this

/-- One destination, no flags and no words: what an integer operation delivers. -/
theorem plain_fits (f : LaneForm) (c : Ctx) (D : Opnd) (hD : D ∈ f.dsts) (X : Nat → Nat) (S : Nat → Word) :
    FormFits f c fun l => { lane := l, ws := D.dests l (X l) (S l) } :=
  ⟨fun _ _ => rfl, fun l _ w hw => destAt_mono hD (destAt_dests D l _ _ w hw), fun _ _ _ => rfl, fun _ _ _ => ⟨rfl, rfl⟩⟩

/-- An instruction that runs once for the entry. -/
theorem runUniform_runs {s : State} {c : Ctx} (f : LaneForm) (D : Opnd) (hf : f.dsts = [D]) (hl : f.late = false)
    (hv : D.vregs = []) (hp : D.pregs = []) (X : Ctx → Nat) (hr : Ready s c f.hd {}) :
    ∃ g', runUniform s f.hd (fun c => D.dests 0 (X c) 0) = .next (withGroup s c.gid g') ∧ LaneFrame f c g' ∧
      (c.real f.hd ≠ 0 → ∀ r, g'.rdK r = (c.p.g.putAll c.p.dist (D.dests 0 (X c) 0)).rdK r) := by
  simp only [runUniform, runGroup_ready hr, outcome]
  have hent : (if c.real f.hd = 0 then c.p.g else c.p.g.putAll c.p.dist (D.dests 0 (X c) 0)).entries = c.p.g.entries := by
    split
    · rfl
    · exact putAll_entries _ _ _
  have htm : (if c.real f.hd = 0 then c.p.g else c.p.g.putAll c.p.dist (D.dests 0 (X c) 0)).tm = c.p.g.tm := by
    split
    · rfl
    · exact putAll_tm _ _ _
  refine ⟨_, by rw [advance_ctx hr.issuer _ _ hent htm], ?_, fun h0 r => by rw [if_neg h0]; rfl⟩
  have hu := putAll_uniform (D := D) c.p.g c.p.dist (X c) 0 hv hp
  have hk := putAll_frame (dsts := [D]) (l := 0) (by omega) c.p.dist (D.dests 0 (X c) 0) (destAt_dests D 0 (X c) 0) c.p.g
  split
  · exact ⟨rfl, rfl, fun _ _ _ _ => ⟨rfl, rfl, rfl⟩, fun _ _ _ _ => ⟨rfl, rfl⟩, fun _ _ => rfl, fun _ _ _ => rfl,
      fun l => show c.p.g.rdFpsr l &&& ~~~ c.p.g.rdFpsr l = 0 by simp, fun _ _ _ => ⟨rfl, rfl, rfl⟩, fun _ => rfl, by simp [hl]⟩
  · refine ⟨laneRest_putAll _ _ _, rfl, fun r l _ _ => hu.1 r l, fun r l _ _ => hu.2 r l, fun r hn => hk.2.2 r fun hx => ?_,
      fun l _ _ => ?_, fun l => ?_, fun l _ _ => ?_, fun _ => putAll_cych _ _ _, ?_⟩
    · exact hn ⟨hl, by rw [LaneForm.kdst, hf]; exact hx⟩
    · show cget 0 (c.p.g.putAll c.p.dist (D.dests 0 (X c) 0)).fpsr l = _
      rw [putAll_fpsr]
      rfl
    · show c.p.g.rdFpsr l &&& ~~~ cget 0 (c.p.g.putAll c.p.dist (D.dests 0 (X c) 0)).fpsr l = 0
      rw [putAll_fpsr]
      exact show c.p.g.rdFpsr l &&& ~~~ c.p.g.rdFpsr l = 0 by simp
    · simp only [putAll_drc, putAll_src, putAll_sri, and_self]
    · rw [if_neg (by simp [hl])]
      exact putAll_inflight _ _ _

/-- An operand of a uniform class names no vector register. -/
theorem clsOpnd_uniform {x : Cls} (h : x = .v ∨ x = .pair) (n : Nat) :
    (clsOpnd x.toUniform n).vregs = [] ∧ (clsOpnd x.toUniform n).pregs = [] := by
  rcases h with rfl | rfl <;> exact ⟨rfl, rfl⟩

/-- MAPV: the frame, and each clean lane's result; once for the entry under `.k`. -/
theorem mapV_runs {s : State} {c : Ctx} (o : VOp) (d a b e : Cls) (late : Bool) (fn : Nat → Nat → Nat → Nat)
    (hd : o.oc = .uniform → d = .v ∨ d = .pair) (f : LaneForm)
    (hf : f = { vForm o d a b e with late := late && o.oc != .uniform }) (hr : Ready s c f.hd f.touch)
    (he : NoEnables c f.hd) :
    ∃ g', mapV s o d a b e late fn = .next (withGroup s c.gid g') ∧ LaneFrame f c g' ∧
      (o.oc ≠ .uniform → late = false → ∀ l ∈ lanesOf (c.active f.hd),
        ((∀ x ∈ f.srcs, x.poison c.p.g l = none) → LaneHas c g' l ((vopD o d).dests l
          (fn ((vopA o a).val c.p.g l) ((vopB o b).val c.p.g l) ((vopC o e).val c.p.g l)) 0)) ∧
        ∀ i, firstPoison f.srcs c.p.g l = some i → LaneHas c g' l ((vopD o d).poisoned l i)) ∧
      (o.oc = .uniform → c.real f.hd ≠ 0 → ∀ r, g'.rdK r = (c.p.g.putAll c.p.dist ((vopD o d).dests 0
          (fn ((vopA o a).val c.p.g 0) ((vopB o b).val c.p.g 0) ((vopC o e).val c.p.g 0)) 0)).rdK r) := by
  subst hf
  by_cases hu : o.oc = .uniform
  · have hx : (o.oc == Oc.uniform) = true := by simp [hu]
    have hcls := clsOpnd_uniform (hd hu) o.d
    have hD : vopD o d = clsOpnd d.toUniform o.d := by simp [vopD, hx]
    simp only [mapV, hx, if_true]
    have hr' : Ready s c o.hd {} := by simpa [LaneForm.touch, vForm, hx] using hr
    obtain ⟨g', h1, h2, h3⟩ := runUniform_runs { vForm o d a b e with late := late && o.oc != .uniform } (vopD o d) rfl
      (by simp [hu]) (by rw [hD]; exact hcls.1) (by rw [hD]; exact hcls.2)
      (fun c => fn ((vopA o a).val c.p.g 0) ((vopB o b).val c.p.g 0) ((vopC o e).val c.p.g 0)) hr'
    exact ⟨g', h1, h2, fun h => absurd hu h, fun _ => h3⟩
  · have hx : (o.oc == Oc.uniform) = false := by simp [hu]
    have hy : (late && o.oc != Oc.uniform) = late := by simp [bne, hx]
    simp only [mapV, hx, Bool.false_eq_true, if_false]
    rw [hy] at hr he ⊢
    have hr' : Ready s c o.hd (touchOf [vopA o a, vopB o b, vopC o e] [vopD o d]) := by
      simpa [LaneForm.touch, vForm, hx] using hr
    obtain ⟨g', h1, h2, h3, h4⟩ := runLanes_strict { vForm o d a b e with late := late } (fun c l =>
      { lane := l, ws := (vopD o d).dests l (fn ((vopA o a).val c.p.g l) ((vopB o b).val c.p.g l) ((vopC o e).val c.p.g l)) 0 })
      hr' he (plain_fits _ c _ (List.mem_singleton_self _) _ _)
    refine ⟨g', h1, h2, fun _ hlate l hm => ⟨h3 hlate l hm, fun i hi => ?_⟩, fun h => absurd h hu⟩
    have := h4 hlate l hm i hi
    simpa [vForm] using this

/-- MAPI: the same for format I. -/
theorem mapI_runs {s : State} {c : Ctx} (o : IOp) (d a : Cls) (uns : Bool) (fn : Nat → Nat → Nat)
    (hd : o.oc = .uniform → d = .v ∨ d = .pair) (f : LaneForm) (hf : f = iForm o d a) (hr : Ready s c f.hd f.touch)
    (he : NoEnables c f.hd) :
    ∃ g', mapI s o d a uns fn = .next (withGroup s c.gid g') ∧ LaneFrame f c g' ∧
      (o.oc ≠ .uniform → ∀ l ∈ lanesOf (c.active f.hd),
        ((∀ x ∈ f.srcs, x.poison c.p.g l = none) → LaneHas c g' l ((iopD o d).dests l
          (fn ((iopA o a).val c.p.g l) (immVal o uns)) 0)) ∧
        ∀ i, firstPoison f.srcs c.p.g l = some i → LaneHas c g' l ((iopD o d).poisoned l i)) ∧
      (o.oc = .uniform → c.real f.hd ≠ 0 → ∀ r, g'.rdK r = (c.p.g.putAll c.p.dist ((iopD o d).dests 0
          (fn ((iopA o a).val c.p.g 0) (immVal o uns)) 0)).rdK r) := by
  subst hf
  by_cases hu : o.oc = .uniform
  · have hx : (o.oc == Oc.uniform) = true := by simp [hu]
    have hcls := clsOpnd_uniform (hd hu) o.d
    have hD : iopD o d = clsOpnd d.toUniform o.d := by simp [iopD, hx]
    simp only [mapI, hx, if_true]
    have hr' : Ready s c o.hd {} := by simpa [LaneForm.touch, iForm, hx] using hr
    obtain ⟨g', h1, h2, h3⟩ := runUniform_runs (iForm o d a) (iopD o d) rfl rfl (by rw [hD]; exact hcls.1) (by rw [hD]; exact hcls.2)
      (fun c => fn ((iopA o a).val c.p.g 0) (immVal o uns)) hr'
    exact ⟨g', h1, h2, fun h => absurd hu h, fun _ => h3⟩
  · have hx : (o.oc == Oc.uniform) = false := by simp [hu]
    simp only [mapI, hx, Bool.false_eq_true, if_false]
    have hr' : Ready s c o.hd (touchOf [iopA o a] [iopD o d]) := by simpa [LaneForm.touch, iForm, hx] using hr
    obtain ⟨g', h1, h2, h3, h4⟩ := runLanes_strict (iForm o d a) (fun c l =>
      { lane := l, ws := (iopD o d).dests l (fn ((iopA o a).val c.p.g l) (immVal o uns)) 0 })
      hr' he (plain_fits _ c _ (List.mem_singleton_self _) _ _)
    refine ⟨g', h1, h2, fun _ l hm => ⟨h3 rfl l hm, fun i hi => ?_⟩, fun h => absurd h hu⟩
    have := h4 rfl l hm i hi
    simpa [iForm] using this

/-- A rounding instruction's lane fits its form: it takes words only under SR, which the functions of R71 never use. -/
theorem floatLane_fits (f : LaneForm) (c : Ctx) (sp : Spec) (D : Opnd) (srcs : List Opnd) (hD : D ∈ f.dsts) (hfl : f.flags = true)
    (hdr : f.draws = false → ∀ l, (sp.mode (c.p.g.rdFpcr l)) ≠ .sr) (el : FEnv → Nat → List Nat → List Arg → FOut) :
    FormFits f c (floatLane sp D srcs el c) := by
  refine ⟨fun _ _ => rfl, fun l _ w hw => destAt_mono hD (destAt_dests D l _ _ w hw), fun h => ?_, fun h l _ => ⟨?_, rfl⟩⟩
  · rw [hfl] at h
    cases h
  · simp [floatLane, hdr h l]

/-- RUNFLOAT: the frame of its form. -/
theorem runFloat_runs {s : State} {c : Ctx} (f : LaneForm) (sp : Spec) (D : Opnd) (srcs : List Opnd) (late : Bool)
    (el : FEnv → Nat → List Nat → List Arg → FOut) (hs : f.srcs = srcs) (hdst : f.dsts = [D]) (hl : f.late = late)
    (hfl : f.flags = true) (hdr : f.draws = false → ∀ l, (sp.mode (c.p.g.rdFpcr l)) ≠ .sr)
    (hr : Ready s c f.hd (touchOf f.srcs f.dsts)) (he : NoEnables c f.hd) :
    ∃ g', runFloat s f.hd sp D srcs late el = .next (withGroup s c.gid g') ∧ LaneFrame f c g' := by
  subst hs hl
  have hfit := floatLane_fits f c sp D f.srcs (hdst ▸ List.mem_singleton_self D) hfl hdr el
  obtain ⟨g', h1, h2, _⟩ := runLanes_strict f (floatLane sp D f.srcs el) hr he hfit
  refine ⟨g', ?_, h2⟩
  rw [hdst] at h1
  exact h1

end Sys2Proof.Machine
end

