-- ==== Sys2Proof/Laws/LaneResults.lean ====
section
/-! SUPPORT. From what an instruction's lanes write to what its destination holds: the results of instructions that `mapV` and `mapI`
run. -/

namespace Sys2Proof.Machine

open Sys2Proof

/-- The width of a destination class. -/
def clsWidth : Cls → Nat | .pair | .kpair => 64 | .pred => 1 | .zero => 0 | _ => 32

/-- A 64-bit value from its two words. -/
theorem pairOf_ofNat (x : Nat) (h : x < 2 ^ 64) : (pairOf (BitVec.ofNat 32 x) (BitVec.ofNat 32 (x >>> 32))).toNat = x := by
  have h1 : x >>> 32 % 2 ^ 32 = x >>> 32 := by
    rw [Nat.shiftRight_eq_div_pow]
    omega
  rw [pairOf, BitVec.toNat_append, BitVec.toNat_ofNat, BitVec.toNat_ofNat, ← Nat.shiftLeft_add_eq_or_of_lt (by omega),
    Nat.shiftLeft_eq, h1, Nat.shiftRight_eq_div_pow]
  omega

/-- What a lane's own registers hold after a result is written there. -/
theorem laneHas_val {c : Ctx} {g' : Group} {l : Nat} (d : Cls) (n x : Nat) (sd : Word) (hl : l < 64)
    (hd : d = .v ∨ d = .pair ∨ d = .pred) (hx : x < 2 ^ clsWidth d)
    (h : LaneHas c g' l ((clsOpnd d n).dests l x sd)) :
    (clsOpnd d n).val g' l = x ∧ (c.p.dist = true → d ≠ .pred → (clsOpnd d n).side g' l = sd) ∧ (clsOpnd d n).poison g' l = none := by
  have h1 := h n
  have h2 := h (n + 1)
  have hV := fun g b r r' d sd p => rdV_wrV g b r l r' l d sd p hl hl
  have hP := fun g b r r' d sd p => rdVP_wrV g b r l r' l d sd p hl hl
  have hS := fun g b r r' d sd p => rdSide_wrV g b r l r' l d sd p hl hl
  rcases hd with rfl | rfl | rfl
  · simp only [clsOpnd, Opnd.dests, Group.putAll, List.foldl, Group.put] at h1 ⊢
    simp only [Opnd.val, Opnd.side, Opnd.poison, h1.1, h1.2.1, h1.2.2.1, hV, hP, hS]
    simp only [clsWidth] at hx
    refine ⟨by simp; omega, fun hdist _ => by simp [hdist], by simp⟩
  · simp only [clsOpnd, Opnd.dests, Group.putAll, List.foldl, Group.put] at h1 h2 ⊢
    simp only [Opnd.val, Opnd.side, Opnd.poison, Group.rdV2, h1.1, h1.2.1, h1.2.2.1, h2.1, h2.2.1, hV, hP, hS]
    simp only [clsWidth] at hx
    refine ⟨by simpa using pairOf_ofNat x hx, fun hdist _ => by simp [hdist], by simp⟩
  · simp only [clsOpnd, Opnd.dests, Group.putAll, List.foldl, Group.put] at h1 ⊢
    simp only [Opnd.val, Opnd.side, Opnd.poison, h1.2.2.2.1, h1.2.2.2.2, rdP_wrP _ _ _ _ _ _ _ hl hl, rdPP_wrP _ _ _ _ _ _ _ hl hl]
    simp only [clsWidth] at hx
    refine ⟨?_, by simp, by simp⟩
    simp only [Bool.not_false, Bool.and_true, and_self, if_true, beq_iff_eq]
    split <;> omega

/-- What a uniform destination holds after a result is written. -/
theorem uniform_val {g g' : Group} {dist : Bool} (d : Cls) (n x : Nat) (hd : d = .v ∨ d = .pair) (hx : x < 2 ^ clsWidth d)
    (h : ∀ r, g'.rdK r = (g.putAll dist ((clsOpnd d.toUniform n).dests 0 x 0)).rdK r) : (clsOpnd d.toUniform n).val g' 0 = x := by
  have h6 := h n
  have h7 := h (n + 1)
  rcases hd with rfl | rfl <;> simp only [clsWidth] at hx <;>
    simp only [Cls.toUniform, clsOpnd, Opnd.dests, Group.putAll, List.foldl, Group.put, rdK_wrK, if_true] at h6 h7 ⊢ <;>
    simp only [Opnd.val, Group.rdK2, h6, h7]
  · simp; omega
  · simp only [if_neg (show n ≠ n + 1 by omega)]
    exact pairOf_ofNat _ hx
/-- An instruction that MAPV runs has the results its function computes. -/
theorem vres_of (i : Instr) (o : VOp) (d a b e : Cls) (late : Bool) (fn : Nat → Nat → Nat → Nat) (R : Nat → Nat → Nat → Nat → Prop)
    (hi : ∀ s, exec i s = mapV s o d a b e late fn) (hlate : late = false) (hd : d = .v ∨ d = .pair ∨ d = .pred)
    (hu : i.wf = true → o.oc = .uniform → d = .v ∨ d = .pair)
    (hR : i.wf = true → ∀ g l, fn ((vopA o a).val g l) ((vopB o b).val g l) ((vopC o e).val g l) < 2 ^ clsWidth d ∧
      R ((vopA o a).val g l) ((vopB o b).val g l) ((vopC o e).val g l) (fn ((vopA o a).val g l) ((vopB o b).val g l) ((vopC o e).val g l))) :
    VRes i o d a b e R := by
  intro hw s c hr he _
  subst hlate
  obtain ⟨g', h1, h2, h3, h4⟩ := mapV_runs o d a b e false fn (hu hw) (vForm o d a b e) (by simp [vForm]) hr he
  rw [hi]
  refine ⟨g', h1, h2, fun hun l hl hact hp => ?_, fun hun hreal => ?_⟩
  · have hoc : o.oc ≠ .uniform := by simpa [vForm] using hun
    have h5 := (h3 hoc rfl l (mem_lanesOf.2 ⟨hl, hact⟩)).1 hp
    have hD : vopD o d = clsOpnd d o.d := by simp [vopD, hoc]
    rw [hD] at h5 ⊢
    obtain ⟨q1, q2, q3⟩ := laneHas_val d o.d _ 0 hl hd (hR hw c.p.g l).1 h5
    refine ⟨⟨fun hdist => ?_, q1 ▸ (hR hw c.p.g l).2⟩, q3⟩
    rcases hd with rfl | rfl | rfl
    · exact q2 hdist (by simp)
    · exact q2 hdist (by simp)
    · rfl
  · have hoc : o.oc = .uniform := by simpa [vForm] using hun
    have h5 := h4 hoc hreal
    have hx := hR hw c.p.g 0
    have hD : vopD o d = clsOpnd d.toUniform o.d := by simp [vopD, hoc]
    rw [hD] at h5 ⊢
    refine ⟨fun _ => rfl, ?_⟩
    generalize (vopA o a).val c.p.g 0 = va at h5 hx ⊢
    generalize (vopB o b).val c.p.g 0 = vb at h5 hx ⊢
    generalize (vopC o e).val c.p.g 0 = vc at h5 hx ⊢
    rw [uniform_val d o.d _ (hu hw hoc) hx.1 h5]
    exact hx.2
/-- An instruction that MAPI runs has the results its function computes. -/
theorem ires_of (i : Instr) (o : IOp) (d a : Cls) (uns : Bool) (fn : Nat → Nat → Nat) (R : Nat → Nat → Prop)
    (hi : ∀ s, exec i s = mapI s o d a uns fn) (hd : d = .v ∨ d = .pair)
    (hR : i.wf = true → ∀ g l, fn ((iopA o a).val g l) (immVal o uns) < 2 ^ clsWidth d ∧
      R ((iopA o a).val g l) (fn ((iopA o a).val g l) (immVal o uns))) :
    IRes i o d a R := by
  intro hw s c hr he _
  obtain ⟨g', h1, h2, h3, h4⟩ := mapI_runs o d a uns fn (fun _ => hd) (iForm o d a) rfl hr he
  rw [hi]
  refine ⟨g', h1, h2, fun hun l hl hact hp => ?_, fun hun hreal => ?_⟩
  · have hoc : o.oc ≠ .uniform := by simpa [iForm] using hun
    have h5 := (h3 hoc l (mem_lanesOf.2 ⟨hl, hact⟩)).1 hp
    have hD : iopD o d = clsOpnd d o.d := by simp [iopD, hoc]
    rw [hD] at h5 ⊢
    obtain ⟨q1, q2, q3⟩ := laneHas_val d o.d _ 0 hl (hd.imp_right .inl) (hR hw c.p.g l).1 h5
    refine ⟨⟨fun hdist => q2 hdist ?_, q1 ▸ (hR hw c.p.g l).2⟩, q3⟩
    rcases hd with rfl | rfl <;> simp
  · have hoc : o.oc = .uniform := by simpa [iForm] using hun
    have hD : iopD o d = clsOpnd d.toUniform o.d := by simp [iopD, hoc]
    have h5 := h4 hoc hreal
    rw [hD] at h5 ⊢
    refine ⟨fun _ => rfl, ?_⟩
    rw [uniform_val d o.d _ hd (hR hw c.p.g 0).1 h5]
    exact (hR hw c.p.g 0).2

end Sys2Proof.Machine
end

