-- ==== Sys2Proof/Laws/Memory.lean ====
section
/-! SUPPORT. Laws of memory: what a read finds after a write, that every operation that writes storage keeps the canonical form, and that
the other shared operations leave memory alone. -/

namespace Sys2Proof.Machine

open Sys2Proof

/-- The memory that writing a list of bytes leaves, by induction over the list. -/
theorem wrMem_from (d : Byte) (key : Nat) (bs : List Byte) (n : Nat) (m : Cells Byte) (a : Nat) :
    cget d ((bs.zipIdx n).foldl (fun m b => cset d m (key + b.2) b.1) m) a =
      if key + n ≤ a ∧ a < key + n + bs.length then bs.getD (a - key - n) 0 else cget d m a := by
  induction bs generalizing n m with
  | nil =>
    simp only [List.zipIdx_nil, List.foldl_nil, List.length_nil]
    rw [if_neg (by omega)]
  | cons b r ih =>
    simp only [List.zipIdx_cons, List.foldl_cons, ih, cget_cset, List.length_cons]
    by_cases h : key + n = a
    · subst h
      rw [if_neg (by omega), if_pos rfl, if_pos (by omega)]
      simp
    · by_cases h2 : key + (n + 1) ≤ a ∧ a < key + (n + 1) + r.length
      · rw [if_pos h2, if_pos (by omega)]
        have : a - key - n = (a - key - (n + 1)) + 1 := by omega
        rw [this]
        rfl
      · rw [if_neg h2, if_neg (by omega), if_neg (by omega)]

/-- What a byte reads as after a write of bytes. -/
theorem cget_wrMem (s : State) (key : Nat) (bs : List Byte) (a : Nat) :
    cget memDefault (s.wrMem key bs).mem a =
      if key ≤ a ∧ a < key + bs.length then bs.getD (a - key) 0 else cget memDefault s.mem a := by
  have h := wrMem_from memDefault key bs 0 s.mem a
  simp only [Nat.add_zero, Nat.sub_zero] at h
  exact h

/-- A write leaves every other byte alone. -/
theorem cget_wrMem_other (s : State) (key : Nat) (bs : List Byte) {a : Nat} (h : ¬(key ≤ a ∧ a < key + bs.length)) :
    cget memDefault (s.wrMem key bs).mem a = cget memDefault s.mem a := by
  rw [cget_wrMem, if_neg h]

/-- The bytes written are read back. -/
theorem rdMem_wrMem (s : State) (key : Nat) (bs : List Byte) : (s.wrMem key bs).rdMem key bs.length = bs := by
  apply List.ext_getElem
  · simp [State.rdMem]
  · intro i h1 h2
    simp only [State.rdMem, List.getElem_map, List.getElem_range, cget_wrMem]
    rw [if_pos (by omega)]
    simp [List.getD, h2]

theorem wrMem_wf (s : State) (key : Nat) (bs : List Byte) (h : Memory.wf s.mem) : Memory.wf (s.wrMem key bs).mem :=
  foldl_cset_wf bs.zipIdx (fun b : Byte × Nat => key + b.2) (fun (_ : Cells Byte) (b : Byte × Nat) => b.1) s.mem h

theorem reset_memory_wf : Memory.wf State.reset.mem := by decide

@[simp] theorem countVersion_mem (s : State) (key n : Nat) : (countVersion s key n).mem = s.mem := rfl
/-- An access that reaches a slice changes the slice's lines and nothing else. -/
theorem touchL2_frame (s : State) (line cls : Nat) (write : Bool) (win : Option Nat) :
    touchL2 s line cls write win = { s with l2 := (touchL2 s line cls write win).l2 } := by
  simp only [touchL2]
  split <;> rfl
@[simp] theorem touchL2_mem (s : State) (line cls : Nat) (write : Bool) (win : Option Nat) : (touchL2 s line cls write win).mem = s.mem := by
  rw [touchL2_frame]
/-- The same of a located line, with the line of its scale. -/
theorem touchLoc_frame (s : State) (loc : LineLoc) (cls : Nat) (write : Bool) :
    touchLoc s loc cls write = { s with l2 := (touchLoc s loc cls write).l2 } := by
  simp only [touchLoc]
  split
  · exact touchL2_frame _ _ _ _ _
  · cases loc.scale with
    | none => exact touchL2_frame _ _ _ _ _
    | some k =>
      simp only [Option.toList, List.foldl]
      rw [touchL2_frame, touchL2_frame s]
@[simp] theorem touchLoc_mem (s : State) (loc : LineLoc) (cls : Nat) (write : Bool) : (touchLoc s loc cls write).mem = s.mem := by
  rw [touchLoc_frame]
@[simp] theorem cleanView_mem (s : State) (k : Nat) (sk : Option Nat) : (cleanView s k sk).mem = s.mem := by
  simp only [cleanView]
  split <;> rfl
@[simp] theorem wrReg_mem (s : State) (off : Nat) (v : Word) : (s.wrReg off v).mem = s.mem := rfl

theorem wrPa_wf (s : State) (pa : Nat) (bs : List Byte) (h : Memory.wf s.mem) : Memory.wf (wrPa s pa bs).mem := wrMem_wf s pa bs h

theorem encodeView_wf (s : State) (key : Nat) (skey : Option Nat) (die wid : Nat) (ws : List Word) (h : Memory.wf s.mem) :
    Memory.wf (encodeView s key skey die wid ws).mem := by
  cases skey <;> simp only [encodeView]
  · split
    · exact wrMem_wf _ _ _ h
    · exact wrMem_wf _ _ _ h
  · split
    · exact wrMem_wf _ _ _ (wrMem_wf _ _ _ h)
    · exact wrMem_wf _ _ _ (wrMem_wf _ _ _ h)

theorem writeLine_wf (s : State) (loc : LineLoc) (off : Nat) (bs : List Byte) (h : Memory.wf s.mem) :
    Memory.wf (writeLine s loc off bs).mem := by
  cases loc with
  | plain k =>
    simp only [writeLine]
    split
    · exact wrMem_wf _ _ _ h
    · exact wrMem_wf _ _ _ h
  | view k sk d w =>
    simp only [writeLine]
    split
    · rw [cleanView_mem]; exact encodeView_wf _ _ _ _ _ _ h
    · exact encodeView_wf _ _ _ _ _ _ h
  | remote a b c => exact h

/-- What a plain line's storage reads as after a write at its home slice. -/
theorem cget_writeLine (s : State) (k off : Nat) (bs : List Byte) (a : Nat) :
    cget memDefault (writeLine s (.plain k) off bs).mem a =
      if k + off ≤ a ∧ a < k + off + bs.length then bs.getD (a - (k + off)) 0 else cget memDefault s.mem a := by
  simp only [writeLine]
  split <;> exact cget_wrMem s (k + off) bs a

theorem writeTgt_wf (s : State) (t : Tgt) (bs : List Byte) (h : Memory.wf s.mem) : Memory.wf (writeTgt s t bs).mem := by
  cases t with
  | line loc off =>
    simp only [writeTgt, writeTgtAs, touchLoc_mem]
    exact writeLine_wf s loc off bs h
  | sp bid x => exact h
  | far fa => exact h

/-- A write at a plain target. -/
theorem cget_writeTgt (s : State) (k off : Nat) (bs : List Byte) (a : Nat) :
    cget memDefault (writeTgt s (.line (.plain k) off) bs).mem a =
      if k + off ≤ a ∧ a < k + off + bs.length then bs.getD (a - (k + off)) 0 else cget memDefault s.mem a := by
  simp only [writeTgt, writeTgtAs, touchLoc_mem]
  exact cget_writeLine s k off bs a

/-- Placing a word for the next fetch keeps the form. -/
theorem placeTables_wf (s : State) (h : Memory.wf s.mem) : Memory.wf (placeTables s).mem := by
  simp only [placeTables, wrReg_mem]
  exact wrMem_wf _ _ _ (wrMem_wf _ _ _ (wrMem_wf _ _ _ h))
theorem placeWord_wf (s : State) (w : IWord) (h : Memory.wf s.mem) : Memory.wf (placeWord s w).mem := by
  have hw := wrMem_wf (placeTables s) (0x100000 + 0x40000) (placeLine w) (placeTables_wf s h)
  simp only [placeWord]
  exact hw

end Sys2Proof.Machine
end

