-- ==== Sys2Proof/Laws/PerInstr.lean ====
section
/-! SUPPORT. Statements made of every instruction, one lemma for each constructor. -/

/-- An event has no instruction word: it is no well-formed instruction of a stream. -/
def Sys2Proof.Laws.EventsHaveNoWord.Statement (i : Sys2Proof.Instr) : Prop := Sys2Proof.Machine.isEvent i = true → i.wf = false

namespace Sys2Proof.Laws.EventsHaveNoWord

open Sys2Proof

theorem iadd (o : VOp) : Statement (.iadd o) := fun h => (Bool.false_ne_true h).elim
theorem iaddI (o : IOp) : Statement (.iaddI o) := fun h => (Bool.false_ne_true h).elim
theorem isub (o : VOp) : Statement (.isub o) := fun h => (Bool.false_ne_true h).elim
theorem isubI (o : IOp) : Statement (.isubI o) := fun h => (Bool.false_ne_true h).elim
theorem imul (o : VOp) : Statement (.imul o) := fun h => (Bool.false_ne_true h).elim
theorem imulI (o : IOp) : Statement (.imulI o) := fun h => (Bool.false_ne_true h).elim
theorem imad (o : VOp) : Statement (.imad o) := fun h => (Bool.false_ne_true h).elim
theorem imin (o : VOp) : Statement (.imin o) := fun h => (Bool.false_ne_true h).elim
theorem imax (o : VOp) : Statement (.imax o) := fun h => (Bool.false_ne_true h).elim
theorem iabs (o : VOp) : Statement (.iabs o) := fun h => (Bool.false_ne_true h).elim
theorem ineg (o : VOp) : Statement (.ineg o) := fun h => (Bool.false_ne_true h).elim
theorem idiv (o : VOp) : Statement (.idiv o) := fun h => (Bool.false_ne_true h).elim
theorem irem (o : VOp) : Statement (.irem o) := fun h => (Bool.false_ne_true h).elim
theorem shl (o : VOp) : Statement (.shl o) := fun h => (Bool.false_ne_true h).elim
theorem shr (o : VOp) : Statement (.shr o) := fun h => (Bool.false_ne_true h).elim
theorem sar (o : VOp) : Statement (.sar o) := fun h => (Bool.false_ne_true h).elim
theorem shlI (o : IOp) : Statement (.shlI o) := fun h => (Bool.false_ne_true h).elim
theorem shrI (o : IOp) : Statement (.shrI o) := fun h => (Bool.false_ne_true h).elim
theorem sarI (o : IOp) : Statement (.sarI o) := fun h => (Bool.false_ne_true h).elim
theorem shf (o : VOp) : Statement (.shf o) := fun h => (Bool.false_ne_true h).elim
theorem and (o : VOp) : Statement (.and o) := fun h => (Bool.false_ne_true h).elim
theorem andI (o : IOp) : Statement (.andI o) := fun h => (Bool.false_ne_true h).elim
theorem or (o : VOp) : Statement (.or o) := fun h => (Bool.false_ne_true h).elim
theorem orI (o : IOp) : Statement (.orI o) := fun h => (Bool.false_ne_true h).elim
theorem xor (o : VOp) : Statement (.xor o) := fun h => (Bool.false_ne_true h).elim
theorem xorI (o : IOp) : Statement (.xorI o) := fun h => (Bool.false_ne_true h).elim
theorem not (o : VOp) : Statement (.not o) := fun h => (Bool.false_ne_true h).elim
theorem lop3 (o : VOp) : Statement (.lop3 o) := fun h => (Bool.false_ne_true h).elim
theorem popc (o : VOp) : Statement (.popc o) := fun h => (Bool.false_ne_true h).elim
theorem clz (o : VOp) : Statement (.clz o) := fun h => (Bool.false_ne_true h).elim
theorem ctz (o : VOp) : Statement (.ctz o) := fun h => (Bool.false_ne_true h).elim
theorem brev (o : VOp) : Statement (.brev o) := fun h => (Bool.false_ne_true h).elim
theorem bfx (o : VOp) : Statement (.bfx o) := fun h => (Bool.false_ne_true h).elim
theorem bfi (o : VOp) : Statement (.bfi o) := fun h => (Bool.false_ne_true h).elim
theorem bperm (o : VOp) : Statement (.bperm o) := fun h => (Bool.false_ne_true h).elim
theorem sel (o : VOp) : Statement (.sel o) := fun h => (Bool.false_ne_true h).elim
theorem iset (o : VOp) : Statement (.iset o) := fun h => (Bool.false_ne_true h).elim
theorem mov (o : VOp) : Statement (.mov o) := fun h => (Bool.false_ne_true h).elim
theorem movToQueue (o : VOp) : Statement (.movToQueue o) := fun h => (Bool.false_ne_true h).elim
theorem movFromQueue (o : VOp) : Statement (.movFromQueue o) := fun h => (Bool.false_ne_true h).elim
theorem movi (o : IOp) : Statement (.movi o) := fun h => (Bool.false_ne_true h).elim
theorem cvt (o : VOp) : Statement (.cvt o) := fun h => (Bool.false_ne_true h).elim
theorem lea (o : VOp) : Statement (.lea o) := fun h => (Bool.false_ne_true h).elim
theorem iadd64 (o : VOp) : Statement (.iadd64 o) := fun h => (Bool.false_ne_true h).elim
theorem dp8 (o : VOp) : Statement (.dp8 o) := fun h => (Bool.false_ne_true h).elim
theorem dp4 (o : VOp) : Statement (.dp4 o) := fun h => (Bool.false_ne_true h).elim
theorem unpk (o : VOp) : Statement (.unpk o) := fun h => (Bool.false_ne_true h).elim
theorem pack (o : VOp) : Statement (.pack o) := fun h => (Bool.false_ne_true h).elim
theorem fadd (o : VOp) : Statement (.fadd o) := fun h => (Bool.false_ne_true h).elim
theorem faddI (o : IOp) : Statement (.faddI o) := fun h => (Bool.false_ne_true h).elim
theorem fsub (o : VOp) : Statement (.fsub o) := fun h => (Bool.false_ne_true h).elim
theorem fsubI (o : IOp) : Statement (.fsubI o) := fun h => (Bool.false_ne_true h).elim
theorem fmul (o : VOp) : Statement (.fmul o) := fun h => (Bool.false_ne_true h).elim
theorem fmulI (o : IOp) : Statement (.fmulI o) := fun h => (Bool.false_ne_true h).elim
theorem fma (o : VOp) : Statement (.fma o) := fun h => (Bool.false_ne_true h).elim
theorem fmin (o : VOp) : Statement (.fmin o) := fun h => (Bool.false_ne_true h).elim
theorem fmax (o : VOp) : Statement (.fmax o) := fun h => (Bool.false_ne_true h).elim
theorem fabs (o : VOp) : Statement (.fabs o) := fun h => (Bool.false_ne_true h).elim
theorem fneg (o : VOp) : Statement (.fneg o) := fun h => (Bool.false_ne_true h).elim
theorem fcmp (o : VOp) : Statement (.fcmp o) := fun h => (Bool.false_ne_true h).elim
theorem fcmpI (o : IOp) : Statement (.fcmpI o) := fun h => (Bool.false_ne_true h).elim
theorem fdiv (o : VOp) : Statement (.fdiv o) := fun h => (Bool.false_ne_true h).elim
theorem fsqrt (o : VOp) : Statement (.fsqrt o) := fun h => (Bool.false_ne_true h).elim
theorem frcp (o : VOp) : Statement (.frcp o) := fun h => (Bool.false_ne_true h).elim
theorem frsq (o : VOp) : Statement (.frsq o) := fun h => (Bool.false_ne_true h).elim
theorem fexp2 (o : VOp) : Statement (.fexp2 o) := fun h => (Bool.false_ne_true h).elim
theorem flog2 (o : VOp) : Statement (.flog2 o) := fun h => (Bool.false_ne_true h).elim
theorem fsin2pi (o : VOp) : Statement (.fsin2pi o) := fun h => (Bool.false_ne_true h).elim
theorem fcos2pi (o : VOp) : Statement (.fcos2pi o) := fun h => (Bool.false_ne_true h).elim
theorem frnd (o : VOp) : Statement (.frnd o) := fun h => (Bool.false_ne_true h).elim
theorem cvtF (o : VOp) : Statement (.cvtF o) := fun h => (Bool.false_ne_true h).elim
theorem fclass (o : VOp) : Statement (.fclass o) := fun h => (Bool.false_ne_true h).elim
theorem fscale (o : VOp) : Statement (.fscale o) := fun h => (Bool.false_ne_true h).elim
theorem dp8F (o : VOp) : Statement (.dp8F o) := fun h => (Bool.false_ne_true h).elim
theorem dp4F (o : VOp) : Statement (.dp4F o) := fun h => (Bool.false_ne_true h).elim
theorem dvar (o : VOp) : Statement (.dvar o) := fun h => (Bool.false_ne_true h).elim
theorem dset (o : VOp) : Statement (.dset o) := fun h => (Bool.false_ne_true h).elim
theorem dsetI (o : IOp) : Statement (.dsetI o) := fun h => (Bool.false_ne_true h).elim
theorem dtag (o : VOp) : Statement (.dtag o) := fun h => (Bool.false_ne_true h).elim
theorem dtagI (o : IOp) : Statement (.dtagI o) := fun h => (Bool.false_ne_true h).elim
theorem dclr (o : VOp) : Statement (.dclr o) := fun h => (Bool.false_ne_true h).elim
theorem dstd (o : VOp) : Statement (.dstd o) := fun h => (Bool.false_ne_true h).elim
theorem sample (o : VOp) : Statement (.sample o) := fun h => (Bool.false_ne_true h).elim
theorem rndu (o : VOp) : Statement (.rndu o) := fun h => (Bool.false_ne_true h).elim
theorem rndn (o : VOp) : Statement (.rndn o) := fun h => (Bool.false_ne_true h).elim
theorem gumb (o : VOp) : Statement (.gumb o) := fun h => (Bool.false_ne_true h).elim
theorem qmean (o : VOp) : Statement (.qmean o) := fun h => (Bool.false_ne_true h).elim
theorem qvar (o : VOp) : Statement (.qvar o) := fun h => (Bool.false_ne_true h).elim
theorem sctr (o : VOp) : Statement (.sctr o) := fun h => (Bool.false_ne_true h).elim
theorem shfl (o : VOp) : Statement (.shfl o) := fun h => (Bool.false_ne_true h).elim
theorem shflI (o : IOp) : Statement (.shflI o) := fun h => (Bool.false_ne_true h).elim
theorem vote (o : VOp) : Statement (.vote o) := fun h => (Bool.false_ne_true h).elim
theorem matchLanes (o : VOp) : Statement (.matchLanes o) := fun h => (Bool.false_ne_true h).elim
theorem qswap (o : VOp) : Statement (.qswap o) := fun h => (Bool.false_ne_true h).elim
theorem qbcast (o : VOp) : Statement (.qbcast o) := fun h => (Bool.false_ne_true h).elim
theorem qred (o : VOp) : Statement (.qred o) := fun h => (Bool.false_ne_true h).elim
theorem srd (o : IOp) : Statement (.srd o) := fun h => (Bool.false_ne_true h).elim
theorem ld (o : MOp) : Statement (.ld o) := fun h => (Bool.false_ne_true h).elim
theorem st (o : MOp) : Statement (.st o) := fun h => (Bool.false_ne_true h).elim
theorem ald (o : MOp) : Statement (.ald o) := fun h => (Bool.false_ne_true h).elim
theorem ast (o : MOp) : Statement (.ast o) := fun h => (Bool.false_ne_true h).elim
theorem atom (o : MOp) : Statement (.atom o) := fun h => (Bool.false_ne_true h).elim
theorem dcas (o : MOp) : Statement (.dcas o) := fun h => (Bool.false_ne_true h).elim
theorem amov (o : MOp) : Statement (.amov o) := fun h => (Bool.false_ne_true h).elim
theorem pref (o : MOp) : Statement (.pref o) := fun h => (Bool.false_ne_true h).elim
theorem cwb (o : MOp) : Statement (.cwb o) := fun h => (Bool.false_ne_true h).elim
theorem cinv (o : MOp) : Statement (.cinv o) := fun h => (Bool.false_ne_true h).elim
theorem fence (o : MOp) : Statement (.fence o) := fun h => (Bool.false_ne_true h).elim
theorem bra (o : JOp) : Statement (.bra o) := fun h => (Bool.false_ne_true h).elim
theorem brx (o : JOp) : Statement (.brx o) := fun h => (Bool.false_ne_true h).elim
theorem call (o : JOp) : Statement (.call o) := fun h => (Bool.false_ne_true h).elim
theorem ret (o : JOp) : Statement (.ret o) := fun h => (Bool.false_ne_true h).elim
theorem mjoin (o : JOp) : Statement (.mjoin o) := fun h => (Bool.false_ne_true h).elim
theorem join (o : JOp) : Statement (.join o) := fun h => (Bool.false_ne_true h).elim
theorem exit (o : JOp) : Statement (.exit o) := fun h => (Bool.false_ne_true h).elim
theorem rgn (o : IOp) : Statement (.rgn o) := fun h => (Bool.false_ne_true h).elim
theorem nop (o : JOp) : Statement (.nop o) := fun h => (Bool.false_ne_true h).elim
theorem yieldHint (o : JOp) : Statement (.yieldHint o) := fun h => (Bool.false_ne_true h).elim
theorem qpush (o : QOp) : Statement (.qpush o) := fun h => (Bool.false_ne_true h).elim
theorem qpop (o : QOp) : Statement (.qpop o) := fun h => (Bool.false_ne_true h).elim
theorem qtry (o : QOp) : Statement (.qtry o) := fun h => (Bool.false_ne_true h).elim
theorem copy (o : QOp) : Statement (.copy o) := fun h => (Bool.false_ne_true h).elim
theorem rawait (o : QOp) : Statement (.rawait o) := fun h => (Bool.false_ne_true h).elim
theorem rarel (o : QOp) : Statement (.rarel o) := fun h => (Bool.false_ne_true h).elim
theorem rarelInit (o : QOp) : Statement (.rarelInit o) := fun h => (Bool.false_ne_true h).elim
theorem bar (o : BOp) : Statement (.bar o) := fun h => (Bool.false_ne_true h).elim
theorem wait (o : BOp) : Statement (.wait o) := fun h => (Bool.false_ne_true h).elim
theorem tlbinvPage (o : SOp) : Statement (.tlbinvPage o) := fun h => (Bool.false_ne_true h).elim
theorem tlbinvAsid (o : SOp) : Statement (.tlbinvAsid o) := fun h => (Bool.false_ne_true h).elim
theorem pmap (o : SOp) : Statement (.pmap o) := fun h => (Bool.false_ne_true h).elim
theorem pdrop (o : SOp) : Statement (.pdrop o) := fun h => (Bool.false_ne_true h).elim
theorem rbind (o : SOp) : Statement (.rbind o) := fun h => (Bool.false_ne_true h).elim
theorem runbind (o : SOp) : Statement (.runbind o) := fun h => (Bool.false_ne_true h).elim
theorem place (o : SOp) : Statement (.place o) := fun h => (Bool.false_ne_true h).elim
theorem trap (o : SOp) : Statement (.trap o) := fun h => (Bool.false_ne_true h).elim
theorem trapPost (o : SOp) : Statement (.trapPost o) := fun h => (Bool.false_ne_true h).elim
theorem rtrRestart (o : SOp) : Statement (.rtrRestart o) := fun h => (Bool.false_ne_true h).elim
theorem rtrNext (o : SOp) : Statement (.rtrNext o) := fun h => (Bool.false_ne_true h).elim
theorem rtrKill (o : SOp) : Statement (.rtrKill o) := fun h => (Bool.false_ne_true h).elim
theorem csrr (o : SOp) : Statement (.csrr o) := fun h => (Bool.false_ne_true h).elim
theorem csrw (o : SOp) : Statement (.csrw o) := fun h => (Bool.false_ne_true h).elim
theorem bpt (o : SOp) : Statement (.bpt o) := fun h => (Bool.false_ne_true h).elim
theorem dbgw (o : SOp) : Statement (.dbgw o) := fun h => (Bool.false_ne_true h).elim
theorem tmma (o : TOp) : Statement (.tmma o) := fun h => (Bool.false_ne_true h).elim
theorem tmmas (o : TOp) : Statement (.tmmas o) := fun h => (Bool.false_ne_true h).elim
theorem tmman (o : TOp) : Statement (.tmman o) := fun h => (Bool.false_ne_true h).elim
theorem tzero (o : TOp) : Statement (.tzero o) := fun h => (Bool.false_ne_true h).elim
theorem tzeroSlot (o : TOp) : Statement (.tzeroSlot o) := fun h => (Bool.false_ne_true h).elim
theorem tsave (o : TOp) : Statement (.tsave o) := fun h => (Bool.false_ne_true h).elim
theorem tload (o : TOp) : Statement (.tload o) := fun h => (Bool.false_ne_true h).elim
theorem tbar (o : TOp) : Statement (.tbar o) := fun h => (Bool.false_ne_true h).elim
theorem tset (o : TOp) : Statement (.tset o) := fun h => (Bool.false_ne_true h).elim
theorem tget (o : TOp) : Statement (.tget o) := fun h => (Bool.false_ne_true h).elim
theorem tmon (o : TOp) : Statement (.tmon o) := fun h => (Bool.false_ne_true h).elim
theorem tloop (o : TOp) : Statement (.tloop o) := fun h => (Bool.false_ne_true h).elim
theorem tjmp (o : TOp) : Statement (.tjmp o) := fun h => (Bool.false_ne_true h).elim
theorem tend (o : TOp) : Statement (.tend o) := fun h => (Bool.false_ne_true h).elim
theorem matrixWritePoint (bid : Nat) : Statement (.matrixWritePoint bid) := fun _ => rfl
theorem tmmanPassEnd (bid : Nat) : Statement (.tmmanPassEnd bid) := fun _ => rfl
theorem lineFetch (gid : Nat) (upset1 upset2 : Bool) : Statement (.lineFetch gid upset1 upset2) := fun _ => rfl
theorem variableLatencyReturn (gid idx : Nat) : Statement (.variableLatencyReturn gid idx) := fun _ => rfl
theorem switchMarkerRelease (gid eid : Nat) : Statement (.switchMarkerRelease gid eid) := fun _ => rfl
theorem splitDivision (gid eid : Nat) (late : BitVec 64) : Statement (.splitDivision gid eid late) := fun _ => rfl
theorem splitLateWake (gid eid : Nat) : Statement (.splitLateWake gid eid) := fun _ => rfl
theorem atomicTakeEffect (m : Merge) : Statement (.atomicTakeEffect m) := fun _ => rfl
theorem trapEntry (gid : Nat) : Statement (.trapEntry gid) := fun _ => rfl
theorem groupArrivalCount (gid : Nat) (level : Level) (barn : Nat) : Statement (.groupArrivalCount gid level barn) := fun _ => rfl
theorem barrierInstanceComplete (level : Level) (scope barn : Nat) : Statement (.barrierInstanceComplete level scope barn) := fun _ => rfl
theorem copyStart (bid q : Nat) : Statement (.copyStart bid q) := fun _ => rfl
theorem copyComplete (bid idx : Nat) : Statement (.copyComplete bid idx) := fun _ => rfl
theorem engineCommandStart (gid q : Nat) : Statement (.engineCommandStart gid q) := fun _ => rfl
theorem engineCompletion (gid q idx : Nat) : Statement (.engineCompletion gid q idx) := fun _ => rfl
theorem drain (gid q idx : Nat) : Statement (.drain gid q idx) := fun _ => rfl
theorem cset (gid q idx : Nat) : Statement (.cset gid q idx) := fun _ => rfl
theorem bready (gid q idx : Nat) : Statement (.bready gid q idx) := fun _ => rfl
theorem cfree (gid q idx : Nat) : Statement (.cfree gid q idx) := fun _ => rfl
theorem uconf (gid q idx : Nat) : Statement (.uconf gid q idx) := fun _ => rfl
theorem uinit (gid q idx : Nat) : Statement (.uinit gid q idx) := fun _ => rfl
theorem ucommit (gid q idx : Nat) : Statement (.ucommit gid q idx) := fun _ => rfl
theorem uclean (gid q idx : Nat) : Statement (.uclean gid q idx) := fun _ => rfl
theorem ufree (gid q idx : Nat) : Statement (.ufree gid q idx) := fun _ => rfl
theorem stageComplete (fcode : Nat) : Statement (.stageComplete fcode) := fun _ => rfl
theorem planinStore (port : Ports) (vals : PortWords) : Statement (.planinStore port vals) := fun _ => rfl
theorem planoutRemove (port : Ports) : Statement (.planoutRemove port) := fun _ => rfl
theorem ageingReplan (die pen : Nat) (offs : BitVec 16) (weak : Bool) : Statement (.ageingReplan die pen offs weak) := fun _ => rfl
theorem atgo (port : Ports) (vals : PortWords) : Statement (.atgo port vals) := fun _ => rfl
theorem atnonceWrite (port : Ports) (i : Nat) (vals : PortWords) : Statement (.atnonceWrite port i vals) := fun _ => rfl
theorem lidRead (ports : Ports) (i : Nat) : Statement (.lidRead ports i) := fun _ => rfl
theorem lidWrite (ports : Ports) (i : Nat) : Statement (.lidWrite ports i) := fun _ => rfl
theorem launchTake (queue : Nat) : Statement (.launchTake queue) := fun _ => rfl
theorem launchAdmit (lid : Nat) : Statement (.launchAdmit lid) := fun _ => rfl
theorem gangPlace (lid gang : Nat) : Statement (.gangPlace lid gang) := fun _ => rfl
theorem gangSetAside (lid gang : Nat) : Statement (.gangSetAside lid gang) := fun _ => rfl
theorem gangRestore (lid gang : Nat) : Statement (.gangRestore lid gang) := fun _ => rfl
theorem launchComplete (lid : Nat) : Statement (.launchComplete lid) := fun _ => rfl
theorem stagedSetRelease (bid : Nat) : Statement (.stagedSetRelease bid) := fun _ => rfl
theorem signatureCompare (bid : Nat) : Statement (.signatureCompare bid) := fun _ => rfl
theorem gangContainment (lid gang : Nat) (err : CoreErr) : Statement (.gangContainment lid gang err) := fun _ => rfl
theorem dieFence (die : Nat) : Statement (.dieFence die) := fun _ => rfl
theorem trapQueueRemove (port : Ports) : Statement (.trapQueueRemove port) := fun _ => rfl
theorem trapQueueReply (port : Ports) (vals : PortWords) : Statement (.trapQueueReply port vals) := fun _ => rfl
theorem attach (ports : Ports) (cmd : BitVec 32) : Statement (.attach ports cmd) := fun _ => rfl
theorem detach (port : Ports) (cmd : BitVec 32) : Statement (.detach port cmd) := fun _ => rfl
theorem select (port : Ports) (cmd : BitVec 32) : Statement (.select port cmd) := fun _ => rfl
theorem halt (port : Ports) (cmd : BitVec 32) : Statement (.halt port cmd) := fun _ => rfl
theorem debugResume (port : Ports) (cmd : BitVec 32) : Statement (.debugResume port cmd) := fun _ => rfl
theorem step (port : Ports) (cmd : BitVec 32) : Statement (.step port cmd) := fun _ => rfl
theorem stepDone (gid : Nat) : Statement (.stepDone gid) := fun _ => rfl
theorem rdreg (port : Ports) (cmd : BitVec 32) : Statement (.rdreg port cmd) := fun _ => rfl
theorem wrreg (port : Ports) (cmd : BitVec 32) : Statement (.wrreg port cmd) := fun _ => rfl
theorem setbrk (port : Ports) (cmd : BitVec 32) : Statement (.setbrk port cmd) := fun _ => rfl
theorem setwatch (port : Ports) (cmd : BitVec 32) : Statement (.setwatch port cmd) := fun _ => rfl
theorem mailboxDataRead (port : Ports) (i : Nat) : Statement (.mailboxDataRead port i) := fun _ => rfl
theorem eccWriteback (gid : Nat) (part : RegPart) (reg : Nat) (lanes : BitVec 64) (double : Bool) : Statement (.eccWriteback gid part reg lanes double) := fun _ => rfl
theorem l2Fill (pa : Nat) (err : MemErr) : Statement (.l2Fill pa err) := fun _ => rfl
theorem hostAccess (port : Ports) (pa : Nat) (wr : Bool) (data : List (BitVec 8)) : Statement (.hostAccess port pa wr data) := fun _ => rfl
theorem hswpcmd (port : Ports) (vals : PortWords) : Statement (.hswpcmd port vals) := fun _ => rfl
theorem sweepComplete (idx : Nat) : Statement (.sweepComplete idx) := fun _ => rfl
theorem mcmdgo (port : Ports) (die : Nat) (vals : PortWords) : Statement (.mcmdgo port die vals) := fun _ => rfl
theorem migrationCopyDone (die idx : Nat) : Statement (.migrationCopyDone die idx) := fun _ => rfl
theorem accessResend (idx : Nat) : Statement (.accessResend idx) := fun _ => rfl
theorem fwcfgWrite (port : Ports) (die i : Nat) (vals : PortWords) : Statement (.fwcfgWrite port die i vals) := fun _ => rfl
theorem fwDisableDone (die i : Nat) : Statement (.fwDisableDone die i) := fun _ => rfl
theorem poolDisable (pool : Nat) : Statement (.poolDisable pool) := fun _ => rfl
theorem ttcommit (port : Ports) (vals : PortWords) : Statement (.ttcommit port vals) := fun _ => rfl
theorem cgtdataWrite (port : Ports) (vals : PortWords) : Statement (.cgtdataWrite port vals) := fun _ => rfl
theorem uemodeWrite (port : Ports) (vals : PortWords) : Statement (.uemodeWrite port vals) := fun _ => rfl
theorem flitArrival (port : Nat) (flit : Flit) : Statement (.flitArrival port flit) := fun _ => rfl
theorem flitReorderDeliver (port : Nat) (flow : Flow) : Statement (.flitReorderDeliver port flow) := fun _ => rfl
theorem fabricAck (flow : Flow) (upTo : BitVec 16) (marked : Bool) : Statement (.fabricAck flow upTo marked) := fun _ => rfl
theorem retransmitTimeout (flow : Flow) (seq : BitVec 16) : Statement (.retransmitTimeout flow seq) := fun _ => rfl
theorem fabricIncomingAccess (src : Nat) (acc : FabAccess) : Statement (.fabricIncomingAccess src acc) := fun _ => rfl
theorem errCounterRead (port : Ports) (die i : Nat) (lasting : Bool) : Statement (.errCounterRead port die i lasting) := fun _ => rfl
theorem fwclampRead (port : Ports) (die i : Nat) : Statement (.fwclampRead port die i) := fun _ => rfl
theorem fbdropRead (port : Ports) : Statement (.fbdropRead port) := fun _ => rfl
theorem registerWrite (ports : Ports) (offset : Nat) (val0 val1 : BitVec 32) : Statement (.registerWrite ports offset val0 val1) := fun _ => rfl
theorem portClock (port : Nat) : Statement (.portClock port) := fun _ => rfl
theorem linkRetry (die : Nat) (good : Bool) : Statement (.linkRetry die good) := fun _ => rfl
theorem unallocatedOpcode (word : BitVec 96) : Statement (.unallocatedOpcode word) := fun h => (Bool.false_ne_true h).elim
theorem mailboxErrRead (port : Ports) : Statement (.mailboxErrRead port) := fun _ => rfl
theorem wordPairLatchRead (port : Ports) (offset : Nat) : Statement (.wordPairLatchRead port offset) := fun _ => rfl
theorem undefinedDebugCommand (port : Ports) (cmd : BitVec 32) : Statement (.undefinedDebugCommand port cmd) := fun _ => rfl
theorem undefinedLaunchCommand (port : Ports) (val : BitVec 32) : Statement (.undefinedLaunchCommand port val) := fun _ => rfl
theorem resetRelease : Statement .resetRelease := fun _ => rfl
theorem planTimeout : Statement .planTimeout := fun _ => rfl
theorem joinStart : Statement .joinStart := fun _ => rfl
theorem planrdy : Statement .planrdy := fun _ => rfl
theorem throttleBubble : Statement .throttleBubble := fun _ => rfl
theorem attestationDone : Statement .attestationDone := fun _ => rfl
theorem suspend : Statement .suspend := fun _ => rfl
theorem resume : Statement .resume := fun _ => rfl
theorem cancel : Statement .cancel := fun _ => rfl
theorem deviceReset : Statement .deviceReset := fun _ => rfl
theorem arithmeticClock : Statement .arithmeticClock := fun _ => rfl

end Sys2Proof.Laws.EventsHaveNoWord
end

