-- ==== Sys2Proof/Laws/State.lean ====
section
/-! SUPPORT. What each named update of the state does to each field, so that no proof unfolds a record update. -/

namespace Sys2Proof.Machine

/-! `State.wrReg` -/
@[simp] theorem State.wrReg_part (s : State) (off : Nat) (v : Word) : (s.wrReg off v).part = s.part := rfl
@[simp] theorem State.wrReg_cur (s : State) (off : Nat) (v : Word) : (s.wrReg off v).cur = s.cur := rfl
@[simp] theorem State.wrReg_agenda (s : State) (off : Nat) (v : Word) : (s.wrReg off v).agenda = s.agenda := rfl
@[simp] theorem State.wrReg_turn (s : State) (off : Nat) (v : Word) : (s.wrReg off v).turn = s.turn := rfl
@[simp] theorem State.wrReg_free (s : State) (off : Nat) (v : Word) : (s.wrReg off v).free = s.free := rfl
@[simp] theorem State.wrReg_stamp (s : State) (off : Nat) (v : Word) : (s.wrReg off v).stamp = s.stamp := rfl
@[simp] theorem State.wrReg_nextId (s : State) (off : Nat) (v : Word) : (s.wrReg off v).nextId = s.nextId := rfl
@[simp] theorem State.wrReg_running (s : State) (off : Nat) (v : Word) : (s.wrReg off v).running = s.running := rfl
@[simp] theorem State.wrReg_stage (s : State) (off : Nat) (v : Word) : (s.wrReg off v).stage = s.stage := rfl
@[simp] theorem State.wrReg_stageFail (s : State) (off : Nat) (v : Word) : (s.wrReg off v).stageFail = s.stageFail := rfl
@[simp] theorem State.wrReg_fcode (s : State) (off : Nat) (v : Word) : (s.wrReg off v).fcode = s.fcode := rfl
@[simp] theorem State.wrReg_planTo (s : State) (off : Nat) (v : Word) : (s.wrReg off v).planTo = s.planTo := rfl
@[simp] theorem State.wrReg_planRdy (s : State) (off : Nat) (v : Word) : (s.wrReg off v).planRdy = s.planRdy := rfl
@[simp] theorem State.wrReg_joinReq (s : State) (off : Nat) (v : Word) : (s.wrReg off v).joinReq = s.joinReq := rfl
@[simp] theorem State.wrReg_fwBad (s : State) (off : Nat) (v : Word) : (s.wrReg off v).fwBad = s.fwBad := rfl
@[simp] theorem State.wrReg_hreg (s : State) (off : Nat) (v : Word) : (s.wrReg off v).hreg = cset 0 s.hreg off v := rfl
@[simp] theorem State.wrReg_lids (s : State) (off : Nat) (v : Word) : (s.wrReg off v).lids = s.lids := rfl
@[simp] theorem State.wrReg_tieReg (s : State) (off : Nat) (v : Word) : (s.wrReg off v).tieReg = s.tieReg := rfl
@[simp] theorem State.wrReg_tieLid (s : State) (off : Nat) (v : Word) : (s.wrReg off v).tieLid = s.tieLid := rfl
@[simp] theorem State.wrReg_tieAttach (s : State) (off : Nat) (v : Word) : (s.wrReg off v).tieAttach = s.tieAttach := rfl
@[simp] theorem State.wrReg_latch (s : State) (off : Nat) (v : Word) : (s.wrReg off v).latch = s.latch := rfl
@[simp] theorem State.wrReg_launches (s : State) (off : Nat) (v : Word) : (s.wrReg off v).launches = s.launches := rfl
@[simp] theorem State.wrReg_gangs (s : State) (off : Nat) (v : Word) : (s.wrReg off v).gangs = s.gangs := rfl
@[simp] theorem State.wrReg_blocks (s : State) (off : Nat) (v : Word) : (s.wrReg off v).blocks = s.blocks := rfl
@[simp] theorem State.wrReg_groups (s : State) (off : Nat) (v : Word) : (s.wrReg off v).groups = s.groups := rfl
@[simp] theorem State.wrReg_served (s : State) (off : Nat) (v : Word) : (s.wrReg off v).served = s.served := rfl
@[simp] theorem State.wrReg_mem (s : State) (off : Nat) (v : Word) : (s.wrReg off v).mem = s.mem := rfl
@[simp] theorem State.wrReg_badLines (s : State) (off : Nat) (v : Word) : (s.wrReg off v).badLines = s.badLines := rfl
@[simp] theorem State.wrReg_l1 (s : State) (off : Nat) (v : Word) : (s.wrReg off v).l1 = s.l1 := rfl
@[simp] theorem State.wrReg_l2 (s : State) (off : Nat) (v : Word) : (s.wrReg off v).l2 = s.l2 := rfl
@[simp] theorem State.wrReg_backed (s : State) (off : Nat) (v : Word) : (s.wrReg off v).backed = s.backed := rfl
@[simp] theorem State.wrReg_coreTlb (s : State) (off : Nat) (v : Word) : (s.wrReg off v).coreTlb = s.coreTlb := rfl
@[simp] theorem State.wrReg_dieTlb (s : State) (off : Nat) (v : Word) : (s.wrReg off v).dieTlb = s.dieTlb := rfl
@[simp] theorem State.wrReg_areqs (s : State) (off : Nat) (v : Word) : (s.wrReg off v).areqs = s.areqs := rfl
@[simp] theorem State.wrReg_sweeps (s : State) (off : Nat) (v : Word) : (s.wrReg off v).sweeps = s.sweeps := rfl
@[simp] theorem State.wrReg_migs (s : State) (off : Nat) (v : Word) : (s.wrReg off v).migs = s.migs := rfl
@[simp] theorem State.wrReg_vers (s : State) (off : Nat) (v : Word) : (s.wrReg off v).vers = s.vers := rfl
@[simp] theorem State.wrReg_cyc (s : State) (off : Nat) (v : Word) : (s.wrReg off v).cyc = s.cyc := rfl
@[simp] theorem State.wrReg_pmc (s : State) (off : Nat) (v : Word) : (s.wrReg off v).pmc = s.pmc := rfl
@[simp] theorem State.wrReg_tally (s : State) (off : Nat) (v : Word) : (s.wrReg off v).tally = s.tally := rfl
@[simp] theorem State.wrReg_portClk (s : State) (off : Nat) (v : Word) : (s.wrReg off v).portClk = s.portClk := rfl
@[simp] theorem State.wrReg_page (s : State) (off : Nat) (v : Word) : (s.wrReg off v).page = s.page := rfl
@[simp] theorem State.wrReg_trapq (s : State) (off : Nat) (v : Word) : (s.wrReg off v).trapq = s.trapq := rfl
@[simp] theorem State.wrReg_replan (s : State) (off : Nat) (v : Word) : (s.wrReg off v).replan = s.replan := rfl
@[simp] theorem State.wrReg_ticks (s : State) (off : Nat) (v : Word) : (s.wrReg off v).ticks = s.ticks := rfl
@[simp] theorem State.wrReg_poolOff (s : State) (off : Nat) (v : Word) : (s.wrReg off v).poolOff = s.poolOff := rfl
@[simp] theorem State.wrReg_drops (s : State) (off : Nat) (v : Word) : (s.wrReg off v).drops = s.drops := rfl
@[simp] theorem State.wrReg_fars (s : State) (off : Nat) (v : Word) : (s.wrReg off v).fars = s.fars := rfl
@[simp] theorem State.wrReg_cleanViews (s : State) (off : Nat) (v : Word) : (s.wrReg off v).cleanViews = s.cleanViews := rfl
@[simp] theorem State.wrReg_posts (s : State) (off : Nat) (v : Word) : (s.wrReg off v).posts = s.posts := rfl
@[simp] theorem State.wrReg_srt (s : State) (off : Nat) (v : Word) : (s.wrReg off v).srt = s.srt := rfl
@[simp] theorem State.wrReg_ttStaged (s : State) (off : Nat) (v : Word) : (s.wrReg off v).ttStaged = s.ttStaged := rfl
@[simp] theorem State.wrReg_ttActive (s : State) (off : Nat) (v : Word) : (s.wrReg off v).ttActive = s.ttActive := rfl
@[simp] theorem State.wrReg_cgt (s : State) (off : Nat) (v : Word) : (s.wrReg off v).cgt = s.cgt := rfl
@[simp] theorem State.wrReg_colls (s : State) (off : Nat) (v : Word) : (s.wrReg off v).colls = s.colls := rfl
@[simp] theorem State.wrReg_uctx (s : State) (off : Nat) (v : Word) : (s.wrReg off v).uctx = s.uctx := rfl
@[simp] theorem State.wrReg_flowsOut (s : State) (off : Nat) (v : Word) : (s.wrReg off v).flowsOut = s.flowsOut := rfl
@[simp] theorem State.wrReg_flowsIn (s : State) (off : Nat) (v : Word) : (s.wrReg off v).flowsIn = s.flowsIn := rfl
@[simp] theorem State.wrReg_vcq (s : State) (off : Nat) (v : Word) : (s.wrReg off v).vcq = s.vcq := rfl
@[simp] theorem State.wrReg_vcin (s : State) (off : Nat) (v : Word) : (s.wrReg off v).vcin = s.vcin := rfl
@[simp] theorem State.wrReg_rounds (s : State) (off : Nat) (v : Word) : (s.wrReg off v).rounds = s.rounds := rfl
@[simp] theorem State.wrReg_pass (s : State) (off : Nat) (v : Word) : (s.wrReg off v).pass = s.pass := rfl
@[simp] theorem State.wrReg_fwaits (s : State) (off : Nat) (v : Word) : (s.wrReg off v).fwaits = s.fwaits := rfl
@[simp] theorem State.wrReg_dbg (s : State) (off : Nat) (v : Word) : (s.wrReg off v).dbg = s.dbg := rfl
@[simp] theorem State.wrReg_fenced (s : State) (off : Nat) (v : Word) : (s.wrReg off v).fenced = s.fenced := rfl
@[simp] theorem State.wrReg_atRep (s : State) (off : Nat) (v : Word) : (s.wrReg off v).atRep = s.atRep := rfl
@[simp] theorem State.wrReg_atSig (s : State) (off : Nat) (v : Word) : (s.wrReg off v).atSig = s.atSig := rfl
@[simp] theorem State.wrReg_plansIn (s : State) (off : Nat) (v : Word) : (s.wrReg off v).plansIn = s.plansIn := rfl
@[simp] theorem State.wrReg_planOut (s : State) (off : Nat) (v : Word) : (s.wrReg off v).planOut = s.planOut := rfl

/-! `State.setRegBits` -/
@[simp] theorem State.setRegBits_part (s : State) (off lo len v : Nat) : (s.setRegBits off lo len v).part = s.part := rfl
@[simp] theorem State.setRegBits_cur (s : State) (off lo len v : Nat) : (s.setRegBits off lo len v).cur = s.cur := rfl
@[simp] theorem State.setRegBits_agenda (s : State) (off lo len v : Nat) : (s.setRegBits off lo len v).agenda = s.agenda := rfl
@[simp] theorem State.setRegBits_turn (s : State) (off lo len v : Nat) : (s.setRegBits off lo len v).turn = s.turn := rfl
@[simp] theorem State.setRegBits_free (s : State) (off lo len v : Nat) : (s.setRegBits off lo len v).free = s.free := rfl
@[simp] theorem State.setRegBits_stamp (s : State) (off lo len v : Nat) : (s.setRegBits off lo len v).stamp = s.stamp := rfl
@[simp] theorem State.setRegBits_nextId (s : State) (off lo len v : Nat) : (s.setRegBits off lo len v).nextId = s.nextId := rfl
@[simp] theorem State.setRegBits_running (s : State) (off lo len v : Nat) : (s.setRegBits off lo len v).running = s.running := rfl
@[simp] theorem State.setRegBits_stage (s : State) (off lo len v : Nat) : (s.setRegBits off lo len v).stage = s.stage := rfl
@[simp] theorem State.setRegBits_stageFail (s : State) (off lo len v : Nat) : (s.setRegBits off lo len v).stageFail = s.stageFail := rfl
@[simp] theorem State.setRegBits_fcode (s : State) (off lo len v : Nat) : (s.setRegBits off lo len v).fcode = s.fcode := rfl
@[simp] theorem State.setRegBits_planTo (s : State) (off lo len v : Nat) : (s.setRegBits off lo len v).planTo = s.planTo := rfl
@[simp] theorem State.setRegBits_planRdy (s : State) (off lo len v : Nat) : (s.setRegBits off lo len v).planRdy = s.planRdy := rfl
@[simp] theorem State.setRegBits_joinReq (s : State) (off lo len v : Nat) : (s.setRegBits off lo len v).joinReq = s.joinReq := rfl
@[simp] theorem State.setRegBits_fwBad (s : State) (off lo len v : Nat) : (s.setRegBits off lo len v).fwBad = s.fwBad := rfl
@[simp] theorem State.setRegBits_hreg (s : State) (off lo len v : Nat) : (s.setRegBits off lo len v).hreg = cset 0 s.hreg off (setField (s.rdReg off) lo len v) := rfl
@[simp] theorem State.setRegBits_lids (s : State) (off lo len v : Nat) : (s.setRegBits off lo len v).lids = s.lids := rfl
@[simp] theorem State.setRegBits_tieReg (s : State) (off lo len v : Nat) : (s.setRegBits off lo len v).tieReg = s.tieReg := rfl
@[simp] theorem State.setRegBits_tieLid (s : State) (off lo len v : Nat) : (s.setRegBits off lo len v).tieLid = s.tieLid := rfl
@[simp] theorem State.setRegBits_tieAttach (s : State) (off lo len v : Nat) : (s.setRegBits off lo len v).tieAttach = s.tieAttach := rfl
@[simp] theorem State.setRegBits_latch (s : State) (off lo len v : Nat) : (s.setRegBits off lo len v).latch = s.latch := rfl
@[simp] theorem State.setRegBits_launches (s : State) (off lo len v : Nat) : (s.setRegBits off lo len v).launches = s.launches := rfl
@[simp] theorem State.setRegBits_gangs (s : State) (off lo len v : Nat) : (s.setRegBits off lo len v).gangs = s.gangs := rfl
@[simp] theorem State.setRegBits_blocks (s : State) (off lo len v : Nat) : (s.setRegBits off lo len v).blocks = s.blocks := rfl
@[simp] theorem State.setRegBits_groups (s : State) (off lo len v : Nat) : (s.setRegBits off lo len v).groups = s.groups := rfl
@[simp] theorem State.setRegBits_served (s : State) (off lo len v : Nat) : (s.setRegBits off lo len v).served = s.served := rfl
@[simp] theorem State.setRegBits_mem (s : State) (off lo len v : Nat) : (s.setRegBits off lo len v).mem = s.mem := rfl
@[simp] theorem State.setRegBits_badLines (s : State) (off lo len v : Nat) : (s.setRegBits off lo len v).badLines = s.badLines := rfl
@[simp] theorem State.setRegBits_l1 (s : State) (off lo len v : Nat) : (s.setRegBits off lo len v).l1 = s.l1 := rfl
@[simp] theorem State.setRegBits_l2 (s : State) (off lo len v : Nat) : (s.setRegBits off lo len v).l2 = s.l2 := rfl
@[simp] theorem State.setRegBits_backed (s : State) (off lo len v : Nat) : (s.setRegBits off lo len v).backed = s.backed := rfl
@[simp] theorem State.setRegBits_coreTlb (s : State) (off lo len v : Nat) : (s.setRegBits off lo len v).coreTlb = s.coreTlb := rfl
@[simp] theorem State.setRegBits_dieTlb (s : State) (off lo len v : Nat) : (s.setRegBits off lo len v).dieTlb = s.dieTlb := rfl
@[simp] theorem State.setRegBits_areqs (s : State) (off lo len v : Nat) : (s.setRegBits off lo len v).areqs = s.areqs := rfl
@[simp] theorem State.setRegBits_sweeps (s : State) (off lo len v : Nat) : (s.setRegBits off lo len v).sweeps = s.sweeps := rfl
@[simp] theorem State.setRegBits_migs (s : State) (off lo len v : Nat) : (s.setRegBits off lo len v).migs = s.migs := rfl
@[simp] theorem State.setRegBits_vers (s : State) (off lo len v : Nat) : (s.setRegBits off lo len v).vers = s.vers := rfl
@[simp] theorem State.setRegBits_cyc (s : State) (off lo len v : Nat) : (s.setRegBits off lo len v).cyc = s.cyc := rfl
@[simp] theorem State.setRegBits_pmc (s : State) (off lo len v : Nat) : (s.setRegBits off lo len v).pmc = s.pmc := rfl
@[simp] theorem State.setRegBits_tally (s : State) (off lo len v : Nat) : (s.setRegBits off lo len v).tally = s.tally := rfl
@[simp] theorem State.setRegBits_portClk (s : State) (off lo len v : Nat) : (s.setRegBits off lo len v).portClk = s.portClk := rfl
@[simp] theorem State.setRegBits_page (s : State) (off lo len v : Nat) : (s.setRegBits off lo len v).page = s.page := rfl
@[simp] theorem State.setRegBits_trapq (s : State) (off lo len v : Nat) : (s.setRegBits off lo len v).trapq = s.trapq := rfl
@[simp] theorem State.setRegBits_replan (s : State) (off lo len v : Nat) : (s.setRegBits off lo len v).replan = s.replan := rfl
@[simp] theorem State.setRegBits_ticks (s : State) (off lo len v : Nat) : (s.setRegBits off lo len v).ticks = s.ticks := rfl
@[simp] theorem State.setRegBits_poolOff (s : State) (off lo len v : Nat) : (s.setRegBits off lo len v).poolOff = s.poolOff := rfl
@[simp] theorem State.setRegBits_drops (s : State) (off lo len v : Nat) : (s.setRegBits off lo len v).drops = s.drops := rfl
@[simp] theorem State.setRegBits_fars (s : State) (off lo len v : Nat) : (s.setRegBits off lo len v).fars = s.fars := rfl
@[simp] theorem State.setRegBits_cleanViews (s : State) (off lo len v : Nat) : (s.setRegBits off lo len v).cleanViews = s.cleanViews := rfl
@[simp] theorem State.setRegBits_posts (s : State) (off lo len v : Nat) : (s.setRegBits off lo len v).posts = s.posts := rfl
@[simp] theorem State.setRegBits_srt (s : State) (off lo len v : Nat) : (s.setRegBits off lo len v).srt = s.srt := rfl
@[simp] theorem State.setRegBits_ttStaged (s : State) (off lo len v : Nat) : (s.setRegBits off lo len v).ttStaged = s.ttStaged := rfl
@[simp] theorem State.setRegBits_ttActive (s : State) (off lo len v : Nat) : (s.setRegBits off lo len v).ttActive = s.ttActive := rfl
@[simp] theorem State.setRegBits_cgt (s : State) (off lo len v : Nat) : (s.setRegBits off lo len v).cgt = s.cgt := rfl
@[simp] theorem State.setRegBits_colls (s : State) (off lo len v : Nat) : (s.setRegBits off lo len v).colls = s.colls := rfl
@[simp] theorem State.setRegBits_uctx (s : State) (off lo len v : Nat) : (s.setRegBits off lo len v).uctx = s.uctx := rfl
@[simp] theorem State.setRegBits_flowsOut (s : State) (off lo len v : Nat) : (s.setRegBits off lo len v).flowsOut = s.flowsOut := rfl
@[simp] theorem State.setRegBits_flowsIn (s : State) (off lo len v : Nat) : (s.setRegBits off lo len v).flowsIn = s.flowsIn := rfl
@[simp] theorem State.setRegBits_vcq (s : State) (off lo len v : Nat) : (s.setRegBits off lo len v).vcq = s.vcq := rfl
@[simp] theorem State.setRegBits_vcin (s : State) (off lo len v : Nat) : (s.setRegBits off lo len v).vcin = s.vcin := rfl
@[simp] theorem State.setRegBits_rounds (s : State) (off lo len v : Nat) : (s.setRegBits off lo len v).rounds = s.rounds := rfl
@[simp] theorem State.setRegBits_pass (s : State) (off lo len v : Nat) : (s.setRegBits off lo len v).pass = s.pass := rfl
@[simp] theorem State.setRegBits_fwaits (s : State) (off lo len v : Nat) : (s.setRegBits off lo len v).fwaits = s.fwaits := rfl
@[simp] theorem State.setRegBits_dbg (s : State) (off lo len v : Nat) : (s.setRegBits off lo len v).dbg = s.dbg := rfl
@[simp] theorem State.setRegBits_fenced (s : State) (off lo len v : Nat) : (s.setRegBits off lo len v).fenced = s.fenced := rfl
@[simp] theorem State.setRegBits_atRep (s : State) (off lo len v : Nat) : (s.setRegBits off lo len v).atRep = s.atRep := rfl
@[simp] theorem State.setRegBits_atSig (s : State) (off lo len v : Nat) : (s.setRegBits off lo len v).atSig = s.atSig := rfl
@[simp] theorem State.setRegBits_plansIn (s : State) (off lo len v : Nat) : (s.setRegBits off lo len v).plansIn = s.plansIn := rfl
@[simp] theorem State.setRegBits_planOut (s : State) (off lo len v : Nat) : (s.setRegBits off lo len v).planOut = s.planOut := rfl

/-! `State.wrMem` -/
@[simp] theorem State.wrMem_part (s : State) (key : Nat) (bs : List Byte) : (s.wrMem key bs).part = s.part := rfl
@[simp] theorem State.wrMem_cur (s : State) (key : Nat) (bs : List Byte) : (s.wrMem key bs).cur = s.cur := rfl
@[simp] theorem State.wrMem_agenda (s : State) (key : Nat) (bs : List Byte) : (s.wrMem key bs).agenda = s.agenda := rfl
@[simp] theorem State.wrMem_turn (s : State) (key : Nat) (bs : List Byte) : (s.wrMem key bs).turn = s.turn := rfl
@[simp] theorem State.wrMem_free (s : State) (key : Nat) (bs : List Byte) : (s.wrMem key bs).free = s.free := rfl
@[simp] theorem State.wrMem_stamp (s : State) (key : Nat) (bs : List Byte) : (s.wrMem key bs).stamp = s.stamp := rfl
@[simp] theorem State.wrMem_nextId (s : State) (key : Nat) (bs : List Byte) : (s.wrMem key bs).nextId = s.nextId := rfl
@[simp] theorem State.wrMem_running (s : State) (key : Nat) (bs : List Byte) : (s.wrMem key bs).running = s.running := rfl
@[simp] theorem State.wrMem_stage (s : State) (key : Nat) (bs : List Byte) : (s.wrMem key bs).stage = s.stage := rfl
@[simp] theorem State.wrMem_stageFail (s : State) (key : Nat) (bs : List Byte) : (s.wrMem key bs).stageFail = s.stageFail := rfl
@[simp] theorem State.wrMem_fcode (s : State) (key : Nat) (bs : List Byte) : (s.wrMem key bs).fcode = s.fcode := rfl
@[simp] theorem State.wrMem_planTo (s : State) (key : Nat) (bs : List Byte) : (s.wrMem key bs).planTo = s.planTo := rfl
@[simp] theorem State.wrMem_planRdy (s : State) (key : Nat) (bs : List Byte) : (s.wrMem key bs).planRdy = s.planRdy := rfl
@[simp] theorem State.wrMem_joinReq (s : State) (key : Nat) (bs : List Byte) : (s.wrMem key bs).joinReq = s.joinReq := rfl
@[simp] theorem State.wrMem_fwBad (s : State) (key : Nat) (bs : List Byte) : (s.wrMem key bs).fwBad = s.fwBad := rfl
@[simp] theorem State.wrMem_hreg (s : State) (key : Nat) (bs : List Byte) : (s.wrMem key bs).hreg = s.hreg := rfl
@[simp] theorem State.wrMem_lids (s : State) (key : Nat) (bs : List Byte) : (s.wrMem key bs).lids = s.lids := rfl
@[simp] theorem State.wrMem_tieReg (s : State) (key : Nat) (bs : List Byte) : (s.wrMem key bs).tieReg = s.tieReg := rfl
@[simp] theorem State.wrMem_tieLid (s : State) (key : Nat) (bs : List Byte) : (s.wrMem key bs).tieLid = s.tieLid := rfl
@[simp] theorem State.wrMem_tieAttach (s : State) (key : Nat) (bs : List Byte) : (s.wrMem key bs).tieAttach = s.tieAttach := rfl
@[simp] theorem State.wrMem_latch (s : State) (key : Nat) (bs : List Byte) : (s.wrMem key bs).latch = s.latch := rfl
@[simp] theorem State.wrMem_launches (s : State) (key : Nat) (bs : List Byte) : (s.wrMem key bs).launches = s.launches := rfl
@[simp] theorem State.wrMem_gangs (s : State) (key : Nat) (bs : List Byte) : (s.wrMem key bs).gangs = s.gangs := rfl
@[simp] theorem State.wrMem_blocks (s : State) (key : Nat) (bs : List Byte) : (s.wrMem key bs).blocks = s.blocks := rfl
@[simp] theorem State.wrMem_groups (s : State) (key : Nat) (bs : List Byte) : (s.wrMem key bs).groups = s.groups := rfl
@[simp] theorem State.wrMem_served (s : State) (key : Nat) (bs : List Byte) : (s.wrMem key bs).served = s.served := rfl
@[simp] theorem State.wrMem_badLines (s : State) (key : Nat) (bs : List Byte) : (s.wrMem key bs).badLines = s.badLines := rfl
@[simp] theorem State.wrMem_l1 (s : State) (key : Nat) (bs : List Byte) : (s.wrMem key bs).l1 = s.l1 := rfl
@[simp] theorem State.wrMem_l2 (s : State) (key : Nat) (bs : List Byte) : (s.wrMem key bs).l2 = s.l2 := rfl
@[simp] theorem State.wrMem_backed (s : State) (key : Nat) (bs : List Byte) : (s.wrMem key bs).backed = s.backed := rfl
@[simp] theorem State.wrMem_coreTlb (s : State) (key : Nat) (bs : List Byte) : (s.wrMem key bs).coreTlb = s.coreTlb := rfl
@[simp] theorem State.wrMem_dieTlb (s : State) (key : Nat) (bs : List Byte) : (s.wrMem key bs).dieTlb = s.dieTlb := rfl
@[simp] theorem State.wrMem_areqs (s : State) (key : Nat) (bs : List Byte) : (s.wrMem key bs).areqs = s.areqs := rfl
@[simp] theorem State.wrMem_sweeps (s : State) (key : Nat) (bs : List Byte) : (s.wrMem key bs).sweeps = s.sweeps := rfl
@[simp] theorem State.wrMem_migs (s : State) (key : Nat) (bs : List Byte) : (s.wrMem key bs).migs = s.migs := rfl
@[simp] theorem State.wrMem_vers (s : State) (key : Nat) (bs : List Byte) : (s.wrMem key bs).vers = s.vers := rfl
@[simp] theorem State.wrMem_cyc (s : State) (key : Nat) (bs : List Byte) : (s.wrMem key bs).cyc = s.cyc := rfl
@[simp] theorem State.wrMem_pmc (s : State) (key : Nat) (bs : List Byte) : (s.wrMem key bs).pmc = s.pmc := rfl
@[simp] theorem State.wrMem_tally (s : State) (key : Nat) (bs : List Byte) : (s.wrMem key bs).tally = s.tally := rfl
@[simp] theorem State.wrMem_portClk (s : State) (key : Nat) (bs : List Byte) : (s.wrMem key bs).portClk = s.portClk := rfl
@[simp] theorem State.wrMem_page (s : State) (key : Nat) (bs : List Byte) : (s.wrMem key bs).page = s.page := rfl
@[simp] theorem State.wrMem_trapq (s : State) (key : Nat) (bs : List Byte) : (s.wrMem key bs).trapq = s.trapq := rfl
@[simp] theorem State.wrMem_replan (s : State) (key : Nat) (bs : List Byte) : (s.wrMem key bs).replan = s.replan := rfl
@[simp] theorem State.wrMem_ticks (s : State) (key : Nat) (bs : List Byte) : (s.wrMem key bs).ticks = s.ticks := rfl
@[simp] theorem State.wrMem_poolOff (s : State) (key : Nat) (bs : List Byte) : (s.wrMem key bs).poolOff = s.poolOff := rfl
@[simp] theorem State.wrMem_drops (s : State) (key : Nat) (bs : List Byte) : (s.wrMem key bs).drops = s.drops := rfl
@[simp] theorem State.wrMem_fars (s : State) (key : Nat) (bs : List Byte) : (s.wrMem key bs).fars = s.fars := rfl
@[simp] theorem State.wrMem_cleanViews (s : State) (key : Nat) (bs : List Byte) : (s.wrMem key bs).cleanViews = s.cleanViews := rfl
@[simp] theorem State.wrMem_posts (s : State) (key : Nat) (bs : List Byte) : (s.wrMem key bs).posts = s.posts := rfl
@[simp] theorem State.wrMem_srt (s : State) (key : Nat) (bs : List Byte) : (s.wrMem key bs).srt = s.srt := rfl
@[simp] theorem State.wrMem_ttStaged (s : State) (key : Nat) (bs : List Byte) : (s.wrMem key bs).ttStaged = s.ttStaged := rfl
@[simp] theorem State.wrMem_ttActive (s : State) (key : Nat) (bs : List Byte) : (s.wrMem key bs).ttActive = s.ttActive := rfl
@[simp] theorem State.wrMem_cgt (s : State) (key : Nat) (bs : List Byte) : (s.wrMem key bs).cgt = s.cgt := rfl
@[simp] theorem State.wrMem_colls (s : State) (key : Nat) (bs : List Byte) : (s.wrMem key bs).colls = s.colls := rfl
@[simp] theorem State.wrMem_uctx (s : State) (key : Nat) (bs : List Byte) : (s.wrMem key bs).uctx = s.uctx := rfl
@[simp] theorem State.wrMem_flowsOut (s : State) (key : Nat) (bs : List Byte) : (s.wrMem key bs).flowsOut = s.flowsOut := rfl
@[simp] theorem State.wrMem_flowsIn (s : State) (key : Nat) (bs : List Byte) : (s.wrMem key bs).flowsIn = s.flowsIn := rfl
@[simp] theorem State.wrMem_vcq (s : State) (key : Nat) (bs : List Byte) : (s.wrMem key bs).vcq = s.vcq := rfl
@[simp] theorem State.wrMem_vcin (s : State) (key : Nat) (bs : List Byte) : (s.wrMem key bs).vcin = s.vcin := rfl
@[simp] theorem State.wrMem_rounds (s : State) (key : Nat) (bs : List Byte) : (s.wrMem key bs).rounds = s.rounds := rfl
@[simp] theorem State.wrMem_pass (s : State) (key : Nat) (bs : List Byte) : (s.wrMem key bs).pass = s.pass := rfl
@[simp] theorem State.wrMem_fwaits (s : State) (key : Nat) (bs : List Byte) : (s.wrMem key bs).fwaits = s.fwaits := rfl
@[simp] theorem State.wrMem_dbg (s : State) (key : Nat) (bs : List Byte) : (s.wrMem key bs).dbg = s.dbg := rfl
@[simp] theorem State.wrMem_fenced (s : State) (key : Nat) (bs : List Byte) : (s.wrMem key bs).fenced = s.fenced := rfl
@[simp] theorem State.wrMem_atRep (s : State) (key : Nat) (bs : List Byte) : (s.wrMem key bs).atRep = s.atRep := rfl
@[simp] theorem State.wrMem_atSig (s : State) (key : Nat) (bs : List Byte) : (s.wrMem key bs).atSig = s.atSig := rfl
@[simp] theorem State.wrMem_plansIn (s : State) (key : Nat) (bs : List Byte) : (s.wrMem key bs).plansIn = s.plansIn := rfl
@[simp] theorem State.wrMem_planOut (s : State) (key : Nat) (bs : List Byte) : (s.wrMem key bs).planOut = s.planOut := rfl

/-! `State.bump` -/
@[simp] theorem State.bump_part (s : State) (core evt n : Nat) : (s.bump core evt n).part = s.part := rfl
@[simp] theorem State.bump_cur (s : State) (core evt n : Nat) : (s.bump core evt n).cur = s.cur := rfl
@[simp] theorem State.bump_agenda (s : State) (core evt n : Nat) : (s.bump core evt n).agenda = s.agenda := rfl
@[simp] theorem State.bump_turn (s : State) (core evt n : Nat) : (s.bump core evt n).turn = s.turn := rfl
@[simp] theorem State.bump_free (s : State) (core evt n : Nat) : (s.bump core evt n).free = s.free := rfl
@[simp] theorem State.bump_stamp (s : State) (core evt n : Nat) : (s.bump core evt n).stamp = s.stamp := rfl
@[simp] theorem State.bump_nextId (s : State) (core evt n : Nat) : (s.bump core evt n).nextId = s.nextId := rfl
@[simp] theorem State.bump_running (s : State) (core evt n : Nat) : (s.bump core evt n).running = s.running := rfl
@[simp] theorem State.bump_stage (s : State) (core evt n : Nat) : (s.bump core evt n).stage = s.stage := rfl
@[simp] theorem State.bump_stageFail (s : State) (core evt n : Nat) : (s.bump core evt n).stageFail = s.stageFail := rfl
@[simp] theorem State.bump_fcode (s : State) (core evt n : Nat) : (s.bump core evt n).fcode = s.fcode := rfl
@[simp] theorem State.bump_planTo (s : State) (core evt n : Nat) : (s.bump core evt n).planTo = s.planTo := rfl
@[simp] theorem State.bump_planRdy (s : State) (core evt n : Nat) : (s.bump core evt n).planRdy = s.planRdy := rfl
@[simp] theorem State.bump_joinReq (s : State) (core evt n : Nat) : (s.bump core evt n).joinReq = s.joinReq := rfl
@[simp] theorem State.bump_fwBad (s : State) (core evt n : Nat) : (s.bump core evt n).fwBad = s.fwBad := rfl
@[simp] theorem State.bump_hreg (s : State) (core evt n : Nat) : (s.bump core evt n).hreg = s.hreg := rfl
@[simp] theorem State.bump_lids (s : State) (core evt n : Nat) : (s.bump core evt n).lids = s.lids := rfl
@[simp] theorem State.bump_tieReg (s : State) (core evt n : Nat) : (s.bump core evt n).tieReg = s.tieReg := rfl
@[simp] theorem State.bump_tieLid (s : State) (core evt n : Nat) : (s.bump core evt n).tieLid = s.tieLid := rfl
@[simp] theorem State.bump_tieAttach (s : State) (core evt n : Nat) : (s.bump core evt n).tieAttach = s.tieAttach := rfl
@[simp] theorem State.bump_latch (s : State) (core evt n : Nat) : (s.bump core evt n).latch = s.latch := rfl
@[simp] theorem State.bump_launches (s : State) (core evt n : Nat) : (s.bump core evt n).launches = s.launches := rfl
@[simp] theorem State.bump_gangs (s : State) (core evt n : Nat) : (s.bump core evt n).gangs = s.gangs := rfl
@[simp] theorem State.bump_blocks (s : State) (core evt n : Nat) : (s.bump core evt n).blocks = s.blocks := rfl
@[simp] theorem State.bump_groups (s : State) (core evt n : Nat) : (s.bump core evt n).groups = s.groups := rfl
@[simp] theorem State.bump_served (s : State) (core evt n : Nat) : (s.bump core evt n).served = s.served := rfl
@[simp] theorem State.bump_mem (s : State) (core evt n : Nat) : (s.bump core evt n).mem = s.mem := rfl
@[simp] theorem State.bump_badLines (s : State) (core evt n : Nat) : (s.bump core evt n).badLines = s.badLines := rfl
@[simp] theorem State.bump_l1 (s : State) (core evt n : Nat) : (s.bump core evt n).l1 = s.l1 := rfl
@[simp] theorem State.bump_l2 (s : State) (core evt n : Nat) : (s.bump core evt n).l2 = s.l2 := rfl
@[simp] theorem State.bump_backed (s : State) (core evt n : Nat) : (s.bump core evt n).backed = s.backed := rfl
@[simp] theorem State.bump_coreTlb (s : State) (core evt n : Nat) : (s.bump core evt n).coreTlb = s.coreTlb := rfl
@[simp] theorem State.bump_dieTlb (s : State) (core evt n : Nat) : (s.bump core evt n).dieTlb = s.dieTlb := rfl
@[simp] theorem State.bump_areqs (s : State) (core evt n : Nat) : (s.bump core evt n).areqs = s.areqs := rfl
@[simp] theorem State.bump_sweeps (s : State) (core evt n : Nat) : (s.bump core evt n).sweeps = s.sweeps := rfl
@[simp] theorem State.bump_migs (s : State) (core evt n : Nat) : (s.bump core evt n).migs = s.migs := rfl
@[simp] theorem State.bump_vers (s : State) (core evt n : Nat) : (s.bump core evt n).vers = s.vers := rfl
@[simp] theorem State.bump_cyc (s : State) (core evt n : Nat) : (s.bump core evt n).cyc = s.cyc := rfl
@[simp] theorem State.bump_pmc (s : State) (core evt n : Nat) : (s.bump core evt n).pmc = s.pmc := rfl
@[simp] theorem State.bump_portClk (s : State) (core evt n : Nat) : (s.bump core evt n).portClk = s.portClk := rfl
@[simp] theorem State.bump_page (s : State) (core evt n : Nat) : (s.bump core evt n).page = s.page := rfl
@[simp] theorem State.bump_trapq (s : State) (core evt n : Nat) : (s.bump core evt n).trapq = s.trapq := rfl
@[simp] theorem State.bump_replan (s : State) (core evt n : Nat) : (s.bump core evt n).replan = s.replan := rfl
@[simp] theorem State.bump_ticks (s : State) (core evt n : Nat) : (s.bump core evt n).ticks = s.ticks := rfl
@[simp] theorem State.bump_poolOff (s : State) (core evt n : Nat) : (s.bump core evt n).poolOff = s.poolOff := rfl
@[simp] theorem State.bump_drops (s : State) (core evt n : Nat) : (s.bump core evt n).drops = s.drops := rfl
@[simp] theorem State.bump_fars (s : State) (core evt n : Nat) : (s.bump core evt n).fars = s.fars := rfl
@[simp] theorem State.bump_cleanViews (s : State) (core evt n : Nat) : (s.bump core evt n).cleanViews = s.cleanViews := rfl
@[simp] theorem State.bump_posts (s : State) (core evt n : Nat) : (s.bump core evt n).posts = s.posts := rfl
@[simp] theorem State.bump_srt (s : State) (core evt n : Nat) : (s.bump core evt n).srt = s.srt := rfl
@[simp] theorem State.bump_ttStaged (s : State) (core evt n : Nat) : (s.bump core evt n).ttStaged = s.ttStaged := rfl
@[simp] theorem State.bump_ttActive (s : State) (core evt n : Nat) : (s.bump core evt n).ttActive = s.ttActive := rfl
@[simp] theorem State.bump_cgt (s : State) (core evt n : Nat) : (s.bump core evt n).cgt = s.cgt := rfl
@[simp] theorem State.bump_colls (s : State) (core evt n : Nat) : (s.bump core evt n).colls = s.colls := rfl
@[simp] theorem State.bump_uctx (s : State) (core evt n : Nat) : (s.bump core evt n).uctx = s.uctx := rfl
@[simp] theorem State.bump_flowsOut (s : State) (core evt n : Nat) : (s.bump core evt n).flowsOut = s.flowsOut := rfl
@[simp] theorem State.bump_flowsIn (s : State) (core evt n : Nat) : (s.bump core evt n).flowsIn = s.flowsIn := rfl
@[simp] theorem State.bump_vcq (s : State) (core evt n : Nat) : (s.bump core evt n).vcq = s.vcq := rfl
@[simp] theorem State.bump_vcin (s : State) (core evt n : Nat) : (s.bump core evt n).vcin = s.vcin := rfl
@[simp] theorem State.bump_rounds (s : State) (core evt n : Nat) : (s.bump core evt n).rounds = s.rounds := rfl
@[simp] theorem State.bump_pass (s : State) (core evt n : Nat) : (s.bump core evt n).pass = s.pass := rfl
@[simp] theorem State.bump_fwaits (s : State) (core evt n : Nat) : (s.bump core evt n).fwaits = s.fwaits := rfl
@[simp] theorem State.bump_dbg (s : State) (core evt n : Nat) : (s.bump core evt n).dbg = s.dbg := rfl
@[simp] theorem State.bump_fenced (s : State) (core evt n : Nat) : (s.bump core evt n).fenced = s.fenced := rfl
@[simp] theorem State.bump_atRep (s : State) (core evt n : Nat) : (s.bump core evt n).atRep = s.atRep := rfl
@[simp] theorem State.bump_atSig (s : State) (core evt n : Nat) : (s.bump core evt n).atSig = s.atSig := rfl
@[simp] theorem State.bump_plansIn (s : State) (core evt n : Nat) : (s.bump core evt n).plansIn = s.plansIn := rfl
@[simp] theorem State.bump_planOut (s : State) (core evt n : Nat) : (s.bump core evt n).planOut = s.planOut := rfl

/-! `modGroup` -/
@[simp] theorem modGroup_part (s : State) (gid : Nat) (f : Group → Group) : (modGroup s gid f).part = s.part := rfl
@[simp] theorem modGroup_cur (s : State) (gid : Nat) (f : Group → Group) : (modGroup s gid f).cur = s.cur := rfl
@[simp] theorem modGroup_agenda (s : State) (gid : Nat) (f : Group → Group) : (modGroup s gid f).agenda = s.agenda := rfl
@[simp] theorem modGroup_turn (s : State) (gid : Nat) (f : Group → Group) : (modGroup s gid f).turn = s.turn := rfl
@[simp] theorem modGroup_free (s : State) (gid : Nat) (f : Group → Group) : (modGroup s gid f).free = s.free := rfl
@[simp] theorem modGroup_stamp (s : State) (gid : Nat) (f : Group → Group) : (modGroup s gid f).stamp = s.stamp := rfl
@[simp] theorem modGroup_nextId (s : State) (gid : Nat) (f : Group → Group) : (modGroup s gid f).nextId = s.nextId := rfl
@[simp] theorem modGroup_running (s : State) (gid : Nat) (f : Group → Group) : (modGroup s gid f).running = s.running := rfl
@[simp] theorem modGroup_stage (s : State) (gid : Nat) (f : Group → Group) : (modGroup s gid f).stage = s.stage := rfl
@[simp] theorem modGroup_stageFail (s : State) (gid : Nat) (f : Group → Group) : (modGroup s gid f).stageFail = s.stageFail := rfl
@[simp] theorem modGroup_fcode (s : State) (gid : Nat) (f : Group → Group) : (modGroup s gid f).fcode = s.fcode := rfl
@[simp] theorem modGroup_planTo (s : State) (gid : Nat) (f : Group → Group) : (modGroup s gid f).planTo = s.planTo := rfl
@[simp] theorem modGroup_planRdy (s : State) (gid : Nat) (f : Group → Group) : (modGroup s gid f).planRdy = s.planRdy := rfl
@[simp] theorem modGroup_joinReq (s : State) (gid : Nat) (f : Group → Group) : (modGroup s gid f).joinReq = s.joinReq := rfl
@[simp] theorem modGroup_fwBad (s : State) (gid : Nat) (f : Group → Group) : (modGroup s gid f).fwBad = s.fwBad := rfl
@[simp] theorem modGroup_hreg (s : State) (gid : Nat) (f : Group → Group) : (modGroup s gid f).hreg = s.hreg := rfl
@[simp] theorem modGroup_lids (s : State) (gid : Nat) (f : Group → Group) : (modGroup s gid f).lids = s.lids := rfl
@[simp] theorem modGroup_tieReg (s : State) (gid : Nat) (f : Group → Group) : (modGroup s gid f).tieReg = s.tieReg := rfl
@[simp] theorem modGroup_tieLid (s : State) (gid : Nat) (f : Group → Group) : (modGroup s gid f).tieLid = s.tieLid := rfl
@[simp] theorem modGroup_tieAttach (s : State) (gid : Nat) (f : Group → Group) : (modGroup s gid f).tieAttach = s.tieAttach := rfl
@[simp] theorem modGroup_latch (s : State) (gid : Nat) (f : Group → Group) : (modGroup s gid f).latch = s.latch := rfl
@[simp] theorem modGroup_launches (s : State) (gid : Nat) (f : Group → Group) : (modGroup s gid f).launches = s.launches := rfl
@[simp] theorem modGroup_gangs (s : State) (gid : Nat) (f : Group → Group) : (modGroup s gid f).gangs = s.gangs := rfl
@[simp] theorem modGroup_blocks (s : State) (gid : Nat) (f : Group → Group) : (modGroup s gid f).blocks = s.blocks := rfl
@[simp] theorem modGroup_groups (s : State) (gid : Nat) (f : Group → Group) : (modGroup s gid f).groups = tmod s.groups gid f := rfl
@[simp] theorem modGroup_served (s : State) (gid : Nat) (f : Group → Group) : (modGroup s gid f).served = s.served := rfl
@[simp] theorem modGroup_mem (s : State) (gid : Nat) (f : Group → Group) : (modGroup s gid f).mem = s.mem := rfl
@[simp] theorem modGroup_badLines (s : State) (gid : Nat) (f : Group → Group) : (modGroup s gid f).badLines = s.badLines := rfl
@[simp] theorem modGroup_l1 (s : State) (gid : Nat) (f : Group → Group) : (modGroup s gid f).l1 = s.l1 := rfl
@[simp] theorem modGroup_l2 (s : State) (gid : Nat) (f : Group → Group) : (modGroup s gid f).l2 = s.l2 := rfl
@[simp] theorem modGroup_backed (s : State) (gid : Nat) (f : Group → Group) : (modGroup s gid f).backed = s.backed := rfl
@[simp] theorem modGroup_coreTlb (s : State) (gid : Nat) (f : Group → Group) : (modGroup s gid f).coreTlb = s.coreTlb := rfl
@[simp] theorem modGroup_dieTlb (s : State) (gid : Nat) (f : Group → Group) : (modGroup s gid f).dieTlb = s.dieTlb := rfl
@[simp] theorem modGroup_areqs (s : State) (gid : Nat) (f : Group → Group) : (modGroup s gid f).areqs = s.areqs := rfl
@[simp] theorem modGroup_sweeps (s : State) (gid : Nat) (f : Group → Group) : (modGroup s gid f).sweeps = s.sweeps := rfl
@[simp] theorem modGroup_migs (s : State) (gid : Nat) (f : Group → Group) : (modGroup s gid f).migs = s.migs := rfl
@[simp] theorem modGroup_vers (s : State) (gid : Nat) (f : Group → Group) : (modGroup s gid f).vers = s.vers := rfl
@[simp] theorem modGroup_cyc (s : State) (gid : Nat) (f : Group → Group) : (modGroup s gid f).cyc = s.cyc := rfl
@[simp] theorem modGroup_pmc (s : State) (gid : Nat) (f : Group → Group) : (modGroup s gid f).pmc = s.pmc := rfl
@[simp] theorem modGroup_tally (s : State) (gid : Nat) (f : Group → Group) : (modGroup s gid f).tally = s.tally := rfl
@[simp] theorem modGroup_portClk (s : State) (gid : Nat) (f : Group → Group) : (modGroup s gid f).portClk = s.portClk := rfl
@[simp] theorem modGroup_page (s : State) (gid : Nat) (f : Group → Group) : (modGroup s gid f).page = s.page := rfl
@[simp] theorem modGroup_trapq (s : State) (gid : Nat) (f : Group → Group) : (modGroup s gid f).trapq = s.trapq := rfl
@[simp] theorem modGroup_replan (s : State) (gid : Nat) (f : Group → Group) : (modGroup s gid f).replan = s.replan := rfl
@[simp] theorem modGroup_ticks (s : State) (gid : Nat) (f : Group → Group) : (modGroup s gid f).ticks = s.ticks := rfl
@[simp] theorem modGroup_poolOff (s : State) (gid : Nat) (f : Group → Group) : (modGroup s gid f).poolOff = s.poolOff := rfl
@[simp] theorem modGroup_drops (s : State) (gid : Nat) (f : Group → Group) : (modGroup s gid f).drops = s.drops := rfl
@[simp] theorem modGroup_fars (s : State) (gid : Nat) (f : Group → Group) : (modGroup s gid f).fars = s.fars := rfl
@[simp] theorem modGroup_cleanViews (s : State) (gid : Nat) (f : Group → Group) : (modGroup s gid f).cleanViews = s.cleanViews := rfl
@[simp] theorem modGroup_posts (s : State) (gid : Nat) (f : Group → Group) : (modGroup s gid f).posts = s.posts := rfl
@[simp] theorem modGroup_srt (s : State) (gid : Nat) (f : Group → Group) : (modGroup s gid f).srt = s.srt := rfl
@[simp] theorem modGroup_ttStaged (s : State) (gid : Nat) (f : Group → Group) : (modGroup s gid f).ttStaged = s.ttStaged := rfl
@[simp] theorem modGroup_ttActive (s : State) (gid : Nat) (f : Group → Group) : (modGroup s gid f).ttActive = s.ttActive := rfl
@[simp] theorem modGroup_cgt (s : State) (gid : Nat) (f : Group → Group) : (modGroup s gid f).cgt = s.cgt := rfl
@[simp] theorem modGroup_colls (s : State) (gid : Nat) (f : Group → Group) : (modGroup s gid f).colls = s.colls := rfl
@[simp] theorem modGroup_uctx (s : State) (gid : Nat) (f : Group → Group) : (modGroup s gid f).uctx = s.uctx := rfl
@[simp] theorem modGroup_flowsOut (s : State) (gid : Nat) (f : Group → Group) : (modGroup s gid f).flowsOut = s.flowsOut := rfl
@[simp] theorem modGroup_flowsIn (s : State) (gid : Nat) (f : Group → Group) : (modGroup s gid f).flowsIn = s.flowsIn := rfl
@[simp] theorem modGroup_vcq (s : State) (gid : Nat) (f : Group → Group) : (modGroup s gid f).vcq = s.vcq := rfl
@[simp] theorem modGroup_vcin (s : State) (gid : Nat) (f : Group → Group) : (modGroup s gid f).vcin = s.vcin := rfl
@[simp] theorem modGroup_rounds (s : State) (gid : Nat) (f : Group → Group) : (modGroup s gid f).rounds = s.rounds := rfl
@[simp] theorem modGroup_pass (s : State) (gid : Nat) (f : Group → Group) : (modGroup s gid f).pass = s.pass := rfl
@[simp] theorem modGroup_fwaits (s : State) (gid : Nat) (f : Group → Group) : (modGroup s gid f).fwaits = s.fwaits := rfl
@[simp] theorem modGroup_dbg (s : State) (gid : Nat) (f : Group → Group) : (modGroup s gid f).dbg = s.dbg := rfl
@[simp] theorem modGroup_fenced (s : State) (gid : Nat) (f : Group → Group) : (modGroup s gid f).fenced = s.fenced := rfl
@[simp] theorem modGroup_atRep (s : State) (gid : Nat) (f : Group → Group) : (modGroup s gid f).atRep = s.atRep := rfl
@[simp] theorem modGroup_atSig (s : State) (gid : Nat) (f : Group → Group) : (modGroup s gid f).atSig = s.atSig := rfl
@[simp] theorem modGroup_plansIn (s : State) (gid : Nat) (f : Group → Group) : (modGroup s gid f).plansIn = s.plansIn := rfl
@[simp] theorem modGroup_planOut (s : State) (gid : Nat) (f : Group → Group) : (modGroup s gid f).planOut = s.planOut := rfl

/-! `modBlock` -/
@[simp] theorem modBlock_part (s : State) (bid : Nat) (f : Block → Block) : (modBlock s bid f).part = s.part := rfl
@[simp] theorem modBlock_cur (s : State) (bid : Nat) (f : Block → Block) : (modBlock s bid f).cur = s.cur := rfl
@[simp] theorem modBlock_agenda (s : State) (bid : Nat) (f : Block → Block) : (modBlock s bid f).agenda = s.agenda := rfl
@[simp] theorem modBlock_turn (s : State) (bid : Nat) (f : Block → Block) : (modBlock s bid f).turn = s.turn := rfl
@[simp] theorem modBlock_free (s : State) (bid : Nat) (f : Block → Block) : (modBlock s bid f).free = s.free := rfl
@[simp] theorem modBlock_stamp (s : State) (bid : Nat) (f : Block → Block) : (modBlock s bid f).stamp = s.stamp := rfl
@[simp] theorem modBlock_nextId (s : State) (bid : Nat) (f : Block → Block) : (modBlock s bid f).nextId = s.nextId := rfl
@[simp] theorem modBlock_running (s : State) (bid : Nat) (f : Block → Block) : (modBlock s bid f).running = s.running := rfl
@[simp] theorem modBlock_stage (s : State) (bid : Nat) (f : Block → Block) : (modBlock s bid f).stage = s.stage := rfl
@[simp] theorem modBlock_stageFail (s : State) (bid : Nat) (f : Block → Block) : (modBlock s bid f).stageFail = s.stageFail := rfl
@[simp] theorem modBlock_fcode (s : State) (bid : Nat) (f : Block → Block) : (modBlock s bid f).fcode = s.fcode := rfl
@[simp] theorem modBlock_planTo (s : State) (bid : Nat) (f : Block → Block) : (modBlock s bid f).planTo = s.planTo := rfl
@[simp] theorem modBlock_planRdy (s : State) (bid : Nat) (f : Block → Block) : (modBlock s bid f).planRdy = s.planRdy := rfl
@[simp] theorem modBlock_joinReq (s : State) (bid : Nat) (f : Block → Block) : (modBlock s bid f).joinReq = s.joinReq := rfl
@[simp] theorem modBlock_fwBad (s : State) (bid : Nat) (f : Block → Block) : (modBlock s bid f).fwBad = s.fwBad := rfl
@[simp] theorem modBlock_hreg (s : State) (bid : Nat) (f : Block → Block) : (modBlock s bid f).hreg = s.hreg := rfl
@[simp] theorem modBlock_lids (s : State) (bid : Nat) (f : Block → Block) : (modBlock s bid f).lids = s.lids := rfl
@[simp] theorem modBlock_tieReg (s : State) (bid : Nat) (f : Block → Block) : (modBlock s bid f).tieReg = s.tieReg := rfl
@[simp] theorem modBlock_tieLid (s : State) (bid : Nat) (f : Block → Block) : (modBlock s bid f).tieLid = s.tieLid := rfl
@[simp] theorem modBlock_tieAttach (s : State) (bid : Nat) (f : Block → Block) : (modBlock s bid f).tieAttach = s.tieAttach := rfl
@[simp] theorem modBlock_latch (s : State) (bid : Nat) (f : Block → Block) : (modBlock s bid f).latch = s.latch := rfl
@[simp] theorem modBlock_launches (s : State) (bid : Nat) (f : Block → Block) : (modBlock s bid f).launches = s.launches := rfl
@[simp] theorem modBlock_gangs (s : State) (bid : Nat) (f : Block → Block) : (modBlock s bid f).gangs = s.gangs := rfl
@[simp] theorem modBlock_blocks (s : State) (bid : Nat) (f : Block → Block) : (modBlock s bid f).blocks = tmod s.blocks bid f := rfl
@[simp] theorem modBlock_groups (s : State) (bid : Nat) (f : Block → Block) : (modBlock s bid f).groups = s.groups := rfl
@[simp] theorem modBlock_served (s : State) (bid : Nat) (f : Block → Block) : (modBlock s bid f).served = s.served := rfl
@[simp] theorem modBlock_mem (s : State) (bid : Nat) (f : Block → Block) : (modBlock s bid f).mem = s.mem := rfl
@[simp] theorem modBlock_badLines (s : State) (bid : Nat) (f : Block → Block) : (modBlock s bid f).badLines = s.badLines := rfl
@[simp] theorem modBlock_l1 (s : State) (bid : Nat) (f : Block → Block) : (modBlock s bid f).l1 = s.l1 := rfl
@[simp] theorem modBlock_l2 (s : State) (bid : Nat) (f : Block → Block) : (modBlock s bid f).l2 = s.l2 := rfl
@[simp] theorem modBlock_backed (s : State) (bid : Nat) (f : Block → Block) : (modBlock s bid f).backed = s.backed := rfl
@[simp] theorem modBlock_coreTlb (s : State) (bid : Nat) (f : Block → Block) : (modBlock s bid f).coreTlb = s.coreTlb := rfl
@[simp] theorem modBlock_dieTlb (s : State) (bid : Nat) (f : Block → Block) : (modBlock s bid f).dieTlb = s.dieTlb := rfl
@[simp] theorem modBlock_areqs (s : State) (bid : Nat) (f : Block → Block) : (modBlock s bid f).areqs = s.areqs := rfl
@[simp] theorem modBlock_sweeps (s : State) (bid : Nat) (f : Block → Block) : (modBlock s bid f).sweeps = s.sweeps := rfl
@[simp] theorem modBlock_migs (s : State) (bid : Nat) (f : Block → Block) : (modBlock s bid f).migs = s.migs := rfl
@[simp] theorem modBlock_vers (s : State) (bid : Nat) (f : Block → Block) : (modBlock s bid f).vers = s.vers := rfl
@[simp] theorem modBlock_cyc (s : State) (bid : Nat) (f : Block → Block) : (modBlock s bid f).cyc = s.cyc := rfl
@[simp] theorem modBlock_pmc (s : State) (bid : Nat) (f : Block → Block) : (modBlock s bid f).pmc = s.pmc := rfl
@[simp] theorem modBlock_tally (s : State) (bid : Nat) (f : Block → Block) : (modBlock s bid f).tally = s.tally := rfl
@[simp] theorem modBlock_portClk (s : State) (bid : Nat) (f : Block → Block) : (modBlock s bid f).portClk = s.portClk := rfl
@[simp] theorem modBlock_page (s : State) (bid : Nat) (f : Block → Block) : (modBlock s bid f).page = s.page := rfl
@[simp] theorem modBlock_trapq (s : State) (bid : Nat) (f : Block → Block) : (modBlock s bid f).trapq = s.trapq := rfl
@[simp] theorem modBlock_replan (s : State) (bid : Nat) (f : Block → Block) : (modBlock s bid f).replan = s.replan := rfl
@[simp] theorem modBlock_ticks (s : State) (bid : Nat) (f : Block → Block) : (modBlock s bid f).ticks = s.ticks := rfl
@[simp] theorem modBlock_poolOff (s : State) (bid : Nat) (f : Block → Block) : (modBlock s bid f).poolOff = s.poolOff := rfl
@[simp] theorem modBlock_drops (s : State) (bid : Nat) (f : Block → Block) : (modBlock s bid f).drops = s.drops := rfl
@[simp] theorem modBlock_fars (s : State) (bid : Nat) (f : Block → Block) : (modBlock s bid f).fars = s.fars := rfl
@[simp] theorem modBlock_cleanViews (s : State) (bid : Nat) (f : Block → Block) : (modBlock s bid f).cleanViews = s.cleanViews := rfl
@[simp] theorem modBlock_posts (s : State) (bid : Nat) (f : Block → Block) : (modBlock s bid f).posts = s.posts := rfl
@[simp] theorem modBlock_srt (s : State) (bid : Nat) (f : Block → Block) : (modBlock s bid f).srt = s.srt := rfl
@[simp] theorem modBlock_ttStaged (s : State) (bid : Nat) (f : Block → Block) : (modBlock s bid f).ttStaged = s.ttStaged := rfl
@[simp] theorem modBlock_ttActive (s : State) (bid : Nat) (f : Block → Block) : (modBlock s bid f).ttActive = s.ttActive := rfl
@[simp] theorem modBlock_cgt (s : State) (bid : Nat) (f : Block → Block) : (modBlock s bid f).cgt = s.cgt := rfl
@[simp] theorem modBlock_colls (s : State) (bid : Nat) (f : Block → Block) : (modBlock s bid f).colls = s.colls := rfl
@[simp] theorem modBlock_uctx (s : State) (bid : Nat) (f : Block → Block) : (modBlock s bid f).uctx = s.uctx := rfl
@[simp] theorem modBlock_flowsOut (s : State) (bid : Nat) (f : Block → Block) : (modBlock s bid f).flowsOut = s.flowsOut := rfl
@[simp] theorem modBlock_flowsIn (s : State) (bid : Nat) (f : Block → Block) : (modBlock s bid f).flowsIn = s.flowsIn := rfl
@[simp] theorem modBlock_vcq (s : State) (bid : Nat) (f : Block → Block) : (modBlock s bid f).vcq = s.vcq := rfl
@[simp] theorem modBlock_vcin (s : State) (bid : Nat) (f : Block → Block) : (modBlock s bid f).vcin = s.vcin := rfl
@[simp] theorem modBlock_rounds (s : State) (bid : Nat) (f : Block → Block) : (modBlock s bid f).rounds = s.rounds := rfl
@[simp] theorem modBlock_pass (s : State) (bid : Nat) (f : Block → Block) : (modBlock s bid f).pass = s.pass := rfl
@[simp] theorem modBlock_fwaits (s : State) (bid : Nat) (f : Block → Block) : (modBlock s bid f).fwaits = s.fwaits := rfl
@[simp] theorem modBlock_dbg (s : State) (bid : Nat) (f : Block → Block) : (modBlock s bid f).dbg = s.dbg := rfl
@[simp] theorem modBlock_fenced (s : State) (bid : Nat) (f : Block → Block) : (modBlock s bid f).fenced = s.fenced := rfl
@[simp] theorem modBlock_atRep (s : State) (bid : Nat) (f : Block → Block) : (modBlock s bid f).atRep = s.atRep := rfl
@[simp] theorem modBlock_atSig (s : State) (bid : Nat) (f : Block → Block) : (modBlock s bid f).atSig = s.atSig := rfl
@[simp] theorem modBlock_plansIn (s : State) (bid : Nat) (f : Block → Block) : (modBlock s bid f).plansIn = s.plansIn := rfl
@[simp] theorem modBlock_planOut (s : State) (bid : Nat) (f : Block → Block) : (modBlock s bid f).planOut = s.planOut := rfl

/-! `modGang` -/
@[simp] theorem modGang_part (s : State) (k : Nat) (f : Gang → Gang) : (modGang s k f).part = s.part := rfl
@[simp] theorem modGang_cur (s : State) (k : Nat) (f : Gang → Gang) : (modGang s k f).cur = s.cur := rfl
@[simp] theorem modGang_agenda (s : State) (k : Nat) (f : Gang → Gang) : (modGang s k f).agenda = s.agenda := rfl
@[simp] theorem modGang_turn (s : State) (k : Nat) (f : Gang → Gang) : (modGang s k f).turn = s.turn := rfl
@[simp] theorem modGang_free (s : State) (k : Nat) (f : Gang → Gang) : (modGang s k f).free = s.free := rfl
@[simp] theorem modGang_stamp (s : State) (k : Nat) (f : Gang → Gang) : (modGang s k f).stamp = s.stamp := rfl
@[simp] theorem modGang_nextId (s : State) (k : Nat) (f : Gang → Gang) : (modGang s k f).nextId = s.nextId := rfl
@[simp] theorem modGang_running (s : State) (k : Nat) (f : Gang → Gang) : (modGang s k f).running = s.running := rfl
@[simp] theorem modGang_stage (s : State) (k : Nat) (f : Gang → Gang) : (modGang s k f).stage = s.stage := rfl
@[simp] theorem modGang_stageFail (s : State) (k : Nat) (f : Gang → Gang) : (modGang s k f).stageFail = s.stageFail := rfl
@[simp] theorem modGang_fcode (s : State) (k : Nat) (f : Gang → Gang) : (modGang s k f).fcode = s.fcode := rfl
@[simp] theorem modGang_planTo (s : State) (k : Nat) (f : Gang → Gang) : (modGang s k f).planTo = s.planTo := rfl
@[simp] theorem modGang_planRdy (s : State) (k : Nat) (f : Gang → Gang) : (modGang s k f).planRdy = s.planRdy := rfl
@[simp] theorem modGang_joinReq (s : State) (k : Nat) (f : Gang → Gang) : (modGang s k f).joinReq = s.joinReq := rfl
@[simp] theorem modGang_fwBad (s : State) (k : Nat) (f : Gang → Gang) : (modGang s k f).fwBad = s.fwBad := rfl
@[simp] theorem modGang_hreg (s : State) (k : Nat) (f : Gang → Gang) : (modGang s k f).hreg = s.hreg := rfl
@[simp] theorem modGang_lids (s : State) (k : Nat) (f : Gang → Gang) : (modGang s k f).lids = s.lids := rfl
@[simp] theorem modGang_tieReg (s : State) (k : Nat) (f : Gang → Gang) : (modGang s k f).tieReg = s.tieReg := rfl
@[simp] theorem modGang_tieLid (s : State) (k : Nat) (f : Gang → Gang) : (modGang s k f).tieLid = s.tieLid := rfl
@[simp] theorem modGang_tieAttach (s : State) (k : Nat) (f : Gang → Gang) : (modGang s k f).tieAttach = s.tieAttach := rfl
@[simp] theorem modGang_latch (s : State) (k : Nat) (f : Gang → Gang) : (modGang s k f).latch = s.latch := rfl
@[simp] theorem modGang_launches (s : State) (k : Nat) (f : Gang → Gang) : (modGang s k f).launches = s.launches := rfl
@[simp] theorem modGang_gangs (s : State) (k : Nat) (f : Gang → Gang) : (modGang s k f).gangs = tmod s.gangs k f := rfl
@[simp] theorem modGang_blocks (s : State) (k : Nat) (f : Gang → Gang) : (modGang s k f).blocks = s.blocks := rfl
@[simp] theorem modGang_groups (s : State) (k : Nat) (f : Gang → Gang) : (modGang s k f).groups = s.groups := rfl
@[simp] theorem modGang_served (s : State) (k : Nat) (f : Gang → Gang) : (modGang s k f).served = s.served := rfl
@[simp] theorem modGang_mem (s : State) (k : Nat) (f : Gang → Gang) : (modGang s k f).mem = s.mem := rfl
@[simp] theorem modGang_badLines (s : State) (k : Nat) (f : Gang → Gang) : (modGang s k f).badLines = s.badLines := rfl
@[simp] theorem modGang_l1 (s : State) (k : Nat) (f : Gang → Gang) : (modGang s k f).l1 = s.l1 := rfl
@[simp] theorem modGang_l2 (s : State) (k : Nat) (f : Gang → Gang) : (modGang s k f).l2 = s.l2 := rfl
@[simp] theorem modGang_backed (s : State) (k : Nat) (f : Gang → Gang) : (modGang s k f).backed = s.backed := rfl
@[simp] theorem modGang_coreTlb (s : State) (k : Nat) (f : Gang → Gang) : (modGang s k f).coreTlb = s.coreTlb := rfl
@[simp] theorem modGang_dieTlb (s : State) (k : Nat) (f : Gang → Gang) : (modGang s k f).dieTlb = s.dieTlb := rfl
@[simp] theorem modGang_areqs (s : State) (k : Nat) (f : Gang → Gang) : (modGang s k f).areqs = s.areqs := rfl
@[simp] theorem modGang_sweeps (s : State) (k : Nat) (f : Gang → Gang) : (modGang s k f).sweeps = s.sweeps := rfl
@[simp] theorem modGang_migs (s : State) (k : Nat) (f : Gang → Gang) : (modGang s k f).migs = s.migs := rfl
@[simp] theorem modGang_vers (s : State) (k : Nat) (f : Gang → Gang) : (modGang s k f).vers = s.vers := rfl
@[simp] theorem modGang_cyc (s : State) (k : Nat) (f : Gang → Gang) : (modGang s k f).cyc = s.cyc := rfl
@[simp] theorem modGang_pmc (s : State) (k : Nat) (f : Gang → Gang) : (modGang s k f).pmc = s.pmc := rfl
@[simp] theorem modGang_tally (s : State) (k : Nat) (f : Gang → Gang) : (modGang s k f).tally = s.tally := rfl
@[simp] theorem modGang_portClk (s : State) (k : Nat) (f : Gang → Gang) : (modGang s k f).portClk = s.portClk := rfl
@[simp] theorem modGang_page (s : State) (k : Nat) (f : Gang → Gang) : (modGang s k f).page = s.page := rfl
@[simp] theorem modGang_trapq (s : State) (k : Nat) (f : Gang → Gang) : (modGang s k f).trapq = s.trapq := rfl
@[simp] theorem modGang_replan (s : State) (k : Nat) (f : Gang → Gang) : (modGang s k f).replan = s.replan := rfl
@[simp] theorem modGang_ticks (s : State) (k : Nat) (f : Gang → Gang) : (modGang s k f).ticks = s.ticks := rfl
@[simp] theorem modGang_poolOff (s : State) (k : Nat) (f : Gang → Gang) : (modGang s k f).poolOff = s.poolOff := rfl
@[simp] theorem modGang_drops (s : State) (k : Nat) (f : Gang → Gang) : (modGang s k f).drops = s.drops := rfl
@[simp] theorem modGang_fars (s : State) (k : Nat) (f : Gang → Gang) : (modGang s k f).fars = s.fars := rfl
@[simp] theorem modGang_cleanViews (s : State) (k : Nat) (f : Gang → Gang) : (modGang s k f).cleanViews = s.cleanViews := rfl
@[simp] theorem modGang_posts (s : State) (k : Nat) (f : Gang → Gang) : (modGang s k f).posts = s.posts := rfl
@[simp] theorem modGang_srt (s : State) (k : Nat) (f : Gang → Gang) : (modGang s k f).srt = s.srt := rfl
@[simp] theorem modGang_ttStaged (s : State) (k : Nat) (f : Gang → Gang) : (modGang s k f).ttStaged = s.ttStaged := rfl
@[simp] theorem modGang_ttActive (s : State) (k : Nat) (f : Gang → Gang) : (modGang s k f).ttActive = s.ttActive := rfl
@[simp] theorem modGang_cgt (s : State) (k : Nat) (f : Gang → Gang) : (modGang s k f).cgt = s.cgt := rfl
@[simp] theorem modGang_colls (s : State) (k : Nat) (f : Gang → Gang) : (modGang s k f).colls = s.colls := rfl
@[simp] theorem modGang_uctx (s : State) (k : Nat) (f : Gang → Gang) : (modGang s k f).uctx = s.uctx := rfl
@[simp] theorem modGang_flowsOut (s : State) (k : Nat) (f : Gang → Gang) : (modGang s k f).flowsOut = s.flowsOut := rfl
@[simp] theorem modGang_flowsIn (s : State) (k : Nat) (f : Gang → Gang) : (modGang s k f).flowsIn = s.flowsIn := rfl
@[simp] theorem modGang_vcq (s : State) (k : Nat) (f : Gang → Gang) : (modGang s k f).vcq = s.vcq := rfl
@[simp] theorem modGang_vcin (s : State) (k : Nat) (f : Gang → Gang) : (modGang s k f).vcin = s.vcin := rfl
@[simp] theorem modGang_rounds (s : State) (k : Nat) (f : Gang → Gang) : (modGang s k f).rounds = s.rounds := rfl
@[simp] theorem modGang_pass (s : State) (k : Nat) (f : Gang → Gang) : (modGang s k f).pass = s.pass := rfl
@[simp] theorem modGang_fwaits (s : State) (k : Nat) (f : Gang → Gang) : (modGang s k f).fwaits = s.fwaits := rfl
@[simp] theorem modGang_dbg (s : State) (k : Nat) (f : Gang → Gang) : (modGang s k f).dbg = s.dbg := rfl
@[simp] theorem modGang_fenced (s : State) (k : Nat) (f : Gang → Gang) : (modGang s k f).fenced = s.fenced := rfl
@[simp] theorem modGang_atRep (s : State) (k : Nat) (f : Gang → Gang) : (modGang s k f).atRep = s.atRep := rfl
@[simp] theorem modGang_atSig (s : State) (k : Nat) (f : Gang → Gang) : (modGang s k f).atSig = s.atSig := rfl
@[simp] theorem modGang_plansIn (s : State) (k : Nat) (f : Gang → Gang) : (modGang s k f).plansIn = s.plansIn := rfl
@[simp] theorem modGang_planOut (s : State) (k : Nat) (f : Gang → Gang) : (modGang s k f).planOut = s.planOut := rfl

/-! `modLaunch` -/
@[simp] theorem modLaunch_part (s : State) (lid : Nat) (f : Launch → Launch) : (modLaunch s lid f).part = s.part := rfl
@[simp] theorem modLaunch_cur (s : State) (lid : Nat) (f : Launch → Launch) : (modLaunch s lid f).cur = s.cur := rfl
@[simp] theorem modLaunch_agenda (s : State) (lid : Nat) (f : Launch → Launch) : (modLaunch s lid f).agenda = s.agenda := rfl
@[simp] theorem modLaunch_turn (s : State) (lid : Nat) (f : Launch → Launch) : (modLaunch s lid f).turn = s.turn := rfl
@[simp] theorem modLaunch_free (s : State) (lid : Nat) (f : Launch → Launch) : (modLaunch s lid f).free = s.free := rfl
@[simp] theorem modLaunch_stamp (s : State) (lid : Nat) (f : Launch → Launch) : (modLaunch s lid f).stamp = s.stamp := rfl
@[simp] theorem modLaunch_nextId (s : State) (lid : Nat) (f : Launch → Launch) : (modLaunch s lid f).nextId = s.nextId := rfl
@[simp] theorem modLaunch_running (s : State) (lid : Nat) (f : Launch → Launch) : (modLaunch s lid f).running = s.running := rfl
@[simp] theorem modLaunch_stage (s : State) (lid : Nat) (f : Launch → Launch) : (modLaunch s lid f).stage = s.stage := rfl
@[simp] theorem modLaunch_stageFail (s : State) (lid : Nat) (f : Launch → Launch) : (modLaunch s lid f).stageFail = s.stageFail := rfl
@[simp] theorem modLaunch_fcode (s : State) (lid : Nat) (f : Launch → Launch) : (modLaunch s lid f).fcode = s.fcode := rfl
@[simp] theorem modLaunch_planTo (s : State) (lid : Nat) (f : Launch → Launch) : (modLaunch s lid f).planTo = s.planTo := rfl
@[simp] theorem modLaunch_planRdy (s : State) (lid : Nat) (f : Launch → Launch) : (modLaunch s lid f).planRdy = s.planRdy := rfl
@[simp] theorem modLaunch_joinReq (s : State) (lid : Nat) (f : Launch → Launch) : (modLaunch s lid f).joinReq = s.joinReq := rfl
@[simp] theorem modLaunch_fwBad (s : State) (lid : Nat) (f : Launch → Launch) : (modLaunch s lid f).fwBad = s.fwBad := rfl
@[simp] theorem modLaunch_hreg (s : State) (lid : Nat) (f : Launch → Launch) : (modLaunch s lid f).hreg = s.hreg := rfl
@[simp] theorem modLaunch_lids (s : State) (lid : Nat) (f : Launch → Launch) : (modLaunch s lid f).lids = s.lids := rfl
@[simp] theorem modLaunch_tieReg (s : State) (lid : Nat) (f : Launch → Launch) : (modLaunch s lid f).tieReg = s.tieReg := rfl
@[simp] theorem modLaunch_tieLid (s : State) (lid : Nat) (f : Launch → Launch) : (modLaunch s lid f).tieLid = s.tieLid := rfl
@[simp] theorem modLaunch_tieAttach (s : State) (lid : Nat) (f : Launch → Launch) : (modLaunch s lid f).tieAttach = s.tieAttach := rfl
@[simp] theorem modLaunch_latch (s : State) (lid : Nat) (f : Launch → Launch) : (modLaunch s lid f).latch = s.latch := rfl
@[simp] theorem modLaunch_launches (s : State) (lid : Nat) (f : Launch → Launch) : (modLaunch s lid f).launches = tmod s.launches lid f := rfl
@[simp] theorem modLaunch_gangs (s : State) (lid : Nat) (f : Launch → Launch) : (modLaunch s lid f).gangs = s.gangs := rfl
@[simp] theorem modLaunch_blocks (s : State) (lid : Nat) (f : Launch → Launch) : (modLaunch s lid f).blocks = s.blocks := rfl
@[simp] theorem modLaunch_groups (s : State) (lid : Nat) (f : Launch → Launch) : (modLaunch s lid f).groups = s.groups := rfl
@[simp] theorem modLaunch_served (s : State) (lid : Nat) (f : Launch → Launch) : (modLaunch s lid f).served = s.served := rfl
@[simp] theorem modLaunch_mem (s : State) (lid : Nat) (f : Launch → Launch) : (modLaunch s lid f).mem = s.mem := rfl
@[simp] theorem modLaunch_badLines (s : State) (lid : Nat) (f : Launch → Launch) : (modLaunch s lid f).badLines = s.badLines := rfl
@[simp] theorem modLaunch_l1 (s : State) (lid : Nat) (f : Launch → Launch) : (modLaunch s lid f).l1 = s.l1 := rfl
@[simp] theorem modLaunch_l2 (s : State) (lid : Nat) (f : Launch → Launch) : (modLaunch s lid f).l2 = s.l2 := rfl
@[simp] theorem modLaunch_backed (s : State) (lid : Nat) (f : Launch → Launch) : (modLaunch s lid f).backed = s.backed := rfl
@[simp] theorem modLaunch_coreTlb (s : State) (lid : Nat) (f : Launch → Launch) : (modLaunch s lid f).coreTlb = s.coreTlb := rfl
@[simp] theorem modLaunch_dieTlb (s : State) (lid : Nat) (f : Launch → Launch) : (modLaunch s lid f).dieTlb = s.dieTlb := rfl
@[simp] theorem modLaunch_areqs (s : State) (lid : Nat) (f : Launch → Launch) : (modLaunch s lid f).areqs = s.areqs := rfl
@[simp] theorem modLaunch_sweeps (s : State) (lid : Nat) (f : Launch → Launch) : (modLaunch s lid f).sweeps = s.sweeps := rfl
@[simp] theorem modLaunch_migs (s : State) (lid : Nat) (f : Launch → Launch) : (modLaunch s lid f).migs = s.migs := rfl
@[simp] theorem modLaunch_vers (s : State) (lid : Nat) (f : Launch → Launch) : (modLaunch s lid f).vers = s.vers := rfl
@[simp] theorem modLaunch_cyc (s : State) (lid : Nat) (f : Launch → Launch) : (modLaunch s lid f).cyc = s.cyc := rfl
@[simp] theorem modLaunch_pmc (s : State) (lid : Nat) (f : Launch → Launch) : (modLaunch s lid f).pmc = s.pmc := rfl
@[simp] theorem modLaunch_tally (s : State) (lid : Nat) (f : Launch → Launch) : (modLaunch s lid f).tally = s.tally := rfl
@[simp] theorem modLaunch_portClk (s : State) (lid : Nat) (f : Launch → Launch) : (modLaunch s lid f).portClk = s.portClk := rfl
@[simp] theorem modLaunch_page (s : State) (lid : Nat) (f : Launch → Launch) : (modLaunch s lid f).page = s.page := rfl
@[simp] theorem modLaunch_trapq (s : State) (lid : Nat) (f : Launch → Launch) : (modLaunch s lid f).trapq = s.trapq := rfl
@[simp] theorem modLaunch_replan (s : State) (lid : Nat) (f : Launch → Launch) : (modLaunch s lid f).replan = s.replan := rfl
@[simp] theorem modLaunch_ticks (s : State) (lid : Nat) (f : Launch → Launch) : (modLaunch s lid f).ticks = s.ticks := rfl
@[simp] theorem modLaunch_poolOff (s : State) (lid : Nat) (f : Launch → Launch) : (modLaunch s lid f).poolOff = s.poolOff := rfl
@[simp] theorem modLaunch_drops (s : State) (lid : Nat) (f : Launch → Launch) : (modLaunch s lid f).drops = s.drops := rfl
@[simp] theorem modLaunch_fars (s : State) (lid : Nat) (f : Launch → Launch) : (modLaunch s lid f).fars = s.fars := rfl
@[simp] theorem modLaunch_cleanViews (s : State) (lid : Nat) (f : Launch → Launch) : (modLaunch s lid f).cleanViews = s.cleanViews := rfl
@[simp] theorem modLaunch_posts (s : State) (lid : Nat) (f : Launch → Launch) : (modLaunch s lid f).posts = s.posts := rfl
@[simp] theorem modLaunch_srt (s : State) (lid : Nat) (f : Launch → Launch) : (modLaunch s lid f).srt = s.srt := rfl
@[simp] theorem modLaunch_ttStaged (s : State) (lid : Nat) (f : Launch → Launch) : (modLaunch s lid f).ttStaged = s.ttStaged := rfl
@[simp] theorem modLaunch_ttActive (s : State) (lid : Nat) (f : Launch → Launch) : (modLaunch s lid f).ttActive = s.ttActive := rfl
@[simp] theorem modLaunch_cgt (s : State) (lid : Nat) (f : Launch → Launch) : (modLaunch s lid f).cgt = s.cgt := rfl
@[simp] theorem modLaunch_colls (s : State) (lid : Nat) (f : Launch → Launch) : (modLaunch s lid f).colls = s.colls := rfl
@[simp] theorem modLaunch_uctx (s : State) (lid : Nat) (f : Launch → Launch) : (modLaunch s lid f).uctx = s.uctx := rfl
@[simp] theorem modLaunch_flowsOut (s : State) (lid : Nat) (f : Launch → Launch) : (modLaunch s lid f).flowsOut = s.flowsOut := rfl
@[simp] theorem modLaunch_flowsIn (s : State) (lid : Nat) (f : Launch → Launch) : (modLaunch s lid f).flowsIn = s.flowsIn := rfl
@[simp] theorem modLaunch_vcq (s : State) (lid : Nat) (f : Launch → Launch) : (modLaunch s lid f).vcq = s.vcq := rfl
@[simp] theorem modLaunch_vcin (s : State) (lid : Nat) (f : Launch → Launch) : (modLaunch s lid f).vcin = s.vcin := rfl
@[simp] theorem modLaunch_rounds (s : State) (lid : Nat) (f : Launch → Launch) : (modLaunch s lid f).rounds = s.rounds := rfl
@[simp] theorem modLaunch_pass (s : State) (lid : Nat) (f : Launch → Launch) : (modLaunch s lid f).pass = s.pass := rfl
@[simp] theorem modLaunch_fwaits (s : State) (lid : Nat) (f : Launch → Launch) : (modLaunch s lid f).fwaits = s.fwaits := rfl
@[simp] theorem modLaunch_dbg (s : State) (lid : Nat) (f : Launch → Launch) : (modLaunch s lid f).dbg = s.dbg := rfl
@[simp] theorem modLaunch_fenced (s : State) (lid : Nat) (f : Launch → Launch) : (modLaunch s lid f).fenced = s.fenced := rfl
@[simp] theorem modLaunch_atRep (s : State) (lid : Nat) (f : Launch → Launch) : (modLaunch s lid f).atRep = s.atRep := rfl
@[simp] theorem modLaunch_atSig (s : State) (lid : Nat) (f : Launch → Launch) : (modLaunch s lid f).atSig = s.atSig := rfl
@[simp] theorem modLaunch_plansIn (s : State) (lid : Nat) (f : Launch → Launch) : (modLaunch s lid f).plansIn = s.plansIn := rfl
@[simp] theorem modLaunch_planOut (s : State) (lid : Nat) (f : Launch → Launch) : (modLaunch s lid f).planOut = s.planOut := rfl

/-! `Group.wrV` -/
@[simp] theorem Group.wrV_bid (g : Group) (dist : Bool) (r l : Nat) (d sd : Word) (p : Bool) : (g.wrV dist r l d sd p).bid = g.bid := rfl
@[simp] theorem Group.wrV_gidx (g : Group) (dist : Bool) (r l : Nat) (d sd : Word) (p : Bool) : (g.wrV dist r l d sd p).gidx = g.gidx := rfl
@[simp] theorem Group.wrV_slot (g : Group) (dist : Bool) (r l : Nat) (d sd : Word) (p : Bool) : (g.wrV dist r l d sd p).slot = g.slot := rfl
@[simp] theorem Group.wrV_lofs (g : Group) (dist : Bool) (r l : Nat) (d sd : Word) (p : Bool) : (g.wrV dist r l d sd p).lofs = g.lofs := rfl
@[simp] theorem Group.wrV_rgi (g : Group) (dist : Bool) (r l : Nat) (d sd : Word) (p : Bool) : (g.wrV dist r l d sd p).rgi = g.rgi := rfl
@[simp] theorem Group.wrV_entries (g : Group) (dist : Bool) (r l : Nat) (d sd : Word) (p : Bool) : (g.wrV dist r l d sd p).entries = g.entries := rfl
@[simp] theorem Group.wrV_nextEid (g : Group) (dist : Bool) (r l : Nat) (d sd : Word) (p : Bool) : (g.wrV dist r l d sd p).nextEid = g.nextEid := rfl
@[simp] theorem Group.wrV_lastEid (g : Group) (dist : Bool) (r l : Nat) (d sd : Word) (p : Bool) : (g.wrV dist r l d sd p).lastEid = g.lastEid := rfl
@[simp] theorem Group.wrV_p (g : Group) (dist : Bool) (r l : Nat) (d sd : Word) (p : Bool) : (g.wrV dist r l d sd p).p = g.p := rfl
@[simp] theorem Group.wrV_pp (g : Group) (dist : Bool) (r l : Nat) (d sd : Word) (p : Bool) : (g.wrV dist r l d sd p).pp = g.pp := rfl
@[simp] theorem Group.wrV_k (g : Group) (dist : Bool) (r l : Nat) (d sd : Word) (p : Bool) : (g.wrV dist r l d sd p).k = g.k := rfl
@[simp] theorem Group.wrV_oc (g : Group) (dist : Bool) (r l : Nat) (d sd : Word) (p : Bool) : (g.wrV dist r l d sd p).oc = g.oc := rfl
@[simp] theorem Group.wrV_ocDone (g : Group) (dist : Bool) (r l : Nat) (d sd : Word) (p : Bool) : (g.wrV dist r l d sd p).ocDone = g.ocDone := rfl
@[simp] theorem Group.wrV_ocIssued (g : Group) (dist : Bool) (r l : Nat) (d sd : Word) (p : Bool) : (g.wrV dist r l d sd p).ocIssued = g.ocIssued := rfl
@[simp] theorem Group.wrV_fpcr (g : Group) (dist : Bool) (r l : Nat) (d sd : Word) (p : Bool) : (g.wrV dist r l d sd p).fpcr = g.fpcr := rfl
@[simp] theorem Group.wrV_fpsr (g : Group) (dist : Bool) (r l : Nat) (d sd : Word) (p : Bool) : (g.wrV dist r l d sd p).fpsr = g.fpsr := rfl
@[simp] theorem Group.wrV_drc (g : Group) (dist : Bool) (r l : Nat) (d sd : Word) (p : Bool) : (g.wrV dist r l d sd p).drc = g.drc := rfl
@[simp] theorem Group.wrV_src (g : Group) (dist : Bool) (r l : Nat) (d sd : Word) (p : Bool) : (g.wrV dist r l d sd p).src = g.src := rfl
@[simp] theorem Group.wrV_sri (g : Group) (dist : Bool) (r l : Nat) (d sd : Word) (p : Bool) : (g.wrV dist r l d sd p).sri = g.sri := rfl
@[simp] theorem Group.wrV_snapDrc (g : Group) (dist : Bool) (r l : Nat) (d sd : Word) (p : Bool) : (g.wrV dist r l d sd p).snapDrc = g.snapDrc := rfl
@[simp] theorem Group.wrV_snapSrc (g : Group) (dist : Bool) (r l : Nat) (d sd : Word) (p : Bool) : (g.wrV dist r l d sd p).snapSrc = g.snapSrc := rfl
@[simp] theorem Group.wrV_snapSri (g : Group) (dist : Bool) (r l : Nat) (d sd : Word) (p : Bool) : (g.wrV dist r l d sd p).snapSri = g.snapSri := rfl
@[simp] theorem Group.wrV_rtime (g : Group) (dist : Bool) (r l : Nat) (d sd : Word) (p : Bool) : (g.wrV dist r l d sd p).rtime = g.rtime := rfl
@[simp] theorem Group.wrV_rejoin (g : Group) (dist : Bool) (r l : Nat) (d sd : Word) (p : Bool) : (g.wrV dist r l d sd p).rejoin = g.rejoin := rfl
@[simp] theorem Group.wrV_exited (g : Group) (dist : Bool) (r l : Nat) (d sd : Word) (p : Bool) : (g.wrV dist r l d sd p).exited = g.exited := rfl
@[simp] theorem Group.wrV_tcause (g : Group) (dist : Bool) (r l : Nat) (d sd : Word) (p : Bool) : (g.wrV dist r l d sd p).tcause = g.tcause := rfl
@[simp] theorem Group.wrV_tpc (g : Group) (dist : Bool) (r l : Nat) (d sd : Word) (p : Bool) : (g.wrV dist r l d sd p).tpc = g.tpc := rfl
@[simp] theorem Group.wrV_tval (g : Group) (dist : Bool) (r l : Nat) (d sd : Word) (p : Bool) : (g.wrV dist r l d sd p).tval = g.tval := rfl
@[simp] theorem Group.wrV_tmask (g : Group) (dist : Bool) (r l : Nat) (d sd : Word) (p : Bool) : (g.wrV dist r l d sd p).tmask = g.tmask := rfl
@[simp] theorem Group.wrV_tm (g : Group) (dist : Bool) (r l : Nat) (d sd : Word) (p : Bool) : (g.wrV dist r l d sd p).tm = g.tm := rfl
@[simp] theorem Group.wrV_retained (g : Group) (dist : Bool) (r l : Nat) (d sd : Word) (p : Bool) : (g.wrV dist r l d sd p).retained = g.retained := rfl
@[simp] theorem Group.wrV_sitOut (g : Group) (dist : Bool) (r l : Nat) (d sd : Word) (p : Bool) : (g.wrV dist r l d sd p).sitOut = g.sitOut := rfl
@[simp] theorem Group.wrV_waitTrap (g : Group) (dist : Bool) (r l : Nat) (d sd : Word) (p : Bool) : (g.wrV dist r l d sd p).waitTrap = g.waitTrap := rfl
@[simp] theorem Group.wrV_prq (g : Group) (dist : Bool) (r l : Nat) (d sd : Word) (p : Bool) : (g.wrV dist r l d sd p).prq = g.prq := rfl
@[simp] theorem Group.wrV_guardRep (g : Group) (dist : Bool) (r l : Nat) (d sd : Word) (p : Bool) : (g.wrV dist r l d sd p).guardRep = g.guardRep := rfl
@[simp] theorem Group.wrV_cych (g : Group) (dist : Bool) (r l : Nat) (d sd : Word) (p : Bool) : (g.wrV dist r l d sd p).cych = g.cych := rfl
@[simp] theorem Group.wrV_bars (g : Group) (dist : Bool) (r l : Nat) (d sd : Word) (p : Bool) : (g.wrV dist r l d sd p).bars = g.bars := rfl
@[simp] theorem Group.wrV_qs (g : Group) (dist : Bool) (r l : Nat) (d sd : Word) (p : Bool) : (g.wrV dist r l d sd p).qs = g.qs := rfl
@[simp] theorem Group.wrV_inflight (g : Group) (dist : Bool) (r l : Nat) (d sd : Word) (p : Bool) : (g.wrV dist r l d sd p).inflight = g.inflight := rfl
@[simp] theorem Group.wrV_lastPage (g : Group) (dist : Bool) (r l : Nat) (d sd : Word) (p : Bool) : (g.wrV dist r l d sd p).lastPage = g.lastPage := rfl
@[simp] theorem Group.wrV_yielded (g : Group) (dist : Bool) (r l : Nat) (d sd : Word) (p : Bool) : (g.wrV dist r l d sd p).yielded = g.yielded := rfl
@[simp] theorem Group.wrV_fence (g : Group) (dist : Bool) (r l : Nat) (d sd : Word) (p : Bool) : (g.wrV dist r l d sd p).fence = g.fence := rfl
@[simp] theorem Group.wrV_badLine (g : Group) (dist : Bool) (r l : Nat) (d sd : Word) (p : Bool) : (g.wrV dist r l d sd p).badLine = g.badLine := rfl
@[simp] theorem Group.wrV_halted (g : Group) (dist : Bool) (r l : Nat) (d sd : Word) (p : Bool) : (g.wrV dist r l d sd p).halted = g.halted := rfl
@[simp] theorem Group.wrV_haltReason (g : Group) (dist : Bool) (r l : Nat) (d sd : Word) (p : Bool) : (g.wrV dist r l d sd p).haltReason = g.haltReason := rfl
@[simp] theorem Group.wrV_haltWhich (g : Group) (dist : Bool) (r l : Nat) (d sd : Word) (p : Bool) : (g.wrV dist r l d sd p).haltWhich = g.haltWhich := rfl
@[simp] theorem Group.wrV_haltCode (g : Group) (dist : Bool) (r l : Nat) (d sd : Word) (p : Bool) : (g.wrV dist r l d sd p).haltCode = g.haltCode := rfl
@[simp] theorem Group.wrV_haltReq (g : Group) (dist : Bool) (r l : Nat) (d sd : Word) (p : Bool) : (g.wrV dist r l d sd p).haltReq = g.haltReq := rfl
@[simp] theorem Group.wrV_stepping (g : Group) (dist : Bool) (r l : Nat) (d sd : Word) (p : Bool) : (g.wrV dist r l d sd p).stepping = g.stepping := rfl
@[simp] theorem Group.wrV_brkSkip (g : Group) (dist : Bool) (r l : Nat) (d sd : Word) (p : Bool) : (g.wrV dist r l d sd p).brkSkip = g.brkSkip := rfl
@[simp] theorem Group.wrV_done (g : Group) (dist : Bool) (r l : Nat) (d sd : Word) (p : Bool) : (g.wrV dist r l d sd p).done = g.done := rfl

/-! `Group.wrP` -/
@[simp] theorem Group.wrP_bid (g : Group) (r l : Nat) (x p : Bool) : (g.wrP r l x p).bid = g.bid := rfl
@[simp] theorem Group.wrP_gidx (g : Group) (r l : Nat) (x p : Bool) : (g.wrP r l x p).gidx = g.gidx := rfl
@[simp] theorem Group.wrP_slot (g : Group) (r l : Nat) (x p : Bool) : (g.wrP r l x p).slot = g.slot := rfl
@[simp] theorem Group.wrP_lofs (g : Group) (r l : Nat) (x p : Bool) : (g.wrP r l x p).lofs = g.lofs := rfl
@[simp] theorem Group.wrP_rgi (g : Group) (r l : Nat) (x p : Bool) : (g.wrP r l x p).rgi = g.rgi := rfl
@[simp] theorem Group.wrP_entries (g : Group) (r l : Nat) (x p : Bool) : (g.wrP r l x p).entries = g.entries := rfl
@[simp] theorem Group.wrP_nextEid (g : Group) (r l : Nat) (x p : Bool) : (g.wrP r l x p).nextEid = g.nextEid := rfl
@[simp] theorem Group.wrP_lastEid (g : Group) (r l : Nat) (x p : Bool) : (g.wrP r l x p).lastEid = g.lastEid := rfl
@[simp] theorem Group.wrP_v (g : Group) (r l : Nat) (x p : Bool) : (g.wrP r l x p).v = g.v := rfl
@[simp] theorem Group.wrP_vp (g : Group) (r l : Nat) (x p : Bool) : (g.wrP r l x p).vp = g.vp := rfl
@[simp] theorem Group.wrP_side (g : Group) (r l : Nat) (x p : Bool) : (g.wrP r l x p).side = g.side := rfl
@[simp] theorem Group.wrP_k (g : Group) (r l : Nat) (x p : Bool) : (g.wrP r l x p).k = g.k := rfl
@[simp] theorem Group.wrP_oc (g : Group) (r l : Nat) (x p : Bool) : (g.wrP r l x p).oc = g.oc := rfl
@[simp] theorem Group.wrP_ocDone (g : Group) (r l : Nat) (x p : Bool) : (g.wrP r l x p).ocDone = g.ocDone := rfl
@[simp] theorem Group.wrP_ocIssued (g : Group) (r l : Nat) (x p : Bool) : (g.wrP r l x p).ocIssued = g.ocIssued := rfl
@[simp] theorem Group.wrP_fpcr (g : Group) (r l : Nat) (x p : Bool) : (g.wrP r l x p).fpcr = g.fpcr := rfl
@[simp] theorem Group.wrP_fpsr (g : Group) (r l : Nat) (x p : Bool) : (g.wrP r l x p).fpsr = g.fpsr := rfl
@[simp] theorem Group.wrP_drc (g : Group) (r l : Nat) (x p : Bool) : (g.wrP r l x p).drc = g.drc := rfl
@[simp] theorem Group.wrP_src (g : Group) (r l : Nat) (x p : Bool) : (g.wrP r l x p).src = g.src := rfl
@[simp] theorem Group.wrP_sri (g : Group) (r l : Nat) (x p : Bool) : (g.wrP r l x p).sri = g.sri := rfl
@[simp] theorem Group.wrP_snapDrc (g : Group) (r l : Nat) (x p : Bool) : (g.wrP r l x p).snapDrc = g.snapDrc := rfl
@[simp] theorem Group.wrP_snapSrc (g : Group) (r l : Nat) (x p : Bool) : (g.wrP r l x p).snapSrc = g.snapSrc := rfl
@[simp] theorem Group.wrP_snapSri (g : Group) (r l : Nat) (x p : Bool) : (g.wrP r l x p).snapSri = g.snapSri := rfl
@[simp] theorem Group.wrP_rtime (g : Group) (r l : Nat) (x p : Bool) : (g.wrP r l x p).rtime = g.rtime := rfl
@[simp] theorem Group.wrP_rejoin (g : Group) (r l : Nat) (x p : Bool) : (g.wrP r l x p).rejoin = g.rejoin := rfl
@[simp] theorem Group.wrP_exited (g : Group) (r l : Nat) (x p : Bool) : (g.wrP r l x p).exited = g.exited := rfl
@[simp] theorem Group.wrP_tcause (g : Group) (r l : Nat) (x p : Bool) : (g.wrP r l x p).tcause = g.tcause := rfl
@[simp] theorem Group.wrP_tpc (g : Group) (r l : Nat) (x p : Bool) : (g.wrP r l x p).tpc = g.tpc := rfl
@[simp] theorem Group.wrP_tval (g : Group) (r l : Nat) (x p : Bool) : (g.wrP r l x p).tval = g.tval := rfl
@[simp] theorem Group.wrP_tmask (g : Group) (r l : Nat) (x p : Bool) : (g.wrP r l x p).tmask = g.tmask := rfl
@[simp] theorem Group.wrP_tm (g : Group) (r l : Nat) (x p : Bool) : (g.wrP r l x p).tm = g.tm := rfl
@[simp] theorem Group.wrP_retained (g : Group) (r l : Nat) (x p : Bool) : (g.wrP r l x p).retained = g.retained := rfl
@[simp] theorem Group.wrP_sitOut (g : Group) (r l : Nat) (x p : Bool) : (g.wrP r l x p).sitOut = g.sitOut := rfl
@[simp] theorem Group.wrP_waitTrap (g : Group) (r l : Nat) (x p : Bool) : (g.wrP r l x p).waitTrap = g.waitTrap := rfl
@[simp] theorem Group.wrP_prq (g : Group) (r l : Nat) (x p : Bool) : (g.wrP r l x p).prq = g.prq := rfl
@[simp] theorem Group.wrP_guardRep (g : Group) (r l : Nat) (x p : Bool) : (g.wrP r l x p).guardRep = g.guardRep := rfl
@[simp] theorem Group.wrP_cych (g : Group) (r l : Nat) (x p : Bool) : (g.wrP r l x p).cych = g.cych := rfl
@[simp] theorem Group.wrP_bars (g : Group) (r l : Nat) (x p : Bool) : (g.wrP r l x p).bars = g.bars := rfl
@[simp] theorem Group.wrP_qs (g : Group) (r l : Nat) (x p : Bool) : (g.wrP r l x p).qs = g.qs := rfl
@[simp] theorem Group.wrP_inflight (g : Group) (r l : Nat) (x p : Bool) : (g.wrP r l x p).inflight = g.inflight := rfl
@[simp] theorem Group.wrP_lastPage (g : Group) (r l : Nat) (x p : Bool) : (g.wrP r l x p).lastPage = g.lastPage := rfl
@[simp] theorem Group.wrP_yielded (g : Group) (r l : Nat) (x p : Bool) : (g.wrP r l x p).yielded = g.yielded := rfl
@[simp] theorem Group.wrP_fence (g : Group) (r l : Nat) (x p : Bool) : (g.wrP r l x p).fence = g.fence := rfl
@[simp] theorem Group.wrP_badLine (g : Group) (r l : Nat) (x p : Bool) : (g.wrP r l x p).badLine = g.badLine := rfl
@[simp] theorem Group.wrP_halted (g : Group) (r l : Nat) (x p : Bool) : (g.wrP r l x p).halted = g.halted := rfl
@[simp] theorem Group.wrP_haltReason (g : Group) (r l : Nat) (x p : Bool) : (g.wrP r l x p).haltReason = g.haltReason := rfl
@[simp] theorem Group.wrP_haltWhich (g : Group) (r l : Nat) (x p : Bool) : (g.wrP r l x p).haltWhich = g.haltWhich := rfl
@[simp] theorem Group.wrP_haltCode (g : Group) (r l : Nat) (x p : Bool) : (g.wrP r l x p).haltCode = g.haltCode := rfl
@[simp] theorem Group.wrP_haltReq (g : Group) (r l : Nat) (x p : Bool) : (g.wrP r l x p).haltReq = g.haltReq := rfl
@[simp] theorem Group.wrP_stepping (g : Group) (r l : Nat) (x p : Bool) : (g.wrP r l x p).stepping = g.stepping := rfl
@[simp] theorem Group.wrP_brkSkip (g : Group) (r l : Nat) (x p : Bool) : (g.wrP r l x p).brkSkip = g.brkSkip := rfl
@[simp] theorem Group.wrP_done (g : Group) (r l : Nat) (x p : Bool) : (g.wrP r l x p).done = g.done := rfl

/-! `Group.wrK` -/
@[simp] theorem Group.wrK_bid (g : Group) (r : Nat) (d : Word) : (g.wrK r d).bid = g.bid := rfl
@[simp] theorem Group.wrK_gidx (g : Group) (r : Nat) (d : Word) : (g.wrK r d).gidx = g.gidx := rfl
@[simp] theorem Group.wrK_slot (g : Group) (r : Nat) (d : Word) : (g.wrK r d).slot = g.slot := rfl
@[simp] theorem Group.wrK_lofs (g : Group) (r : Nat) (d : Word) : (g.wrK r d).lofs = g.lofs := rfl
@[simp] theorem Group.wrK_rgi (g : Group) (r : Nat) (d : Word) : (g.wrK r d).rgi = g.rgi := rfl
@[simp] theorem Group.wrK_entries (g : Group) (r : Nat) (d : Word) : (g.wrK r d).entries = g.entries := rfl
@[simp] theorem Group.wrK_nextEid (g : Group) (r : Nat) (d : Word) : (g.wrK r d).nextEid = g.nextEid := rfl
@[simp] theorem Group.wrK_lastEid (g : Group) (r : Nat) (d : Word) : (g.wrK r d).lastEid = g.lastEid := rfl
@[simp] theorem Group.wrK_v (g : Group) (r : Nat) (d : Word) : (g.wrK r d).v = g.v := rfl
@[simp] theorem Group.wrK_vp (g : Group) (r : Nat) (d : Word) : (g.wrK r d).vp = g.vp := rfl
@[simp] theorem Group.wrK_side (g : Group) (r : Nat) (d : Word) : (g.wrK r d).side = g.side := rfl
@[simp] theorem Group.wrK_p (g : Group) (r : Nat) (d : Word) : (g.wrK r d).p = g.p := rfl
@[simp] theorem Group.wrK_pp (g : Group) (r : Nat) (d : Word) : (g.wrK r d).pp = g.pp := rfl
@[simp] theorem Group.wrK_oc (g : Group) (r : Nat) (d : Word) : (g.wrK r d).oc = g.oc := rfl
@[simp] theorem Group.wrK_ocDone (g : Group) (r : Nat) (d : Word) : (g.wrK r d).ocDone = g.ocDone := rfl
@[simp] theorem Group.wrK_ocIssued (g : Group) (r : Nat) (d : Word) : (g.wrK r d).ocIssued = g.ocIssued := rfl
@[simp] theorem Group.wrK_fpcr (g : Group) (r : Nat) (d : Word) : (g.wrK r d).fpcr = g.fpcr := rfl
@[simp] theorem Group.wrK_fpsr (g : Group) (r : Nat) (d : Word) : (g.wrK r d).fpsr = g.fpsr := rfl
@[simp] theorem Group.wrK_drc (g : Group) (r : Nat) (d : Word) : (g.wrK r d).drc = g.drc := rfl
@[simp] theorem Group.wrK_src (g : Group) (r : Nat) (d : Word) : (g.wrK r d).src = g.src := rfl
@[simp] theorem Group.wrK_sri (g : Group) (r : Nat) (d : Word) : (g.wrK r d).sri = g.sri := rfl
@[simp] theorem Group.wrK_snapDrc (g : Group) (r : Nat) (d : Word) : (g.wrK r d).snapDrc = g.snapDrc := rfl
@[simp] theorem Group.wrK_snapSrc (g : Group) (r : Nat) (d : Word) : (g.wrK r d).snapSrc = g.snapSrc := rfl
@[simp] theorem Group.wrK_snapSri (g : Group) (r : Nat) (d : Word) : (g.wrK r d).snapSri = g.snapSri := rfl
@[simp] theorem Group.wrK_rtime (g : Group) (r : Nat) (d : Word) : (g.wrK r d).rtime = g.rtime := rfl
@[simp] theorem Group.wrK_rejoin (g : Group) (r : Nat) (d : Word) : (g.wrK r d).rejoin = g.rejoin := rfl
@[simp] theorem Group.wrK_exited (g : Group) (r : Nat) (d : Word) : (g.wrK r d).exited = g.exited := rfl
@[simp] theorem Group.wrK_tcause (g : Group) (r : Nat) (d : Word) : (g.wrK r d).tcause = g.tcause := rfl
@[simp] theorem Group.wrK_tpc (g : Group) (r : Nat) (d : Word) : (g.wrK r d).tpc = g.tpc := rfl
@[simp] theorem Group.wrK_tval (g : Group) (r : Nat) (d : Word) : (g.wrK r d).tval = g.tval := rfl
@[simp] theorem Group.wrK_tmask (g : Group) (r : Nat) (d : Word) : (g.wrK r d).tmask = g.tmask := rfl
@[simp] theorem Group.wrK_tm (g : Group) (r : Nat) (d : Word) : (g.wrK r d).tm = g.tm := rfl
@[simp] theorem Group.wrK_retained (g : Group) (r : Nat) (d : Word) : (g.wrK r d).retained = g.retained := rfl
@[simp] theorem Group.wrK_sitOut (g : Group) (r : Nat) (d : Word) : (g.wrK r d).sitOut = g.sitOut := rfl
@[simp] theorem Group.wrK_waitTrap (g : Group) (r : Nat) (d : Word) : (g.wrK r d).waitTrap = g.waitTrap := rfl
@[simp] theorem Group.wrK_prq (g : Group) (r : Nat) (d : Word) : (g.wrK r d).prq = g.prq := rfl
@[simp] theorem Group.wrK_guardRep (g : Group) (r : Nat) (d : Word) : (g.wrK r d).guardRep = g.guardRep := rfl
@[simp] theorem Group.wrK_cych (g : Group) (r : Nat) (d : Word) : (g.wrK r d).cych = g.cych := rfl
@[simp] theorem Group.wrK_bars (g : Group) (r : Nat) (d : Word) : (g.wrK r d).bars = g.bars := rfl
@[simp] theorem Group.wrK_qs (g : Group) (r : Nat) (d : Word) : (g.wrK r d).qs = g.qs := rfl
@[simp] theorem Group.wrK_inflight (g : Group) (r : Nat) (d : Word) : (g.wrK r d).inflight = g.inflight := rfl
@[simp] theorem Group.wrK_lastPage (g : Group) (r : Nat) (d : Word) : (g.wrK r d).lastPage = g.lastPage := rfl
@[simp] theorem Group.wrK_yielded (g : Group) (r : Nat) (d : Word) : (g.wrK r d).yielded = g.yielded := rfl
@[simp] theorem Group.wrK_fence (g : Group) (r : Nat) (d : Word) : (g.wrK r d).fence = g.fence := rfl
@[simp] theorem Group.wrK_badLine (g : Group) (r : Nat) (d : Word) : (g.wrK r d).badLine = g.badLine := rfl
@[simp] theorem Group.wrK_halted (g : Group) (r : Nat) (d : Word) : (g.wrK r d).halted = g.halted := rfl
@[simp] theorem Group.wrK_haltReason (g : Group) (r : Nat) (d : Word) : (g.wrK r d).haltReason = g.haltReason := rfl
@[simp] theorem Group.wrK_haltWhich (g : Group) (r : Nat) (d : Word) : (g.wrK r d).haltWhich = g.haltWhich := rfl
@[simp] theorem Group.wrK_haltCode (g : Group) (r : Nat) (d : Word) : (g.wrK r d).haltCode = g.haltCode := rfl
@[simp] theorem Group.wrK_haltReq (g : Group) (r : Nat) (d : Word) : (g.wrK r d).haltReq = g.haltReq := rfl
@[simp] theorem Group.wrK_stepping (g : Group) (r : Nat) (d : Word) : (g.wrK r d).stepping = g.stepping := rfl
@[simp] theorem Group.wrK_brkSkip (g : Group) (r : Nat) (d : Word) : (g.wrK r d).brkSkip = g.brkSkip := rfl
@[simp] theorem Group.wrK_done (g : Group) (r : Nat) (d : Word) : (g.wrK r d).done = g.done := rfl

/-! `Group.orFpsr` -/
@[simp] theorem Group.orFpsr_bid (g : Group) (l : Nat) (f : Flg) : (g.orFpsr l f).bid = g.bid := rfl
@[simp] theorem Group.orFpsr_gidx (g : Group) (l : Nat) (f : Flg) : (g.orFpsr l f).gidx = g.gidx := rfl
@[simp] theorem Group.orFpsr_slot (g : Group) (l : Nat) (f : Flg) : (g.orFpsr l f).slot = g.slot := rfl
@[simp] theorem Group.orFpsr_lofs (g : Group) (l : Nat) (f : Flg) : (g.orFpsr l f).lofs = g.lofs := rfl
@[simp] theorem Group.orFpsr_rgi (g : Group) (l : Nat) (f : Flg) : (g.orFpsr l f).rgi = g.rgi := rfl
@[simp] theorem Group.orFpsr_entries (g : Group) (l : Nat) (f : Flg) : (g.orFpsr l f).entries = g.entries := rfl
@[simp] theorem Group.orFpsr_nextEid (g : Group) (l : Nat) (f : Flg) : (g.orFpsr l f).nextEid = g.nextEid := rfl
@[simp] theorem Group.orFpsr_lastEid (g : Group) (l : Nat) (f : Flg) : (g.orFpsr l f).lastEid = g.lastEid := rfl
@[simp] theorem Group.orFpsr_v (g : Group) (l : Nat) (f : Flg) : (g.orFpsr l f).v = g.v := rfl
@[simp] theorem Group.orFpsr_vp (g : Group) (l : Nat) (f : Flg) : (g.orFpsr l f).vp = g.vp := rfl
@[simp] theorem Group.orFpsr_side (g : Group) (l : Nat) (f : Flg) : (g.orFpsr l f).side = g.side := rfl
@[simp] theorem Group.orFpsr_p (g : Group) (l : Nat) (f : Flg) : (g.orFpsr l f).p = g.p := rfl
@[simp] theorem Group.orFpsr_pp (g : Group) (l : Nat) (f : Flg) : (g.orFpsr l f).pp = g.pp := rfl
@[simp] theorem Group.orFpsr_k (g : Group) (l : Nat) (f : Flg) : (g.orFpsr l f).k = g.k := rfl
@[simp] theorem Group.orFpsr_oc (g : Group) (l : Nat) (f : Flg) : (g.orFpsr l f).oc = g.oc := rfl
@[simp] theorem Group.orFpsr_ocDone (g : Group) (l : Nat) (f : Flg) : (g.orFpsr l f).ocDone = g.ocDone := rfl
@[simp] theorem Group.orFpsr_ocIssued (g : Group) (l : Nat) (f : Flg) : (g.orFpsr l f).ocIssued = g.ocIssued := rfl
@[simp] theorem Group.orFpsr_fpcr (g : Group) (l : Nat) (f : Flg) : (g.orFpsr l f).fpcr = g.fpcr := rfl
@[simp] theorem Group.orFpsr_drc (g : Group) (l : Nat) (f : Flg) : (g.orFpsr l f).drc = g.drc := rfl
@[simp] theorem Group.orFpsr_src (g : Group) (l : Nat) (f : Flg) : (g.orFpsr l f).src = g.src := rfl
@[simp] theorem Group.orFpsr_sri (g : Group) (l : Nat) (f : Flg) : (g.orFpsr l f).sri = g.sri := rfl
@[simp] theorem Group.orFpsr_snapDrc (g : Group) (l : Nat) (f : Flg) : (g.orFpsr l f).snapDrc = g.snapDrc := rfl
@[simp] theorem Group.orFpsr_snapSrc (g : Group) (l : Nat) (f : Flg) : (g.orFpsr l f).snapSrc = g.snapSrc := rfl
@[simp] theorem Group.orFpsr_snapSri (g : Group) (l : Nat) (f : Flg) : (g.orFpsr l f).snapSri = g.snapSri := rfl
@[simp] theorem Group.orFpsr_rtime (g : Group) (l : Nat) (f : Flg) : (g.orFpsr l f).rtime = g.rtime := rfl
@[simp] theorem Group.orFpsr_rejoin (g : Group) (l : Nat) (f : Flg) : (g.orFpsr l f).rejoin = g.rejoin := rfl
@[simp] theorem Group.orFpsr_exited (g : Group) (l : Nat) (f : Flg) : (g.orFpsr l f).exited = g.exited := rfl
@[simp] theorem Group.orFpsr_tcause (g : Group) (l : Nat) (f : Flg) : (g.orFpsr l f).tcause = g.tcause := rfl
@[simp] theorem Group.orFpsr_tpc (g : Group) (l : Nat) (f : Flg) : (g.orFpsr l f).tpc = g.tpc := rfl
@[simp] theorem Group.orFpsr_tval (g : Group) (l : Nat) (f : Flg) : (g.orFpsr l f).tval = g.tval := rfl
@[simp] theorem Group.orFpsr_tmask (g : Group) (l : Nat) (f : Flg) : (g.orFpsr l f).tmask = g.tmask := rfl
@[simp] theorem Group.orFpsr_tm (g : Group) (l : Nat) (f : Flg) : (g.orFpsr l f).tm = g.tm := rfl
@[simp] theorem Group.orFpsr_retained (g : Group) (l : Nat) (f : Flg) : (g.orFpsr l f).retained = g.retained := rfl
@[simp] theorem Group.orFpsr_sitOut (g : Group) (l : Nat) (f : Flg) : (g.orFpsr l f).sitOut = g.sitOut := rfl
@[simp] theorem Group.orFpsr_waitTrap (g : Group) (l : Nat) (f : Flg) : (g.orFpsr l f).waitTrap = g.waitTrap := rfl
@[simp] theorem Group.orFpsr_prq (g : Group) (l : Nat) (f : Flg) : (g.orFpsr l f).prq = g.prq := rfl
@[simp] theorem Group.orFpsr_guardRep (g : Group) (l : Nat) (f : Flg) : (g.orFpsr l f).guardRep = g.guardRep := rfl
@[simp] theorem Group.orFpsr_cych (g : Group) (l : Nat) (f : Flg) : (g.orFpsr l f).cych = g.cych := rfl
@[simp] theorem Group.orFpsr_bars (g : Group) (l : Nat) (f : Flg) : (g.orFpsr l f).bars = g.bars := rfl
@[simp] theorem Group.orFpsr_qs (g : Group) (l : Nat) (f : Flg) : (g.orFpsr l f).qs = g.qs := rfl
@[simp] theorem Group.orFpsr_inflight (g : Group) (l : Nat) (f : Flg) : (g.orFpsr l f).inflight = g.inflight := rfl
@[simp] theorem Group.orFpsr_lastPage (g : Group) (l : Nat) (f : Flg) : (g.orFpsr l f).lastPage = g.lastPage := rfl
@[simp] theorem Group.orFpsr_yielded (g : Group) (l : Nat) (f : Flg) : (g.orFpsr l f).yielded = g.yielded := rfl
@[simp] theorem Group.orFpsr_fence (g : Group) (l : Nat) (f : Flg) : (g.orFpsr l f).fence = g.fence := rfl
@[simp] theorem Group.orFpsr_badLine (g : Group) (l : Nat) (f : Flg) : (g.orFpsr l f).badLine = g.badLine := rfl
@[simp] theorem Group.orFpsr_halted (g : Group) (l : Nat) (f : Flg) : (g.orFpsr l f).halted = g.halted := rfl
@[simp] theorem Group.orFpsr_haltReason (g : Group) (l : Nat) (f : Flg) : (g.orFpsr l f).haltReason = g.haltReason := rfl
@[simp] theorem Group.orFpsr_haltWhich (g : Group) (l : Nat) (f : Flg) : (g.orFpsr l f).haltWhich = g.haltWhich := rfl
@[simp] theorem Group.orFpsr_haltCode (g : Group) (l : Nat) (f : Flg) : (g.orFpsr l f).haltCode = g.haltCode := rfl
@[simp] theorem Group.orFpsr_haltReq (g : Group) (l : Nat) (f : Flg) : (g.orFpsr l f).haltReq = g.haltReq := rfl
@[simp] theorem Group.orFpsr_stepping (g : Group) (l : Nat) (f : Flg) : (g.orFpsr l f).stepping = g.stepping := rfl
@[simp] theorem Group.orFpsr_brkSkip (g : Group) (l : Nat) (f : Flg) : (g.orFpsr l f).brkSkip = g.brkSkip := rfl
@[simp] theorem Group.orFpsr_done (g : Group) (l : Nat) (f : Flg) : (g.orFpsr l f).done = g.done := rfl

/-! `modEntry` -/
@[simp] theorem modEntry_bid (g : Group) (eid : Nat) (f : Entry → Entry) : (modEntry g eid f).bid = g.bid := rfl
@[simp] theorem modEntry_gidx (g : Group) (eid : Nat) (f : Entry → Entry) : (modEntry g eid f).gidx = g.gidx := rfl
@[simp] theorem modEntry_slot (g : Group) (eid : Nat) (f : Entry → Entry) : (modEntry g eid f).slot = g.slot := rfl
@[simp] theorem modEntry_lofs (g : Group) (eid : Nat) (f : Entry → Entry) : (modEntry g eid f).lofs = g.lofs := rfl
@[simp] theorem modEntry_rgi (g : Group) (eid : Nat) (f : Entry → Entry) : (modEntry g eid f).rgi = g.rgi := rfl
@[simp] theorem modEntry_nextEid (g : Group) (eid : Nat) (f : Entry → Entry) : (modEntry g eid f).nextEid = g.nextEid := rfl
@[simp] theorem modEntry_lastEid (g : Group) (eid : Nat) (f : Entry → Entry) : (modEntry g eid f).lastEid = g.lastEid := rfl
@[simp] theorem modEntry_v (g : Group) (eid : Nat) (f : Entry → Entry) : (modEntry g eid f).v = g.v := rfl
@[simp] theorem modEntry_vp (g : Group) (eid : Nat) (f : Entry → Entry) : (modEntry g eid f).vp = g.vp := rfl
@[simp] theorem modEntry_side (g : Group) (eid : Nat) (f : Entry → Entry) : (modEntry g eid f).side = g.side := rfl
@[simp] theorem modEntry_p (g : Group) (eid : Nat) (f : Entry → Entry) : (modEntry g eid f).p = g.p := rfl
@[simp] theorem modEntry_pp (g : Group) (eid : Nat) (f : Entry → Entry) : (modEntry g eid f).pp = g.pp := rfl
@[simp] theorem modEntry_k (g : Group) (eid : Nat) (f : Entry → Entry) : (modEntry g eid f).k = g.k := rfl
@[simp] theorem modEntry_oc (g : Group) (eid : Nat) (f : Entry → Entry) : (modEntry g eid f).oc = g.oc := rfl
@[simp] theorem modEntry_ocDone (g : Group) (eid : Nat) (f : Entry → Entry) : (modEntry g eid f).ocDone = g.ocDone := rfl
@[simp] theorem modEntry_ocIssued (g : Group) (eid : Nat) (f : Entry → Entry) : (modEntry g eid f).ocIssued = g.ocIssued := rfl
@[simp] theorem modEntry_fpcr (g : Group) (eid : Nat) (f : Entry → Entry) : (modEntry g eid f).fpcr = g.fpcr := rfl
@[simp] theorem modEntry_fpsr (g : Group) (eid : Nat) (f : Entry → Entry) : (modEntry g eid f).fpsr = g.fpsr := rfl
@[simp] theorem modEntry_drc (g : Group) (eid : Nat) (f : Entry → Entry) : (modEntry g eid f).drc = g.drc := rfl
@[simp] theorem modEntry_src (g : Group) (eid : Nat) (f : Entry → Entry) : (modEntry g eid f).src = g.src := rfl
@[simp] theorem modEntry_sri (g : Group) (eid : Nat) (f : Entry → Entry) : (modEntry g eid f).sri = g.sri := rfl
@[simp] theorem modEntry_snapDrc (g : Group) (eid : Nat) (f : Entry → Entry) : (modEntry g eid f).snapDrc = g.snapDrc := rfl
@[simp] theorem modEntry_snapSrc (g : Group) (eid : Nat) (f : Entry → Entry) : (modEntry g eid f).snapSrc = g.snapSrc := rfl
@[simp] theorem modEntry_snapSri (g : Group) (eid : Nat) (f : Entry → Entry) : (modEntry g eid f).snapSri = g.snapSri := rfl
@[simp] theorem modEntry_rtime (g : Group) (eid : Nat) (f : Entry → Entry) : (modEntry g eid f).rtime = g.rtime := rfl
@[simp] theorem modEntry_rejoin (g : Group) (eid : Nat) (f : Entry → Entry) : (modEntry g eid f).rejoin = g.rejoin := rfl
@[simp] theorem modEntry_exited (g : Group) (eid : Nat) (f : Entry → Entry) : (modEntry g eid f).exited = g.exited := rfl
@[simp] theorem modEntry_tcause (g : Group) (eid : Nat) (f : Entry → Entry) : (modEntry g eid f).tcause = g.tcause := rfl
@[simp] theorem modEntry_tpc (g : Group) (eid : Nat) (f : Entry → Entry) : (modEntry g eid f).tpc = g.tpc := rfl
@[simp] theorem modEntry_tval (g : Group) (eid : Nat) (f : Entry → Entry) : (modEntry g eid f).tval = g.tval := rfl
@[simp] theorem modEntry_tmask (g : Group) (eid : Nat) (f : Entry → Entry) : (modEntry g eid f).tmask = g.tmask := rfl
@[simp] theorem modEntry_tm (g : Group) (eid : Nat) (f : Entry → Entry) : (modEntry g eid f).tm = g.tm := rfl
@[simp] theorem modEntry_retained (g : Group) (eid : Nat) (f : Entry → Entry) : (modEntry g eid f).retained = g.retained := rfl
@[simp] theorem modEntry_sitOut (g : Group) (eid : Nat) (f : Entry → Entry) : (modEntry g eid f).sitOut = g.sitOut := rfl
@[simp] theorem modEntry_waitTrap (g : Group) (eid : Nat) (f : Entry → Entry) : (modEntry g eid f).waitTrap = g.waitTrap := rfl
@[simp] theorem modEntry_prq (g : Group) (eid : Nat) (f : Entry → Entry) : (modEntry g eid f).prq = g.prq := rfl
@[simp] theorem modEntry_guardRep (g : Group) (eid : Nat) (f : Entry → Entry) : (modEntry g eid f).guardRep = g.guardRep := rfl
@[simp] theorem modEntry_cych (g : Group) (eid : Nat) (f : Entry → Entry) : (modEntry g eid f).cych = g.cych := rfl
@[simp] theorem modEntry_bars (g : Group) (eid : Nat) (f : Entry → Entry) : (modEntry g eid f).bars = g.bars := rfl
@[simp] theorem modEntry_qs (g : Group) (eid : Nat) (f : Entry → Entry) : (modEntry g eid f).qs = g.qs := rfl
@[simp] theorem modEntry_inflight (g : Group) (eid : Nat) (f : Entry → Entry) : (modEntry g eid f).inflight = g.inflight := rfl
@[simp] theorem modEntry_lastPage (g : Group) (eid : Nat) (f : Entry → Entry) : (modEntry g eid f).lastPage = g.lastPage := rfl
@[simp] theorem modEntry_yielded (g : Group) (eid : Nat) (f : Entry → Entry) : (modEntry g eid f).yielded = g.yielded := rfl
@[simp] theorem modEntry_fence (g : Group) (eid : Nat) (f : Entry → Entry) : (modEntry g eid f).fence = g.fence := rfl
@[simp] theorem modEntry_badLine (g : Group) (eid : Nat) (f : Entry → Entry) : (modEntry g eid f).badLine = g.badLine := rfl
@[simp] theorem modEntry_halted (g : Group) (eid : Nat) (f : Entry → Entry) : (modEntry g eid f).halted = g.halted := rfl
@[simp] theorem modEntry_haltReason (g : Group) (eid : Nat) (f : Entry → Entry) : (modEntry g eid f).haltReason = g.haltReason := rfl
@[simp] theorem modEntry_haltWhich (g : Group) (eid : Nat) (f : Entry → Entry) : (modEntry g eid f).haltWhich = g.haltWhich := rfl
@[simp] theorem modEntry_haltCode (g : Group) (eid : Nat) (f : Entry → Entry) : (modEntry g eid f).haltCode = g.haltCode := rfl
@[simp] theorem modEntry_haltReq (g : Group) (eid : Nat) (f : Entry → Entry) : (modEntry g eid f).haltReq = g.haltReq := rfl
@[simp] theorem modEntry_stepping (g : Group) (eid : Nat) (f : Entry → Entry) : (modEntry g eid f).stepping = g.stepping := rfl
@[simp] theorem modEntry_brkSkip (g : Group) (eid : Nat) (f : Entry → Entry) : (modEntry g eid f).brkSkip = g.brkSkip := rfl
@[simp] theorem modEntry_done (g : Group) (eid : Nat) (f : Entry → Entry) : (modEntry g eid f).done = g.done := rfl

@[simp] theorem Group.wrV_v (g : Group) (dist : Bool) (r l : Nat) (d sd : Word) (p : Bool) :
    (g.wrV dist r l d sd p).v = cset 0 g.v (lkey r l) d := rfl
@[simp] theorem Group.wrV_vp (g : Group) (dist : Bool) (r l : Nat) (d sd : Word) (p : Bool) :
    (g.wrV dist r l d sd p).vp = cset false g.vp (lkey r l) p := rfl
@[simp] theorem Group.wrV_side (g : Group) (dist : Bool) (r l : Nat) (d sd : Word) (p : Bool) :
    (g.wrV dist r l d sd p).side = if dist then cset 0 g.side (lkey r l) sd else g.side := rfl
@[simp] theorem Group.wrP_p (g : Group) (r l : Nat) (x p : Bool) : (g.wrP r l x p).p = cset false g.p (lkey r l) (x && !p) := rfl
@[simp] theorem Group.wrP_pp (g : Group) (r l : Nat) (x p : Bool) : (g.wrP r l x p).pp = cset false g.pp (lkey r l) p := rfl
@[simp] theorem Group.wrK_k (g : Group) (r : Nat) (d : Word) : (g.wrK r d).k = cset 0 g.k r d := rfl
@[simp] theorem Group.orFpsr_fpsr (g : Group) (l : Nat) (f : Flg) :
    (g.orFpsr l f).fpsr = cset 0 g.fpsr l (g.rdFpsr l ||| f.setWidth 32) := rfl
@[simp] theorem modEntry_entries (g : Group) (eid : Nat) (f : Entry → Entry) : (modEntry g eid f).entries = tmod g.entries eid f := rfl

end Sys2Proof.Machine
end

