-- ==== Sys2Proof/Tests/Slice0.lean ====
section
/-! SUPPORT. The model's own tests: well-formedness refuses what the spec refuses, words written out in the spec decode to what they stand
for, single steps give the spec's own worked results, and for every statement a state and operands that meet its hypotheses. -/

set_option maxRecDepth 100000
set_option Elab.async false

namespace Sys2Proof.Tests

open Sys2Proof Sys2Proof.Machine

/-! Operands with every field at its plain value. -/

def h0 : Hd := ⟨false, .always⟩
def v0 : VOp := ⟨h0, 0, 0, 0, 0, .i32, .dyn, .indep, false, false, .plain, 0, 0⟩
def i0 : IOp := ⟨h0, 0, 0, 0, .i32, .dyn, .indep, .plain, 0, false⟩
def m0 : MOp := ⟨h0, 0, 0, 0, 0, .global, .normal, .grp, .b32, false, false, 0⟩
def j0 : JOp := ⟨h0, 0, 0, 0, 0, .perLane⟩
def q0 : QOp := ⟨h0, 0, 0, 0, 0, 0, false, 0, 0, 0, 0⟩
def b0 : BOp := ⟨h0, .grp, .arv, 0, 0, 0⟩
def s0 : SOp := ⟨h0, 0, 0, 0, 0, 0, 0, 0, 0⟩
def t0 : TOp := ⟨0, 0, 0, 0, .f32, .f32, 0, 0, .m4, 0⟩

/-! Ill-formed instructions, one for each check. -/

-- R121: a guard names p0 to p47.
theorem wf_guard : (Instr.iadd { v0 with hd := ⟨false, .pred 48 false⟩ }).wf = false := by decide
-- R122: operand classes: an unused field is zero, a pair is even, a predicate below 48, a uniform register below 256.
theorem wf_unused : (Instr.iabs { v0 with b := 1 }).wf = false := by decide
theorem wf_pair : (Instr.iadd64 { v0 with ty := .i64, d := 3 }).wf = false := by decide
theorem wf_pred : (Instr.iset { v0 with d := 48 }).wf = false := by decide
theorem wf_uniform : (Instr.iadd { v0 with oc := .uniform, d := 256 }).wf = false := by decide
theorem wf_vector : (Instr.iadd { v0 with d := 1024 }).wf = false := by decide
-- R123, R126, R129: formats, operand class codes, minor codes and EXT that the instruction does not admit.
theorem wf_type : (Instr.iadd { v0 with ty := .f32 }).wf = false := by decide
theorem wf_oc : (Instr.idiv { v0 with oc := .uniform }).wf = false := by decide
theorem wf_minor : (Instr.shf { v0 with minor := 1 }).wf = false := by decide
theorem wf_ext : (Instr.lop3 { v0 with ext := 256 }).wf = false := by decide
-- R179, R208: RND, CV, NT and SAT are zero where the instruction does not take them.
theorem wf_rnd : (Instr.iadd { v0 with rnd := .rn }).wf = false := by decide
theorem wf_cv : (Instr.fdiv { v0 with ty := .f32, cv := .cor }).wf = true ∧ (Instr.fsqrt { v0 with ty := .f32, cv := .cor }).wf = false := by
  decide
theorem wf_nt : (Instr.iadd { v0 with nt := true }).wf = false := by decide
theorem wf_sat : (Instr.imin { v0 with sat := true }).wf = false := by decide
-- R130: the same in format I.
theorem wf_imm_type : (Instr.iaddI { i0 with ty := .i64 }).wf = false := by decide
theorem wf_imm_cv : (Instr.iaddI { i0 with cv := .anti }).wf = false := by decide
-- R191: a field length from 1 to 32.
theorem wf_bfx : (Instr.bfx { v0 with ext := 0 }).wf = false ∧ (Instr.bfx { v0 with ext := 32 * 33 }).wf = false := by decide
-- R193, R194: SEL's predicate; R203: SHFL's segment and predicate; R207: SRD's selectors.
theorem wf_sel : (Instr.sel { v0 with ext := 48 }).wf = false := by decide
theorem wf_shfl : (Instr.shfl { v0 with ext := 7 + 63 * 8 }).wf = false ∧ (Instr.shfl { v0 with ext := 48 * 8 }).wf = false := by decide
theorem wf_srd : (Instr.srd { i0 with imm := 0x15 }).wf = false ∧ (Instr.srd { i0 with imm := 0, oc := .uniform }).wf = false := by decide
-- R129, R195: MOV's queue form names one queue register, and a push one of q8 to q15.
theorem wf_queue : (Instr.movToQueue { v0 with oc := .queue, d := 0x3F0 }).wf = false ∧
    (Instr.movFromQueue { v0 with oc := .queue, a := 5 }).wf = false := by decide
-- R197, R200, R201, R221, R222: conversions; the last is the spec's example of a byte position that does not fit.
theorem wf_cvt : (Instr.cvt { v0 with c := 0 }).wf = false ∧ (Instr.unpk { v0 with ty := .i8, c := 14 }).wf = false ∧
    (Instr.pack { v0 with ty := .i4, c := 11 }).wf = false ∧
    (Instr.cvtF { v0 with d := 7, a := 1, ty := .e4m3, rnd := .rn, ext := 4 }).wf = false := by decide
-- R215: FCMP.refine needs a second predicate; R226: DSET's immediate and DTAG's.
theorem wf_fcmp : (Instr.fcmp { v0 with ty := .f32, minor := 8, d := 47 }).wf = false := by decide
theorem wf_dset : (Instr.dsetI { i0 with ty := .uv24, imm := 0x1000000 }).wf = false ∧ (Instr.dtagI { i0 with imm := 256 }).wf = false := by
  decide
-- R321-R337: base, size, side, scope, atomic combination, second address.
theorem wf_base : (Instr.ld { m0 with a := 1 }).wf = false ∧ (Instr.ld { m0 with space := .scratch, hint := .streaming }).wf = false := by
  decide
theorem wf_size : (Instr.ld { m0 with size := .b64, d := 1 }).wf = false ∧ (Instr.ld { m0 with size := .b96, sub := 1 }).wf = false := by
  decide
theorem wf_store : (Instr.st { m0 with space := .const }).wf = false ∧ (Instr.st { m0 with size := .s8 }).wf = false ∧
    (Instr.st { m0 with split := true }).wf = false := by decide
theorem wf_atomic : (Instr.atom { m0 with sub := 0x80 }).wf = false ∧ (Instr.ald { m0 with size := .b96 }).wf = false ∧
    (Instr.ast { m0 with scope := .dev }).wf = false ∧ (Instr.dcas { m0 with space := .fabric }).wf = false ∧
    (Instr.amov { m0 with b := 1 }).wf = false := by decide
theorem wf_lines : (Instr.pref { m0 with size := .z8, space := .scratch }).wf = false ∧ (Instr.cwb { m0 with size := .z8, sub := 1 }).wf = false ∧
    (Instr.cinv { m0 with size := .z8, sub := 2 }).wf = false ∧ (Instr.fence { m0 with size := .z8, a := 2 }).wf = false := by decide
-- R377: format J; R384: RGN.
theorem wf_jump : (Instr.brx { j0 with d := 1 }).wf = false ∧ (Instr.join { j0 with loff := 1 }).wf = false ∧
    (Instr.mjoin { j0 with hd := ⟨false, .pred 0 false⟩ }).wf = false ∧ (Instr.nop { j0 with prio := 1 }).wf = false ∧
    (Instr.call { j0 with kind := .all }).wf = false ∧ (Instr.rgn { i0 with ty := .f32, imm := 4 }).wf = false ∧
    (Instr.rgn { i0 with ty := .f32, hd := ⟨true, .always⟩ }).wf = false := by decide
-- R388-R400: format Q.
theorem wf_push : (Instr.qpush { q0 with a := 4, cmd := 1 }).wf = false ∧ (Instr.qpush { q0 with qn := 4, cmd := 1 }).wf = false ∧
    (Instr.qpush { q0 with cmd := 1, ocn := 1 }).wf = false ∧ (Instr.qpush { q0 with cmd := 1, ring := 1 }).wf = false := by decide
theorem wf_pop : (Instr.qpop { q0 with d := 2 }).wf = false ∧ (Instr.qtry { q0 with c := 48 }).wf = false ∧
    (Instr.copy { q0 with qn := 4 }).wf = false ∧ (Instr.rawait { q0 with sub := 1 }).wf = false ∧
    (Instr.rarel { q0 with a := 2 }).wf = false ∧ (Instr.rarelInit { q0 with sub := 1, a := 1 }).wf = false := by decide
-- R135, R533, R535: format B.
theorem wf_bar : (Instr.bar { b0 with barn := 4 }).wf = false ∧ (Instr.bar { b0 with thr := 1 }).wf = false ∧
    (Instr.wait { b0 with thr := 65536 }).wf = false ∧ (Instr.wait { b0 with hd := ⟨false, .pred 0 false⟩ }).wf = false := by decide
-- R136 and what the tables, traps and control registers admit.
theorem wf_system : (Instr.tlbinvPage { s0 with a := 1 }).wf = false ∧ (Instr.pmap { s0 with imm := 4 }).wf = false ∧
    (Instr.rbind { s0 with imm := 0xC0 }).wf = false ∧ (Instr.runbind { s0 with imm := 1 }).wf = false ∧
    (Instr.place { s0 with b := 2 }).wf = false ∧ (Instr.trap { s0 with csr := 1 }).wf = false ∧ (Instr.csrr { s0 with csr := 5 }).wf = false ∧
    (Instr.csrw { s0 with csr := 0x23 }).wf = false ∧ (Instr.dbgw { s0 with imm := 11 }).wf = false ∧ (Instr.rtrNext s0).wf = false := by
  decide
-- R137, R251-R260: format T.
theorem wf_tile : (Instr.tmma { t0 with slot := 1 }).wf = false ∧ (Instr.tmma { t0 with timm := 1, c := 1 }).wf = false ∧
    (Instr.tmmas t0).wf = false ∧ (Instr.tmman { t0 with timm := 64 }).wf = false ∧ (Instr.tsave { t0 with d := 1 }).wf = false ∧
    (Instr.tset { t0 with fb := .bf16, timm := 1 }).wf = false ∧ (Instr.tget { t0 with timm := 5 }).wf = false ∧
    (Instr.tbar { t0 with timm := 48 }).wf = false ∧ (Instr.tmon { t0 with timm := 64 }).wf = false ∧ (Instr.tend { t0 with timm := 1 }).wf = false ∧
    (Instr.tzero { t0 with fa := .f16 }).wf = false ∧ (Instr.tloop { t0 with a := 1 }).wf = false := by decide

/-! Words the spec writes out, and for families where it writes none, words made from its tables. -/

-- R207: LOP3 v9, v1, v2, v3, 0xE8
theorem word_lop3 : decode 0x7E0D8120080401F0000000E8 = .ok (.lop3 { v0 with d := 9, a := 1, b := 2, c := 3, ext := 0xE8 }) := by decide
-- R150: the line of FMA.rn v10, v1, v2, v3
theorem word_fma : decode 0x7E2301400804018100000000 = .ok (.fma { v0 with d := 10, a := 1, b := 2, c := 3, ty := .f32, rnd := .rn }) := by decide
-- R150: IADD v4, v4, 1
theorem word_iaddI : decode 0x7E008080200000000F000000 = .ok (.iaddI { i0 with d := 4, a := 4, imm := 1 }) := by decide
-- R150: p2? BRA loop
theorem word_bra : decode 0x04A000000000000800000000 = .ok (.bra { j0 with hd := ⟨false, .pred 2 false⟩, prio := 16 }) := by decide
-- R150: NOP
theorem word_nop : decode 0x7EA400000000000000000000 = .ok (.nop j0) := by decide
-- R223: CVT.F.e4m3.f32.rn v7, v1, 2
theorem word_cvtF : decode 0x7E2B00E00800002900000002 = .ok (.cvtF { v0 with d := 7, a := 1, ty := .e4m3, rnd := .rn, ext := 2 }) := by decide
-- R224: DP8.F.rn v6, v2, v3, v4
theorem word_dp8F : decode 0x7E2C80C01006020100000000 = .ok (.dp8F { v0 with d := 6, a := 2, b := 3, c := 4, ty := .f32, rnd := .rn }) := by decide
-- 72_programs_reduce: FSCALE.f64 v6:v7, v4:v5, k6
theorem word_fscale : decode 0x7E2C00C0200C000804000000 = .ok (.fscale { v0 with d := 6, a := 4, b := 6, ty := .f64, oc := .bUniform }) := by decide
-- R330: LD.sp v3, [v2 + 0x40]
theorem word_ld : decode 0x7E8000601000000080408000 = .ok (.ld { m0 with d := 3, a := 2, off := 0x40, space := .scratch }) := by decide
-- R336: ATOM.amaxvi.nr [v10:v11], v4:v5
theorem word_amaxvi : decode 0x7E820000500800000000A5C8 = .ok (.atom { m0 with a := 10, b := 4, size := .b64, sub := 0xB9 }) := by decide
-- 72_programs_reduce: p1? ATOM.add.f64.nr [v20:v21 + 0], v14:v15
theorem word_atom : decode 0x02820000A01C00000000A048 = .ok (.atom { m0 with hd := ⟨false, .pred 1 false⟩, a := 20, b := 14, size := .b64, sub := 0x09 }) := by decide
-- R385: MJOIN of LOFF 1, TSLOT 3
theorem word_mjoin : decode 0x7EA200000000058000000000 = .ok (.mjoin { j0 with loff := 1, tslot := 3 }) := by decide
-- R385: p1? BRA small
theorem word_braPrio : decode 0x02A000000000048F00000000 = .ok (.bra { j0 with hd := ⟨false, .pred 1 false⟩, loff := 1, tslot := 1, prio := 30 }) := by decide
-- R401: COPY q0, k64, ring3
theorem word_copy : decode 0x7EB180020000000006000000 = .ok (.copy { q0 with a := 64, ring := 3 }) := by decide
-- R413: QPUSH q4, 0x11, k64, oc1
theorem word_qpush : decode 0x7EB000020000002480220000 = .ok (.qpush { q0 with a := 64, qn := 4, oce := true, ocn := 1, cmd := 0x11 }) := by decide
-- 70_programs_tiles: QPUSH.v q8, 0x00, k16, v1
theorem word_qpushV : decode 0x7EB000008002004000000200 = .ok (.qpush { q0 with a := 16, b := 1, qn := 8, sub := 1 }) := by decide
-- R534: BAR.arv 2
theorem word_bar : decode 0x7EC000000000002100000000 = .ok (.bar { b0 with level := .blk, barn := 2 }) := by decide
-- 72_programs_reduce: BAR.sync.grid 0
theorem word_barGrid : decode 0x7EC000000000007000000000 = .ok (.bar { b0 with level := .grid, act := .sync }) := by decide
-- R535: WAIT oc1, 0
theorem word_wait : decode 0x7EC080000000000010000000 = .ok (.wait { b0 with ocn := 1 }) := by decide
-- R482: TLBINV.page k4:k5
theorem word_tlbinv : decode 0x7ED000002000000000000000 = .ok (.tlbinvPage { s0 with a := 4 }) := by decide
-- 71_programs_decode: PDROP under p7
theorem word_pdrop : decode 0x0ED10280200C000000000000 = .ok (.pdrop { s0 with hd := ⟨false, .pred 7 false⟩, d := 20, a := 4, b := 6 }) := by decide
-- R354: RBIND k20, k4:k5, k6:k7, gang, 2, gl
theorem word_rbind : decode 0x7ED18280200C000000000022 = .ok (.rbind { s0 with d := 20, a := 4, b := 6, imm := 0x22 }) := by decide
-- R494: PLACE k20, k4:k5, k8..k11
theorem word_place : decode 0x7ED282802010000000000000 = .ok (.place { s0 with d := 20, a := 4, b := 8 }) := by decide
-- R290: CSRR v5, fpsr
theorem word_csrr : decode 0x7EE100A00000000008000000 = .ok (.csrr { s0 with d := 5, csr := 1 }) := by decide
-- 15_traps: TRAP.post k255, 0x0001
theorem word_trapPost : decode 0x7EE01FE00000000000010001 = .ok (.trapPost { s0 with d := 255, sub := 1, imm := 1 }) := by decide
-- R260: TMMA of E4M3
theorem word_tmma : decode 0x7EF001000002042A80000000 = .ok (.tmma { t0 with d := 8, b := 1, c := 8, fa := .e4m3, fb := .e4m3 }) := by decide
-- R276: TMMAN of E2M1 and E4M3
theorem word_tmman : decode 0x7EF101000002003280000740 = .ok (.tmman { t0 with d := 8, b := 1, fa := .e2m1, fb := .e4m3, timm := 0x1D }) := by decide
-- R227 by R124: DTAG v3, v4, v5
theorem word_dtag : decode 0x7E618060200A007000000000 = .ok (.dtag { v0 with d := 3, a := 4, b := 5 }) := by decide
-- R232 by R124: RNDN v7
theorem word_rndn : decode 0x7E6480E00000000000000000 = .ok (.rndn { v0 with d := 7, ty := .f32 }) := by decide
-- R203 by R130: SHFL.ring v1, v2 by 5 in segments of 64, p3
theorem word_shflI : decode 0x7E708020100000F02F000800 = .ok (.shflI { i0 with d := 1, a := 2, imm := 0x1E05, minor := 2 }) := by decide
-- R257 by R137: TSET of t2
theorem word_tset : decode 0x7EF380400000000000000080 = .ok (.tset { t0 with d := 2, timm := 2 }) := by decide
-- R139: a major opcode that no table lists, and a reserved bit.
theorem word_unallocated : decode 0x7E1700000000000000000000 = .ok (.unallocatedOpcode 0x7E1700000000000000000000) := by decide
theorem word_reserved : decode 0x7EA400000000000000000001 = .error .reserved := by decide
-- R121: PRED 48, and PRED 63 with PNEG.
theorem word_guard : decode 0x60A400000000000000000000 = .error .guard ∧ decode 0x7FA400000000000000000000 = .error .guard := by decide
-- 71_programs_decode: TLOAD.m.f32 t2, 2.
theorem word_tload : decode 0x7EF280400000000020000000 = .ok (.tload { t0 with d := 2, slot := 2 }) := by decide

/-! A small machine: one launch (1) of one gang (2) of one block (3) of one 64-lane group (4), whose entry 0 issues. -/

def e0 : Entry := { pc := 0x40000, prio := 0, mask := 0xFFFFFFFFFFFFFFFF, rstart := 0x40000, lidp := 0, snapStack := [], snapTime := 0,
                    irr := false, counted := false, age := 0, park := none, handler := false }
def g0 : Group := { Group.start (placeRec 0x40000 false) 3 0 0 0 with entries := [(0, e0)], fpcr := [] }
def blk0 : Block := Block.start (placeRec 0x40000 false) 2 0 0 256 [4]
def ga0 : Gang := { lid := 1, index := 0, copy := 0, st := .resident, pen := 0, blocks := [3], bars := [], relaunches := 0, forfeit := false }
def l0 : Launch := { queue := 0, seq := 0, prio := 0, rec0 := placeRec 0x40000 false, st := .running, binds := [], place := [],
                     relaunched := [], bars := [], kills := 0, relaunches := 0, sigt := 0, ovf := 0, first := none, tilef := 0,
                     forfeits := 0, gkills := 0, status := 0, seenCores := [0], attached := none, brks := [], watches := [] }
/-- A device that has started up, with nothing on it. -/
def up : State := { State.reset with running := true, stage := 4, backed := true, nextId := 10 }
def mk (l : Launch) (b : Block) (g : Group) : State :=
  { up with launches := [(1, l)], gangs := [(2, ga0)], blocks := [(3, b)], groups := [(4, g)], cur := some ⟨false, 4, 0, 0⟩ }
def cx (l : Launch) (b : Block) (g : Group) : Ctx := ⟨⟨4, g, b, ga0, l⟩, 0, e0, 0⟩
/-- The same with page tables that map virtual addresses below 1 GiB (R469-R476). -/
def mkm (l : Launch) (b : Block) (g : Group) : State :=
  placeTables (mk l b g)
/-- A launch record with a field changed, and launches in distribution mode and in trap handlers. -/
def inDist : Launch := { l0 with rec0 := { l0.rec0 with mode := .dist } }
def inTrap : Group := { g0 with tm := true }

/-- The group after one instruction. -/
def after (i : Instr) (s : State) : Group :=
  match exec i s with
  | .next t => (tget t.groups 4).getD g0
  | _ => g0
/-- A group with registers of lane 0. -/
def withV (l : List (Nat × Word)) (g : Group) : Group := l.foldl (fun g x => g.wrV true x.1 0 x.2 0 false) g

/-! Steps with the spec's own results. -/

-- R207: the majority of three words.
theorem step_lop3 : (after (.lop3 { v0 with d := 9, a := 1, b := 2, c := 3, ext := 0xE8 })
    (mk l0 blk0 (withV [(1, 0xFF), (2, 0x0F0F), (3, 0x3333)] g0))).rdV 9 0 = 0x033F := by decide
-- R223: 300.0 into byte 2, with IX; 470.0 is the NaN of E4M3, and clamps under `.sat`.
theorem step_cvtF : ((after (.cvtF { v0 with d := 7, a := 1, ty := .e4m3, rnd := .rn, ext := 2 })
    (mk l0 blk0 (withV [(1, 0x43960000), (7, 0x11223344)] g0))).rdV 7 0) = 0x11793344 := by decide
theorem step_cvtF_sat : ((after (.cvtF { v0 with d := 7, a := 1, ty := .e4m3, rnd := .rn, ext := 2, sat := true })
    (mk l0 blk0 (withV [(1, 0x43EB0000), (7, 0x11223344)] g0))).rdV 7 0) = 0x117E3344 := by decide
-- R224: a dot product whose sum falls below the addend's ulp.
theorem step_dp8F : ((after (.dp8F { v0 with d := 6, a := 2, b := 3, c := 4, ty := .f32, rnd := .rn })
    (mk l0 blk0 (withV [(2, 0x7EB04438), (3, 0x01403038), (4, 0x4B800000)] g0))).rdV 6 0) = 0x4B800001 := by decide
theorem step_dp8F_up : ((after (.dp8F { v0 with d := 6, a := 2, b := 3, c := 4, ty := .f32, rnd := .ru })
    (mk l0 blk0 (withV [(2, 0x7EB04438), (3, 0x01403038), (4, 0x4B800000)] g0))).rdV 6 0) = 0x4B800002 := by decide
-- R187: the special cases of division come back from flight.
theorem step_idiv : ((after (.idiv { v0 with d := 3, a := 1, b := 2 })
    (mk l0 blk0 (withV [(1, 0x80000000), (2, 0xFFFFFFFF)] g0))).inflight.map fun x => x.writes.take 1) = [[.vec 3 0 0x80000000 0 false]] := by
  decide
theorem step_irem : ((after (.irem { v0 with d := 3, a := 1, b := 2 })
    (mk l0 blk0 (withV [(1, 7), (2, 0)] g0))).inflight.map fun x => x.writes.take 1) = [[.vec 3 0 7 0 false]] := by decide
-- R188: a shift of the full width and more.
theorem step_shl : (after (.shl { v0 with d := 3, a := 1, b := 2 }) (mk l0 blk0 (withV [(1, 1), (2, 32)] g0))).rdV 3 0 = 0 := by decide
theorem step_sar : (after (.sar { v0 with d := 3, a := 1, b := 2 }) (mk l0 blk0 (withV [(1, 0x80000000), (2, 0xFFFFFFFF)] g0))).rdV 3 0
    = 0xFFFFFFFF := by decide
-- R189: `.win.cap` at 32 or more gives b.
theorem step_shf : (after (.shf { v0 with d := 5, a := 1, b := 2, c := 3, minor := 2 })
    (mk l0 blk0 (withV [(1, 0x11111111), (2, 0x22222222), (3, 40)] g0))).rdV 5 0 = 0x22222222 := by decide
-- R185: -2^31 under `.sat`; a register that is source and destination.
theorem step_ineg : (after (.ineg { v0 with d := 1, a := 1, sat := true }) (mk l0 blk0 (withV [(1, 0x80000000)] g0))).rdV 1 0
    = 0x7FFFFFFF := by decide
-- R186: the high word of a signed product.
theorem step_imul : (after (.imul { v0 with d := 3, a := 1, b := 2, minor := 2 })
    (mk l0 blk0 (withV [(1, 0xFFFFFFFF), (2, 2)] g0))).rdV 3 0 = 0xFFFFFFFF := by decide
-- R192: byte 7 and the cleared byte.
theorem step_bperm : (after (.bperm { v0 with d := 5, a := 1, b := 2, c := 3 })
    (mk l0 blk0 (withV [(1, 0x03020100), (2, 0x07060504), (3, 0x8007)] g0))).rdV 5 0 = 0x00000007 := by decide
-- R60, R65: a tie goes to even under RN.
theorem step_fadd : (after (.fadd { v0 with d := 3, a := 1, b := 2, ty := .f32, rnd := .rn })
    (mk l0 blk0 (withV [(1, 0x4B800000), (2, 0x3F800000)] g0))).rdV 3 0 = 0x4B800000 := by decide
-- R77, R167: FLT_IEEE with DZ, bit 17 of TCAUSE, and no result in flight.
theorem step_ieee : (fun g : Group => (g.tcause, g.tmask, g.inflight)) (after (.fdiv { v0 with d := 3, a := 1, b := 2, ty := .f32, rnd := .rn })
    (mk l0 blk0 { withV [(1, 0x3F800000)] g0 with fpcr := [(0, 0x201)] })) = (0x00020008, 1, []) := by decide
-- R160: a poisoned source poisons the destination with its index.
theorem step_poison : (after (.iadd { v0 with d := 3, a := 1, b := 2 }) (mk l0 blk0 (g0.wrV false 2 0 0x7FF80005 0 true))).rdV 3 0
    = 0x7FF80005 := by decide
-- R330: an offset in the front guard granule reads zero, and the access is reported later (R279).
theorem step_guard : (after (.ld { m0 with d := 3, a := 2, off := 0x40, space := .scratch }) (mk l0 blk0 (withV [(2, 0xFFFFFF00)] g0))).guardRep.isSome
    = true := by decide
-- R290, R168: CSRR of TST through the spec's example form, of FPSR.
theorem step_csrr : (after (.csrr { s0 with d := 5, csr := 1 }) (mk l0 blk0 { g0 with fpsr := [(0, 0x11)] })).rdV 5 0 = 0x11 := by decide
-- R118: a line that marks no target is FLT_TARGET, code 03.
theorem step_target : (after (.mjoin { j0 with prio := 7 }) (mkm l0 blk0 g0)).tcause = 3 := by decide
-- R385, R114: slot 4 is followed by slot 0 of the next line.
theorem step_nop : (after (.nop j0) (mk l0 blk0 { g0 with entries := [(0, { e0 with pc := 0x40004 })] })).entries.map (·.2.pc) = [0x40040] := by
  decide
-- R289, R283: TRAP enters the handler with its immediate as TVAL.
theorem step_trap : (after (.trap { s0 with imm := 9 }) (mk l0 blk0 g0)).tval = 9 := by decide
-- R285: a fault in trap mode kills the group.
theorem step_killed : (after (.trap { s0 with imm := 9 }) (mk l0 blk0 { g0 with tm := true })).done = true := by decide

/-! What the witnesses share. -/

theorem at_ {s : State} {l : Launch} {b : Block} {g : Group}
    (h : s.cur = some ⟨false, 4, 0, 0⟩ ∧ s.groups = [(4, g)] ∧ s.blocks = [(3, b)] ∧ s.gangs = [(2, ga0)] ∧ s.launches = [(1, l)] ∧
      g.bid = 3 ∧ b.gang = 2 ∧ tget g.entries 0 = some e0) : ctx? s = some (cx l b g) := by
  obtain ⟨h1, h2, h3, h4, h5, h6, h7, h8⟩ := h
  simp [ctx?, party?, h1, h2, h3, h4, h5, h6, h7, h8, tget, ga0, cx]

/-- The checks of an instruction that is always executed, on the small machine. -/
def readyB (l : Launch) (g : Group) (t : Touch) : Bool :=
  ((t.vr ++ t.vw).all fun r => decide (r < l.rec0.regs) && !pendingV g e0.mask r) && ((t.pr ++ t.pw).all fun r => !pendingP g e0.mask r)

theorem rdy {s : State} {l : Launch} {b : Block} {g : Group} {hd : Hd} {t : Touch} (h : ctx? s = some (cx l b g))
    (hg : hd.guard = .always) (ht : readyB l g t = true) : Ready s (cx l b g) hd t := by
  simp only [readyB, Bool.and_eq_true, List.all_eq_true, decide_eq_true_eq, Bool.not_eq_true'] at ht
  exact ⟨h, rfl, fun he => (Bool.false_ne_true he).elim, fun r hr => (ht.1 r hr).1, fun r hr => (ht.1 r hr).2,
    fun r hr => by rw [hg] at hr; exact ht.2 r (by simpa [guardRegs] using hr), fun n neg h2 => by rw [hg] at h2; cases h2⟩

/-- The witness state with a line of targets at 0x40000, one with nothing mapped, and their context. -/
def sM : State := (mkm l0 blk0 g0).wrMem 0x140000 (placeLine 0)
def c0 : Ctx := cx l0 blk0 g0

/-- A lane instruction that is ready on the small machine, with no enable set, in whole quads. -/
def Meets (i : Instr) : Prop := ∃ f s c, i.wf = true ∧ laneForm i = some f ∧ Ready s c f.hd f.touch ∧ NoEnables c f.hd ∧
  (f.quad = true → divergent c (c.active f.hd) = 0) ∧ f.uniform = false

theorem meets {i : Instr} (f : LaneForm) (hw : i.wf = true) (hf : laneForm i = some f) (hg : f.hd.guard = .always)
    (ht : readyB l0 g0 f.touch = true) (hu : f.uniform = false) : Meets i := by
  refine ⟨f, mk l0 blk0 g0, c0, hw, hf, rdy (at_ ⟨rfl, rfl, rfl, rfl, rfl, rfl, rfl, rfl⟩) hg ht, fun l hl => ?_, fun _ => ?_, hu⟩
  · simp only [Ctx.real, Ctx.active, hg, guardMask] at hl
    exact (by decide : ∀ l ∈ lanesOf (c0.e.mask &&& BitVec.allOnes 64 &&& ~~~c0.helpers), enables c0.p.g l = 0) l hl
  · simp only [Ctx.active, hg, guardMask]
    decide
def gJ : Group := { g0 with rejoin := [⟨0x40000, 0xFFFFFFFFFFFFFFFF, 0⟩] }
def req (kind : Nat) (opnd : List Nat) (id lane gid : Nat) : AReq := ⟨id, gid, lane, kind, 0, 1, 4, .global, 0x50000, 0x50100, opnd, true, 8, false, false, 0, 0, true, []⟩
def sReq (rs : List AReq) : State := { mkm l0 blk0 g0 with areqs := rs }
def gPop : Group := { g0 with qs := [(8, ⟨[], [[1, 2, 3, 4]], 1, []⟩)] }
def ring0 : Ring := ⟨0, true, 0, 0, 1, 0, 0⟩
def bRing : Block := { blk0 with rings := [(0, ring0)], spad := [(3, 0x80)] }
def lDet : Launch := { l0 with rec0 := { l0.rec0 with det := true } }
/-- The second address of a two-address access in v8:v9 of every lane, and a target in v0:v1. -/
def gTwo : Group := (List.range 64).foldl (fun g l => g.wrV true 8 l 0x50100 0 false) (g0)
def gBrx : Group := (List.range 64).foldl (fun g l => g.wrV true 0 l 0x40000 0 false) (g0)
def sOn (g : Group) : State := (mkm l0 blk0 g).wrMem 0x140000 (placeLine 0)
def sReq2 (rs : List AReq) : State := { mkm l0 blk0 g0 with areqs := rs, groups := [(4, g0), (5, g0)] }
def gRt : Group := { g0 with tm := true, retained := some 1, tpc := 0x40000, entries := [(0, e0), (1, e0)] }
def gBad : Group := { g0 with tm := true, tpc := 0x3F }
def lUser : Launch := { l0 with rec0 := { l0.rec0 with sys := false } }
def dbg0 : Dbg := (tget State.reset.dbg 1).getD ⟨[], 0, 0, 0, 0, false, false, none, 0, 0⟩
/-- The small machine's tile sequencer. -/
def sTile : State := { mkm l0 blk0 g0 with cur := some ⟨true, 3, 0, 0⟩ }
def cTile : TCtx := ⟨3, blk0, ga0, l0, 0⟩
/-- A sequencer at the line of targets, its T0 to T4 records of registers 0, 256, 512, 768 and (for R243's metadata) 256 with 928. -/
def blkT : Block := { blk0 with tile := { blk0.tile with pc := 0x40000, ended := false, t := [(1, 0x100), (2, 0x200), (3, 0x300), (4, 0xE8100)] } }
def lT : Launch := { l0 with rec0 := placeRec 0x40000 true }
def sT (b : Block) : State := { (mkm lT b g0).wrMem 0x140000 (placeLine 0) with cur := some ⟨true, 3, 0, 0⟩ }
def cT (b : Block) : TCtx := ⟨3, b, ga0, lT, 0⟩
def pass0 : TilePass := ⟨[⟨4, 5, 6, some 7, 0⟩], [(4, 6, 1)], false, 0, 0, 0, 0, false, false⟩
def blkJ (ps : List TilePass) : Block := { blkT with tile := { blkT.tile with job := some ⟨true, ps, 1, 0, 0, 0⟩ } }
def gOut (l : List Inflight) : Group := { g0 with inflight := l }
def res0 : Inflight := { vregs := [4], pregs := [], lanes := 1, writes := [.vec 4 0 7 0 false], flags := [], ready := true, req := 0, late := false }
def gPark (p : Park) : Group := { g0 with entries := [(0, { e0 with park := some p })] }
def gWait : Group := { g0 with waitTrap := some { code := 255, prqi := 63, flags := 31 }, retained := some 0 }
/-- The witness state with an input for the next step. -/
def sIn (a : Act) : State := { sM with agenda := [a] }
/-- The line at 0x40000 with a word in slot 0, as it is fetched. -/
def lineOf (w : IWord) : Line := parseLine (placeLine w)

/-! For every statement, operands and a state that meet its hypotheses, clause by clause. -/

theorem meets_EncodeDecode : ∃ w i, decode w = .ok i ∧ i.wf = true := ⟨0x7EA400000000000000000000, .nop j0, by decide, by decide⟩
theorem meets_EncodeDecode_unallocated : ∃ w i, decode w = .ok i ∧ i = .unallocatedOpcode w :=
  ⟨0x7E1700000000000000000000, _, by decide, rfl⟩
theorem meets_DecodeEncode : ∃ i : Instr, i.wf = true := ⟨.nop j0, by decide⟩
-- The boundary values 48 and 62, and 63 with PNEG.
theorem meets_ReservedGuards : ∀ w ∈ [(0x60A400000000000000000000 : IWord), 0x7CA400000000000000000000, 0x7FA400000000000000000000],
    tileWord w = false ∧ ((48 ≤ fieldOf w 89 6 ∧ fieldOf w 89 6 ≤ 62) ∨ (fieldOf w 89 6 = 63 ∧ bitOf w 88 = true)) := by
  intro w hw
  simp only [List.mem_cons, List.not_mem_nil, or_false] at hw
  rcases hw with rfl | rfl | rfl <;> decide

theorem meets_IntegerFrames : Meets (.iadd v0) := meets _ (by decide) rfl rfl (by decide) rfl
theorem meets_FloatFrames : Meets (.fadd { v0 with ty := .f32 }) := meets _ (by decide) rfl rfl (by decide) rfl
theorem meets_SidecarFrames : Meets (.dtag v0) := meets _ (by decide) rfl rfl (by decide) rfl
theorem meets_ExchangeFrames : Meets (.shfl { v0 with ext := 504 }) := meets _ (by decide) rfl rfl (by decide) rfl
theorem meets_IeeeTraps : Meets (.fdiv { v0 with ty := .f32 }) := meets _ (by decide) rfl rfl (by decide) rfl
theorem meets_Votes : Meets (.vote { v0 with ty := .f32 }) := meets _ (by decide) rfl rfl (by decide) rfl
theorem meets_QuadsAndSpecials_0 : Meets (.qswap v0) := meets _ (by decide) rfl rfl (by decide) rfl
theorem meets_QuadsAndSpecials_1 : Meets (.qbcast v0) := meets _ (by decide) rfl rfl (by decide) rfl
theorem meets_QuadsAndSpecials_2 : Meets (.srd i0) := meets _ (by decide) rfl rfl (by decide) rfl
theorem meets_Quads : Meets (.qmean { v0 with ty := .f32 }) := meets _ (by decide) rfl rfl (by decide) rfl
theorem meets_Draws : Meets (.rndu { v0 with ty := .f32 }) := meets _ (by decide) rfl rfl (by decide) rfl
theorem meets_Shuffles : Meets (.shfl { v0 with ext := 24, minor := 6 }) := meets _ (by decide) rfl rfl (by decide) rfl
theorem meets_Results_isub : Meets (.isub v0) := meets _ (by decide) rfl rfl (by decide) rfl
theorem meets_Results_imin : Meets (.imin v0) := meets _ (by decide) rfl rfl (by decide) rfl
theorem meets_Results_imax : Meets (.imax v0) := meets _ (by decide) rfl rfl (by decide) rfl
theorem meets_Results_iabs : Meets (.iabs v0) := meets _ (by decide) rfl rfl (by decide) rfl
theorem meets_Results_ineg : Meets (.ineg v0) := meets _ (by decide) rfl rfl (by decide) rfl
theorem meets_Results_imul : Meets (.imul v0) := meets _ (by decide) rfl rfl (by decide) rfl
theorem meets_Results_imad : Meets (.imad v0) := meets _ (by decide) rfl rfl (by decide) rfl
theorem meets_Results_idiv : Meets (.idiv v0) := meets _ (by decide) rfl rfl (by decide) rfl
theorem meets_Results_irem : Meets (.irem v0) := meets _ (by decide) rfl rfl (by decide) rfl
theorem meets_Results_shl : Meets (.shl v0) := meets _ (by decide) rfl rfl (by decide) rfl
theorem meets_Results_shr : Meets (.shr v0) := meets _ (by decide) rfl rfl (by decide) rfl
theorem meets_Results_sar : Meets (.sar v0) := meets _ (by decide) rfl rfl (by decide) rfl
theorem meets_Results_shf : Meets (.shf v0) := meets _ (by decide) rfl rfl (by decide) rfl
theorem meets_Results_and : Meets (.and v0) := meets _ (by decide) rfl rfl (by decide) rfl
theorem meets_Results_or : Meets (.or v0) := meets _ (by decide) rfl rfl (by decide) rfl
theorem meets_Results_xor : Meets (.xor v0) := meets _ (by decide) rfl rfl (by decide) rfl
theorem meets_Results_not : Meets (.not v0) := meets _ (by decide) rfl rfl (by decide) rfl
theorem meets_Results_lop3 : Meets (.lop3 v0) := meets _ (by decide) rfl rfl (by decide) rfl
theorem meets_Results_popc : Meets (.popc v0) := meets _ (by decide) rfl rfl (by decide) rfl
theorem meets_Results_clz : Meets (.clz v0) := meets _ (by decide) rfl rfl (by decide) rfl
theorem meets_Results_ctz : Meets (.ctz v0) := meets _ (by decide) rfl rfl (by decide) rfl
theorem meets_Results_brev : Meets (.brev v0) := meets _ (by decide) rfl rfl (by decide) rfl
theorem meets_Results_bperm : Meets (.bperm v0) := meets _ (by decide) rfl rfl (by decide) rfl
theorem meets_Results_sel : Meets (.sel v0) := meets _ (by decide) rfl rfl (by decide) rfl
theorem meets_Results_iset : Meets (.iset v0) := meets _ (by decide) rfl rfl (by decide) rfl
theorem meets_Results_mov : Meets (.mov v0) := meets _ (by decide) rfl rfl (by decide) rfl
theorem meets_Results_bfx : Meets (.bfx { v0 with ext := 1024 }) := meets _ (by decide) rfl rfl (by decide) rfl
theorem meets_Results_bfi : Meets (.bfi { v0 with ext := 32 }) := meets _ (by decide) rfl rfl (by decide) rfl
theorem meets_Results_iadd64 : Meets (.iadd64 { v0 with ty := .i64 }) := meets _ (by decide) rfl rfl (by decide) rfl
theorem meets_Results_lea : Meets (.lea { v0 with ty := .i64 }) := meets _ (by decide) rfl rfl (by decide) rfl
theorem meets_Results_cvt : Meets (.cvt { v0 with c := 15 }) := meets _ (by decide) rfl rfl (by decide) rfl
theorem meets_Results_dp8 : Meets (.dp8 { v0 with ty := .i8, c := 0 }) := meets _ (by decide) rfl rfl (by decide) rfl
theorem meets_Results_dp4 : Meets (.dp4 { v0 with ty := .i4 }) := meets _ (by decide) rfl rfl (by decide) rfl
theorem meets_Results_iaddI : Meets (.iaddI i0) := meets _ (by decide) rfl rfl (by decide) rfl
theorem meets_Results_isubI : Meets (.isubI i0) := meets _ (by decide) rfl rfl (by decide) rfl
theorem meets_Results_imulI : Meets (.imulI i0) := meets _ (by decide) rfl rfl (by decide) rfl
theorem meets_Results_shlI : Meets (.shlI i0) := meets _ (by decide) rfl rfl (by decide) rfl
theorem meets_Results_shrI : Meets (.shrI i0) := meets _ (by decide) rfl rfl (by decide) rfl
theorem meets_Results_sarI : Meets (.sarI i0) := meets _ (by decide) rfl rfl (by decide) rfl
theorem meets_Results_andI : Meets (.andI i0) := meets _ (by decide) rfl rfl (by decide) rfl
theorem meets_Results_orI : Meets (.orI i0) := meets _ (by decide) rfl rfl (by decide) rfl
theorem meets_Results_xorI : Meets (.xorI i0) := meets _ (by decide) rfl rfl (by decide) rfl
theorem meets_Results_movi : Meets (.movi i0) := meets _ (by decide) rfl rfl (by decide) rfl
theorem meets_Results_fabs : Meets (.fabs { v0 with ty := .f32 }) := meets _ (by decide) rfl rfl (by decide) rfl
theorem meets_Results_fneg : Meets (.fneg { v0 with ty := .f32 }) := meets _ (by decide) rfl rfl (by decide) rfl
theorem meets_Results_fmin : Meets (.fmin { v0 with ty := .f32 }) := meets _ (by decide) rfl rfl (by decide) rfl
theorem meets_Results_fmax : Meets (.fmax { v0 with ty := .f32 }) := meets _ (by decide) rfl rfl (by decide) rfl
theorem meets_Results_fcmp : Meets (.fcmp { v0 with ty := .f32 }) := meets _ (by decide) rfl rfl (by decide) rfl
theorem meets_Results_dclr : Meets (.dclr { v0 with ty := .f32 }) := meets _ (by decide) rfl rfl (by decide) rfl
theorem meets_Results_dvar : Meets (.dvar { v0 with ty := .f32 }) := meets _ (by decide) rfl rfl (by decide) rfl
theorem meets_Results_dstd : Meets (.dstd { v0 with ty := .f32 }) := meets _ (by decide) rfl rfl (by decide) rfl
theorem meets_Results_dset : Meets (.dset { v0 with ty := .uv24 }) := meets _ (by decide) rfl rfl (by decide) rfl
theorem meets_Results_rndu : Meets (.rndu v0) := meets _ (by decide) rfl rfl (by decide) rfl
theorem meets_Results_matchLanes : Meets (.matchLanes v0) := meets _ (by decide) rfl rfl (by decide) rfl

theorem meets_StraightControl_0 : ∃ (o : JOp), ∃ (s : State), ∃ c, 
    ((Instr.nop o).wf = true) ∧
    (Ready s c o.hd {}) :=
  ⟨j0, mk l0 blk0 g0, c0, by decide +kernel, rdy (at_ ⟨rfl, rfl, rfl, rfl, rfl, rfl, rfl, rfl⟩) rfl (by decide +kernel)⟩

theorem meets_StraightControl_1 : ∃ (o : JOp), ∃ (s : State), ∃ c, 
    ((Instr.yieldHint o).wf = true) ∧
    (Ready s c o.hd {}) :=
  ⟨j0, mk l0 blk0 g0, c0, by decide +kernel, rdy (at_ ⟨rfl, rfl, rfl, rfl, rfl, rfl, rfl, rfl⟩) rfl (by decide +kernel)⟩

theorem meets_StraightControl_2 : ∃ (o : JOp), ∃ (s : State), ∃ c, 
    ((Instr.mjoin o).wf = true) ∧
    (Ready s c o.hd {}) ∧
    (c.lanes ≠ 0) ∧
    (c.p.g.tm = false) ∧
    (c.p.g.rejoin.length < 32) ∧
    (targetFault s c (jTarget o c.e.pc) = none) :=
  ⟨{ j0 with prio := 7 }, sM, c0, by decide +kernel, rdy (at_ ⟨rfl, rfl, rfl, rfl, rfl, rfl, rfl, rfl⟩) rfl (by decide +kernel), by decide +kernel⟩

theorem meets_StraightControl_3 : ∃ (o : IOp), ∃ (s : State), ∃ c, 
    ((Instr.rgn o).wf = true) ∧
    (Ready s c o.hd { rgn := true }) ∧
    (c.p.g.tm = true) :=
  ⟨{ i0 with ty := .f32 }, mk l0 blk0 inTrap, cx l0 blk0 inTrap, by decide +kernel, rdy (at_ ⟨rfl, rfl, rfl, rfl, rfl, rfl, rfl, rfl⟩) rfl (by decide +kernel), by decide +kernel⟩

theorem meets_StraightControl_4 : ∃ o s c bs s1, (Instr.rgn o).wf = true ∧ Ready s c o.hd { rgn := true } ∧ c.p.g.tm = false ∧
    o.imm.toNat + 168 ≤ c.p.l.rec0.cseglen ∧ readDesc s c (c.p.l.rec0.cseg.toNat + o.imm.toNat) = .ok bs s1 ∧
    Live.ok bs c.p.l.rec0.regs = true := by
  have h : (match readDesc sM c0 0x41000 with
    | .ok bs _ => Live.ok bs 1024
    | _ => false) = true := by decide +kernel
  cases hr : readDesc sM c0 0x41000 with
  | ok bs s1 => exact ⟨{ i0 with ty := .f32, imm := 0x1000 }, sM, c0, bs, s1, by decide, rdy (at_ ⟨rfl, rfl, rfl, rfl, rfl, rfl, rfl, rfl⟩) rfl
      (by decide), by decide, by decide, hr, by rw [hr] at h; exact h⟩
  | _ => simp [hr] at h

theorem meets_Branches_0 : ∃ (o : JOp), ∃ (s : State), ∃ c, 
    ((Instr.bra o).wf = true) ∧
    (Ready s c o.hd {}) ∧
    (targetFault s c (jTarget o c.e.pc) = none) :=
  ⟨j0, sM, c0, by decide +kernel, rdy (at_ ⟨rfl, rfl, rfl, rfl, rfl, rfl, rfl, rfl⟩) rfl (by decide +kernel), by decide +kernel⟩

theorem meets_Branches_1 : ∃ (o : JOp), ∃ (s : State), ∃ c, 
    ((Instr.call o).wf = true) ∧
    (Ready s c o.hd { vw := [o.d, o.d + 1] }) ∧
    (targetFault s c (jTarget o c.e.pc) = none) :=
  ⟨j0, sM, c0, by decide +kernel, rdy (at_ ⟨rfl, rfl, rfl, rfl, rfl, rfl, rfl, rfl⟩) rfl (by decide +kernel), by decide +kernel⟩

theorem meets_JoinAndExit_0 : ∃ (o : JOp), ∃ (s : State), ∃ c, ∃ t, ∃ rest, 
    ((Instr.join o).wf = true) ∧
    (Ready s c o.hd {}) ∧
    (c.p.g.tm = false) ∧
    (c.p.g.rejoin = t :: rest) ∧
    (t.pc = c.e.pc) ∧
    (c.e.mask &&& ~~~t.mask = 0) ∧
    (c.p.g.rejoin.length ≤ 32) :=
  ⟨j0, mk l0 blk0 gJ, cx l0 blk0 gJ, ⟨0x40000, 0xFFFFFFFFFFFFFFFF, 0⟩, [], by decide +kernel, rdy (at_ ⟨rfl, rfl, rfl, rfl, rfl, rfl, rfl, rfl⟩) rfl (by decide +kernel), by decide +kernel⟩

/-- A group split in halves that meet at a JOIN: the lower half arrives, the upper half elsewhere, or parked there already. -/
def eLow : Entry := { e0 with mask := 0xFFFFFFFF }
def gHalves (upper : Entry) : Group := { gJ with entries := [(0, eLow), (1, { upper with mask := 0xFFFFFFFF00000000 })] }
def cHalves (upper : Entry) : Ctx := ⟨⟨4, gHalves upper, blk0, ga0, l0⟩, 0, eLow, 0⟩
theorem readyHalves (upper : Entry) : Ready (mk l0 blk0 (gHalves upper)) (cHalves upper) j0.hd {} :=
  ⟨rfl, rfl, fun h => (by cases h), fun _ h => absurd h List.not_mem_nil, fun _ h => absurd h List.not_mem_nil,
    fun _ h => absurd h List.not_mem_nil, fun _ _ h => (by cases h)⟩
theorem meets_JoinAndExit_parks : ∃ o s c t rest, (Instr.join o).wf = true ∧ Ready s c o.hd {} ∧ c.p.g.tm = false ∧
    c.p.g.rejoin = t :: rest ∧ t.pc = c.e.pc ∧ c.e.mask &&& ~~~t.mask = 0 ∧ c.p.g.rejoin.length ≤ 32 ∧
    t.mask &&& ~~~(joinedAt c.p.g c.e.pc ||| c.e.mask) ≠ 0 :=
  ⟨j0, mk l0 blk0 (gHalves { e0 with pc := 0x40010 }), cHalves { e0 with pc := 0x40010 }, ⟨0x40000, 0xFFFFFFFFFFFFFFFF, 0⟩, [], by decide,
    readyHalves _, by decide +kernel⟩
theorem meets_JoinAndExit_meets : ∃ o s c t rest, (Instr.join o).wf = true ∧ Ready s c o.hd {} ∧ c.p.g.tm = false ∧
    c.p.g.rejoin = t :: rest ∧ t.pc = c.e.pc ∧ c.e.mask &&& ~~~t.mask = 0 ∧ c.p.g.rejoin.length ≤ 32 ∧
    t.mask &&& ~~~(joinedAt c.p.g c.e.pc ||| c.e.mask) = 0 ∧
    ∃ x ∈ c.p.g.entries, x.1 ≠ c.eid ∧ x.2.park = some .join ∧ x.2.pc = c.e.pc :=
  ⟨j0, mk l0 blk0 (gHalves { e0 with park := some .join }), cHalves { e0 with park := some .join }, ⟨0x40000, 0xFFFFFFFFFFFFFFFF, 0⟩, [],
    by decide, readyHalves _, by decide +kernel⟩

theorem meets_JoinAndExit_1 : ∃ (o : JOp), ∃ (s : State), ∃ c, 
    ((Instr.exit o).wf = true) ∧
    (Ready s c o.hd {}) ∧
    (c.p.g.tm = false) ∧
    (c.p.g.guardRep = none) :=
  ⟨j0, mk l0 blk0 g0, c0, by decide +kernel, rdy (at_ ⟨rfl, rfl, rfl, rfl, rfl, rfl, rfl, rfl⟩) rfl (by decide +kernel), by decide +kernel⟩

theorem meets_Branches_brx : ∃ (o : JOp), ∃ (i : Instr), ∃ (s : State), ∃ c, 
    (i = Instr.brx o ∨ i = Instr.ret o) ∧
    (i.wf = true) ∧
    (Ready s c o.hd { vr := [o.d, o.d + 1] }) ∧
    (∀ l ∈ lanesOf (c.real o.hd), (Opnd.pair o.d).poison c.p.g l = none ∧ targetFault s c (c.p.g.rdV2 o.d l) = none) ∧
    (∀ l ∈ lanesOf (c.active o.hd), targetWaits s c [c.p.g.rdV2 o.d l] = none) :=
  ⟨j0, .brx j0, sOn gBrx, cx l0 blk0 gBrx, .inl rfl, by decide +kernel, rdy (at_ ⟨rfl, rfl, rfl, rfl, rfl, rfl, rfl, rfl⟩) rfl (by decide +kernel), by decide +kernel⟩

theorem meets_Branches_ret : ∃ (o : JOp), ∃ (i : Instr), ∃ (s : State), ∃ c, 
    (i = Instr.brx o ∨ i = Instr.ret o) ∧
    (i.wf = true) ∧
    (Ready s c o.hd { vr := [o.d, o.d + 1] }) ∧
    (∀ l ∈ lanesOf (c.real o.hd), (Opnd.pair o.d).poison c.p.g l = none ∧ targetFault s c (c.p.g.rdV2 o.d l) = none) ∧
    (∀ l ∈ lanesOf (c.active o.hd), targetWaits s c [c.p.g.rdV2 o.d l] = none) :=
  ⟨j0, .ret j0, sOn gBrx, cx l0 blk0 gBrx, .inr rfl, by decide +kernel, rdy (at_ ⟨rfl, rfl, rfl, rfl, rfl, rfl, rfl, rfl⟩) rfl (by decide +kernel), by decide +kernel⟩

theorem meets_Loads_0 : ∃ (o : MOp), ∃ (s : State), ∃ c, 
    ((Instr.ld o).wf = true) ∧
    (o.basek = false) ∧
    (Ready s c o.hd { vr := (memBase o).vregs, vw := dataRegs o o.d }) ∧
    (Undisturbed s c) ∧
    (EachAlone s c o (sideOf o) .read ((lanesOf (c.active o.hd)).filter fun l => ((memBase o).poison c.p.g l).isNone)) ∧
    (∀ l ∈ lanesOf (c.real o.hd), (memBase o).poison c.p.g l = none → (fateOf s c o (sideOf o) .read l).faults = false) :=
  ⟨{ m0 with space := .scratch }, mk l0 blk0 g0, c0, by decide +kernel, by decide +kernel, rdy (at_ ⟨rfl, rfl, rfl, rfl, rfl, rfl, rfl, rfl⟩) rfl (by decide +kernel), ⟨by decide, rfl⟩, by unfold EachAlone; decide +kernel, by decide +kernel⟩

theorem meets_Loads_1 : ∃ (o : MOp), ∃ (s : State), ∃ c, ∃ l, ∃ bs, 
    ((Instr.ld o).wf = true) ∧
    (o.basek = true) ∧
    (Ready s c o.hd { vr := (memBase o).vregs }) ∧
    (Undisturbed s c) ∧
    (lowLane (c.real o.hd) = some l) ∧
    (LoadSees s c o l bs) ∧
    (∀ x ∈ c.p.g.inflight, x.kregs = dataRegs o o.d → x.req = 0) :=
  ⟨{ m0 with space := .scratch, basek := true }, mk l0 blk0 g0, c0, 0, [0, 0, 0, 0], by decide +kernel, by decide +kernel, rdy (at_ ⟨rfl, rfl, rfl, rfl, rfl, rfl, rfl, rfl⟩) rfl (by decide +kernel), ⟨by decide, rfl⟩, by decide +kernel, ⟨by decide +kernel, .inl ⟨3, 0, blk0, by decide +kernel, rfl, by decide +kernel, by decide +kernel, by decide +kernel⟩⟩, by decide +kernel⟩

theorem meets_Stores_0 : ∃ (o : MOp), ∃ (s : State), ∃ c, 
    ((Instr.st o).wf = true) ∧
    (Ready s c o.hd { vr := (memBase o).vregs ++ dataRegs o o.b, irr := o.space == .fabric }) ∧
    (Undisturbed s c) ∧
    (∀ l ∈ lanesOf (c.real o.hd), (∀ x ∈ memBase o :: (dataRegs o o.b).map Opnd.v, x.poison c.p.g l = none) ∧ (fateOf s c o (sideOf o) .write l).passes) ∧
    (EachAlone s c o (sideOf o) .write (lanesOf (c.real o.hd))) ∧
    (c.p.staged = false ∨ (o.space ≠ .global ∧ o.space ≠ .fabric)) :=
  ⟨{ m0 with space := .scratch, b := 4 }, mk l0 blk0 g0, c0, by decide +kernel, rdy (at_ ⟨rfl, rfl, rfl, rfl, rfl, rfl, rfl, rfl⟩) rfl (by decide +kernel), ⟨by decide, rfl⟩, by decide +kernel, by unfold EachAlone; decide +kernel, by decide +kernel⟩

theorem meets_Stores_global : ∃ (o : MOp), ∃ (s : State), ∃ c, 
    ((Instr.st o).wf = true) ∧
    (Ready s c o.hd { vr := (memBase o).vregs ++ dataRegs o o.b, irr := o.space == .fabric }) ∧
    (Undisturbed s c) ∧
    (∀ l ∈ lanesOf (c.real o.hd), (∀ x ∈ memBase o :: (dataRegs o o.b).map Opnd.v, x.poison c.p.g l = none) ∧ (fateOf s c o (sideOf o) .write l).passes) ∧
    (EachAlone s c o (sideOf o) .write (lanesOf (c.real o.hd))) ∧
    (c.p.staged = false ∨ (o.space ≠ .global ∧ o.space ≠ .fabric)) :=
  ⟨{ m0 with a := 2, b := 4 }, mkm l0 blk0 g0, c0, by decide +kernel, rdy (at_ ⟨rfl, rfl, rfl, rfl, rfl, rfl, rfl, rfl⟩) rfl (by decide +kernel), ⟨by decide, rfl⟩, by decide +kernel, by unfold EachAlone; decide +kernel, by decide +kernel⟩

theorem meets_Stores_1 : ∃ (o : MOp), ∃ (s : State), ∃ c, 
    ((Instr.st o).wf = true) ∧
    (Ready s c o.hd { vr := (memBase o).vregs ++ dataRegs o o.b, irr := o.space == .fabric }) ∧
    (Undisturbed s c) ∧
    (∀ l ∈ lanesOf (c.real o.hd), (∀ x ∈ memBase o :: (dataRegs o o.b).map Opnd.v, x.poison c.p.g l = none) ∧ (fateOf s c o (sideOf o) .write l).passes) ∧
    (EachAlone s c o (sideOf o) .write (lanesOf (c.real o.hd))) ∧
    (c.p.staged = true) ∧
    (c.p.l.rec0.red = false) ∧
    (c.p.b.direct = false) ∧
    (c.p.b.extra = none) ∧
    (c.p.ga.st = .resident) ∧
    (o.space = .global ∨ o.space = .fabric) ∧
    (coreStaged s c.core + 512 ≤ bufferCap) :=
  ⟨{ m0 with a := 2, b := 4 }, mkm lDet blk0 g0, cx lDet blk0 g0, by decide +kernel, rdy (at_ ⟨rfl, rfl, rfl, rfl, rfl, rfl, rfl, rfl⟩) rfl (by decide +kernel), ⟨by decide, rfl⟩, by decide +kernel, by unfold EachAlone; decide +kernel, by decide +kernel⟩

theorem meets_AtomicsLeave_0 : ∃ (o : MOp), ∃ (s : State), ∃ c, 
    ((Instr.ald o).wf = true) ∧
    (Ready s c o.hd { vr := (memBase o).vregs, vw := dataRegs o o.d }) ∧
    (Undisturbed s c) ∧
    (c.p.staged = false) ∧
    (∀ l ∈ lanesOf (c.active o.hd), (memBase o).poison c.p.g l = none ∧ (fateOf s c o false .read l).passes) ∧
    (EachAlone s c o false .read (lanesOf (c.active o.hd))) :=
  ⟨{ m0 with a := 2, d := 4 }, mkm l0 blk0 g0, c0, by decide +kernel, rdy (at_ ⟨rfl, rfl, rfl, rfl, rfl, rfl, rfl, rfl⟩) rfl (by decide +kernel), ⟨by decide, rfl⟩, by decide +kernel, by decide +kernel, by unfold EachAlone; decide +kernel⟩

theorem meets_AtomicsLeave_1 : ∃ (o : MOp), ∃ (s : State), ∃ c, 
    ((Instr.ast o).wf = true) ∧
    (Ready s c o.hd { vr := (memBase o).vregs ++ dataRegs o o.b, irr := true }) ∧
    (Undisturbed s c) ∧
    (c.p.staged = false) ∧
    (∀ l ∈ lanesOf (c.real o.hd), (∀ x ∈ memBase o :: (dataRegs o o.b).map Opnd.v, x.poison c.p.g l = none) ∧ (fateOf s c o false .write l).passes) ∧
    (EachAlone s c o false .write (lanesOf (c.real o.hd))) :=
  ⟨{ m0 with a := 2, b := 4 }, mkm l0 blk0 g0, c0, by decide +kernel, rdy (at_ ⟨rfl, rfl, rfl, rfl, rfl, rfl, rfl, rfl⟩) rfl (by decide +kernel), ⟨by decide, rfl⟩, by decide +kernel, by decide +kernel, by unfold EachAlone; decide +kernel⟩

theorem meets_AtomicsLeave_2 : ∃ (o : MOp), ∃ (s : State), ∃ c, 
    ((Instr.atom o).wf = true) ∧
    (Ready s c o.hd { vr := (memBase o).vregs ++ atomOpRegs o, vw := if atomNr o.sub then [] else dataRegs o o.d, irr := true }) ∧
    (Undisturbed s c) ∧
    (c.p.staged = false) ∧
    (NoEnables c o.hd) ∧
    (∀ l ∈ lanesOf (c.real o.hd), (∀ x ∈ memBase o :: (atomOpRegs o).map Opnd.v, x.poison c.p.g l = none) ∧ (fateOf s c o false .atomic l).passes) ∧
    (EachAlone s c o false .atomic (lanesOf (c.real o.hd))) :=
  ⟨{ m0 with a := 2, b := 4, d := 6, sub := 4 }, mkm l0 blk0 g0, c0, by decide +kernel, rdy (at_ ⟨rfl, rfl, rfl, rfl, rfl, rfl, rfl, rfl⟩) rfl (by decide +kernel), ⟨by decide, rfl⟩, by decide +kernel, by unfold NoEnables; decide, by decide +kernel, by unfold EachAlone; decide +kernel⟩

theorem meets_AtomicsLeave_3 : ∃ (o : MOp), ∃ (s : State), ∃ c, 
    ((Instr.dcas o).wf = true) ∧
    (Ready s c o.hd (twoTouch o 4 2)) ∧
    (Undisturbed s c) ∧
    (c.p.staged = false) ∧
    (TwoClean s c o 4) :=
  ⟨{ m0 with a := 2, b := 8, d := 4 }, mkm l0 blk0 gTwo, cx l0 blk0 gTwo, by decide +kernel, rdy (at_ ⟨rfl, rfl, rfl, rfl, rfl, rfl, rfl, rfl⟩) rfl (by decide +kernel), ⟨by decide, rfl⟩, by decide +kernel, by unfold TwoClean; decide +kernel⟩

theorem meets_AtomicsLeave_4 : ∃ (o : MOp), ∃ (s : State), ∃ c, 
    ((Instr.amov o).wf = true) ∧
    (Ready s c o.hd (twoTouch o 1 1)) ∧
    (Undisturbed s c) ∧
    (c.p.staged = false) ∧
    (TwoClean s c o 1) :=
  ⟨{ m0 with a := 2, b := 8, d := 4 }, mkm l0 blk0 gTwo, cx l0 blk0 gTwo, by decide +kernel, rdy (at_ ⟨rfl, rfl, rfl, rfl, rfl, rfl, rfl, rfl⟩) rfl (by decide +kernel), ⟨by decide, rfl⟩, by decide +kernel, by unfold TwoClean; decide +kernel⟩

theorem meets_AtomicEffects_0 : ∃ (s : State), ∃ (i : Nat), ∃ r, ∃ a, 
    (Acts s i r) ∧
    (r.kind = 0) ∧
    (r.op ≤ 11) ∧
    (r.ty ≤ 1) ∧
    (r.size = 4 ∨ r.size = 8) ∧
    (LandsPlain s r r.addr a) ∧
    (∀ b ∈ r.opnd, b < 2 ^ (8 * r.size)) :=
  ⟨sReq [req 0 [7] 1 0 4], 0, req 0 [7] 1 0 4, 0x150000, ⟨rfl, rfl, by decide +kernel⟩, by decide +kernel, by decide +kernel, by decide +kernel, by decide +kernel, ⟨0x150000, 0, by decide +kernel, rfl, by decide +kernel, by decide +kernel, by decide +kernel⟩, by decide +kernel⟩

theorem meets_AtomicEffects_1 : ∃ (s : State), ∃ (i : Nat), ∃ r, ∃ a, 
    (Acts s i r) ∧
    (r.kind = 1) ∧
    (r.opnd.getD 0 0 < 2 ^ (8 * r.size)) ∧
    (LandsPlain s r r.addr a) :=
  ⟨sReq [req 1 [0xFFFFFFFF] 1 0 4], 0, req 1 [0xFFFFFFFF] 1 0 4, 0x150000, ⟨rfl, rfl, by decide +kernel⟩, by decide +kernel, by decide +kernel, ⟨0x150000, 0, by decide +kernel, rfl, by decide +kernel, by decide +kernel, by decide +kernel⟩⟩

theorem meets_AtomicEffects_2 : ∃ (s : State), ∃ (i : Nat), ∃ r, ∃ a, 
    (Acts s i r) ∧
    (r.kind = 2) ∧
    (LandsPlain s r r.addr a) :=
  ⟨sReq [req 2 [] 1 0 4], 0, req 2 [] 1 0 4, 0x150000, ⟨rfl, rfl, by decide +kernel⟩, by decide +kernel, ⟨0x150000, 0, by decide +kernel, rfl, by decide +kernel, by decide +kernel, by decide +kernel⟩⟩

theorem meets_AtomicEffects_3 : ∃ (s : State), ∃ (i : Nat), ∃ j, ∃ a, ∃ b, ∃ k, 
    (i ≠ j) ∧
    (Acts s i a) ∧
    (Acts s j b) ∧
    (∀ x ∈ [a, b], mayMerge s a x = true ∧ mayMerge s x a = true) ∧
    (a.op ≤ 11) ∧
    (a.ty ≤ 1) ∧
    (a.size = 4 ∨ a.size = 8) ∧
    (LandsPlain s a a.addr k) ∧
    (∀ x ∈ [a, b], ∃ v, x.opnd = [v] ∧ v < 2 ^ (8 * a.size)) :=
  ⟨sReq2 [req 0 [7] 1 0 4, req 0 [9] 2 0 5], 0, 1, req 0 [7] 1 0 4, req 0 [9] 2 0 5, 0x150000, by decide +kernel, ⟨rfl, rfl, by decide +kernel⟩, ⟨rfl, rfl, by decide +kernel⟩, by decide +kernel, by decide +kernel, by decide +kernel, by decide +kernel, ⟨0x150000, 0, by decide +kernel, rfl, by decide +kernel, by decide +kernel, by decide +kernel⟩, fun x hx => (by simp only [List.mem_cons, List.not_mem_nil, or_false] at hx; rcases hx with rfl | rfl; exacts [⟨7, rfl, by decide⟩, ⟨9, rfl, by decide⟩])⟩

theorem meets_AtomicEffects_4 : ∃ (s : State), ∃ (i : Nat), ∃ r, ∃ a, ∃ b, 
    (Acts s i r) ∧
    (r.kind = 3) ∧
    (r.size = 4 ∨ r.size = 8) ∧
    (LandsPlain s r r.addr a) ∧
    (LandsPlain s r r.addr2 b) ∧
    (a + r.size ≤ b ∨ b + r.size ≤ a) ∧
    (∀ x ∈ r.opnd, x < 2 ^ (8 * r.size)) :=
  ⟨sReq [req 3 [0, 1, 0, 2] 1 0 4], 0, req 3 [0, 1, 0, 2] 1 0 4, 0x150000, 0x150100, ⟨rfl, rfl, by decide +kernel⟩, by decide +kernel, by decide +kernel, ⟨0x150000, 0, by decide +kernel, rfl, by decide +kernel, by decide +kernel, by decide +kernel⟩, ⟨0x150100, 0, by decide +kernel, rfl, by decide +kernel, by decide +kernel, by decide +kernel⟩, by decide +kernel⟩

theorem meets_AtomicEffects_5 : ∃ (s : State), ∃ (i : Nat), ∃ r, ∃ a, ∃ b, 
    (Acts s i r) ∧
    (r.kind = 4) ∧
    (r.size = 4 ∨ r.size = 8) ∧
    (LandsPlain s r r.addr a) ∧
    (LandsPlain s r r.addr2 b) ∧
    (a + r.size ≤ b ∨ b + r.size ≤ a) ∧
    (r.opnd.getD 0 0 < 2 ^ (8 * r.size)) :=
  ⟨sReq [req 4 [5] 1 0 4], 0, req 4 [5] 1 0 4, 0x150000, 0x150100, ⟨rfl, rfl, by decide +kernel⟩, by decide +kernel, by decide +kernel, ⟨0x150000, 0, by decide +kernel, rfl, by decide +kernel, by decide +kernel, by decide +kernel⟩, ⟨0x150100, 0, by decide +kernel, rfl, by decide +kernel, by decide +kernel, by decide +kernel⟩, by decide +kernel⟩

theorem meets_FencesAndHints_0 : ∃ (o : MOp), ∃ (s : State), ∃ c, 
    ((Instr.fence o).wf = true) ∧
    (Ready s c { o.hd with guard := .always } {}) :=
  ⟨{ m0 with size := .z8, scope := .dev }, mk l0 blk0 g0, c0, by decide +kernel, rdy (at_ ⟨rfl, rfl, rfl, rfl, rfl, rfl, rfl, rfl⟩) rfl (by decide +kernel)⟩

theorem meets_FencesAndHints_pref : ∃ (i : Instr), ∃ (o : MOp), ∃ (s : State), ∃ c, 
    (i = Instr.pref o ∨ i = Instr.cwb o ∨ i = Instr.cinv o) ∧
    (i.wf = true) ∧
    (Ready s c o.hd { vr := (memBase o).vregs }) :=
  ⟨.pref { m0 with size := .z8 }, { m0 with size := .z8 }, mk l0 blk0 g0, c0, .inl rfl, by decide +kernel, rdy (at_ ⟨rfl, rfl, rfl, rfl, rfl, rfl, rfl, rfl⟩) rfl (by decide +kernel)⟩

theorem meets_FencesAndHints_cwb : ∃ (i : Instr), ∃ (o : MOp), ∃ (s : State), ∃ c, 
    (i = Instr.pref o ∨ i = Instr.cwb o ∨ i = Instr.cinv o) ∧
    (i.wf = true) ∧
    (Ready s c o.hd { vr := (memBase o).vregs }) :=
  ⟨.cwb { m0 with size := .z8 }, { m0 with size := .z8 }, mk l0 blk0 g0, c0, .inr (.inl rfl), by decide +kernel, rdy (at_ ⟨rfl, rfl, rfl, rfl, rfl, rfl, rfl, rfl⟩) rfl (by decide +kernel)⟩

theorem meets_FencesAndHints_cinv : ∃ (i : Instr), ∃ (o : MOp), ∃ (s : State), ∃ c, 
    (i = Instr.pref o ∨ i = Instr.cwb o ∨ i = Instr.cinv o) ∧
    (i.wf = true) ∧
    (Ready s c o.hd { vr := (memBase o).vregs }) :=
  ⟨.cinv { m0 with size := .z8 }, { m0 with size := .z8 }, mk l0 blk0 g0, c0, .inr (.inr rfl), by decide +kernel, rdy (at_ ⟨rfl, rfl, rfl, rfl, rfl, rfl, rfl, rfl⟩) rfl (by decide +kernel)⟩

theorem meets_Pushes_0 : ∃ (o : QOp), ∃ (s : State), ∃ c, 
    ((Instr.qpush o).wf = true) ∧
    (Ready s c o.hd { vr := if o.sub % 2 = 1 then [o.b] else [], irr := true }) ∧
    (c.real o.hd ≠ 0) ∧
    (TakesPush c o.qn (if o.oce then some o.ocn else none) (if o.sub / 2 % 2 = 1 then some o.ring else none)) ∧
    (c.p.l.rec0.red = false ∨ o.qn < 4) ∧
    (o.sub % 2 = 1 → ∀ l ∈ lanesOf (c.real o.hd), c.p.g.rdVP o.b l = false) :=
  ⟨{ q0 with qn := 8, cmd := 0, sub := 3 }, mk l0 bRing g0, cx l0 bRing g0, by decide +kernel, rdy (at_ ⟨rfl, rfl, rfl, rfl, rfl, rfl, rfl, rfl⟩) rfl (by decide +kernel), by decide +kernel, ⟨rfl, by decide, by decide, fun _ h => (by cases h), fun _ h => (by cases h; decide)⟩, by decide +kernel, fun _ => (by decide +kernel)⟩

theorem meets_Pushes_1 : ∃ (o : VOp), ∃ (s : State), ∃ c, 
    ((Instr.movToQueue o).wf = true) ∧
    (Ready s c o.hd { vr := [o.a], irr := true }) ∧
    (c.real o.hd ≠ 0) ∧
    (TakesPush c (o.d - 0x3F0) none none) ∧
    (c.p.l.rec0.red = false ∨ o.d - 0x3F0 < 4) ∧
    (∀ l ∈ lanesOf (c.real o.hd), c.p.g.rdVP o.a l = false) :=
  ⟨{ v0 with oc := .queue, d := 0x3F8 }, mk l0 blk0 g0, c0, by decide +kernel, rdy (at_ ⟨rfl, rfl, rfl, rfl, rfl, rfl, rfl, rfl⟩) rfl (by decide +kernel), by decide +kernel, ⟨rfl, by decide, by decide, fun _ h => (by cases h), fun _ h => (by cases h)⟩, by decide +kernel⟩

theorem meets_Pushes_2 : ∃ (o : QOp), ∃ (s : State), ∃ c, 
    ((Instr.copy o).wf = true) ∧
    (Ready s c o.hd { irr := true }) ∧
    (c.lanes ≠ 0) ∧
    (TakesPush c o.qn (if o.oce then some o.ocn else none) (some o.ring)) ∧
    (liveLanes c.p.g &&& ~~~c.e.mask = 0) :=
  ⟨{ q0 with a := 64 }, mk l0 bRing g0, cx l0 bRing g0, by decide +kernel, rdy (at_ ⟨rfl, rfl, rfl, rfl, rfl, rfl, rfl, rfl⟩) rfl (by decide +kernel), by decide +kernel, ⟨rfl, by decide, by decide, fun _ h => (by cases h), fun _ h => (by cases h; decide)⟩, by decide +kernel⟩

theorem meets_Pops_0 : ∃ (o : QOp), ∃ (s : State), ∃ c, ∃ ws, ∃ rest, 
    ((Instr.qpop o).wf = true) ∧
    (Ready s c o.hd { vw := (List.range 4).map fun i => o.d + i, irr := true }) ∧
    (c.real o.hd ≠ 0) ∧
    (c.p.g.tm = false) ∧
    (o.qn < 12) ∧
    ((qreg c.p.g o.qn).comps = ws :: rest) ∧
    (ws.length = 4) :=
  ⟨{ q0 with qn := 8 }, mk l0 blk0 gPop, cx l0 blk0 gPop, [1, 2, 3, 4], [], by decide +kernel, rdy (at_ ⟨rfl, rfl, rfl, rfl, rfl, rfl, rfl, rfl⟩) rfl (by decide +kernel), by decide +kernel⟩

theorem meets_Pops_1 : ∃ (o : QOp), ∃ (s : State), ∃ c, 
    ((Instr.qtry o).wf = true) ∧
    (Ready s c o.hd { vw := (List.range 4).map fun i => o.d + i, pw := [o.c], irr := true }) ∧
    (c.real o.hd ≠ 0) ∧
    (c.p.g.tm = false) ∧
    (o.qn < 12) ∧
    (∀ ws ∈ (qreg c.p.g o.qn).comps, ws.length = 4) :=
  ⟨{ q0 with qn := 8 }, mk l0 blk0 g0, c0, by decide +kernel, rdy (at_ ⟨rfl, rfl, rfl, rfl, rfl, rfl, rfl, rfl⟩) rfl (by decide +kernel), by decide +kernel⟩

theorem meets_Pops_2 : ∃ (o : VOp), ∃ (s : State), ∃ c, ∃ ws, ∃ rest, 
    ((Instr.movFromQueue o).wf = true) ∧
    (Ready s c o.hd { vw := [o.d], irr := true }) ∧
    (c.real o.hd ≠ 0) ∧
    (c.p.g.tm = false) ∧
    (o.a - 0x3F0 < 12) ∧
    ((qreg c.p.g (o.a - 0x3F0)).comps = ws :: rest) ∧
    (ws ≠ []) :=
  ⟨{ v0 with oc := .queue, a := 0x3F8 }, mk l0 blk0 gPop, cx l0 blk0 gPop, [1, 2, 3, 4], [], by decide +kernel, rdy (at_ ⟨rfl, rfl, rfl, rfl, rfl, rfl, rfl, rfl⟩) rfl (by decide +kernel), by decide +kernel⟩

theorem meets_Rings_0 : ∃ (o : QOp), ∃ (s : State), ∃ c, ∃ r, 
    ((Instr.rawait o).wf = true) ∧
    (Ready s c o.hd (writeForm o.hd o.d).touch) ∧
    (c.p.g.tm = false) ∧
    (ringOf c.p o.ring = some r) ∧
    (ringFull c.p.b r = true) :=
  ⟨q0, mk l0 bRing g0, cx l0 bRing g0, ring0, by decide +kernel, rdy (at_ ⟨rfl, rfl, rfl, rfl, rfl, rfl, rfl, rfl⟩) rfl (by decide +kernel), by decide +kernel⟩

theorem meets_Rings_1 : ∃ (o : QOp), ∃ (s : State), ∃ c, ∃ r, 
    ((Instr.rarel o).wf = true) ∧
    (Ready s c o.hd { irr := true }) ∧
    (c.real o.hd ≠ 0) ∧
    (c.p.g.tm = false) ∧
    (ringOf c.p o.ring = some r) ∧
    (ringFull c.p.b r = true) :=
  ⟨q0, mk l0 bRing g0, cx l0 bRing g0, ring0, by decide +kernel, rdy (at_ ⟨rfl, rfl, rfl, rfl, rfl, rfl, rfl, rfl⟩) rfl (by decide +kernel), by decide +kernel⟩

theorem meets_Rings_2 : ∃ (o : QOp), ∃ (s : State), ∃ c, 
    ((Instr.rarelInit o).wf = true) ∧
    (Ready s c o.hd { irr := true }) ∧
    (c.real o.hd ≠ 0) ∧
    (c.p.g.tm = false) ∧
    (o.ring < c.p.l.rec0.ringn) ∧
    (∀ x, tget c.p.b.rings o.ring = some x → x.cnt = 0) ∧
    (ringNamed s c.p o.ring = false) ∧
    ((c.p.g.rdK o.a).toNat < 2 ^ 20) ∧
    ((c.p.g.rdK (o.a + 1)) &&& 0x7FFFC0F0 = 0) ∧
    ((c.p.g.rdK o.a).toNat % 16 = 0) ∧
    ((c.p.g.rdK o.a).toNat + ((c.p.g.rdK (o.a + 1)).toNat / 256 % 64 + 1) * (16 * ((c.p.g.rdK (o.a + 1)).toNat % 16 + 1)) ≤ c.p.b.asize) :=
  ⟨{ q0 with sub := 1 }, mk l0 blk0 g0, c0, by decide +kernel, rdy (at_ ⟨rfl, rfl, rfl, rfl, rfl, rfl, rfl, rfl⟩) rfl (by decide +kernel), by decide +kernel, by decide +kernel, by decide +kernel, fun _ h => (by cases h), by decide +kernel⟩

theorem meets_BarAndWait_0 : ∃ (o : BOp), ∃ (s : State), ∃ c, 
    ((Instr.wait o).wf = true) ∧
    (Ready s c o.hd {}) ∧
    (cget 0 c.p.g.oc o.ocn ≤ o.thr) :=
  ⟨b0, mk l0 blk0 g0, c0, by decide +kernel, rdy (at_ ⟨rfl, rfl, rfl, rfl, rfl, rfl, rfl, rfl⟩) rfl (by decide +kernel), by decide +kernel⟩

theorem meets_BarAndWait_1 : ∃ (o : BOp), ∃ (s : State), ∃ c, 
    ((Instr.wait o).wf = true) ∧
    (Ready s c o.hd {}) ∧
    (o.thr < cget 0 c.p.g.oc o.ocn) :=
  ⟨b0, mk l0 blk0 { g0 with oc := [(0, 1)] }, cx l0 blk0 { g0 with oc := [(0, 1)] }, by decide +kernel, rdy (at_ ⟨rfl, rfl, rfl, rfl, rfl, rfl, rfl, rfl⟩) rfl (by decide +kernel), by decide +kernel⟩

theorem meets_BarAndWait_2 : ∃ (o : BOp), ∃ (s : State), ∃ c, 
    ((Instr.bar o).wf = true) ∧
    (o.act = .arv) ∧
    (Ready s c o.hd { irr := true }) ∧
    (barFault o s c = none) ∧
    ((scopeBar s o.level (c.p.scope o.level) o.barn).latest c.gid c.e.mask ≠ (scopeBar s o.level (c.p.scope o.level) o.barn).inst + 1) :=
  ⟨{ b0 with level := .blk, barn := 15 }, mk l0 blk0 g0, c0, by decide +kernel, by decide +kernel, rdy (at_ ⟨rfl, rfl, rfl, rfl, rfl, rfl, rfl, rfl⟩) rfl (by decide +kernel), by decide +kernel⟩

theorem meets_BarAndWait_3 : ∃ (o : BOp), ∃ (s : State), ∃ c, 
    ((Instr.bar o).wf = true) ∧
    (o.act = .sync) ∧
    (Ready s c o.hd { irr := true }) ∧
    (barFault o s c = none) ∧
    ((scopeBar s o.level (c.p.scope o.level) o.barn).latest c.gid c.e.mask ≠ (scopeBar s o.level (c.p.scope o.level) o.barn).inst + 1) :=
  ⟨{ b0 with level := .grid, act := .sync, barn := 3 }, mk l0 blk0 g0, c0, by decide +kernel, by decide +kernel, rdy (at_ ⟨rfl, rfl, rfl, rfl, rfl, rfl, rfl, rfl⟩) rfl (by decide +kernel), by decide +kernel⟩

theorem meets_BarAndWait_4 : ∃ (o : BOp), ∃ (s : State), ∃ c, 
    ((Instr.bar o).wf = true) ∧
    (o.act = .wait) ∧
    (Ready s c o.hd {}) ∧
    (barFault o s c = none) :=
  ⟨{ b0 with act := .wait }, mk l0 blk0 g0, c0, by decide +kernel, by decide +kernel, rdy (at_ ⟨rfl, rfl, rfl, rfl, rfl, rfl, rfl, rfl⟩) rfl (by decide +kernel), by decide +kernel⟩

theorem meets_TableInstructions_0 : ∃ (o : SOp), ∃ (s : State), ∃ c, 
    ((Instr.tlbinvPage o).wf = true) ∧
    (Ready s c o.hd {}) ∧
    (c.real o.hd ≠ 0) ∧
    (cget 0 c.p.g.oc 7 < 65535) :=
  ⟨s0, mk l0 blk0 g0, c0, by decide +kernel, rdy (at_ ⟨rfl, rfl, rfl, rfl, rfl, rfl, rfl, rfl⟩) rfl (by decide +kernel), by decide +kernel⟩

theorem meets_TableInstructions_1 : ∃ (o : SOp), ∃ (s : State), ∃ c, 
    ((Instr.tlbinvAsid o).wf = true) ∧
    (Ready s c o.hd {}) ∧
    (c.real o.hd ≠ 0) ∧
    (cget 0 c.p.g.oc 7 < 65535) :=
  ⟨{ s0 with sub := 1 }, mk l0 blk0 g0, c0, by decide +kernel, rdy (at_ ⟨rfl, rfl, rfl, rfl, rfl, rfl, rfl, rfl⟩) rfl (by decide +kernel), by decide +kernel⟩

theorem meets_TableInstructions_2 : ∃ (o : SOp), ∃ (s : State), ∃ c, 
    ((Instr.rbind o).wf = true) ∧
    (Ready s c o.hd {}) ∧
    (c.real o.hd ≠ 0) ∧
    (c.p.g.tm = false) ∧
    (c.p.l.rec0.red = false) :=
  ⟨s0, mk l0 blk0 g0, c0, by decide +kernel, rdy (at_ ⟨rfl, rfl, rfl, rfl, rfl, rfl, rfl, rfl⟩) rfl (by decide +kernel), by decide +kernel⟩

theorem meets_TableInstructions_3 : ∃ (o : SOp), ∃ (s : State), ∃ c, 
    ((Instr.runbind o).wf = true) ∧
    (Ready s c o.hd {}) ∧
    (c.real o.hd ≠ 0) ∧
    (c.p.g.tm = false) ∧
    (c.p.l.rec0.red = false) :=
  ⟨s0, mk l0 blk0 g0, c0, by decide +kernel, rdy (at_ ⟨rfl, rfl, rfl, rfl, rfl, rfl, rfl, rfl⟩) rfl (by decide +kernel), by decide +kernel⟩

theorem meets_TableInstructions_4 : ∃ (o : SOp), ∃ (s : State), ∃ c, 
    ((Instr.pmap o).wf = true) ∧
    (Ready s c o.hd { irr := true }) ∧
    (c.real o.hd ≠ 0) ∧
    (c.p.g.tm = false) ∧
    (c.p.l.rec0.red = false) ∧
    (mapBusy s c = false) :=
  ⟨s0, mk l0 blk0 g0, c0, by decide +kernel, rdy (at_ ⟨rfl, rfl, rfl, rfl, rfl, rfl, rfl, rfl⟩) rfl (by decide +kernel), by decide +kernel⟩

theorem meets_TableInstructions_5 : ∃ (o : SOp), ∃ (s : State), ∃ c, 
    ((Instr.pdrop o).wf = true) ∧
    (Ready s c o.hd { irr := true }) ∧
    (c.real o.hd ≠ 0) ∧
    (c.p.g.tm = false) ∧
    (c.p.l.rec0.red = false) ∧
    (mapBusy s c = false) ∧
    (dropReady s (dropWin s c (o.imm.toNat % 4)) c.p.l.rec0.asid (c.p.g.rdK2 o.a).toNat (c.p.g.rdK o.b).toNat = true) :=
  ⟨s0, mk l0 blk0 g0, c0, by decide +kernel, rdy (at_ ⟨rfl, rfl, rfl, rfl, rfl, rfl, rfl, rfl⟩) rfl (by decide +kernel), by decide +kernel⟩

/-- A map window of one 64 KiB page at 2^30, on a pool of two frames, with the page's leaf. -/
def sMap (leaf : Nat) (g : Group) : State :=
  let s := (((mkm l0 blk0 g).wrMem 0x4010 (bytesOf (0x6000 + 1) 16)).wrMem 0x6000 (bytesOf (0x8000 + 1) 16)).wrMem 0x8000 (bytesOf leaf 16)
  let s := ((s.wrReg (rMW 0 0 0) 0x4000).wrReg (rMW 0 0 1) 0x8000C000).wrReg (rPPCFG 0) 0x80000000
  (((s.wrReg (rPPBASEL 0) 0xA000).wrReg (rPPCAP 0) 4).wrReg (rPPCNT 0) 2).wrMem 0xA010 (bytesOf (0x200000 + 0x40040280 * 2 ^ 64) 16)
def gMap : Group := { g0 with k := [(4, 0x40000000), (6, 1)] }
theorem meets_TableInstructions_mapped : ∃ (o : SOp) (s : State) (c : Ctx) (w : MapWin) (a : Nat), (Instr.pmap o).wf = true ∧
    Ready s c o.hd { irr := true } ∧ c.real o.hd ≠ 0 ∧ c.p.g.tm = false ∧ c.p.l.rec0.red = false ∧ mapBusy s c = false ∧
    mapWin s c.p.l.rec0.asid (o.imm.toNat % 4) = some w ∧ w.holds (c.p.g.rdK2 o.a).toNat 1 = true ∧
    slotOf s c.p.l.rec0.asid (c.p.g.rdK2 o.a).toNat w.level = .at_ a ∧ bitOf (rdEntry s a).1 0 = false ∧ poolCnt s w.pool ≠ 0 :=
  ⟨{ s0 with a := 4, d := 8 }, sMap 0 gMap, cx l0 blk0 gMap, ⟨0x40000000, 1, 5, 0, 3, 0⟩, 0x8000, by decide +kernel,
    rdy (at_ ⟨rfl, rfl, rfl, rfl, rfl, rfl, rfl, rfl⟩) rfl (by decide +kernel), by decide +kernel⟩
theorem meets_TableInstructions_dropped : ∃ (o : SOp) (s : State) (c : Ctx) (w : MapWin) (p : Nat × Nat), (Instr.pdrop o).wf = true ∧
    Ready s c o.hd { irr := true } ∧ c.real o.hd ≠ 0 ∧ c.p.g.tm = false ∧ c.p.l.rec0.red = false ∧ mapBusy s c = false ∧
    dropReady s (dropWin s c (o.imm.toNat % 4)) c.p.l.rec0.asid (c.p.g.rdK2 o.a).toNat (c.p.g.rdK o.b).toNat = true ∧
    dropWin s c (o.imm.toNat % 4) = some w ∧ w.holds (c.p.g.rdK2 o.a).toNat (c.p.g.rdK o.b).toNat = true ∧
    p ∈ dropPages s (some w) c.p.l.rec0.asid (c.p.g.rdK2 o.a).toNat (c.p.g.rdK o.b).toNat :=
  ⟨{ s0 with a := 4, b := 6, d := 8 }, sMap (0x200003 + 0x40040280 * 2 ^ 64) gMap, cx l0 blk0 gMap, ⟨0x40000000, 1, 5, 0, 3, 0⟩, (0x8000, 0x40000000),
    by decide +kernel, rdy (at_ ⟨rfl, rfl, rfl, rfl, rfl, rfl, rfl, rfl⟩) rfl (by decide +kernel), by decide +kernel⟩

theorem meets_PoisonPasses : ∃ i f, ∃ s c, i.wf = true ∧ laneForm i = some f ∧ f.strict = true ∧ f.late = false ∧ f.uniform = false ∧
    Ready s c f.hd f.touch ∧ NoEnables c f.hd :=
  ⟨.iadd v0, _, mk l0 blk0 g0, c0, by decide, rfl, rfl, rfl, rfl, rdy (at_ ⟨rfl, rfl, rfl, rfl, rfl, rfl, rfl, rfl⟩) rfl (by decide),
    by unfold NoEnables; decide⟩
theorem meets_DrawsAndStreams_0 : ∃ i f, ∃ s c, i.wf = true ∧ sidecarForm i = some f ∧ f.draws = true ∧ Ready s c f.hd f.touch ∧
    NoEnables c f.hd :=
  ⟨.rndu v0, _, mk l0 blk0 g0, c0, by decide, rfl, rfl, rdy (at_ ⟨rfl, rfl, rfl, rfl, rfl, rfl, rfl, rfl⟩) rfl (by decide),
    by unfold NoEnables; decide⟩
theorem meets_SidecarResults_3 : ∃ i f, ∃ D, i.wf = true ∧ sidecarForm i = some f ∧ (∃ o, (i = .dvar o ∨ i = .dstd o) ∧ D = Opnd.v o.d) :=
  ⟨.dvar { v0 with ty := .f32 }, _, _, by decide, rfl, _, .inl rfl, rfl⟩

theorem meets_DrawsAndStreams_2 : ∃ (o : VOp), ∃ (s : State), ∃ c, 
    ((Instr.sctr o).wf = true) ∧
    (Ready s c o.hd (touchOf [Opnd.v o.a, if o.minor = 0 then Opnd.v o.b else .none] [])) ∧
    (∀ l ∈ lanesOf (c.real o.hd), c.p.g.rdVP o.a l = false ∧ (o.minor = 0 → c.p.g.rdVP o.b l = false)) :=
  ⟨v0, mk l0 blk0 g0, c0, by decide +kernel, rdy (at_ ⟨rfl, rfl, rfl, rfl, rfl, rfl, rfl, rfl⟩) rfl (by decide +kernel), by decide +kernel⟩

/-- Two ready groups of one slot whose spans meet: the one with the lower index ranks first. -/
def sTwo : State := { mkm l0 blk0 g0 with groups := [(4, g0), (5, { g0 with rgi := 1 })], blocks := [(3, { blk0 with groups := [4, 5] })] }
def pLate : Party := ⟨5, { g0 with rgi := 1 }, { blk0 with groups := [4, 5] }, ga0, l0⟩
theorem meets_StepsRunInstructions_0 : ∃ s s1 gid p eid e, NextAct s (.issue gid) s1 ∧ Offers s1 gid p eid e ∧
    gid ∉ issueSet s1 p.b.core p.g.slot :=
  ⟨{ sTwo with agenda := [.issue 5] }, sTwo, 5, pLate, 0, e0, .inl ⟨rfl, rfl⟩,
    ⟨rfl, rfl, rfl, by decide +kernel, by decide +kernel, by decide +kernel, rfl, by decide +kernel⟩, by decide +kernel⟩
theorem meets_StepsRunInstructions_1 : ∃ s core slot x, x ∈ slotCands s core slot ∧ ∀ y ∈ slotCands s core slot, y.gid ≠ x.gid → x.first y = true :=
  ⟨sTwo, 0, 0, ⟨4, 0, 0, 0, 64⟩, by decide +kernel⟩
theorem meets_StepsRunInstructions_2 : ∃ s core slot x, x ∈ slotCands s core slot ∧ x.gid ∉ issueSet s core slot :=
  ⟨sTwo, 0, 0, ⟨5, 0, 1, 0, 64⟩, by decide +kernel⟩
theorem meets_StepsRunInstructions_3 : ∃ s s1 gid p eid e l i, NextAct s (.issue gid) s1 ∧ MayIssue s1 gid p eid e ∧ LineReady s1 p e l ∧
    tileWord (l.words.getD (pcSlot e.pc) 0) = false ∧ decode (l.words.getD (pcSlot e.pc) 0) = .ok i ∧
    (bitOf (l.words.getD (pcSlot e.pc) 0) 95 = true → markerWaits p.g e.mask = false) :=
  ⟨{ (mkm l0 blk0 g0).wrMem 0x140000 (placeLine 0x7EA400000000000000000000) with agenda := [.issue 4] },
    (mkm l0 blk0 g0).wrMem 0x140000 (placeLine 0x7EA400000000000000000000), 4, c0.p, 0, e0, lineOf 0x7EA400000000000000000000, .nop j0,
    .inl ⟨rfl, rfl⟩, ⟨⟨rfl, rfl, rfl, by decide +kernel, by decide +kernel, by decide +kernel, rfl, by decide +kernel⟩, by decide +kernel, by decide +kernel⟩,
    ⟨by decide, by decide +kernel, by decide +kernel, by decide +kernel, by decide +kernel⟩, by decide +kernel, by decide +kernel, fun _ => by decide +kernel⟩
theorem meets_EncodingFaults_0 : ∃ s s1 gid p eid e l err, NextAct s (.issue gid) s1 ∧ MayIssue s1 gid p eid e ∧ LineReady s1 p e l ∧
    tileWord (l.words.getD (pcSlot e.pc) 0) = false ∧ decode (l.words.getD (pcSlot e.pc) 0) = .error err := by
  have h : (match decode 0x60A400000000000000000000 with
    | .error _ => true
    | _ => false) = true := by decide +kernel
  cases hd : decode 0x60A400000000000000000000 with
  | ok _ => rw [hd] at h; cases h
  | error err =>
    refine ⟨{ (mkm l0 blk0 g0).wrMem 0x140000 (placeLine 0x60A400000000000000000000) with agenda := [.issue 4] },
      (mkm l0 blk0 g0).wrMem 0x140000 (placeLine 0x60A400000000000000000000), 4, c0.p, 0, e0, lineOf 0x60A400000000000000000000, err,
      .inl ⟨rfl, rfl⟩, ⟨⟨rfl, rfl, rfl, by decide +kernel, by decide +kernel, by decide +kernel, rfl, by decide +kernel⟩, by decide +kernel, by decide +kernel⟩,
      ⟨by decide, by decide +kernel, by decide +kernel, by decide +kernel, by decide +kernel⟩, by decide +kernel, ?_⟩
    have hw : (lineOf 0x60A400000000000000000000).words.getD (pcSlot e0.pc) 0 = 0x60A400000000000000000000 := by decide +kernel
    rw [hw, hd]
theorem meets_StepsRunInstructions_5 : ∃ s s1 i, NextAct s (.event i) s1 ∧ isEvent i = true :=
  ⟨sIn (.event (.portClock 0)), sM, .portClock 0, .inl ⟨rfl, rfl⟩, rfl⟩

theorem meets_EncodingFaults_1 : ∃ (s : State), ∃ c, ∃ (w : IWord), 
    (ctx? s = some c) ∧
    (c.lanes ≠ 0) :=
  ⟨mk l0 blk0 g0, c0, 0, at_ ⟨rfl, rfl, rfl, rfl, rfl, rfl, rfl, rfl⟩, by decide +kernel⟩

theorem meets_EncodingFaults_2 : ∃ (s : State), ∃ c, ∃ (w : IWord), 
    (tctx? s = some c) :=
  ⟨sTile, cTile, 0, rfl⟩

theorem meets_ControlRegisterReads_0 : ∃ (o : SOp), ∃ (s : State), ∃ c, 
    ((Instr.csrr o).wf = true) ∧
    (o.sub = 0) ∧
    (Ready s c o.hd (writeForm o.hd o.d).touch) :=
  ⟨{ s0 with csr := 0 }, mk l0 blk0 g0, c0, by decide +kernel, by decide +kernel, rdy (at_ ⟨rfl, rfl, rfl, rfl, rfl, rfl, rfl, rfl⟩) rfl (by decide +kernel)⟩

theorem meets_ControlRegisterReads_1 : ∃ (o : SOp), ∃ (s : State), ∃ c, ∃ l, 
    ((Instr.csrr o).wf = true) ∧
    (o.sub = 1) ∧
    (Ready s c o.hd {}) ∧
    (lowLane (c.real o.hd) = some l) :=
  ⟨{ s0 with sub := 1, csr := 1 }, mk l0 blk0 g0, c0, 0, by decide +kernel, by decide +kernel, rdy (at_ ⟨rfl, rfl, rfl, rfl, rfl, rfl, rfl, rfl⟩) rfl (by decide +kernel), by decide +kernel⟩

theorem meets_ControlRegisterWrites_0 : ∃ (o : SOp), ∃ (s : State), ∃ c, 
    ((Instr.csrw o).wf = true) ∧
    (o.csr ≤ 4) ∧
    (Ready s c o.hd { vr := (if o.sub = 0 then Opnd.v o.a else .k o.a).vregs }) ∧
    (o.sub = 0 → ∀ l ∈ lanesOf (c.real o.hd), c.p.g.rdVP o.a l = false) :=
  ⟨{ s0 with csr := 4 }, mk l0 blk0 g0, c0, by decide +kernel, by decide +kernel, rdy (at_ ⟨rfl, rfl, rfl, rfl, rfl, rfl, rfl, rfl⟩) rfl (by decide +kernel), by decide +kernel⟩

theorem meets_ControlRegisterWrites_1 : ∃ (o : SOp), ∃ (s : State), ∃ c, ∃ l, 
    ((Instr.csrw o).wf = true) ∧
    (Ready s c o.hd { vr := (if o.sub = 0 then Opnd.v o.a else .k o.a).vregs }) ∧
    (o.sub = 0 → ∀ q ∈ lanesOf (c.real o.hd), c.p.g.rdVP o.a q = false) ∧
    (lowLane (c.real o.hd) = some l) :=
  ⟨{ s0 with csr := 0x20 }, mk l0 blk0 inTrap, cx l0 blk0 inTrap, 0, by decide +kernel, rdy (at_ ⟨rfl, rfl, rfl, rfl, rfl, rfl, rfl, rfl⟩) rfl (by decide +kernel), by decide +kernel⟩

theorem meets_TrapsTaken_0 : ∃ s gid eid, ∃ (t : Trap), ∃ p e, party? s gid = some p ∧ (∀ r ∈ s.areqs, r.gid ≠ gid) ∧ p.g.inflight = [] ∧
    tget p.g.entries eid = some e ∧ t.code < 256 ∧ t.prqi < 64 ∧ t.flags < 32 ∧ p.g.tm = false ∧ p.l.rec0.thnd ≠ 0 :=
  ⟨mk l0 blk0 g0, 4, 0, { code := 255, prqi := 63, flags := 31 }, (cx l0 blk0 g0).p, e0, rfl, fun r h => by (cases h), rfl, rfl, by decide,
    by decide, by decide, rfl, by decide⟩

theorem meets_TrapsTaken_1 : ∃ (o : SOp), ∃ (s : State), ∃ c, 
    ((Instr.trap o).wf = true) ∧
    (Ready s c o.hd {}) ∧
    (c.real o.hd ≠ 0) ∧
    (c.p.g.tm = false) :=
  ⟨s0, mk l0 blk0 g0, c0, by decide +kernel, rdy (at_ ⟨rfl, rfl, rfl, rfl, rfl, rfl, rfl, rfl⟩) rfl (by decide +kernel), by decide +kernel⟩

theorem meets_TrapsTaken_2 : ∃ (o : SOp), ∃ (s : State), ∃ c, 
    ((Instr.bpt o).wf = true) ∧
    (Ready s c o.hd {}) ∧
    (c.real o.hd ≠ 0) :=
  ⟨s0, mk l0 blk0 g0, c0, by decide +kernel, rdy (at_ ⟨rfl, rfl, rfl, rfl, rfl, rfl, rfl, rfl⟩) rfl (by decide +kernel), by decide +kernel⟩

theorem meets_TrapReturns_0 : ∃ (o : SOp), ∃ (s : State), ∃ c, 
    ((Instr.trapPost o).wf = true) ∧
    (Ready s c o.hd {}) ∧
    (c.p.g.tm = true) ∧
    (c.active o.hd ≠ 0) ∧
    (postRoom s = true) ∧
    (c.p.l.rec0.red = false) :=
  ⟨{ s0 with sub := 1 }, mk l0 blk0 inTrap, cx l0 blk0 inTrap, by decide +kernel, rdy (at_ ⟨rfl, rfl, rfl, rfl, rfl, rfl, rfl, rfl⟩) rfl (by decide +kernel), by decide +kernel⟩

theorem meets_TrapReturns_1 : ∃ (o : SOp), ∃ (s : State), ∃ c, ∃ (eid : Nat), ∃ e, 
    ((Instr.rtrNext o).wf = true) ∧
    (Ready s c o.hd {}) ∧
    (c.p.g.tm = true) ∧
    (c.active o.hd ≠ 0) ∧
    (pcLegal c.p.g.tpc = true) ∧
    (c.p.g.retained = some eid) ∧
    (tget c.p.g.entries eid = some e) ∧
    (e.handler = false) :=
  ⟨{ s0 with mode := 1 }, mk l0 blk0 gRt, cx l0 blk0 gRt, 1, e0, by decide +kernel, rdy (at_ ⟨rfl, rfl, rfl, rfl, rfl, rfl, rfl, rfl⟩) rfl (by decide +kernel), by decide +kernel⟩

theorem meets_TrapReturns_2 : ∃ (o : SOp), ∃ (s : State), ∃ c, ∃ (eid : Nat), ∃ e, 
    ((Instr.rtrRestart o).wf = true) ∧
    (Ready s c o.hd {}) ∧
    (c.p.g.tm = true) ∧
    (c.active o.hd ≠ 0) ∧
    (c.p.g.retained = some eid) ∧
    (tget c.p.g.entries eid = some e) ∧
    (e.handler = false) :=
  ⟨s0, mk l0 blk0 gRt, cx l0 blk0 gRt, 1, e0, by decide +kernel, rdy (at_ ⟨rfl, rfl, rfl, rfl, rfl, rfl, rfl, rfl⟩) rfl (by decide +kernel), by decide +kernel⟩

theorem meets_TrapReturns_rtrKill : ∃ (o : SOp), ∃ (i : Instr), ∃ (s : State), ∃ c, 
    (i = Instr.rtrKill o ∨ (i = Instr.rtrNext o ∧ pcLegal c.p.g.tpc = false)) ∧
    (i.wf = true) ∧
    (Ready s c o.hd {}) ∧
    (c.p.g.tm = true) ∧
    (c.active o.hd ≠ 0) :=
  ⟨{ s0 with mode := 2 }, .rtrKill { s0 with mode := 2 }, mk l0 blk0 gBad, cx l0 blk0 gBad, .inl rfl, by decide +kernel, rdy (at_ ⟨rfl, rfl, rfl, rfl, rfl, rfl, rfl, rfl⟩) rfl (by decide +kernel), by decide +kernel⟩

theorem meets_TrapReturns_rtrNext : ∃ (o : SOp), ∃ (i : Instr), ∃ (s : State), ∃ c, 
    (i = Instr.rtrKill o ∨ (i = Instr.rtrNext o ∧ pcLegal c.p.g.tpc = false)) ∧
    (i.wf = true) ∧
    (Ready s c o.hd {}) ∧
    (c.p.g.tm = true) ∧
    (c.active o.hd ≠ 0) :=
  ⟨{ s0 with mode := 1 }, .rtrNext { s0 with mode := 1 }, mk l0 blk0 gBad, cx l0 blk0 gBad, .inr ⟨rfl, by decide⟩, by decide +kernel, rdy (at_ ⟨rfl, rfl, rfl, rfl, rfl, rfl, rfl, rfl⟩) rfl (by decide +kernel), by decide +kernel⟩

theorem meets_TrapReturns_4 : ∃ (o : SOp), ∃ (s : State), ∃ c, ∃ l, ∃ d, 
    ((Instr.dbgw o).wf = true) ∧
    (Ready s c o.hd { vr := (if o.sub = 0 then Opnd.v o.a else .k o.a).vregs }) ∧
    (lowLane (c.real o.hd) = some l) ∧
    (c.p.l.rec0.dbgen = true) ∧
    (c.p.l.rec0.red = false) ∧
    (c.p.ga.copy = 0) ∧
    (tget s.dbg (o.imm.toNat / 16 % 2) = some d) ∧
    (d.full.testBit (o.imm.toNat % 16) = false) :=
  ⟨{ s0 with imm := 26 }, mk l0 blk0 g0, cx l0 blk0 g0, 0, dbg0, by decide +kernel, rdy (at_ ⟨rfl, rfl, rfl, rfl, rfl, rfl, rfl, rfl⟩) rfl (by decide +kernel), by decide +kernel⟩

theorem meets_TrapReturns_5 : ∃ (o : SOp), ∃ (s : State), ∃ c, ∃ l, ∃ d, 
    ((Instr.dbgw o).wf = true) ∧
    (Ready s c o.hd { vr := (if o.sub = 0 then Opnd.v o.a else .k o.a).vregs }) ∧
    (lowLane (c.real o.hd) = some l) ∧
    (c.p.l.rec0.dbgen = true) ∧
    (tget s.dbg (o.imm.toNat / 16 % 2) = some d) ∧
    (d.full.testBit (o.imm.toNat % 16) = true) :=
  ⟨{ s0 with imm := 26 }, { mk l0 blk0 g0 with dbg := [(1, { dbg0 with full := 2 ^ 10 })] }, cx l0 blk0 g0, 0, { dbg0 with full := 2 ^ 10 }, by decide +kernel, rdy (at_ ⟨rfl, rfl, rfl, rfl, rfl, rfl, rfl, rfl⟩) rfl (by decide +kernel), by decide +kernel⟩

theorem meets_PrivilegeFaults_rtrRestart : ∃ (i : Instr), ∃ (o : SOp), ∃ (s : State), ∃ c, 
    (i = Instr.rtrRestart o ∨ i = Instr.rtrNext o ∨ i = Instr.rtrKill o ∨ i = Instr.trapPost o) ∧
    (Ready s c o.hd {}) ∧
    (c.real o.hd ≠ 0) ∧
    (c.p.g.tm = false) :=
  ⟨.rtrRestart (s0), s0, mk l0 blk0 g0, c0, .inl rfl, rdy (at_ ⟨rfl, rfl, rfl, rfl, rfl, rfl, rfl, rfl⟩) rfl (by decide +kernel), by decide +kernel⟩

theorem meets_PrivilegeFaults_rtrNext : ∃ (i : Instr), ∃ (o : SOp), ∃ (s : State), ∃ c, 
    (i = Instr.rtrRestart o ∨ i = Instr.rtrNext o ∨ i = Instr.rtrKill o ∨ i = Instr.trapPost o) ∧
    (Ready s c o.hd {}) ∧
    (c.real o.hd ≠ 0) ∧
    (c.p.g.tm = false) :=
  ⟨.rtrNext (s0), s0, mk l0 blk0 g0, c0, .inr (.inl rfl), rdy (at_ ⟨rfl, rfl, rfl, rfl, rfl, rfl, rfl, rfl⟩) rfl (by decide +kernel), by decide +kernel⟩

theorem meets_PrivilegeFaults_rtrKill : ∃ (i : Instr), ∃ (o : SOp), ∃ (s : State), ∃ c, 
    (i = Instr.rtrRestart o ∨ i = Instr.rtrNext o ∨ i = Instr.rtrKill o ∨ i = Instr.trapPost o) ∧
    (Ready s c o.hd {}) ∧
    (c.real o.hd ≠ 0) ∧
    (c.p.g.tm = false) :=
  ⟨.rtrKill (s0), s0, mk l0 blk0 g0, c0, .inr (.inr (.inl rfl)), rdy (at_ ⟨rfl, rfl, rfl, rfl, rfl, rfl, rfl, rfl⟩) rfl (by decide +kernel), by decide +kernel⟩

theorem meets_PrivilegeFaults_trapPost : ∃ (i : Instr), ∃ (o : SOp), ∃ (s : State), ∃ c, 
    (i = Instr.rtrRestart o ∨ i = Instr.rtrNext o ∨ i = Instr.rtrKill o ∨ i = Instr.trapPost o) ∧
    (Ready s c o.hd {}) ∧
    (c.real o.hd ≠ 0) ∧
    (c.p.g.tm = false) :=
  ⟨.trapPost (s0), s0, mk l0 blk0 g0, c0, .inr (.inr (.inr rfl)), rdy (at_ ⟨rfl, rfl, rfl, rfl, rfl, rfl, rfl, rfl⟩) rfl (by decide +kernel), by decide +kernel⟩

theorem meets_PrivilegeFaults_trap : ∃ (i : Instr), ∃ (o : SOp), ∃ (s : State), ∃ c, 
    (i = Instr.trap o ∨ i = Instr.rbind o ∨ i = Instr.runbind o) ∧
    (Ready s c o.hd {}) ∧
    (c.real o.hd ≠ 0) ∧
    (c.p.g.tm = true) :=
  ⟨.trap (s0), s0, mk l0 blk0 inTrap, cx l0 blk0 inTrap, .inl rfl, rdy (at_ ⟨rfl, rfl, rfl, rfl, rfl, rfl, rfl, rfl⟩) rfl (by decide +kernel), by decide +kernel⟩

theorem meets_PrivilegeFaults_rbind : ∃ (i : Instr), ∃ (o : SOp), ∃ (s : State), ∃ c, 
    (i = Instr.trap o ∨ i = Instr.rbind o ∨ i = Instr.runbind o) ∧
    (Ready s c o.hd {}) ∧
    (c.real o.hd ≠ 0) ∧
    (c.p.g.tm = true) :=
  ⟨.rbind (s0), s0, mk l0 blk0 inTrap, cx l0 blk0 inTrap, .inr (.inl rfl), rdy (at_ ⟨rfl, rfl, rfl, rfl, rfl, rfl, rfl, rfl⟩) rfl (by decide +kernel), by decide +kernel⟩

theorem meets_PrivilegeFaults_runbind : ∃ (i : Instr), ∃ (o : SOp), ∃ (s : State), ∃ c, 
    (i = Instr.trap o ∨ i = Instr.rbind o ∨ i = Instr.runbind o) ∧
    (Ready s c o.hd {}) ∧
    (c.real o.hd ≠ 0) ∧
    (c.p.g.tm = true) :=
  ⟨.runbind (s0), s0, mk l0 blk0 inTrap, cx l0 blk0 inTrap, .inr (.inr rfl), rdy (at_ ⟨rfl, rfl, rfl, rfl, rfl, rfl, rfl, rfl⟩) rfl (by decide +kernel), by decide +kernel⟩

theorem meets_PrivilegeFaults_pmap : ∃ (i : Instr), ∃ (o : SOp), ∃ (s : State), ∃ c, 
    (i = Instr.pmap o ∨ i = Instr.pdrop o) ∧
    (Ready s c o.hd { irr := true }) ∧
    (c.real o.hd ≠ 0) ∧
    (c.p.g.tm = true) :=
  ⟨.pmap (s0), s0, mk l0 blk0 inTrap, cx l0 blk0 inTrap, .inl rfl, rdy (at_ ⟨rfl, rfl, rfl, rfl, rfl, rfl, rfl, rfl⟩) rfl (by decide +kernel), by decide +kernel⟩

theorem meets_PrivilegeFaults_pdrop : ∃ (i : Instr), ∃ (o : SOp), ∃ (s : State), ∃ c, 
    (i = Instr.pmap o ∨ i = Instr.pdrop o) ∧
    (Ready s c o.hd { irr := true }) ∧
    (c.real o.hd ≠ 0) ∧
    (c.p.g.tm = true) :=
  ⟨.pdrop (s0), s0, mk l0 blk0 inTrap, cx l0 blk0 inTrap, .inr rfl, rdy (at_ ⟨rfl, rfl, rfl, rfl, rfl, rfl, rfl, rfl⟩) rfl (by decide +kernel), by decide +kernel⟩

theorem meets_PrivilegeFaults_3 : ∃ (o : SOp), ∃ (s : State), ∃ c, 
    (Ready s c o.hd {}) ∧
    (c.real o.hd ≠ 0) ∧
    (¬(c.p.g.tm = true ∧ c.p.l.rec0.sys = true)) :=
  ⟨s0, mk l0 blk0 g0, c0, rdy (at_ ⟨rfl, rfl, rfl, rfl, rfl, rfl, rfl, rfl⟩) rfl (by decide +kernel), by decide +kernel⟩

theorem meets_PrivilegeFaults_place : ∃ (o : SOp), ∃ (s : State), ∃ c, 
    (Ready s c o.hd {}) ∧
    (c.real o.hd ≠ 0) ∧
    (¬(c.p.g.tm = true ∧ c.p.l.rec0.sys = true)) :=
  ⟨s0, mk lUser blk0 inTrap, cx lUser blk0 inTrap, rdy (at_ ⟨rfl, rfl, rfl, rfl, rfl, rfl, rfl, rfl⟩) rfl (by decide +kernel), by decide +kernel⟩

theorem meets_PrivilegeFaults_qpush : ∃ (i : Instr), ∃ (o : QOp), ∃ t, ∃ (s : State), ∃ c, 
    ((i = Instr.qpush o ∧ t = { vr := if o.sub % 2 = 1 then [o.b] else [], irr := true }) ∨ (i = Instr.qpop o ∧ t = { vw := (List.range 4).map fun j => o.d + j, irr := true }) ∨ (i = Instr.qtry o ∧ t = { vw := (List.range 4).map fun j => o.d + j, pw := [o.c], irr := true }) ∨ (i = Instr.rawait o ∧ t = { vw := [o.d] }) ∨ (i = Instr.rarel o ∧ t = { irr := true }) ∨ (i = Instr.rarelInit o ∧ t = { irr := true })) ∧
    (Ready s c o.hd t) ∧
    (c.real o.hd ≠ 0) ∧
    (c.p.g.tm = true) :=
  ⟨.qpush (q0), q0, { irr := true }, mk l0 blk0 inTrap, cx l0 blk0 inTrap, .inl ⟨rfl, rfl⟩, rdy (at_ ⟨rfl, rfl, rfl, rfl, rfl, rfl, rfl, rfl⟩) rfl (by decide +kernel), by decide +kernel⟩

theorem meets_PrivilegeFaults_qpop : ∃ (i : Instr), ∃ (o : QOp), ∃ t, ∃ (s : State), ∃ c, 
    ((i = Instr.qpush o ∧ t = { vr := if o.sub % 2 = 1 then [o.b] else [], irr := true }) ∨ (i = Instr.qpop o ∧ t = { vw := (List.range 4).map fun j => o.d + j, irr := true }) ∨ (i = Instr.qtry o ∧ t = { vw := (List.range 4).map fun j => o.d + j, pw := [o.c], irr := true }) ∨ (i = Instr.rawait o ∧ t = { vw := [o.d] }) ∨ (i = Instr.rarel o ∧ t = { irr := true }) ∨ (i = Instr.rarelInit o ∧ t = { irr := true })) ∧
    (Ready s c o.hd t) ∧
    (c.real o.hd ≠ 0) ∧
    (c.p.g.tm = true) :=
  ⟨.qpop (q0), q0, { vw := (List.range 4).map fun j => q0.d + j, irr := true }, mk l0 blk0 inTrap, cx l0 blk0 inTrap, .inr (.inl ⟨rfl, rfl⟩), rdy (at_ ⟨rfl, rfl, rfl, rfl, rfl, rfl, rfl, rfl⟩) rfl (by decide +kernel), by decide +kernel⟩

theorem meets_PrivilegeFaults_qtry : ∃ (i : Instr), ∃ (o : QOp), ∃ t, ∃ (s : State), ∃ c, 
    ((i = Instr.qpush o ∧ t = { vr := if o.sub % 2 = 1 then [o.b] else [], irr := true }) ∨ (i = Instr.qpop o ∧ t = { vw := (List.range 4).map fun j => o.d + j, irr := true }) ∨ (i = Instr.qtry o ∧ t = { vw := (List.range 4).map fun j => o.d + j, pw := [o.c], irr := true }) ∨ (i = Instr.rawait o ∧ t = { vw := [o.d] }) ∨ (i = Instr.rarel o ∧ t = { irr := true }) ∨ (i = Instr.rarelInit o ∧ t = { irr := true })) ∧
    (Ready s c o.hd t) ∧
    (c.real o.hd ≠ 0) ∧
    (c.p.g.tm = true) :=
  ⟨.qtry (q0), q0, { vw := (List.range 4).map fun j => q0.d + j, pw := [q0.c], irr := true }, mk l0 blk0 inTrap, cx l0 blk0 inTrap, .inr (.inr (.inl ⟨rfl, rfl⟩)), rdy (at_ ⟨rfl, rfl, rfl, rfl, rfl, rfl, rfl, rfl⟩) rfl (by decide +kernel), by decide +kernel⟩

theorem meets_PrivilegeFaults_rawait : ∃ (i : Instr), ∃ (o : QOp), ∃ t, ∃ (s : State), ∃ c, 
    ((i = Instr.qpush o ∧ t = { vr := if o.sub % 2 = 1 then [o.b] else [], irr := true }) ∨ (i = Instr.qpop o ∧ t = { vw := (List.range 4).map fun j => o.d + j, irr := true }) ∨ (i = Instr.qtry o ∧ t = { vw := (List.range 4).map fun j => o.d + j, pw := [o.c], irr := true }) ∨ (i = Instr.rawait o ∧ t = { vw := [o.d] }) ∨ (i = Instr.rarel o ∧ t = { irr := true }) ∨ (i = Instr.rarelInit o ∧ t = { irr := true })) ∧
    (Ready s c o.hd t) ∧
    (c.real o.hd ≠ 0) ∧
    (c.p.g.tm = true) :=
  ⟨.rawait (q0), q0, { vw := [q0.d] }, mk l0 blk0 inTrap, cx l0 blk0 inTrap, .inr (.inr (.inr (.inl ⟨rfl, rfl⟩))), rdy (at_ ⟨rfl, rfl, rfl, rfl, rfl, rfl, rfl, rfl⟩) rfl (by decide +kernel), by decide +kernel⟩

theorem meets_PrivilegeFaults_rarel : ∃ (i : Instr), ∃ (o : QOp), ∃ t, ∃ (s : State), ∃ c, 
    ((i = Instr.qpush o ∧ t = { vr := if o.sub % 2 = 1 then [o.b] else [], irr := true }) ∨ (i = Instr.qpop o ∧ t = { vw := (List.range 4).map fun j => o.d + j, irr := true }) ∨ (i = Instr.qtry o ∧ t = { vw := (List.range 4).map fun j => o.d + j, pw := [o.c], irr := true }) ∨ (i = Instr.rawait o ∧ t = { vw := [o.d] }) ∨ (i = Instr.rarel o ∧ t = { irr := true }) ∨ (i = Instr.rarelInit o ∧ t = { irr := true })) ∧
    (Ready s c o.hd t) ∧
    (c.real o.hd ≠ 0) ∧
    (c.p.g.tm = true) :=
  ⟨.rarel (q0), q0, { irr := true }, mk l0 blk0 inTrap, cx l0 blk0 inTrap, .inr (.inr (.inr (.inr (.inl ⟨rfl, rfl⟩)))), rdy (at_ ⟨rfl, rfl, rfl, rfl, rfl, rfl, rfl, rfl⟩) rfl (by decide +kernel), by decide +kernel⟩

theorem meets_PrivilegeFaults_rarelInit : ∃ (i : Instr), ∃ (o : QOp), ∃ t, ∃ (s : State), ∃ c, 
    ((i = Instr.qpush o ∧ t = { vr := if o.sub % 2 = 1 then [o.b] else [], irr := true }) ∨ (i = Instr.qpop o ∧ t = { vw := (List.range 4).map fun j => o.d + j, irr := true }) ∨ (i = Instr.qtry o ∧ t = { vw := (List.range 4).map fun j => o.d + j, pw := [o.c], irr := true }) ∨ (i = Instr.rawait o ∧ t = { vw := [o.d] }) ∨ (i = Instr.rarel o ∧ t = { irr := true }) ∨ (i = Instr.rarelInit o ∧ t = { irr := true })) ∧
    (Ready s c o.hd t) ∧
    (c.real o.hd ≠ 0) ∧
    (c.p.g.tm = true) :=
  ⟨.rarelInit (q0), q0, { irr := true }, mk l0 blk0 inTrap, cx l0 blk0 inTrap, .inr (.inr (.inr (.inr (.inr (⟨rfl, rfl⟩))))), rdy (at_ ⟨rfl, rfl, rfl, rfl, rfl, rfl, rfl, rfl⟩) rfl (by decide +kernel), by decide +kernel⟩

theorem meets_PrivilegeFaults_movToQueue : ∃ (i : Instr), ∃ (o : VOp), ∃ t, ∃ (s : State), ∃ c, 
    ((i = Instr.movToQueue o ∧ t = { vr := [o.a], irr := true }) ∨ (i = Instr.movFromQueue o ∧ t = { vw := [o.d], irr := true })) ∧
    (Ready s c o.hd t) ∧
    (c.real o.hd ≠ 0) ∧
    (c.p.g.tm = true) :=
  ⟨.movToQueue (v0), v0, { vr := [v0.a], irr := true }, mk l0 blk0 inTrap, cx l0 blk0 inTrap, .inl ⟨rfl, rfl⟩, rdy (at_ ⟨rfl, rfl, rfl, rfl, rfl, rfl, rfl, rfl⟩) rfl (by decide +kernel), by decide +kernel⟩

theorem meets_PrivilegeFaults_movFromQueue : ∃ (i : Instr), ∃ (o : VOp), ∃ t, ∃ (s : State), ∃ c, 
    ((i = Instr.movToQueue o ∧ t = { vr := [o.a], irr := true }) ∨ (i = Instr.movFromQueue o ∧ t = { vw := [o.d], irr := true })) ∧
    (Ready s c o.hd t) ∧
    (c.real o.hd ≠ 0) ∧
    (c.p.g.tm = true) :=
  ⟨.movFromQueue (v0), v0, { vw := [v0.d], irr := true }, mk l0 blk0 inTrap, cx l0 blk0 inTrap, .inr ⟨rfl, rfl⟩, rdy (at_ ⟨rfl, rfl, rfl, rfl, rfl, rfl, rfl, rfl⟩) rfl (by decide +kernel), by decide +kernel⟩

theorem meets_PrivilegeFaults_mjoin : ∃ (i : Instr), ∃ (o : JOp), ∃ (s : State), ∃ c, 
    (i = Instr.mjoin o ∨ i = Instr.join o) ∧
    (Ready s c o.hd {}) ∧
    (c.lanes ≠ 0) ∧
    (c.p.g.tm = true) :=
  ⟨.mjoin (j0), j0, mk l0 blk0 inTrap, cx l0 blk0 inTrap, .inl rfl, rdy (at_ ⟨rfl, rfl, rfl, rfl, rfl, rfl, rfl, rfl⟩) rfl (by decide +kernel), by decide +kernel⟩

theorem meets_PrivilegeFaults_join : ∃ (i : Instr), ∃ (o : JOp), ∃ (s : State), ∃ c, 
    (i = Instr.mjoin o ∨ i = Instr.join o) ∧
    (Ready s c o.hd {}) ∧
    (c.lanes ≠ 0) ∧
    (c.p.g.tm = true) :=
  ⟨.join (j0), j0, mk l0 blk0 inTrap, cx l0 blk0 inTrap, .inr rfl, rdy (at_ ⟨rfl, rfl, rfl, rfl, rfl, rfl, rfl, rfl⟩) rfl (by decide +kernel), by decide +kernel⟩

theorem meets_PrivilegeFaults_7 : ∃ (o : JOp), ∃ (s : State), ∃ c, 
    (Ready s c o.hd {}) ∧
    (c.real o.hd ≠ 0) ∧
    (c.p.g.tm = true) :=
  ⟨j0, mk l0 blk0 inTrap, cx l0 blk0 inTrap, rdy (at_ ⟨rfl, rfl, rfl, rfl, rfl, rfl, rfl, rfl⟩) rfl (by decide +kernel), by decide +kernel⟩

theorem meets_PrivilegeFaults_8 : ∃ (o : BOp), ∃ (s : State), ∃ c, 
    (Ready s c o.hd { irr := o.act ≠ .wait }) ∧
    (c.lanes ≠ 0) ∧
    (c.p.g.tm = true) :=
  ⟨b0, mk l0 blk0 inTrap, cx l0 blk0 inTrap, rdy (at_ ⟨rfl, rfl, rfl, rfl, rfl, rfl, rfl, rfl⟩) rfl (by decide +kernel), by decide +kernel⟩

theorem meets_PrivilegeFaults_9 : ∃ (o : QOp), ∃ (s : State), ∃ c, 
    (Ready s c o.hd { irr := true }) ∧
    (c.lanes ≠ 0) ∧
    (c.p.g.tm = true) :=
  ⟨q0, mk l0 blk0 inTrap, cx l0 blk0 inTrap, rdy (at_ ⟨rfl, rfl, rfl, rfl, rfl, rfl, rfl, rfl⟩) rfl (by decide +kernel), by decide +kernel⟩

theorem meets_Moves_3 : ∃ (o : VOp), ∃ (s : State), ∃ c, 
    ((Instr.mov o).wf = true) ∧
    (o.minor = 4) ∧
    (Ready s c o.hd (touchOf [clsOpnd (Cls.ofTy o.ty) o.a] [])) ∧
    (∀ l, lowLane (c.real o.hd) = some l → (clsOpnd (Cls.ofTy o.ty) o.a).poison c.p.g l = none) :=
  ⟨{ v0 with minor := 4 }, mk l0 blk0 g0, c0, by decide +kernel, by decide +kernel, rdy (at_ ⟨rfl, rfl, rfl, rfl, rfl, rfl, rfl, rfl⟩) rfl (by decide +kernel), by decide +kernel⟩

theorem meets_ErrorEvents_1 : ∃ (s : State), ∃ (die : Nat), 
    (die < 2) ∧
    (s.running = true) :=
  ⟨up, 1, by decide +kernel⟩

theorem meets_TileControl_0 : ∃ (o : TOp), ∃ (s : State), ∃ c, 
    ((Instr.tset o).wf = true) ∧
    (tctx? s = some c) :=
  ⟨{ t0 with d := 5, timm := 9 }, sT blkT, cT blkT, by decide +kernel, rfl⟩

theorem meets_TileControl_1 : ∃ (o : TOp), ∃ (s : State), ∃ c, 
    ((Instr.tget o).wf = true) ∧
    (tctx? s = some c) :=
  ⟨{ t0 with d := 5 }, sT blkT, cT blkT, by decide +kernel, rfl⟩

theorem meets_TileControl_2 : ∃ (o : TOp), ∃ (s : State), ∃ c, ∃ pc, ∃ s1, 
    ((Instr.tloop o).wf = true) ∧
    (tctx? s = some c) ∧
    (c.target s o.timm = (.ok pc, s1)) :=
  ⟨t0, sT blkT, cT blkT, 0x40000, ((cT blkT).target (sT blkT) 0).2, by decide +kernel, rfl, Prod.ext (by decide +kernel) rfl⟩

theorem meets_TileControl_3 : ∃ (o : TOp), ∃ (s : State), ∃ c, ∃ pc, ∃ s1, 
    ((Instr.tjmp o).wf = true) ∧
    (tctx? s = some c) ∧
    (c.target s o.timm = (.ok pc, s1)) :=
  ⟨t0, sT blkT, cT blkT, 0x40000, ((cT blkT).target (sT blkT) 0).2, by decide +kernel, rfl, Prod.ext (by decide +kernel) rfl⟩

theorem meets_TileControl_4 : ∃ (o : TOp), ∃ (s : State), ∃ c, 
    ((Instr.tend o).wf = true) ∧
    (tctx? s = some c) :=
  ⟨t0, sT blkT, cT blkT, by decide +kernel, rfl⟩

theorem meets_TileControl_5 : ∃ (o : TOp), ∃ (s : State), ∃ c, 
    ((Instr.tbar o).wf = true) ∧
    (tctx? s = some c) ∧
    (c.l.rec0.tbarm.testBit (o.timm.toNat % 16) = true) :=
  ⟨{ t0 with timm := 15 }, sT blkT, cT blkT, by decide +kernel, rfl, by decide +kernel⟩

theorem meets_TileStores_0 : ∃ (o : TOp), ∃ (s : State), ∃ c, ∃ f, 
    ((Instr.tzero o).wf = true) ∧
    (tctx? s = some c) ∧
    (c.accFrag o.d (o.fa == .f64) = .ok f) :=
  ⟨{ t0 with d := 1 }, sT blkT, cT blkT, ⟨0, 0x100, 64, 64⟩, by decide +kernel, rfl, by decide +kernel⟩

theorem meets_TileStores_1 : ∃ (o : TOp), ∃ (s : State), ∃ c, 
    ((Instr.tzeroSlot o).wf = true) ∧
    (tctx? s = some c) ∧
    (o.slot < c.l.rec0.tslotn) :=
  ⟨{ t0 with slot := 7, timm := 1 }, sT blkT, cT blkT, by decide +kernel, rfl, by decide +kernel⟩

theorem meets_TileStores_2 : ∃ (o : TOp), ∃ (s : State), ∃ c, ∃ f, 
    ((Instr.tsave o).wf = true) ∧
    (tctx? s = some c) ∧
    (c.accFrag o.a (o.fa == .f64) = .ok f) ∧
    (c.slotBad o.slot (o.fa == .f64) none = false) ∧
    (c.poisoned s [f] = none) :=
  ⟨{ t0 with a := 1 }, sT blkT, cT blkT, ⟨0, 0x100, 64, 64⟩, by decide +kernel, rfl, by decide +kernel⟩

theorem oneEach_cT (f : Frag) (h : f.lanes = 64) : (cT blkT).oneEach f := by
  rintro gid r l n j n' j' ⟨h1, -, -, h2, h3⟩ ⟨h4, -, -, h5, h6⟩
  simp only [TCtx.place, show (cT blkT).l.rec0.width = 64 from rfl] at h2 h5
  omega

theorem meets_TileStores_3 : ∃ (o : TOp), ∃ (s : State), ∃ c, ∃ f, 
    ((Instr.tload o).wf = true) ∧
    (tctx? s = some c) ∧
    (c.accFrag o.d (o.fa == .f64) = .ok f) ∧
    (c.oneEach f) ∧
    (c.slotBad o.slot (o.fa == .f64) (some (o.timm == 1)) = false) ∧
    (c.b.tile.badSlots = []) :=
  ⟨{ t0 with d := 1 }, sT blkT, cT blkT, ⟨0, 0x100, 64, 64⟩, by decide +kernel, rfl, by decide +kernel, oneEach_cT _ rfl, by decide +kernel⟩

theorem meets_TileStores_4 : ∃ (o : TOp), ∃ (s : State), ∃ c, ∃ g, 
    ((Instr.tmon o).wf = true) ∧
    (tctx? s = some c) ∧
    ((c.record o.a).bad = false) ∧
    ((c.record o.a).mreg = 0) ∧
    (c.l.rec0.trsb ≤ (c.record o.a).base) ∧
    ((c.record o.a).base + 2 ≤ c.l.rec0.trsb + c.l.rec0.trsn) ∧
    ((c.place (c.record o.a).grp (o.timm.toNat % 64)).1 < c.l.rec0.groups) ∧
    (isAbsent c.l.rec0 (c.place (c.record o.a).grp (o.timm.toNat % 64)).1 (c.place (c.record o.a).grp (o.timm.toNat % 64)).2 = false) ∧
    (tget s.groups (c.gidAt (c.record o.a).grp (o.timm.toNat % 64)) = some g) :=
  ⟨{ t0 with a := 1, timm := 63 }, sT blkT, cT blkT, g0, by decide +kernel, rfl, by decide +kernel⟩

theorem meets_TileMatrices_tmma : ∃ o s c, (Instr.tmma o).wf = true ∧ tctx? s = some c ∧ (pairShape o.fa o.fb).map (fun p => (16, p.2)) = some (16, 16) ∧
    recordsBad (bitOf o.timm 0) false o.fa o.fb (c.record o.a) (c.record o.b) (c.record o.c) (c.record o.d) = false ∧
    (c.record o.a).base = 256 ∧ (c.record o.b).base = 512 ∧ (c.record o.d).base = 768 ∧ (c.record o.a).rows = 64 ∧ (c.record o.d).rows = 64 ∧
    c.placed ([⟨0, 256, 64, 16⟩, ⟨0, 512, 64, 16⟩] ++ [⟨0, 768, 64, 64⟩] ++ [] ++ [⟨0, 768, 64, 64⟩]) = none ∧
    c.overlap ⟨0, 768, 64, 64⟩ ⟨0, 256, 64, 16⟩ = false ∧ c.overlap ⟨0, 768, 64, 64⟩ ⟨0, 512, 64, 16⟩ = false ∧
    (∀ f ∈ ([] : List Frag), c.overlap ⟨0, 768, 64, 64⟩ f = false) ∧ ((c.record o.c).raw == (c.record o.d).raw) = true ∧
    c.poisoned s ([⟨0, 256, 64, 16⟩, ⟨0, 512, 64, 16⟩] ++ [⟨0, 768, 64, 64⟩] ++ []) = none :=
  ⟨{ t0 with a := 1, b := 2, c := 3, d := 3, fa := .e4m3, fb := .e4m3 }, sT blkT, cT blkT, by decide +kernel, rfl, by decide +kernel, by decide +kernel⟩

theorem meets_TileMatrices_tmmas : ∃ o s c, (Instr.tmmas o).wf = true ∧ tctx? s = some c ∧ (pairShape o.fa o.fb = some (64, 16) ∧ ceilDiv (64 / o.spn * o.spm.len * o.fb.bits) 32 = 64 ∧ ceilDiv (64 / o.spn * o.spn * Nat.log2 o.spm.len) 32 = 4) ∧
    recordsBad (bitOf o.timm 0) true o.fa o.fb (c.record o.a) (c.record o.b) (c.record o.c) (c.record o.d) = false ∧
    (c.record o.a).base = 256 ∧ (c.record o.b).base = 512 ∧ (c.record o.d).base = 768 ∧ (c.record o.a).rows = 64 ∧ (c.record o.d).rows = 64 ∧
    c.placed ([⟨0, 256, 64, 16⟩, ⟨0, 512, 64, 64⟩] ++ [⟨0, 768, 64, 64⟩] ++ [⟨0, 928, 64, 4⟩] ++ [⟨0, 768, 64, 64⟩]) = none ∧
    c.overlap ⟨0, 768, 64, 64⟩ ⟨0, 256, 64, 16⟩ = false ∧ c.overlap ⟨0, 768, 64, 64⟩ ⟨0, 512, 64, 64⟩ = false ∧
    (∀ f ∈ ([⟨0, 928, 64, 4⟩] : List Frag), c.overlap ⟨0, 768, 64, 64⟩ f = false) ∧ ((c.record o.c).raw == (c.record o.d).raw) = true ∧
    c.poisoned s ([⟨0, 256, 64, 16⟩, ⟨0, 512, 64, 64⟩] ++ [⟨0, 768, 64, 64⟩] ++ [⟨0, 928, 64, 4⟩]) = none :=
  ⟨{ t0 with a := 4, b := 2, c := 3, d := 3, fa := .e4m3, fb := .e4m3, spn := 1 }, sT blkT, cT blkT, by decide +kernel, rfl, by decide +kernel, by decide +kernel⟩

theorem meets_TileMatrices_tmman : ∃ o s c, (Instr.tmman o).wf = true ∧ tctx? s = some c ∧ (∃ a b, rungOf o.fa = some a ∧ rungOf o.fb = some b ∧ a ≤ b) ∧
    recordsBad (bitOf o.timm 0) false o.fa o.fb (c.record o.a) (c.record o.b) (c.record o.c) (c.record o.d) = false ∧
    (c.record o.a).base = 256 ∧ (c.record o.b).base = 512 ∧ (c.record o.d).base = 768 ∧ (c.record o.a).rows = 64 ∧ (c.record o.d).rows = 64 ∧
    c.placed ([⟨0, 256, 64, 16⟩, ⟨0, 512, 64, 16⟩] ++ [⟨0, 768, 64, 64⟩] ++ [] ++ [⟨0, 768, 64, 64⟩]) = none ∧
    c.overlap ⟨0, 768, 64, 64⟩ ⟨0, 256, 64, 16⟩ = false ∧ c.overlap ⟨0, 768, 64, 64⟩ ⟨0, 512, 64, 16⟩ = false ∧
    (∀ f ∈ ([] : List Frag), c.overlap ⟨0, 768, 64, 64⟩ f = false) ∧ ((c.record o.c).raw == (c.record o.d).raw) = true ∧
    c.poisoned s ([⟨0, 256, 64, 16⟩, ⟨0, 512, 64, 16⟩] ++ [⟨0, 768, 64, 64⟩] ++ []) = none :=
  ⟨{ t0 with a := 1, b := 2, c := 3, d := 3, fa := .e4m3, fb := .e4m3 }, sT blkT, cT blkT, by decide +kernel, rfl, ⟨2, 2, rfl, rfl, by decide⟩, by decide +kernel⟩

theorem meets_TileMatrices_1 : ∃ (bid : Nat), ∃ (s : State), ∃ (b : Block), ∃ (p : TilePass), 
    (tget s.blocks bid = some b) ∧
    ((tctxOf s bid 0).isSome = true) ∧
    (∃ j, b.tile.job = some j ∧ j.passes = [p]) :=
  ⟨3, sT (blkJ [pass0]), blkJ [pass0], pass0, rfl, rfl, ⟨_, rfl, rfl⟩⟩

theorem meets_TileMatrices_2 : ∃ (bid : Nat), ∃ (s : State), ∃ (b : Block), ∃ (p : TilePass), ∃ (q : TilePass), ∃ rest, ∃ (j : TileJob), 
    (tget s.blocks bid = some b) ∧
    (b.tile.job = some j) ∧
    (j.passes = p :: q :: rest) :=
  ⟨3, sT (blkJ [pass0, pass0]), blkJ [pass0, pass0], pass0, pass0, [], ⟨true, [pass0, pass0], 1, 0, 0, 0⟩, rfl, rfl, rfl⟩

theorem meets_ResetState : ∃ d o, d < 2 ∧ o < 0x100000 ∧ ¬(0x100 ≤ o ∧ o < 0x170) := ⟨1, 0x170, by decide⟩
theorem meets_MemoryKept : ∃ s t, Memory.wf s.mem ∧ step s = .next t := by
  have h : (match step (sIn (.event (.portClock 0))) with
    | .next _ => true
    | _ => false) = true := by decide +kernel
  cases hs : step (sIn (.event (.portClock 0))) with
  | next t => exact ⟨sIn (.event (.portClock 0)), t, by decide +kernel, hs⟩
  | fault _ => rw [hs] at h; cases h
  | refused _ => rw [hs] at h; cases h

theorem meets_PageMoves_0 : ∃ (o : SOp), ∃ (s : State), ∃ c, 
    ((Instr.place o).wf = true) ∧
    (Ready s c o.hd {}) ∧
    (c.real o.hd ≠ 0) ∧
    (c.p.g.tm = true) ∧
    (c.p.l.rec0.sys = true) ∧
    (c.p.l.rec0.red = false) ∧
    (s.migs = []) :=
  ⟨s0, mk l0 blk0 inTrap, cx l0 blk0 inTrap, by decide +kernel, rdy (at_ ⟨rfl, rfl, rfl, rfl, rfl, rfl, rfl, rfl⟩) rfl (by decide +kernel), by decide +kernel⟩

theorem meets_PageMoves_1 : ∃ (s : State), ∃ ps, ∃ (die : Nat), ∃ (v0 v1 : Word), 
    (die < 2) ∧
    (OnePort s ps portServes) ∧
    (s.fenced.contains die = false) ∧
    (s.migs = []) ∧
    (bitOf (s.rdReg (rMCMD die 8)) 31 = false) ∧
    (bitOf (portVal (firstPort ps) v0 v1) 0 = true) :=
  ⟨up, .p1, 1, 0, 1, by decide +kernel, ⟨rfl, .inr rfl, by decide +kernel⟩, by decide +kernel⟩

theorem meets_PageMoves_2 : ∃ (s : State), ∃ (m : Mig), 
    (s.migs = [m]) ∧
    (m.attempt ≠ 0) ∧
    (m.new < 2 ^ 128) ∧
    (∀ w ∈ s.fwaits, ∀ h l off, w.hold = some h → h.t = .line l off → m.holds s l.line = false) ∧
    (uRuns s m.asid = false) :=
  ⟨{ up with migs := [{ moveReq 0 0 0 0 none 0 with attempt := 9 }] }, { moveReq 0 0 0 0 none 0 with attempt := 9 }, by decide +kernel, by decide +kernel, by decide +kernel, fun _ h => (by cases h), by decide +kernel⟩

theorem meets_PageMoves_3 : ∃ (s : State), ∃ (i : Nat), ∃ (r : AReq), ∃ a, 
    (s.areqs[i]? = some r) ∧
    (r.closed = true) ∧
    (∀ q ∈ s.areqs, q.gid = r.gid → q = r) ∧
    (reqAbsent s r = false) ∧
    (r.kind = 1) ∧
    (r.opnd.getD 0 0 < 2 ^ (8 * r.size)) ∧
    (LandsPlain s r r.addr a) :=
  ⟨sReq [{ req 1 [5] 1 0 4 with closed := true }], 0, { req 1 [5] 1 0 4 with closed := true }, 0x150000, by decide +kernel, by decide +kernel, by decide +kernel, by decide +kernel, by decide +kernel, by decide +kernel, ⟨0x150000, 0, by decide +kernel, rfl, by decide +kernel, by decide +kernel, by decide +kernel⟩⟩

theorem meets_GroupEvents_0 : ∃ (s : State), ∃ (gid : Nat), ∃ (idx : Nat), ∃ (p : Party), ∃ (x : Inflight), 
    (party? s gid = some p) ∧
    (p.g.inflight[idx]? = some x) ∧
    (x.ready = true) ∧
    (x.held = false) :=
  ⟨mk l0 blk0 (gOut [res0]), 4, 0, (cx l0 blk0 (gOut [res0])).p, res0, rfl, by decide +kernel⟩

theorem meets_GroupEvents_1 : ∃ (s : State), ∃ (gid : Nat), ∃ (u1 : Bool), ∃ (u2 : Bool), ∃ (p : Party), ∃ (eid : Nat), ∃ (e : Entry), ∃ l, 
    (party? s gid = some p) ∧
    (offered p.g = some (eid, e)) ∧
    (fetchLine s gid p.l.rec0.asid p.b.core (pcLine e.pc) = .ok l) :=
  ⟨sM, 4, true, false, c0.p, 0, e0, lineOf 0, rfl, rfl, by decide +kernel⟩

theorem meets_GroupEvents_2 : ∃ (s : State), ∃ (bid : Nat), ∃ (u1 : Bool), ∃ (u2 : Bool), ∃ (b : Block), ∃ (ga : Gang), ∃ (l : Launch), ∃ ln, 
    (party? s bid = none) ∧
    (tget s.blocks bid = some b) ∧
    (tget s.gangs b.gang = some ga) ∧
    (tget s.launches ga.lid = some l) ∧
    (b.tile.ended = false) ∧
    (b.tile.fault = none) ∧
    (fetchLine s bid l.rec0.asid b.core (pcLine b.tile.pc) = .ok ln) :=
  ⟨sT blkT, 3, true, true, blkT, ga0, lT, lineOf 0, rfl, rfl, rfl, rfl, by decide +kernel⟩

theorem meets_GroupEvents_marker : ∃ (s : State), ∃ (gid : Nat), ∃ (eid : Nat), ∃ (p : Party), ∃ (e : Entry), ∃ (i : Instr), 
    (party? s gid = some p) ∧
    (tget p.g.entries eid = some e) ∧
    ((i = .switchMarkerRelease gid eid ∧ e.park = some .marker ∧ markerWaits p.g e.mask = false) ∨ (i = .splitLateWake gid eid ∧ e.park = some .splitLate ∧ (p.g.inflight.any fun x => x.late && (x.lanes &&& e.mask) != 0) = false)) :=
  ⟨mk l0 blk0 (gPark .marker), 4, 0, (cx l0 blk0 (gPark .marker)).p, { e0 with park := some .marker }, .switchMarkerRelease 4 0, rfl, rfl, .inl ⟨rfl, rfl, by decide +kernel⟩⟩

theorem meets_GroupEvents_late : ∃ (s : State), ∃ (gid : Nat), ∃ (eid : Nat), ∃ (p : Party), ∃ (e : Entry), ∃ (i : Instr), 
    (party? s gid = some p) ∧
    (tget p.g.entries eid = some e) ∧
    ((i = .switchMarkerRelease gid eid ∧ e.park = some .marker ∧ markerWaits p.g e.mask = false) ∨ (i = .splitLateWake gid eid ∧ e.park = some .splitLate ∧ (p.g.inflight.any fun x => x.late && (x.lanes &&& e.mask) != 0) = false)) :=
  ⟨mk l0 blk0 (gPark .splitLate), 4, 0, (cx l0 blk0 (gPark .splitLate)).p, { e0 with park := some .splitLate }, .splitLateWake 4 0, rfl, rfl, .inr ⟨rfl, rfl, by decide +kernel⟩⟩

theorem meets_GroupEvents_4 : ∃ (s : State), ∃ (gid : Nat), ∃ (eid : Nat), ∃ (late : LaneMask), ∃ (p : Party), ∃ (e : Entry), ∃ (x : Inflight), 
    (party? s gid = some p) ∧
    (tget p.g.entries eid = some e) ∧
    (e.park = some .marker) ∧
    ((p.g.inflight.find? fun x => x.split && (x.lanes &&& e.mask) != 0) = some x) ∧
    (late ≠ 0) ∧
    (late &&& ~~~(x.lanes &&& e.mask) = 0) ∧
    (late ≠ e.mask) ∧
    (outstanding s x.req &&& (x.lanes &&& e.mask) &&& ~~~late = 0) :=
  ⟨{ mk l0 blk0 ({ gPark .marker with inflight := [{ res0 with split := true, req := 7, ready := false, lanes := 0xFFFFFFFFFFFFFFFF }] }) with areqs := [req 0 [7] 7 3 4] }, 4, 0, 8, (cx l0 blk0 ({ gPark .marker with inflight := [{ res0 with split := true, req := 7, ready := false, lanes := 0xFFFFFFFFFFFFFFFF }] })).p, { e0 with park := some .marker }, { res0 with split := true, req := 7, ready := false, lanes := 0xFFFFFFFFFFFFFFFF }, rfl, rfl, by decide +kernel⟩

theorem meets_GroupEvents_5 : ∃ (s : State), ∃ (gid : Nat), ∃ (t : Trap), ∃ (p : Party), ∃ (eid : Nat), ∃ (e : Entry), 
    (party? s gid = some p) ∧
    (p.g.waitTrap = some t) ∧
    (p.g.retained = some eid) ∧
    (tget p.g.entries eid = some e) ∧
    ((p.g.inflight.any fun x => x.vregs != [] || x.pregs != []) = false) ∧
    (p.g.tm = false) ∧
    (p.l.rec0.thnd ≠ 0) ∧
    (t.code < 256) ∧
    (t.prqi < 64) ∧
    (t.flags < 32) :=
  ⟨mk l0 blk0 gWait, 4, { code := 255, prqi := 63, flags := 31 }, (cx l0 blk0 gWait).p, 0, e0, rfl, rfl, rfl, rfl, by decide +kernel⟩

/-- A sequencer about to issue TJMP of its own line. -/
def sTj : State := { sT blkT with agenda := [], cur := none, mem := ((mkm lT blkT g0).wrMem 0x140000 (placeLine 0x7EF580000000000000000000)).mem }
theorem meets_StepsRunInstructions_4 : ∃ s s1 bid c l i, NextAct s (.tile bid) s1 ∧ tctxOf s1 bid 0 = some c ∧ c.b.tile.ended = false ∧
    c.b.tile.fault = none ∧ c.b.tile.job = none ∧ c.b.tile.barWait = none ∧ c.b.ticket = none ∧ c.b.exited = false ∧ c.ga.st = .resident ∧ c.l.st = .running ∧
    c.l.rec0.red = false ∧ c.b.tile.badLine = none ∧ fetchLine s1 bid c.l.rec0.asid c.b.core (pcLine c.b.tile.pc) = .ok l ∧
    fieldOf l.lw 15 17 = 0 ∧ fieldOf l.lw 5 4 = 0 ∧ tileWord (l.words.getD (pcSlot c.b.tile.pc) 0) = true ∧
    decode (l.words.getD (pcSlot c.b.tile.pc) 0) = .ok i ∧ (usesEngine i = true → engineTaken s1 bid c.b.core = false) :=
  ⟨{ sTj with agenda := [.tile 3] }, sTj, 3, cT blkT, lineOf 0x7EF580000000000000000000, .tjmp t0, .inl ⟨rfl, rfl⟩, rfl, rfl, rfl, rfl, rfl, rfl, rfl, rfl, rfl, rfl, rfl,
    by decide +kernel, by decide +kernel, by decide +kernel, by decide +kernel, by decide +kernel, fun _ => by decide +kernel⟩

/-- One lane is live, and the group (0) or its lane has met block barrier 2. -/
def gLane : Group := { g0 with exited := 0xFFFFFFFFFFFFFFFE, entries := [(0, { e0 with mask := 1 })] }
def blkBar (arr : List Nat) : Block := { blk0 with bars := [(2, { arrived := arr, recs := [(lkey 4 0, 1)] })] }
def blkX : Block := { blk0 with exited := true }
def lRed : Launch := { l0 with rec0 := { l0.rec0 with red := true } }
def sRed : State := { mk lRed blkX g0 with gangs := [(2, ga0), (6, { ga0 with copy := 1, blocks := [7] })],
                                           blocks := [(3, blkX), (7, { blkX with gang := 6, groups := [] })] }
def cmd0 (code : Nat) : Cmd := ⟨code, [0, 0, 0, 0, 0, 0, 0, 0], [], 0, 0, none, 0, none, 0, true, 0, 0, none, false, 0, []⟩
def gCmd (q : Nat) (x : Cmd) : Group := { g0 with qs := [(q, ⟨[x], [], 1, []⟩)] }
def sCmd (q : Nat) (x : Cmd) : State := mk l0 blk0 (gCmd q x)
def pCmd (q : Nat) (x : Cmd) : Party := ⟨4, gCmd q x, blk0, ga0, l0⟩
/-- A record of one 4-byte element from 0x50000 to 0x50100, and a started copy of it. -/
def slice0 : List Word := [0x50000, 0, 0x50100, 0, 0x80, 0, 0, 1, 0, 1]
def copyOf (code : Nat) : Copy := ⟨0, [(4, slice0)], [], [(4, 0)], 0, 0, [], code, none, [], 0, []⟩
def blkCopy (code : Nat) : Block := { blk0 with rings := [(0, { ring0 with cnt := 0 })], copies := [copyOf code] }
def coll0 : Coll := ⟨0, 1, 0, 3, false, 1, 0, 0, 0x50000, 4, 1, [], [], [], [], 0, 0⟩
def u0 : UCtx := ⟨0, 0, 0, 64, 1, 0x50000, 0x60000, 0, 0⟩
def sU : State := { mkm l0 blk0 g0 with uctx := [u0] }
theorem ring_inside (code : Nat) : ringInside (blkCopy code) { ring0 with cnt := 0 } := by
  intro x _ h
  have hx : x < 16 := h
  have h' : (List.range 16).all (fun x => decide (spByte blk0.asize x = .inside)) = true := by decide
  exact of_decide_eq_true (List.all_eq_true.mp h' x (List.mem_range.mpr hx))

theorem meets_BarrierEvents_0 : ∃ (s : State), ∃ (gid : Nat), ∃ (n : Nat), ∃ (p : Party), 
    (party? s gid = some p) ∧
    (groupReady s .blk n (scopeBar s .blk p.g.bid n) gid p.g = true) ∧
    (p.g.gidx ∉ (scopeBar s .blk p.g.bid n).arrived) :=
  ⟨mk l0 (blkBar []) gLane, 4, 2, (cx l0 (blkBar []) gLane).p, rfl, by decide +kernel⟩

theorem meets_BarrierEvents_1 : ∃ (s : State), ∃ (gid : Nat), ∃ (lv : Level), ∃ (n : Nat), ∃ (p : Party), 
    (party? s gid = some p) ∧
    (countable s p lv n ≠ []) :=
  ⟨mk l0 (blkBar []) gLane, 4, .blk, 2, (cx l0 (blkBar []) gLane).p, rfl, by decide +kernel⟩

theorem meets_BarrierEvents_2 : ∃ (s : State), ∃ (lv : Level), ∃ (scope : Nat), ∃ (n : Nat), 
    (n < lv.count) ∧
    (instanceDone s lv scope n = true) :=
  ⟨mk l0 (blkBar [0]) gLane, .blk, 3, 2, by decide +kernel⟩

theorem meets_ReleaseEvents_0 : ∃ (s : State), ∃ (bid : Nat), ∃ (b : Block), ∃ (g : Gang), ∃ (l : Launch), ∃ (pt : Point), 
    (blockParty s bid = some (b, g, l)) ∧
    (pointOf s bid = some pt) ∧
    (pt ≠ .extra) ∧
    (l.rec0.red = false) ∧
    (holdsTicket s bid = true) ∧
    (setClosed s bid (currentSet b) = false) :=
  ⟨mk l0 blkX g0, 3, blkX, ga0, l0, .exit, rfl, by decide +kernel⟩

theorem meets_ReleaseEvents_1 : ∃ (s : State), ∃ (bid : Nat), ∃ (tid : Nat), ∃ (b : Block), ∃ (t0 : Block), ∃ (g : Gang), ∃ (l : Launch), ∃ (pt : Point), ∃ (qt : Point), 
    (blockParty s bid = some (b, g, l)) ∧
    (twinBlock s bid = some tid) ∧
    (tget s.blocks tid = some t0) ∧
    (pointOf s bid = some pt) ∧
    (pointOf s tid = some qt) ∧
    (pt ≠ .extra) ∧
    (l.rec0.red = true) ∧
    (b.matched = false) ∧
    ((t0.full && t0.extra.isSome && !t0.granted) = false) :=
  ⟨sRed, 3, 7, blkX, { blkX with gang := 6, groups := [] }, ga0, lRed, .exit, .exit, rfl, by decide +kernel, rfl, by decide +kernel⟩

theorem meets_EngineEvents_0 : ∃ (s : State), ∃ (bid : Nat), ∃ (q : Nat), ∃ (b : Block), ∃ (g0 : Nat), ∃ (x0 : Cmd), ∃ (more : List (Nat × Cmd)), ∃ (p : Party), ∃ (r : Ring), 
    (tget s.blocks bid = some b) ∧
    (nextSlices s b q = some ((g0, x0) :: more)) ∧
    (party? s g0 = some p) ∧
    (tget b.rings (x0.ring.getD 0) = some r) ∧
    (r.cnt < r.slots) ∧
    (engineRuns p q = true) ∧
    (∀ ga, tget s.gangs b.gang = some ga → ga.st ≠ .killed) :=
  ⟨mk l0 (blkCopy 0) (gCmd 0 { cmd0 256 with started := false, ring := some 0 }), 3, 0, blkCopy 0, 4, { cmd0 256 with started := false, ring := some 0 }, [], (cx l0 (blkCopy 0) (gCmd 0 { cmd0 256 with started := false, ring := some 0 })).p, { ring0 with cnt := 0 }, rfl, by decide +kernel, rfl, rfl, by decide +kernel⟩

theorem meets_EngineEvents_1 : ∃ (s : State), ∃ (bid : Nat), ∃ (idx : Nat), ∃ (b : Block), ∃ (c : Copy), ∃ (gid : Nat), ∃ (w : List Word), ∃ (seq : Nat), ∃ (p : Party), ∃ (r : Ring), 
    (tget s.blocks bid = some b) ∧
    (b.copies[idx]? = some c) ∧
    (c.result = none) ∧
    (c.slices.head? = some (gid, w)) ∧
    (c.seqs.head? = some (gid, seq)) ∧
    (party? s gid = some p) ∧
    (engineRuns p c.q = true) ∧
    (c.code = 2 ∨ c.code = 3) ∧
    (tget b.rings c.ring = some r) ∧
    (ringInside b r) ∧
    (c.slot < r.slots) :=
  ⟨mk l0 (blkCopy 2) g0, 3, 0, blkCopy 2, copyOf 2, 4, slice0, 0, (cx l0 (blkCopy 2) g0).p, { ring0 with cnt := 0 }, rfl, rfl, by decide +kernel, by decide +kernel, by decide +kernel, rfl, by decide +kernel, by decide +kernel, rfl, ring_inside 2, by decide +kernel⟩

theorem meets_EngineEvents_2 : ∃ (s : State), ∃ (bid : Nat), ∃ (idx : Nat), ∃ (b : Block), ∃ (c : Copy), ∃ (gid : Nat), ∃ (w : List Word), ∃ (seq : Nat), ∃ (p : Party), ∃ (r : Ring), ∃ src, ∃ dst, ∃ k1, ∃ o1, ∃ k2, ∃ o2, 
    (tget s.blocks bid = some b) ∧
    (b.copies[idx]? = some c) ∧
    (c.result = none) ∧
    (c.code = 0) ∧
    (c.slices = [(gid, w)]) ∧
    (c.seqs = [(gid, seq)]) ∧
    (party? s gid = some p) ∧
    (engineRuns p c.q = true) ∧
    (p.staged = false) ∧
    (s.backed = true) ∧
    (copyWaits (modBlock s bid fun b => { b with copies := b.copies.eraseIdx idx }) [(p, w)] = false) ∧
    (recCount w = 1) ∧
    (recElem w 0 = (dst, some src)) ∧
    (copyLand s p (spaceOfCode (recSpace w false)) src (recEsz w) .read = .here (.line (.plain k1) o1)) ∧
    (s.badLines.contains k1 = false) ∧
    (o1 + recEsz w ≤ 128) ∧
    (copyLand s p (spaceOfCode (recSpace w true)) dst (recEsz w) .write = .here (.line (.plain k2) o2)) ∧
    (o2 + recEsz w ≤ 128) ∧
    (tget b.rings c.ring = some r) ∧
    (ringInside b r) ∧
    (c.slot < r.slots) :=
  ⟨mkm l0 (blkCopy 0) g0, 3, 0, blkCopy 0, copyOf 0, 4, slice0, 0, (cx l0 (blkCopy 0) g0).p, { ring0 with cnt := 0 }, 0x50000, 0x50100, 0x150000, 0, 0x150100, 0, rfl, rfl, by decide +kernel, by decide +kernel, by decide +kernel, by decide +kernel, rfl, by decide +kernel, rfl, by decide +kernel, by decide +kernel, by decide +kernel, rfl, by decide +kernel, by decide +kernel, by decide +kernel, by decide +kernel, by decide +kernel, rfl, ring_inside 0, by decide +kernel⟩

theorem meets_EngineEvents_3 : ∃ (s : State), ∃ (gid : Nat), ∃ (q : Nat), ∃ (p : Party), ∃ (x : Cmd), ∃ (i : Nat), ∃ a, ∃ b, ∃ (s0 : State), ∃ (s1 : State), ∃ (x1 : Cmd), 
    (party? s gid = some p) ∧
    (((qreg p.g q).cmds.zipIdx.find? fun y => !y.1.started) = some (x, i)) ∧
    (x.code ≠ copyCode) ∧
    (x.shadow = false) ∧
    (p.l.rec0.red = false) ∧
    (delivers p = true) ∧
    (((qreg p.g q).cmds.any fun y => y.started && y.code == 0x10 && y.result.isNone) = false) ∧
    (x.ring = none → regRoom (qreg p.g q) = true) ∧
    (8 ≤ q → x.code = 0 → confFull s (coreDie s x.core) = false) ∧
    (startColl s p q x = some (s0, some x1)) ∧
    (startSlots s p x none ≠ none) ∧
    (startSlots s0 p x none = some (a, b, s1)) :=
  ⟨sCmd 4 { cmd0 1 with started := false }, 4, 4, pCmd 4 { cmd0 1 with started := false }, { cmd0 1 with started := false }, 0, 0, 0, sCmd 4 { cmd0 1 with started := false }, sCmd 4 { cmd0 1 with started := false }, { cmd0 1 with started := false }, rfl, rfl, by decide +kernel, by decide +kernel, by decide +kernel, by decide +kernel, by decide +kernel, fun _ => (by decide +kernel), fun h => (by revert h; decide), rfl, by decide +kernel, rfl⟩

theorem meets_EngineEvents_4 : ∃ (s : State), ∃ (p : Party), ∃ (q : Nat), ∃ (x : Cmd), 
    (x.ring = none) ∧
    (x.code ≠ 0x10) ∧
    (x.code ≠ 0x11) :=
  ⟨up, pCmd 4 (cmd0 1), 4, cmd0 1, by decide +kernel⟩

theorem meets_EngineEvents_5 : ∃ (s : State), ∃ (p : Party), ∃ (q : Nat), ∃ (x : Cmd), 
    (x.code = 0x10) ∧
    (x.order = 0) ∧
    (x.args.length = 8) :=
  ⟨up, pCmd 4 (cmd0 0x10), 4, cmd0 0x10, by decide +kernel⟩

theorem meets_EngineEvents_6 : ∃ (s : State), ∃ (gid : Nat), ∃ (q : Nat), ∃ (idx : Nat), ∃ (p : Party), ∃ (x : Cmd), ∃ (ws : List Word), 
    (party? s gid = some p) ∧
    (cmdAt p q idx = some x) ∧
    (x.result = some ws) ∧
    (delivers p = true) ∧
    (p.l.rec0.red = false) ∧
    (ws.length = 4) ∧
    (x.landed s = true) ∧
    (completesAfter s p q idx = false) :=
  ⟨sCmd 4 { cmd0 1 with result := some [1, 2, 3, 4] }, 4, 4, 0, pCmd 4 { cmd0 1 with result := some [1, 2, 3, 4] }, { cmd0 1 with result := some [1, 2, 3, 4] }, [1, 2, 3, 4], rfl, rfl, by decide +kernel⟩

theorem meets_EngineEvents_7 : ∃ (s : State), ∃ (gid : Nat), ∃ (q : Nat), ∃ (idx : Nat), ∃ (p : Party), ∃ (x : Cmd), 
    (Performs s gid q idx 0x01 p x) ∧
    ((p.b.copies.any fun c => c.q == q && c.seqs.any fun y => y.1 == gid && decide (y.2 < x.seq)) = false) :=
  ⟨sCmd 0 (cmd0 1), 4, 0, 0, pCmd 0 (cmd0 1), cmd0 1, ⟨rfl, rfl, rfl, rfl, rfl, rfl, by decide⟩, by decide +kernel⟩

theorem meets_EngineEvents_8 : ∃ (s : State), ∃ (gid : Nat), ∃ (q : Nat), ∃ (idx : Nat), ∃ (p : Party), ∃ (x : Cmd), 
    (Performs s gid q idx 0x10 p x) :=
  ⟨sCmd 4 (cmd0 16), 4, 4, 0, pCmd 4 (cmd0 16), cmd0 16, ⟨rfl, rfl, rfl, rfl, rfl, rfl, by decide⟩⟩

theorem meets_EngineEvents_9 : ∃ (s : State), ∃ (gid : Nat), ∃ (q : Nat), ∃ (idx : Nat), ∃ (p : Party), ∃ (x : Cmd), ∃ (c : Coll), 
    (Performs s gid q idx 0x11 p x) ∧
    (collOf s (coreDie s x.core) p.ga.lid (fieldOf (x.args.getD 0 0) 0 6) = some c) :=
  ⟨{ sCmd 4 (cmd0 17) with colls := [coll0] }, 4, 4, 0, pCmd 4 (cmd0 17), cmd0 17, coll0, ⟨rfl, rfl, rfl, rfl, rfl, rfl, by decide⟩, by decide +kernel⟩

theorem meets_EngineEvents_10 : ∃ (s : State), ∃ (gid : Nat), ∃ (q : Nat), ∃ (idx : Nat), ∃ (p : Party), ∃ (x : Cmd), 
    (Performs s gid q idx 0x12 p x) :=
  ⟨sCmd 4 (cmd0 18), 4, 4, 0, pCmd 4 (cmd0 18), cmd0 18, ⟨rfl, rfl, rfl, rfl, rfl, rfl, by decide⟩⟩

theorem meets_EngineEvents_11 : ∃ (c : Coll), ∃ (xs : List (List Byte)), ∃ (i : Nat), 
    (c.op = 3) ∧
    (c.tree = false) ∧
    (xs.length = c.p) ∧
    (∀ l ∈ xs, l.length = c.bsz) ∧
    (1 ≤ c.p) ∧
    (i < c.bsz / 4) :=
  ⟨coll0, [[1, 0, 0, 0]], 0, by decide +kernel⟩

theorem meets_UnmaskEvents_uinit : ∃ s gid q idx code p x i f, Performs s gid q idx code p x ∧ 8 ≤ q ∧ uBehind s x = false ∧ s.fenced.contains (coreDie s x.core) = false ∧
    i = Instr.uinit gid q idx ∧ code = 32 ∧ f = uinitOut s [4, gid, q, x.seq] p.l.rec0.asid (coreDie s x.core) x :=
  ⟨sCmd 8 (cmd0 32), 4, 8, 0, 32, pCmd 8 (cmd0 32), cmd0 32, .uinit 4 8 0, _, ⟨rfl, rfl, rfl, rfl, rfl, rfl, by decide⟩, by decide, by decide +kernel, rfl, rfl, rfl, rfl⟩

theorem meets_UnmaskEvents_uconf : ∃ s gid q idx code p x i f, Performs s gid q idx code p x ∧ 8 ≤ q ∧ uBehind s x = false ∧ s.fenced.contains (coreDie s x.core) = false ∧
    i = Instr.uconf gid q idx ∧ code = 0 ∧ f = uconfOut s [4, gid, q, x.seq] p.l.rec0.asid (coreDie s x.core) x :=
  ⟨sCmd 8 (cmd0 0), 4, 8, 0, 0, pCmd 8 (cmd0 0), cmd0 0, .uconf 4 8 0, _, ⟨rfl, rfl, rfl, rfl, rfl, rfl, by decide⟩, by decide, by decide +kernel, rfl, rfl, rfl, rfl⟩

theorem meets_UnmaskEvents_ucommit : ∃ s gid q idx code p x i f, Performs s gid q idx code p x ∧ 8 ≤ q ∧ uBehind s x = false ∧ s.fenced.contains (coreDie s x.core) = false ∧
    i = Instr.ucommit gid q idx ∧ code = 33 ∧ f = ucommitOut s [4, gid, q, x.seq] p.l.rec0.asid (coreDie s x.core) x :=
  ⟨sCmd 8 (cmd0 33), 4, 8, 0, 33, pCmd 8 (cmd0 33), cmd0 33, .ucommit 4 8 0, _, ⟨rfl, rfl, rfl, rfl, rfl, rfl, by decide⟩, by decide, by decide +kernel, rfl, rfl, rfl, rfl⟩

theorem meets_UnmaskEvents_uclean : ∃ s gid q idx code p x i f, Performs s gid q idx code p x ∧ 8 ≤ q ∧ uBehind s x = false ∧ s.fenced.contains (coreDie s x.core) = false ∧
    i = Instr.uclean gid q idx ∧ code = 34 ∧ f = ucleanOut s [4, gid, q, x.seq] p.l.rec0.asid (coreDie s x.core) x :=
  ⟨sCmd 8 (cmd0 34), 4, 8, 0, 34, pCmd 8 (cmd0 34), cmd0 34, .uclean 4 8 0, _, ⟨rfl, rfl, rfl, rfl, rfl, rfl, by decide⟩, by decide, by decide +kernel, rfl, rfl, rfl, rfl⟩

theorem meets_UnmaskEvents_ufree : ∃ s gid q idx code p x i f, Performs s gid q idx code p x ∧ 8 ≤ q ∧ uBehind s x = false ∧ s.fenced.contains (coreDie s x.core) = false ∧
    i = Instr.ufree gid q idx ∧ code = 35 ∧ f = ufreeOut s [4, gid, q, x.seq] p.l.rec0.asid (coreDie s x.core) x :=
  ⟨sCmd 8 (cmd0 35), 4, 8, 0, 35, pCmd 8 (cmd0 35), cmd0 35, .ufree 4 8 0, _, ⟨rfl, rfl, rfl, rfl, rfl, rfl, by decide⟩, by decide, by decide +kernel, rfl, rfl, rfl, rfl⟩

theorem meets_UnmaskEvents_1 : ∃ (s : State), ∃ (own : List Nat), ∃ (asid : Nat), ∃ (die : Nat), ∃ (x : Cmd), 
    (uReserved x [0x7F3F, 0xFFFF, 0xFFFFFFFF, 0xFFFFFF, 0xFFFFFFFF, 0xFFFFFF, 0xFFFF0001, 0] = false) ∧
    (uCtxOf s die (fieldOf (x.args.getD 0 0) 0 6) = none) ∧
    (fieldOf (x.args.getD 2 0) 0 12 = 0) ∧
    (fieldOf (x.args.getD 4 0) 0 6 = 0) ∧
    (bitOf (x.args.getD 6 0) 0 = true) :=
  ⟨up, [], 0, 0, { cmd0 0x20 with args := [0, 0, 0, 0, 0, 0, 1, 0] }, by decide +kernel⟩

theorem meets_UnmaskEvents_2 : ∃ (s : State), ∃ (own : List Nat), ∃ (asid : Nat), ∃ (die : Nat), ∃ (x : Cmd), ∃ (c : UCtx), 
    (uMine s die asid x = some c) ∧
    (uReserved x [0x8000003F, 0xFFFF, 0, 0, 0, 0, 0, 0] = false) ∧
    (x.payload.isEmpty = false) ∧
    (bitOf (x.args.getD 0 0) 31 = false → x.args.getD 1 0 = 0) ∧
    (∃ l, l < 64 ∧ bitOf x.pmask l = true ∧ fieldOf (x.args.getD 1 0) 0 16 + l < c.n) :=
  ⟨sU, [], 0, 0, { cmd0 0 with args := [0x80000000, 0, 0, 0, 0, 0, 0, 0], payload := [(1, 2)], pmask := 1 }, u0, by decide +kernel, by decide +kernel, by decide +kernel, by decide +kernel, ⟨0, by decide, by decide, by decide⟩⟩

theorem meets_UnmaskEvents_3 : ∃ s own asid die x rs ws ctx w1 w2 w3, ucommitOut s own asid die x = .ok rs ws ctx w1 w2 w3 := by
  have h : (match ucommitOut sU [] 0 0 { cmd0 0x21 with args := [0, 1, 0, 0, 0, 0, 0, 0] } with
    | .ok .. => true
    | _ => false) = true := by decide +kernel
  cases hu : ucommitOut sU [] 0 0 { cmd0 0x21 with args := [0, 1, 0, 0, 0, 0, 0, 0] } with
  | ok rs ws ctx w1 w2 w3 => exact ⟨_, _, _, _, _, rs, ws, ctx, w1, w2, w3, hu⟩
  | bad => rw [hu] at h; cases h
  | fault _ => rw [hu] at h; cases h

theorem meets_UnmaskEvents_4 : ∃ (s : State), ∃ (own : List Nat), ∃ (asid : Nat), ∃ (die : Nat), ∃ (x : Cmd), ∃ (c : UCtx), 
    (uMine s die asid x = some c) ∧
    (uReserved x [0x8000003F, 0x7F, 0x3FF, 0x7FF, 0, 0, 0, 0] = false) ∧
    (fieldOf (x.args.getD 1 0) 0 7 < c.l) ∧
    (bitOf (x.args.getD 0 0) 31 = true → fieldOf (x.args.getD 1 0) 0 7 = 0) ∧
    (1 ≤ fieldOf (x.args.getD 3 0) 0 11) ∧
    (fieldOf (x.args.getD 3 0) 0 11 ≤ 1024) ∧
    (fieldOf (x.args.getD 2 0) 0 10 + fieldOf (x.args.getD 3 0) 0 11 ≤ (c.n + 63) / 64) :=
  ⟨sU, [], 0, 0, { cmd0 0x22 with args := [0, 0, 0, 1, 0, 0, 0, 0] }, u0, by decide +kernel⟩

theorem meets_UnmaskEvents_5 : ∃ (s : State), ∃ (own : List Nat), ∃ (asid : Nat), ∃ (die : Nat), ∃ (x : Cmd), ∃ (c : UCtx), 
    (uMine s die asid x = some c) ∧
    (uReserved x [0x3F, 0, 0, 0, 0, 0, 0, 0] = false) :=
  ⟨sU, [], 0, 0, cmd0 0x23, u0, by decide +kernel⟩

/-- A queue with one record at 0x200000: of one block of eight lanes with 16 registers, or of zeros. -/
def queueOf (bs : List Byte) : State :=
  (((up.wrReg (rLQCFG 0) 0x80000000).wrReg (rLQBASEL 0) 0x200000).wrReg (rLQTAIL 0) 1).wrMem 0x200000 bs
def recBytes : List Byte := List.replicate 20 0 ++ [1, 0, 0, 0, 1, 0, 1, 0, 0, 0, 0, 0, 16]
theorem noBinds (s : State) (own : List Nat) (r : Rec) (h : r.bindn = 0) : readBinds s own r = .ok (some []) := by
  simp [readBinds, h, readVirt, linePieces, bindList, Except.map]
theorem meets_LaunchEvents_0 : ∃ s q binds, queueReady s q = true ∧ BindsFound s q binds ∧
    recReason s (s.rdLossy (queueSlot s q) 512) binds = none := by
  refine ⟨queueOf recBytes, 0, some [], by decide +kernel, ?_, by decide +kernel⟩
  unfold BindsFound
  rw [if_neg (by decide +kernel)]
  exact .inl (noBinds _ _ _ (by decide +kernel))
theorem meets_LaunchEvents_refused : ∃ s q binds n, queueReady s q = true ∧ BindsFound s q binds ∧
    recReason s (s.rdLossy (queueSlot s q) 512) binds = some n ∧ n < 256 ∧
    completionWaits s (recOf (s.rdLossy (queueSlot s q) 512)) = false ∧ (∀ w ∈ s.fwaits, w.gid ≠ s.nextId) := by
  refine ⟨queueOf [], 0, none, 2, by decide +kernel, ?_, by decide +kernel⟩
  unfold BindsFound
  rw [if_pos (by decide +kernel)]
def lWeak : Launch := { l0 with rec0 := { l0.rec0 with prog := .weak }, st := .taken }
def onlyLaunch (l : Launch) : State := { up with launches := [(1, l)] }
def gangIn (l : Launch) (st : GangSt) : State := { mk l blk0 g0 with gangs := [(2, { ga0 with st := st })] }
theorem meets_LaunchEvents_1 : ∃ s lid l binds, tget s.launches lid = some l ∧ admitReady s l = true ∧ lateReason s l = none ∧
    readBinds s [6, lid] l.rec0 = .ok (some binds) ∧
    (s.launches.any fun x => decide (queueTurn s x.2 < queueTurn s l) && (admitReady s x.2 && (admitted s x.1 x.2).isSome)) = false ∧
    l.rec0.prog ≠ .concurrent :=
  ⟨onlyLaunch lWeak, 1, lWeak, [], rfl, by decide +kernel, by decide +kernel, noBinds _ _ _ rfl, by decide +kernel⟩
theorem meets_LaunchEvents_2 : ∃ s lid l gang at_, tget s.launches lid = some l ∧ l.st = .running ∧ gangTurn l gang = true ∧
    restoreFirst s l.prio = false ∧ heldBack s lid l = false ∧ (∃ c, (gang, c) ∈ l.place) ∧ seatsFor s l.rec0 (oldCores s lid gang) = some at_ := by
  have h : (seatsFor (onlyLaunch { l0 with place := [(0, 0)] }) l0.rec0 (oldCores (onlyLaunch { l0 with place := [(0, 0)] }) 1 0)).isSome
      = true := by decide +kernel
  obtain ⟨x, hx⟩ := Option.isSome_iff_exists.mp h
  exact ⟨onlyLaunch { l0 with place := [(0, 0)] }, 1, { l0 with place := [(0, 0)] }, 0, x, rfl, rfl, by decide +kernel, by decide +kernel,
    by decide +kernel, ⟨0, by decide⟩, hx⟩
def saved : Launch := { l0 with rec0 := { l0.rec0 with savep := 0x50000, savelen := 2 ^ 40 } }
theorem meets_LaunchEvents_3 : ∃ s lid l gang, tget s.launches lid = some l ∧ l.st = .suspended ∧ saveFits s lid l = true ∧ s.areqs = [] ∧
    (∃ x ∈ gangsOf s lid, x.2.st = .resident ∧ x.2.index = gang) ∧
    (∀ x ∈ gangsOf s lid, x.2.st = .resident → (l.rec0.prog ≠ .weak ∨ x.2.index = gang) →
      gangQuiet s x.2 = true ∧ ∀ gid ∈ gangGroups s x.2, ∀ p, party? s gid = some p → descsWait s p = false) := by
  refine ⟨mk { saved with st := .suspended } blk0 g0, 1, { saved with st := .suspended }, 0, rfl, rfl, by decide +kernel, rfl, by decide +kernel,
    fun x hx _ _ => ?_⟩
  have h : x = (2, ga0) := by simpa [gangsOf, mk, up, ga0] using hx
  subst h
  refine ⟨by decide +kernel, fun gid hg p hp => ?_⟩
  have h : gid = 4 := by simpa [gangGroups, mk, up, ga0, tget, blk0, Block.start] using hg
  subst h
  cases hp
  decide +kernel
theorem meets_LaunchEvents_4 : ∃ s lid gang l k ga at_ rest, tget s.launches lid = some l ∧ waitsAbove s l.prio = false ∧
    l.st = .running ∧ l.rec0.prog = .weak ∧
    ((gangsOf s lid).filter fun g => g.2.index == gang && g.2.st == .setAside) = (k, ga) :: rest ∧ findSeats s l.rec0 [] = some at_ := by
  have h : (findSeats (gangIn { lWeak with st := .running } .setAside) lWeak.rec0 []).isSome = true := by decide +kernel
  obtain ⟨x, hx⟩ := Option.isSome_iff_exists.mp h
  exact ⟨gangIn { lWeak with st := .running } .setAside, 1, 0, { lWeak with st := .running }, 2, { ga0 with st := .setAside }, x, [], rfl,
    by decide +kernel, rfl, rfl, rfl, hx⟩
theorem meets_LaunchEvents_restore : ∃ s lid gang, (restoreGangs s lid gang).isSome = true :=
  ⟨gangIn { lWeak with st := .running } .setAside, 1, 0, by decide +kernel⟩
theorem meets_LaunchControl_fits : ∃ s lid l, namedLaunch s = some (lid, l) ∧ tget s.launches lid = some l ∧
    (portServes s 0 || portServes s 1) = true ∧ saveFits s lid l = true :=
  ⟨mk saved blk0 g0, 1, saved, rfl, rfl, by decide +kernel, by decide +kernel⟩
theorem meets_LaunchControl_full : ∃ s lid l, namedLaunch s = some (lid, l) ∧ tget s.launches lid = some l ∧
    (portServes s 0 || portServes s 1) = true ∧ saveFits s lid l = false :=
  ⟨mk l0 blk0 g0, 1, l0, rfl, rfl, by decide +kernel, by decide +kernel⟩

theorem meets_LaunchEvents_5 : ∃ (s : State), ∃ (lid : Nat), ∃ (l : Launch), 
    (tget s.launches lid = some l) ∧
    (l.posted = true) ∧
    (∀ w ∈ s.fwaits, w.gid ≠ lid) :=
  ⟨onlyLaunch { l0 with posted := true }, 1, { l0 with posted := true }, rfl, by decide +kernel, fun _ h => (by cases h)⟩

theorem meets_LaunchEvents_6 : ∃ (s : State), ∃ (lid : Nat), ∃ (l : Launch), 
    (tget s.launches lid = some l) ∧
    (l.posted = false) ∧
    (launchOver s lid l = true) ∧
    (completionWaits s l.rec0 = false) ∧
    (l.status < 256) ∧
    (∀ w ∈ s.fwaits, w.gid ≠ lid) :=
  ⟨onlyLaunch l0, 1, l0, rfl, by decide +kernel⟩

theorem meets_LaunchControl_1 : ∃ (i : Instr), ∃ (s : State), 
    (i = Instr.suspend ∨ i = Instr.resume ∨ i = Instr.cancel) :=
  ⟨.suspend, up, .inl rfl⟩

theorem meets_LaunchControl_2 : ∃ (s : State), ∃ (ps : Ports), ∃ (val : Word), 
    (OnePort s ps portServes) ∧
    (¬(1 ≤ fieldOf val 28 4 ∧ fieldOf val 28 4 ≤ 3)) :=
  ⟨up, .p0, 0, ⟨rfl, .inl rfl, by decide +kernel⟩, by decide +kernel⟩

theorem meets_LaunchControl_3 : ∃ (s : State), ∃ (lid : Nat), ∃ (gang : Nat), ∃ (core : Nat), ∃ (code : BitVec 8), ∃ (l : Launch), ∃ (k : Nat), ∃ (ga : Gang), ∃ (b : Block), ∃ (k0 : Nat), ∃ (ga0 : Gang), ∃ (rest : List (Nat × Gang)), 
    (tget s.launches lid = some l) ∧
    (s.areqs = []) ∧
    (tget s.gangs k = some ga) ∧
    (ga.lid = lid) ∧
    (ga.index = gang) ∧
    (ga.st = .resident) ∧
    (killCode code.toNat = true) ∧
    (∃ bid ∈ ga.blocks, tget s.blocks bid = some b) ∧
    (b.core = core) ∧
    ((s.gangs.filter fun g => g.2.lid == lid && g.2.index == gang && g.2.st != .retired && g.2.st != .killed) = (k0, ga0) :: rest) :=
  ⟨mk l0 blk0 g0, 1, 0, 0, 0x20, l0, 2, ga0, blk0, 2, ga0, [], rfl, by decide +kernel, rfl, by decide +kernel, by decide +kernel, by decide +kernel, by decide +kernel, ⟨3, .head _, rfl⟩, rfl, rfl⟩

theorem meets_LaunchControl_4 : ∃ (s : State), ∃ (die : Nat), 
    (die < 2) ∧
    (s.fenced.contains die = false) :=
  ⟨up, 1, by decide +kernel⟩

/-- The launch with a debugger at port 0, whose mailbox names it and is idle or busy; its group halted. -/
def lAtt : Launch := { l0 with attached := some 0 }
def gHalt : Group := { g0 with halted := true }
def sDbg (busy : Bool) : State := { mk lAtt blk0 gHalt with dbg := [(0, { Dbg.reset with lid := some 1, busy := busy }), (1, Dbg.reset)] }

theorem meets_DebugEvents_0 : ∃ (s : State), ∃ (ps : Ports), ∃ (p : Nat), ∃ (cmd : Word), ∃ (i : Instr), ∃ (op : Nat), 
    (OnePort s ps portTalks) ∧
    (p = firstPort ps) ∧
    ((mailbox s p).busy = true) ∧
    ((i, op) ∈ [(Instr.attach ps cmd, 1), (.detach ps cmd, 2), (.select ps cmd, 3), (.halt ps cmd, 4), (.debugResume ps cmd, 5), (.step ps cmd, 6), (.rdreg ps cmd, 7), (.wrreg ps cmd, 8), (.setbrk ps cmd, 9), (.setwatch ps cmd, 10)]) ∧
    (cmdOp cmd = op) :=
  ⟨sDbg true, .p0, 0, 0x10000000, .attach .p0 0x10000000, 1, ⟨rfl, .inl rfl, by decide +kernel⟩, rfl, rfl, .head _, by decide +kernel⟩

theorem meets_DebugEvents_1 : ∃ s ps p, ∃ cmd : Word, ∃ lid l, OnePort s ps portTalks ∧ p = firstPort ps ∧ (mailbox s p).busy = false ∧
    cmdOp cmd = 1 ∧ (mailbox s p).lid = none ∧
    (s.launches.find? fun l => l.2.st != .taken && l.2.rec0.handle == (mailbox s p).dargl) = some (lid, l) ∧ tget s.launches lid = some l ∧
    l.rec0.dbgen = true ∧ l.attached = none :=
  ⟨mk l0 blk0 g0, .p0, 0, 0x10000000, 1, l0, ⟨rfl, .inl rfl, by decide +kernel⟩, rfl, by decide +kernel, by decide +kernel, by decide +kernel, rfl, rfl, rfl,
    rfl⟩
theorem meets_DebugEvents_undefined : ∃ s ps p, ∃ cmd : Word, OnePort s ps portTalks ∧ p = firstPort ps ∧ (mailbox s p).busy = false ∧
    ¬(1 ≤ cmdOp cmd ∧ cmdOp cmd ≤ 10) :=
  ⟨up, .p1, 1, 0, ⟨rfl, .inr rfl, by decide +kernel⟩, rfl, by decide +kernel, by decide +kernel⟩
theorem meets_DebugEvents_2 : ∃ s, ∃ cmd : Word, ∃ s1 s2, exec (.attach (if s.tieAttach = true then .p1 else .p0) cmd) s = .next s1 ∧
    exec (.attach (if s.tieAttach = true then .p0 else .p1) cmd) s1 = .next s2 := by
  have h : (match exec (.attach .p1 0x10000000) (mk l0 blk0 g0) with
    | .next s1 => (match exec (.attach .p0 0x10000000) s1 with
      | .next _ => true
      | _ => false)
    | _ => false) = true := by decide +kernel
  cases h1 : exec (.attach .p1 0x10000000) (mk l0 blk0 g0) with
  | next s1 =>
    rw [h1] at h
    cases h2 : exec (.attach .p0 0x10000000) s1 with
    | next s2 => exact ⟨mk l0 blk0 g0, 0x10000000, s1, s2,
      by rw [show (if (mk l0 blk0 g0).tieAttach = true then Ports.p1 else .p0) = .p1 by decide]; exact h1,
      by rw [show (if (mk l0 blk0 g0).tieAttach = true then Ports.p0 else .p1) = .p0 by decide]; exact h2⟩
    | fault _ => simp only [h2] at h; cases h
    | refused _ => simp only [h2] at h; cases h
  | fault _ => rw [h1] at h; cases h
  | refused _ => rw [h1] at h; cases h

theorem meets_DebugEvents_detach : ∃ (s : State), ∃ (ps : Ports), ∃ (p : Nat), ∃ (cmd : Word), ∃ (lid : Nat), ∃ (l : Launch), 
    (OnePort s ps portTalks) ∧
    (p = firstPort ps) ∧
    (Debugs s p lid l) ∧
    (cmdOp cmd = 2) :=
  ⟨sDbg false, .p0, 0, 536870912, 1, lAtt, ⟨rfl, .inl rfl, by decide +kernel⟩, rfl, ⟨rfl, rfl, rfl, rfl, rfl⟩, by decide +kernel⟩

theorem meets_DebugEvents_select : ∃ (s : State), ∃ (ps : Ports), ∃ (p : Nat), ∃ (cmd : Word), ∃ (lid : Nat), ∃ (l : Launch), 
    (OnePort s ps portTalks) ∧
    (p = firstPort ps) ∧
    (Debugs s p lid l) ∧
    (cmdOp cmd = 3) :=
  ⟨sDbg false, .p0, 0, 805306368, 1, lAtt, ⟨rfl, .inl rfl, by decide +kernel⟩, rfl, ⟨rfl, rfl, rfl, rfl, rfl⟩, by decide +kernel⟩

theorem meets_DebugEvents_setbrk : ∃ (s : State), ∃ (ps : Ports), ∃ (p : Nat), ∃ (cmd : Word), ∃ (lid : Nat), ∃ (l : Launch), 
    (OnePort s ps portTalks) ∧
    (p = firstPort ps) ∧
    (Debugs s p lid l) ∧
    (cmdOp cmd = 9) :=
  ⟨sDbg false, .p0, 0, 2415919104, 1, lAtt, ⟨rfl, .inl rfl, by decide +kernel⟩, rfl, ⟨rfl, rfl, rfl, rfl, rfl⟩, by decide +kernel⟩

theorem meets_DebugEvents_halt : ∃ (s : State), ∃ (ps : Ports), ∃ (p : Nat), ∃ (cmd : Word), ∃ (lid : Nat), ∃ (l : Launch), ∃ (gid : Nat), ∃ (g : Group), 
    (OnePort s ps portTalks) ∧
    (p = firstPort ps) ∧
    (Debugs s p lid l) ∧
    (Selects s p gid g) ∧
    (cmdOp cmd = 4) :=
  ⟨sDbg false, .p0, 0, 1073741824, 1, lAtt, 4, gHalt, ⟨rfl, .inl rfl, by decide +kernel⟩, rfl, ⟨rfl, rfl, rfl, rfl, rfl⟩, ⟨rfl, rfl⟩, by decide +kernel⟩

theorem meets_DebugEvents_resume : ∃ (s : State), ∃ (ps : Ports), ∃ (p : Nat), ∃ (cmd : Word), ∃ (lid : Nat), ∃ (l : Launch), ∃ (gid : Nat), ∃ (g : Group), 
    (OnePort s ps portTalks) ∧
    (p = firstPort ps) ∧
    (Debugs s p lid l) ∧
    (Selects s p gid g) ∧
    (cmdOp cmd = 5) :=
  ⟨sDbg false, .p0, 0, 1342177280, 1, lAtt, 4, gHalt, ⟨rfl, .inl rfl, by decide +kernel⟩, rfl, ⟨rfl, rfl, rfl, rfl, rfl⟩, ⟨rfl, rfl⟩, by decide +kernel⟩

theorem meets_DebugEvents_step : ∃ (s : State), ∃ (ps : Ports), ∃ (p : Nat), ∃ (cmd : Word), ∃ (lid : Nat), ∃ (l : Launch), ∃ (gid : Nat), ∃ (g : Group), 
    (OnePort s ps portTalks) ∧
    (p = firstPort ps) ∧
    (Debugs s p lid l) ∧
    (Selects s p gid g) ∧
    (cmdOp cmd = 6) :=
  ⟨sDbg false, .p0, 0, 1610612736, 1, lAtt, 4, gHalt, ⟨rfl, .inl rfl, by decide +kernel⟩, rfl, ⟨rfl, rfl, rfl, rfl, rfl⟩, ⟨rfl, rfl⟩, by decide +kernel⟩

theorem meets_DebugEvents_rdreg : ∃ (s : State), ∃ (ps : Ports), ∃ (p : Nat), ∃ (cmd : Word), ∃ (lid : Nat), ∃ (l : Launch), ∃ (gid : Nat), ∃ (g : Group), 
    (OnePort s ps portTalks) ∧
    (p = firstPort ps) ∧
    (Debugs s p lid l) ∧
    (Selects s p gid g) ∧
    (cmdOp cmd = 7) :=
  ⟨sDbg false, .p0, 0, 1879048192, 1, lAtt, 4, gHalt, ⟨rfl, .inl rfl, by decide +kernel⟩, rfl, ⟨rfl, rfl, rfl, rfl, rfl⟩, ⟨rfl, rfl⟩, by decide +kernel⟩

theorem meets_DebugEvents_wrreg : ∃ (s : State), ∃ (ps : Ports), ∃ (p : Nat), ∃ (cmd : Word), ∃ (lid : Nat), ∃ (l : Launch), ∃ (gid : Nat), ∃ (g : Group), 
    (OnePort s ps portTalks) ∧
    (p = firstPort ps) ∧
    (Debugs s p lid l) ∧
    (Selects s p gid g) ∧
    (cmdOp cmd = 8) :=
  ⟨sDbg false, .p0, 0, 2147483648, 1, lAtt, 4, gHalt, ⟨rfl, .inl rfl, by decide +kernel⟩, rfl, ⟨rfl, rfl, rfl, rfl, rfl⟩, ⟨rfl, rfl⟩, by decide +kernel⟩

theorem meets_DebugEvents_setwatch : ∃ (s : State), ∃ (ps : Ports), ∃ (p : Nat), ∃ (cmd : Word), ∃ (lid : Nat), ∃ (l : Launch), ∃ (gid : Nat), ∃ (g : Group), 
    (OnePort s ps portTalks) ∧
    (p = firstPort ps) ∧
    (Debugs s p lid l) ∧
    (Selects s p gid g) ∧
    (cmdOp cmd = 10) :=
  ⟨sDbg false, .p0, 0, 2684354560, 1, lAtt, 4, gHalt, ⟨rfl, .inl rfl, by decide +kernel⟩, rfl, ⟨rfl, rfl, rfl, rfl, rfl⟩, ⟨rfl, rfl⟩, by decide +kernel⟩

theorem meets_DebugEvents_5 : ∃ (s : State), ∃ (gid : Nat), ∃ (p : Party), ∃ (eid : Nat), 
    (party? s gid = some p) ∧
    (p.g.stepping = some eid) ∧
    (stepWaits p.g eid = false ∨ p.g.done = true) :=
  ⟨mk lAtt blk0 { g0 with stepping := some 0 }, 4, (cx lAtt blk0 { g0 with stepping := some 0 }).p, 0, rfl, rfl, .inl (by decide +kernel)⟩

theorem meets_DebugEvents_6 : ∃ (s : State), ∃ (ps : Ports), ∃ (p : Nat), ∃ (i : Nat), 
    (OnePort s ps portTalks) ∧
    (p = firstPort ps) ∧
    (i < 11) :=
  ⟨up, .p0, 0, 10, ⟨rfl, .inl rfl, by decide +kernel⟩, rfl, by decide +kernel⟩

theorem meets_DebugEvents_7 : ∃ (s : State), ∃ (ps : Ports), ∃ (p : Nat), 
    (OnePort s ps portTalks) ∧
    (p = firstPort ps) :=
  ⟨up, .p0, 0, ⟨rfl, .inl rfl, by decide +kernel⟩, rfl⟩

theorem meets_DebugEvents_8 : ∃ (s : State), ∃ (ps : Ports), 
    (OnePort s ps portTalks) :=
  ⟨up, .p0, ⟨rfl, .inl rfl, by decide +kernel⟩⟩

theorem meets_DebugEvents_9 : ∃ (s : State), ∃ (ps : Ports), ∃ (v w tag : Word), ∃ (gid : Nat), ∃ (g : Group), ∃ (eid : Nat), ∃ (e : Entry), ∃ (reg : Nat), 
    (OnePort s ps portTalks) ∧
    (tag = portVal (firstPort ps) v w) ∧
    (tget s.groups gid = some g) ∧
    (g.done = false) ∧
    ((g.entries.filter fun x => match x.2.park with | some (.reply t _) => t == tag | _ => false) = [(eid, e)]) ∧
    (e.park = some (.reply tag reg)) :=
  ⟨mk l0 blk0 (gPark (.reply 7 5)), .p0, 7, 9, 7, 4, gPark (.reply 7 5), 0, { e0 with park := some (.reply 7 5) }, 5, ⟨rfl, .inl rfl, by decide +kernel⟩, rfl, rfl, rfl, rfl, rfl⟩

theorem meets_DebugEvents_10 : ∃ (s : State), ∃ (ps : Ports), ∃ (v w tag : Word), 
    (OnePort s ps portTalks) ∧
    (tag = portVal (firstPort ps) v w) ∧
    (∀ x ∈ s.groups, x.2.done = true ∨ replyReg x.2 tag = none) :=
  ⟨sM, .p1, 9, 7, 7, ⟨rfl, .inr rfl, by decide +kernel⟩, by decide +kernel⟩

theorem meets_DeviceEvents_release : ∃ s : State, s.running = false := ⟨State.reset, rfl⟩
/-- A device in stage A (0), with remap fuses in order. -/
def early (n : Nat) : State := { State.reset with running := true, stage := n, joinReq := true, planTo := true }
theorem meets_DeviceEvents_stages : ∀ n < 4, ∃ s : State, s.running = true ∧ s.stageFail = false ∧ s.stage = n ∧
    (n = 0 → remapOk s = true ∧ (s.planRdy = true ∨ s.planTo = true)) ∧ (n = 3 → s.joinReq = true) := by
  intro n _
  refine ⟨early n, rfl, rfl, rfl, fun _ => ⟨?_, .inr rfl⟩, fun _ => rfl⟩
  have h : remapOk (early 0) = true := by decide +kernel
  exact h
theorem meets_DeviceEvents_timeout : ∃ s : State, s.running = true ∧ s.stageFail = false ∧ s.stage = 0 ∧ s.planRdy = false ∧ s.planTo = false :=
  ⟨{ State.reset with running := true }, rfl, rfl, rfl, rfl, rfl⟩
theorem meets_running : ∃ s : State, s.running = true := ⟨up, rfl⟩

theorem meets_DeviceEvents_ctl : ∃ (s : State), 
    (s.running = true) ∧
    ((portServes s 0 || portServes s 1) = true) :=
  ⟨up, by decide +kernel⟩

theorem meets_DeviceEvents_ctl_none : ∃ (s : State), 
    (s.running = true) ∧
    ((portServes s 0 || portServes s 1) = false) :=
  ⟨{ up with fwBad := true }, by decide +kernel⟩

theorem meets_DeviceEvents_4 : ∃ (s : State), ∃ (ps : Ports), ∃ (v w w3 : Word), 
    (OnePort s ps portServes) ∧
    (w3 = portVal (firstPort ps) v w) :=
  ⟨up, .p0, 0, 5, 0, ⟨rfl, .inl rfl, by decide +kernel⟩, by decide +kernel⟩

theorem meets_DeviceEvents_5 : ∃ (s : State), ∃ (ps : Ports), 
    (OnePort s ps portServes) :=
  ⟨up, .p1, ⟨rfl, .inr rfl, by decide +kernel⟩⟩

theorem meets_DeviceEvents_6 : ∃ (s : State), ∃ (die : Nat), ∃ (pen : Nat), ∃ (offs : BitVec 16), ∃ (weak : Bool), 
    (s.running = true) ∧
    (die < 2) ∧
    (pen < 12) ∧
    (12 * die + pen ∈ s.replan) ∧
    (weak = decide (Config.railCeiling ≤ offs.toInt)) :=
  ⟨{ up with replan := [23] }, 1, 11, 9, decide (Config.railCeiling ≤ (9 : BitVec 16).toInt), by decide +kernel, by decide +kernel, by decide +kernel, by decide +kernel, rfl⟩

theorem meets_DeviceEvents_7 : ∃ (s : State), ∃ (ps : Ports), ∃ (v w : Word), 
    (OnePort s ps portAttests) ∧
    (bitOf (portVal (firstPort ps) v w) 0 = true) :=
  ⟨up, .p0, 1, 0, ⟨rfl, .inl rfl, by decide +kernel⟩, by decide +kernel⟩

theorem meets_DeviceEvents_8 : ∃ (s : State), ∃ (ps : Ports), ∃ (i : Nat), ∃ (v w : Word), 
    (OnePort s ps portAttests) ∧
    (i < 8) :=
  ⟨up, .p1, 7, 0, 1, ⟨rfl, .inr rfl, by decide +kernel⟩, by decide +kernel⟩

theorem meets_DeviceEvents_9 : ∃ (s : State), 
    (bitOf (s.rdReg rATSTAT) 31 = true) :=
  ⟨up.wrReg rATSTAT 0x80000000, by decide +kernel⟩

theorem meets_DeviceEvents_12 : ∃ (s : State), ∃ (port : Nat), 
    (port < 32) ∧
    (s.running = true) :=
  ⟨up, 31, by decide +kernel⟩

theorem meets_ErrorEvents_0 : ∃ (s : State), ∃ (die : Nat), 
    (die < 2) ∧
    (s.running = true) :=
  ⟨up, 1, by decide +kernel⟩

theorem lanes64 (m : LaneMask) (l : Nat) (h : bitOf m l = true) : l < 64 := by
  by_contra hl
  have := BitVec.getLsbD_of_ge m l (Nat.le_of_not_lt hl)
  rw [BitVec.getLsbD] at this
  simp only [bitOf] at h
  rw [this] at h
  cases h

theorem meets_ErrorEvents_2 : ∃ (s : State), ∃ (gid : Nat), ∃ (part : RegPart), ∃ (reg : Nat), ∃ (lanes : LaneMask), ∃ (p : Party), 
    (party? s gid = some p) ∧
    (p.ga.st = .resident) ∧
    (lanes ≠ 0) ∧
    (∀ l, bitOf lanes l = true → l < p.l.rec0.width) ∧
    (reg < p.l.rec0.regs) ∧
    (part = .vec ∨ (part = .side ∧ p.dist = true)) :=
  ⟨mk l0 blk0 g0, 4, .vec, 1023, 1, (cx l0 blk0 g0).p, rfl, by decide +kernel, by decide +kernel, fun l h => lanes64 _ l h, by decide +kernel⟩

theorem meets_ErrorEvents_side : ∃ (s : State), ∃ (gid : Nat), ∃ (part : RegPart), ∃ (reg : Nat), ∃ (lanes : LaneMask), ∃ (p : Party), 
    (party? s gid = some p) ∧
    (p.ga.st = .resident) ∧
    (lanes ≠ 0) ∧
    (∀ l, bitOf lanes l = true → l < p.l.rec0.width) ∧
    (reg < p.l.rec0.regs) ∧
    (part = .vec ∨ (part = .side ∧ p.dist = true)) :=
  ⟨mk inDist blk0 g0, 4, .side, 1023, 1, (cx inDist blk0 g0).p, rfl, by decide +kernel, by decide +kernel, fun l h => lanes64 _ l h, by decide +kernel⟩

theorem meets_ErrorEvents_3 : ∃ (s : State), ∃ (gid : Nat), ∃ (reg : Nat), ∃ (lanes : LaneMask), ∃ (d : Bool), ∃ (p : Party), 
    (party? s gid = some p) ∧
    (p.ga.st = .resident) ∧
    (lanes ≠ 0) ∧
    (∀ l, bitOf lanes l = true → l < p.l.rec0.width) ∧
    (reg < 48) :=
  ⟨mk l0 blk0 g0, 4, 47, 1, true, (cx l0 blk0 g0).p, rfl, by decide +kernel, by decide +kernel, fun l h => lanes64 _ l h, by decide +kernel⟩

theorem meets_ErrorEvents_4 : ∃ (s : State), ∃ (gid : Nat), ∃ (w : Nat), ∃ (lanes : LaneMask), ∃ (p : Party), 
    (party? s gid = some p) ∧
    (p.ga.st = .resident) ∧
    (4 * w < p.b.asize) :=
  ⟨mk l0 blk0 g0, 4, 0, 1, (cx l0 blk0 g0).p, rfl, by decide +kernel⟩

theorem meets_ErrorEvents_5 : ∃ (s : State), ∃ (gid : Nat), ∃ (w : Nat), ∃ (lanes : LaneMask), ∃ (p : Party), 
    (party? s gid = some p) ∧
    (p.ga.st = .resident) ∧
    (w < 4096 * p.l.rec0.tslotn) :=
  ⟨mk l0 blk0 g0, 4, 32767, 1, (cx l0 blk0 g0).p, rfl, by decide +kernel⟩

theorem meets_ErrorEvents_6 : ∃ (s : State), ∃ (pa : Nat), ∃ (err : MemErr), 
    (paOk pa = true) ∧
    (pa % 128 = 0) ∧
    (s.backed = true) ∧
    ((s.l2.any fun x => x.line == pa) = false) :=
  ⟨up, 128, .uncorrectable, by decide +kernel⟩

theorem meets_ErrorEvents_7 : ∃ (s : State), ∃ (pa : Nat), 
    (paOk pa = true) ∧
    (pa % 128 = 0) ∧
    ((s.l2.any fun x => x.line == pa) = true) :=
  ⟨{ up with l2 := [⟨0, 128, 2, true, none⟩] }, 128, by decide +kernel⟩

theorem meets_ErrorEvents_8 : ∃ (s : State), ∃ (ps : Ports), ∃ (die : Nat), ∃ (i : Nat), 
    (OnePort s ps portServes) ∧
    (die < 2) ∧
    (i < 10) :=
  ⟨up, .p1, 1, 9, ⟨rfl, .inr rfl, by decide +kernel⟩, by decide +kernel⟩

theorem meets_ErrorEvents_9 : ∃ (s : State), ∃ (ps : Ports), ∃ (die : Nat), ∃ (i : Nat), 
    (OnePort s ps portServes) ∧
    (die < 2) ∧
    (i < 16) :=
  ⟨up, .p1, 1, 15, ⟨rfl, .inr rfl, by decide +kernel⟩, by decide +kernel⟩

theorem meets_ErrorEvents_10 : ∃ (s : State), ∃ (ps : Ports), 
    (OnePort s ps portServes) :=
  ⟨up, .p0, ⟨rfl, .inl rfl, by decide +kernel⟩⟩

/-- Two ports in one clock: the first write or read answers a next state, and the second in that one. -/
def both (mk : Ports → Instr) (a b : Ports) (s : State) : Bool :=
  match exec (mk a) s with
  | .next s1 => (match exec (mk b) s1 with
    | .next _ => true
    | _ => false)
  | _ => false
theorem both_next {mk : Ports → Instr} {a b : Ports} {s : State} (h : both mk a b s = true) :
    ∃ s1 s2, exec (mk a) s = .next s1 ∧ exec (mk b) s1 = .next s2 := by
  unfold both at h
  cases h1 : exec (mk a) s with
  | next s1 =>
    cases h2 : exec (mk b) s1 with
    | next s2 => exact ⟨s1, s2, rfl, h2⟩
    | fault _ => simp [h1, h2] at h
    | refused _ => simp [h1, h2] at h
  | fault _ => simp [h1] at h
  | refused _ => simp [h1] at h
theorem meets_HostEvents_0 : ∃ mk serves s s1 s2, PortWrite mk serves ∧ exec (mk (if s.tieReg = true then .p0 else .p1)) s = .next s1 ∧
    exec (mk (if s.tieReg = true then .p1 else .p0)) s1 = .next s2 := by
  obtain ⟨s1, s2, h1, h2⟩ := both_next (mk := fun p => .planinStore p ⟨0, 1⟩) (a := .p0) (b := .p1) (s := up) (by decide +kernel)
  refine ⟨fun p => .planinStore p ⟨0, 1⟩, portServes, up, s1, s2, .inl ⟨0, 1, rfl, .inl rfl⟩, ?_, ?_⟩
  · rw [show (if up.tieReg = true then Ports.p0 else .p1) = .p0 by decide]; exact h1
  · rw [show (if up.tieReg = true then Ports.p1 else .p0) = .p1 by decide]; exact h2
theorem meets_HostEvents_1 : ∃ mk serves s s1 s2, PortRead mk serves ∧ exec (mk (if s.tieReg = true then .p0 else .p1)) s = .next s1 ∧
    exec (mk (if s.tieReg = true then .p1 else .p0)) s1 = .next s2 := by
  obtain ⟨s1, s2, h1, h2⟩ := both_next (mk := fun p => .fbdropRead p) (a := .p0) (b := .p1) (s := up) (by decide +kernel)
  refine ⟨fun p => .fbdropRead p, portServes, up, s1, s2, .inl ⟨rfl, .inr (.inr (.inl rfl))⟩, ?_, ?_⟩
  · rw [show (if up.tieReg = true then Ports.p0 else .p1) = .p0 by decide]; exact h1
  · rw [show (if up.tieReg = true then Ports.p1 else .p0) = .p1 by decide]; exact h2
theorem meets_HostEvents_2 : ∃ mk serves s ps, (PortWrite mk serves ∨ PortRead mk serves) ∧ s.running = true ∧ (ps = .p0 ∨ ps = .p1) ∧
    serves s (firstPort ps) = false :=
  ⟨fun p => .fbdropRead p, portServes, { up with fenced := [1] }, .p1, .inr (.inl ⟨rfl, .inr (.inr (.inl rfl))⟩), rfl, .inr rfl, by decide⟩

theorem meets_HostEvents_3 : ∃ (s : State), ∃ (ps : Ports), ∃ (i : Nat), 
    (i < 8) ∧
    (s.running = true) :=
  ⟨up, .p1, 7, by decide +kernel⟩

theorem meets_HostEvents_4 : ∃ (s : State), ∃ (ps : Ports), ∃ (off : Nat), ∃ (v : DWord), 
    (OnePort s ps portServes) ∧
    (pairAt s off = some (v, 0)) :=
  ⟨up, .p0, 0x100200, 0, ⟨rfl, .inl rfl, by decide +kernel⟩, by decide +kernel⟩

theorem meets_HostEvents_5 : ∃ (s : State), ∃ (ps : Ports), ∃ (off : Nat), ∃ (v w : Word), 
    (OnePort s ps (regServes off)) :=
  ⟨up, .p0, rTTSEL, 1, 1, ⟨rfl, .inl rfl, by decide +kernel⟩⟩

theorem meets_HostEvents_ctl : ∃ (s : State), ∃ (ps : Ports), ∃ (off : Nat), ∃ (v w : Word), 
    (OnePort s ps (regServes off)) ∧
    (off = 4) :=
  ⟨up, .p1, 4, 1, 2, ⟨rfl, .inr rfl, by decide +kernel⟩, by decide +kernel⟩

theorem meets_HostEvents_6 : ∃ (s : State), ∃ (ps : Ports), ∃ (v w val : Word), 
    (OnePort s ps portServes) ∧
    (val = portVal (firstPort ps) v w) ∧
    (bitOf (s.rdReg rHSWPCMD) 31 = false) :=
  ⟨up, .p0, 0x80000000, 0, 0x80000000, ⟨rfl, .inl rfl, by decide +kernel⟩, by decide +kernel⟩

theorem meets_HostEvents_7 : ∃ (s : State), ∃ (idx : Nat), ∃ (w : Sweep), 
    (s.sweeps[idx]? = some w) ∧
    (sweepWaits s w.asid w.va = false) :=
  ⟨{ up with sweeps := [⟨0, none, none, 0⟩] }, 0, ⟨0, none, none, 0⟩, by decide +kernel⟩

theorem meets_HostEvents_8 : ∃ (s : State), ∃ (ps : Ports), ∃ (die : Nat), ∃ (i : Nat), ∃ (v w val : Word), 
    (OnePort s ps portServes) ∧
    (val = portVal (firstPort ps) v w) ∧
    (die < 2) ∧
    (i < 16) :=
  ⟨up, .p0, 1, 15, 0, 0, 0, ⟨rfl, .inl rfl, by decide +kernel⟩, by decide +kernel⟩

theorem meets_HostEvents_9 : ∃ (s : State), ∃ (die : Nat), ∃ (i : Nat), 
    (die < 2) ∧
    (i < 16) ∧
    (bitOf (s.rdReg (rFWCFG die i)) 31 = true) ∧
    (bitOf (s.rdReg (rFWCFG die i)) 30 = true) :=
  ⟨up.wrReg (rFWCFG 1 15) 0xC0000000, 1, 15, by decide +kernel⟩

theorem meets_HostEvents_10 : ∃ (s : State), ∃ (p : Nat), 
    (p < 16) ∧
    (p ∈ s.poolOff) ∧
    (dropsOn s p = false) :=
  ⟨{ up with poolOff := [15] }, 15, by decide +kernel⟩

theorem meets_HostEvents_11 : ∃ (s : State), ∃ (ps : Ports), ∃ (v w val : Word), 
    (OnePort s ps portServes) ∧
    (val = portVal (firstPort ps) v w) :=
  ⟨up, .p0, 1, 0, 1, ⟨rfl, .inl rfl, by decide +kernel⟩, by decide +kernel⟩

theorem meets_HostEvents_topology : ∃ s : State, ∃ n, n < 1024 ∧ nodeBad s.ttStaged n = true ∧ ∀ k, k < n → nodeBad s.ttStaged k = false :=
  ⟨{ up with ttStaged := [(0, 0x80000001)] }, 0, by decide, by decide +kernel, fun k h => absurd h (Nat.not_lt_zero k)⟩

theorem meets_HostEvents_12 : ∃ (s : State), ∃ (ps : Ports), ∃ (v w val : Word), 
    (OnePort s ps portServes) ∧
    (val = portVal (firstPort ps) v w) :=
  ⟨up, .p0, 0x80000000, 0, 0x80000000, ⟨rfl, .inl rfl, by decide +kernel⟩, by decide +kernel⟩

theorem meets_HostEvents_13 : ∃ (s : State), ∃ (ps : Ports), ∃ (v w val : Word), 
    (OnePort s ps portServes) ∧
    (val = portVal (firstPort ps) v w) :=
  ⟨up, .p1, 0, 0xFF, 0xFF, ⟨rfl, .inr rfl, by decide +kernel⟩, by decide +kernel⟩

theorem meets_HostEvents_14 : ∃ (s : State), ∃ (ps : Ports), ∃ (pa : Nat), ∃ (data : List Byte), 
    (OnePort s ps portServes) ∧
    (data ≠ []) ∧
    (pa % 128 + data.length ≤ 128) ∧
    (pa < 2 ^ 62) ∧
    (paOk pa = true) ∧
    (tgtClosed s (.line (.plain (pa / 128 * 128)) 0) = false) ∧
    (noRoom s (pa / 128 * 128) = false) ∧
    (s.fenced.contains (keyDie (pa / 128 * 128)) = false) :=
  ⟨up, .p0, 127, [5], ⟨rfl, .inl rfl, by decide +kernel⟩, by decide +kernel⟩

/-- The device on its fabric: port 0 up, a window of 16 MiB of context 0, and flows from and to device 5. -/
def sFab : State := ((mkm l0 blk0 g0).wrReg rFBWIN 0x100).wrReg (rPORTCFG 0) 0x80000000
def flow5 (c : FlitClass) : Flow := ⟨5, 0, 0, c⟩
def acc5 (k : FabKind) : FabAccess := ⟨k, 0x50000, 4, [1, 2, 3, 4], 9⟩
def wait5 : FWait := { tag := 9, gid := 4, lane := 0, dev := 5, addr := 0, size := 4, regs := [], form := 0 }
def in5 : FlowIn := ⟨0, flow5 .request, 0, [(0, acc5 .store, false)]⟩
def out5 : FlowOut := ⟨⟨0, 5, 0, .request⟩, 1, 0, [(0, acc5 .store, true, 0)], 0, []⟩

theorem meets_FabricEvents_0 : ∃ (s : State), ∃ (port : Nat), ∃ (f : Flit), 
    (4 ≤ s.stage) ∧
    ((upPorts s).contains port = true) :=
  ⟨sFab, 0, ⟨flow5 .request, 0, acc5 .store, 0, 0, false⟩, by decide +kernel⟩

theorem meets_FabricEvents_1 : ∃ (s : State), ∃ (port : Nat), ∃ (flow : Flow), ∃ (x : FlowIn), ∃ (seq : BitVec 16), ∃ (acc : FabAccess), ∃ (mark : Bool), ∃ (a : Nat), 
    ((s.flowsIn.find? fun x => x.flow == flow && x.port == port) = some x) ∧
    ((x.held.find? fun h => h.1 == x.next) = some (seq, acc, mark)) ∧
    (flow.cls = .request) ∧
    (acc.kind = .store) ∧
    (∃ k off, incomingTgt s acc.addr .write = .ok (.line (.plain k) off) ∧ a = k + off ∧ off + acc.data.length ≤ 128 ∧ tgtClosed s (.line (.plain k) off) = false) :=
  ⟨{ sFab with flowsIn := [in5] }, 0, flow5 .request, in5, 0, acc5 .store, false, 0x150000, rfl, rfl, by decide +kernel, by decide +kernel, ⟨0x150000, 0, by decide +kernel, rfl, by decide +kernel, by decide +kernel⟩⟩

theorem meets_FabricEvents_store : ∃ (s : State), ∃ (src : Nat), ∃ (acc : FabAccess), ∃ (a : Nat), 
    (4 ≤ s.stage) ∧
    (∃ k off, incomingTgt s acc.addr (if acc.kind = .store then .write else .read) = .ok (.line (.plain k) off) ∧ a = k + off ∧ tgtClosed s (.line (.plain k) off) = false ∧ s.badLines.contains k = false ∧ off + acc.data.length ≤ 128) :=
  ⟨sFab, 5, acc5 .store, 0x150000, by decide +kernel, ⟨0x150000, 0, by decide +kernel, rfl, by decide +kernel, by decide +kernel, by decide +kernel⟩⟩

theorem meets_FabricEvents_load : ∃ (s : State), ∃ (src : Nat), ∃ (acc : FabAccess), ∃ (a : Nat), 
    (4 ≤ s.stage) ∧
    (∃ k off, incomingTgt s acc.addr (if acc.kind = .store then .write else .read) = .ok (.line (.plain k) off) ∧ a = k + off ∧ tgtClosed s (.line (.plain k) off) = false ∧ s.badLines.contains k = false ∧ off + acc.data.length ≤ 128) :=
  ⟨sFab, 5, acc5 .load, 0x150000, by decide +kernel, ⟨0x150000, 0, by decide +kernel, rfl, by decide +kernel, by decide +kernel, by decide +kernel⟩⟩

theorem meets_FabricEvents_3 : ∃ (s : State), ∃ (src : Nat), ∃ (acc : FabAccess), ∃ (k : Nat), ∃ (w : FWait), 
    (4 ≤ s.stage) ∧
    (acc.kind = .reply k) ∧
    ((s.fwaits.find? fun w => w.tag == acc.tag) = some w) ∧
    (w.hold = none) ∧
    (w.more = []) :=
  ⟨{ sFab with fwaits := [wait5] }, 5, acc5 (.reply 0), 0, wait5, by decide +kernel, rfl, rfl, by decide +kernel⟩

theorem meets_FabricEvents_4 : ∃ (s : State), ∃ (flow : Flow), ∃ (upTo : BitVec 16), ∃ (marked : Bool), ∃ (f : FlowOut), ∃ (i : Nat), 
    ((s.flowsOut.find? fun f => f.flow == flow) = some f) ∧
    ((f.unacked.findIdx? fun u => u.1 == upTo) = some i) ∧
    (∀ u ∈ f.unacked, ∀ w ∈ s.fwaits, w.tag = u.2.1.tag → (∃ x ∈ s.fwaits, x.tag = w.tag ∧ (x.form = 0 ∨ x.form = 7)) → w.hold = none ∧ w.more = []) :=
  ⟨{ sFab with flowsOut := [out5], fwaits := [wait5] }, out5.flow, 0, true, out5, 0, rfl, rfl, by decide +kernel⟩

theorem meets_FabricEvents_5 : ∃ (s : State), ∃ (flow : Flow), ∃ (seq : BitVec 16), ∃ (e : Nat), 
    (uePeer flow = some e) ∧
    (peerBad s (BitVec.ofNat 32 (2 ^ 30 + e * 2 ^ 16)) = false) :=
  ⟨(sFab.wrReg (rUEPEER 3 4) 0x81000000).wrReg rUEMODE 2, ⟨0, 2 ^ 14 + 3, 0, .request⟩, 0, 3, by decide +kernel⟩

theorem meets_FabricEvents_6 : ∃ (s : State), ∃ (flow : Flow), ∃ (seq : BitVec 16), ∃ (f : FlowOut), ∃ (acc : FabAccess), ∃ (r : Bool), ∃ (stamp : Nat), 
    (uePeer flow = none) ∧
    ((s.flowsOut.find? fun f => f.flow == flow) = some f) ∧
    ((f.unacked.find? fun u => u.1 == seq) = some (seq, acc, r, stamp)) ∧
    ((s.rdReg rFBTO).toNat ≤ clocksSince s stamp) :=
  ⟨({ sFab with flowsOut := [out5] }).wrReg rFBTO 0, out5.flow, 0, out5, acc5 .store, true, 0, rfl, rfl, rfl, by decide +kernel⟩

end Sys2Proof.Tests
end

/-! The numbers of the integer instructions: the model's readings and reductions are those of R60 and R180, the elements of a joined
value are its parts (R63), and the words of a shift, a window, a bit field and a count, bit by bit. -/

namespace Sys2Proof.Machine

open Sys2Proof

/-! Readings and reductions (R60, R180). -/

/-- Two's complement, as `BitVec` reads it. -/
theorem signedOf_eq_toInt {w : Nat} (hw : 0 < w) (n : Nat) : signedOf w n = (BitVec.ofNat w n).toInt := by
  have h2 : 2 ^ (w - 1) * 2 = 2 ^ w := Nat.two_pow_pred_mul_two hw
  rw [BitVec.toInt_eq_toNat_cond, BitVec.toNat_ofNat, signedOf]
  split <;> split <;> omega

theorem readInt_eq_readAs {w : Nat} (hw : 0 < w) (uns : Bool) (n : Nat) : readInt uns w n = readAs uns w n := by
  cases uns with
  | true => simp [readInt, readAs]
  | false => simp [readInt, readAs, signedOf_eq_toInt hw]

theorem wrapTo_eq_toNat_ofInt (w : Nat) (x : Int) : wrapTo w x = (BitVec.ofInt w x).toNat := (BitVec.toNat_ofInt x).symm

/-- Without SAT a reduction wraps, whatever the signedness. -/
theorem wrapTo_eq_fitAs (uns : Bool) (w : Nat) (x : Int) : wrapTo w x = fitAs uns false w x := wrapTo_eq_toNat_ofInt w x

theorem clampInt_eq {lo hi : Int} (h : lo ≤ hi) (x : Int) : clampInt lo hi x = max lo (min hi x) := by
  simp only [clampInt]
  split <;> [skip; split] <;> omega

theorem reduceInt_eq_fitAs (uns sat : Bool) (w : Nat) (x : Int) : reduceInt uns sat w x = fitAs uns sat w x := by
  cases sat with
  | false => exact wrapTo_eq_fitAs uns w x
  | true =>
    have h1 : (1 : Int) ≤ 2 ^ w := one_le_pow₀ (by decide)
    have h2 : (1 : Int) ≤ 2 ^ (w - 1) := one_le_pow₀ (by decide)
    simp only [reduceInt, fitAs, if_true, wrapTo_eq_toNat_ofInt]
    push_cast
    rw [clampInt_eq (by split <;> omega)]

theorem fitAs_lt (uns sat : Bool) (w : Nat) (x : Int) : fitAs uns sat w x < 2 ^ w := BitVec.isLt _
theorem wrapTo_lt (w : Nat) (x : Int) : wrapTo w x < 2 ^ w := wrapTo_eq_toNat_ofInt w x ▸ BitVec.isLt _

/-- The formats' widths are positive. -/
theorem bits_pos (t : Ty) : 0 < t.bits := by cases t <;> decide

/-! Elements (R63). -/

theorem elemAt_eq_piece (w i n : Nat) : elemAt w i n = piece w i n := by rw [elemAt, piece, Nat.shiftRight_eq_div_pow]

theorem joinElems_lt (w : Nat) (l : List Nat) : joinElems w l < 2 ^ (w * l.length) := by
  induction l with
  | nil => simp [joinElems]
  | cons e l ih =>
    have he : e % 2 ^ w < 2 ^ w := Nat.mod_lt _ (Nat.two_pow_pos w)
    have hs : 2 ^ (w * (e :: l).length) = 2 ^ w * 2 ^ (w * l.length) := by rw [List.length_cons, Nat.mul_succ, Nat.pow_add, Nat.mul_comm]
    calc joinElems w (e :: l) = e % 2 ^ w + 2 ^ w * joinElems w l := rfl
      _ < 2 ^ w * (joinElems w l + 1) := by rw [Nat.mul_succ]; omega
      _ ≤ 2 ^ w * 2 ^ (w * l.length) := Nat.mul_le_mul_left _ ih
      _ = _ := hs.symm

/-- Element i of joined elements. -/
theorem piece_joinElems (w : Nat) (l : List Nat) {i : Nat} (hi : i < l.length) : piece w i (joinElems w l) = l[i] % 2 ^ w := by
  induction l generalizing i with
  | nil => simp at hi
  | cons e l ih =>
    have he : e % 2 ^ w < 2 ^ w := Nat.mod_lt _ (Nat.two_pow_pos w)
    have hj : joinElems w (e :: l) = e % 2 ^ w + 2 ^ w * joinElems w l := rfl
    cases i with
    | zero => simp [piece, hj, Nat.add_mul_mod_self_left]
    | succ i =>
      have hd : joinElems w (e :: l) / 2 ^ w = joinElems w l := by
        rw [hj, Nat.add_mul_div_left _ _ (Nat.two_pow_pos w), Nat.div_eq_of_lt he, Nat.zero_add]
      rw [piece, Nat.mul_succ, Nat.add_comm, Nat.pow_add, ← Nat.div_div_eq_div_mul, hd]
      exact ih (by simpa using hi)

/-- The elements of a value joined from a function of their index. -/
theorem pieces_joinElems (w : Nat) (f : Nat → Nat) (hf : ∀ i, i < 32 / w → f i < 2 ^ w) :
    Pieces w (joinElems w ((List.range (32 / w)).map f)) f := by
  intro i hi
  rw [piece_joinElems w _ (by simpa using hi)]
  simpa using Nat.mod_eq_of_lt (hf i hi)

/-! Words given bit by bit. -/

/-- The bits collected so far. -/
theorem testBit_collect (f : Nat → Bool) (n i : Nat) :
    (((List.range n).foldl (fun n i => if f i then n + 2 ^ i else n) 0).testBit i = (decide (i < n) && f i)) ∧
      (List.range n).foldl (fun n i => if f i then n + 2 ^ i else n) 0 < 2 ^ n := by
  induction n with
  | zero => simp
  | succ n ih =>
    obtain ⟨hb, hlt⟩ := ih
    simp only [List.range_succ, List.foldl_append, List.foldl_cons, List.foldl_nil]
    generalize (List.range n).foldl (fun n i => if f i then n + 2 ^ i else n) 0 = x at hb hlt
    have hz : n ≤ i → x.testBit i = false := fun h => Nat.testBit_lt_two_pow (Nat.lt_of_lt_of_le hlt (Nat.pow_le_pow_right (by omega) h))
    refine ⟨?_, by rw [Nat.pow_succ]; split <;> omega⟩
    split
    · rename_i hf
      have h := Nat.testBit_two_pow_mul_add 1 hlt i
      rw [Nat.mul_one, Nat.add_comm] at h
      rw [h]
      rcases Nat.lt_trichotomy i n with hi | rfl | hi
      · simp [hi, hb, Nat.lt_succ_of_lt hi]
      · simp [hf]
      · have h1 : ¬ i < n := by omega
        have h2 : ¬ i < n + 1 := by omega
        have h3 : (1 : Nat).testBit (i - n) = false := Nat.testBit_lt_two_pow (Nat.one_lt_two_pow (by omega))
        simp [h1, h2, h3]
    · rename_i hf
      rcases Nat.lt_trichotomy i n with hi | rfl | hi
      · simp [hi, hb, Nat.lt_succ_of_lt hi]
      · simp [hz (Nat.le_refl _), hf]
      · have h2 : ¬ i < n + 1 := by omega
        simp [hz (Nat.le_of_lt hi), h2]

theorem testBit_bitsWord (f : Nat → Bool) {i : Nat} (hi : i < 32) : (bitsWord f).testBit i = f i := by
  simp [bitsWord, (testBit_collect f 32 i).1, hi]
theorem bitsWord_lt (f : Nat → Bool) : bitsWord f < 2 ^ 32 := (testBit_collect f 32 0).2

/-- Counting along a list. -/
theorem foldl_count (p : Nat → Bool) (l : List Nat) (k : Nat) :
    l.foldl (fun c i => if p i then c + 1 else c) k = k + (l.filter p).length := by
  induction l generalizing k with
  | nil => rfl
  | cons i l ih =>
    rw [List.foldl_cons, ih]
    by_cases h : p i
    · simp only [h, if_true, List.filter_cons_of_pos, List.length_cons]
      omega
    · simp [h]

theorem popCount_eq_length (x n : Nat) : popCount x n = ((List.range n).filter fun i => x.testBit i).length := by
  rw [popCount, foldl_count, Nat.zero_add]

/-- Leading zeros (R190). -/
theorem clzResult_spec {a : Nat} (ha : a < 2 ^ 32) :
    clzResult a ≤ 32 ∧ a < 2 ^ (32 - clzResult a) ∧ (clzResult a < 32 → a.testBit (31 - clzResult a) = true) := by
  by_cases h0 : a = 0
  · simp [clzResult, h0]
  · have hl : a.log2 < 32 := (Nat.log2_lt h0).2 ha
    have e1 : 32 - (31 - a.log2) = a.log2 + 1 := by omega
    have e2 : 31 - (31 - a.log2) = a.log2 := by omega
    simp only [clzResult, if_neg h0, e1, e2]
    exact ⟨by omega, Nat.lt_log2_self, fun _ => Nat.testBit_log2 h0⟩

/-- Trailing zeros (R190). -/
theorem ctzResult_spec (a : Nat) :
    ctzResult a ≤ 32 ∧ (∀ i, i < ctzResult a → a.testBit i = false) ∧ (ctzResult a < 32 → a.testBit (ctzResult a) = true) := by
  rw [ctzResult]
  cases h : (List.range 32).find? fun i => a.testBit i with
  | none =>
    have hz := List.find?_range_eq_none.1 h
    exact ⟨Nat.le_refl _, fun i hi => by simpa using hz i hi, fun h => absurd h (Nat.lt_irrefl _)⟩
  | some k =>
    obtain ⟨hk, hm, hz⟩ := List.find?_range_eq_some.1 h
    exact ⟨Nat.le_of_lt (List.mem_range.1 hm), fun i hi => by simpa using hz i hi, fun _ => hk⟩

/-! Shifts (R188). -/

theorem shlBits_eq (w a n : Nat) : shlBits w a n = a * 2 ^ n % 2 ^ w := by
  rw [shlBits, Nat.shiftLeft_eq]
  split
  · rename_i h
    exact (Nat.mod_eq_zero_of_dvd (Dvd.dvd.mul_left (Nat.pow_dvd_pow 2 h) a)).symm
  · rfl

theorem shrBits_eq {w a : Nat} (ha : a < 2 ^ w) (n : Nat) : shrBits w a n = a / 2 ^ n := by
  rw [shrBits, Nat.shiftRight_eq_div_pow]
  split
  · rename_i h
    exact (Nat.div_eq_of_lt (Nat.lt_of_lt_of_le ha (Nat.pow_le_pow_right (by omega) h))).symm
  · rfl

/-- A number of w bits divided by 2^n is its sign from n = w on. -/
theorem toInt_div_two_pow {w : Nat} (x : BitVec w) {n : Nat} (h : w ≤ n) :
    x.toInt / ((2 ^ n : Nat) : Int) = if x.toInt < 0 then -1 else 0 := by
  have h1 := BitVec.two_mul_toInt_lt (x := x)
  have h2 := BitVec.le_two_mul_toInt (x := x)
  have h3 : ((2 ^ w : Nat) : Int) ≤ ((2 ^ n : Nat) : Int) := by exact_mod_cast Nat.pow_le_pow_right (by omega) h
  push_cast at h1 h2 h3 ⊢
  split
  · rw [Int.ediv_eq_iff_of_pos (by positivity)]
    omega
  · exact Int.ediv_eq_zero_of_lt (by omega) (by omega)

theorem sarBits_eq {w : Nat} (hw : 0 < w) (a n : Nat) : sarBits w a n = fitAs false false w (readAs false w a / 2 ^ n) := by
  rw [sarBits, wrapTo_eq_fitAs false, signedOf_eq_toInt hw]
  congr 1
  rcases Nat.le_total n w with h | h
  · rw [show Nat.min n w = n from Nat.min_eq_left h]
    simp [readAs]
  · have hd := toInt_div_two_pow (BitVec.ofNat w a) h
    rw [show Nat.min n w = w from Nat.min_eq_right h, toInt_div_two_pow _ (Nat.le_refl w), ← hd]
    simp [readAs]

/-! SHF's window (R189). -/

theorem shfStart_eq (m k : Nat) :
    shfStart m k = if m = 0 then k % 32 else if m = 2 then min k 32 else if m = 4 then k % 64 else 32 - min k 32 := by
  simp only [shfStart]
  split <;> simp_all

theorem shfStart_le (m k : Nat) : shfStart m k ≤ 63 := by
  rw [shfStart_eq]
  split_ifs <;> omega

/-- Only `.win.ring` reaches past bit 63. -/
theorem shfStart_add_lt {m k i : Nat} (h4 : m ≠ 4) (hi : i < 32) : shfStart m k + i < 64 := by
  rw [shfStart_eq, if_neg h4]
  split_ifs <;> omega

theorem shfResult_lt (m a b k : Nat) : shfResult m a b k < 2 ^ 32 := Nat.mod_lt _ (by decide)

/-- SHF reads {b, a} laid out twice, so that a window past bit 63 goes on at bit 0. -/
theorem testBit_shfResult_ring {m a b k : Nat} (ha : a < 2 ^ 32) (hb : b < 2 ^ 32) {i : Nat} (hi : i < 32) :
    (shfResult m a b k).testBit i = (a + b * 2 ^ 32).testBit ((shfStart m k + i) % 64) := by
  have hx : a + b * 2 ^ 32 < 2 ^ 64 := by omega
  have hs := shfStart_le m k
  have htwice : a + b * 2 ^ 32 + (a + b * 2 ^ 32) * 2 ^ 64 = 2 ^ 64 * (a + b * 2 ^ 32) + (a + b * 2 ^ 32) := by ring
  simp only [shfResult, Nat.testBit_mod_two_pow, hi, decide_true, Bool.true_and, Nat.testBit_shiftRight, htwice,
    Nat.testBit_two_pow_mul_add _ hx]
  split
  · rw [Nat.mod_eq_of_lt (by assumption)]
  · congr 1
    omega

theorem testBit_shfResult {m a b k : Nat} (ha : a < 2 ^ 32) (hb : b < 2 ^ 32) {i : Nat} (hi : i < 32) :
    (shfResult m a b k).testBit i = (a + b * 2 ^ 32).testBit
      (if m = 0 then k % 32 + i else if m = 2 then min k 32 + i else if m = 4 then (k % 64 + i) % 64 else 32 - min k 32 + i) := by
  rw [testBit_shfResult_ring ha hb hi]
  congr 1
  by_cases h4 : m = 4
  · simp [h4, shfStart]
  · rw [Nat.mod_eq_of_lt (shfStart_add_lt h4 hi), shfStart_eq, if_neg h4, if_neg h4]
    split_ifs <;> rfl

/-! Bit fields (R191). -/

/-- The field BFX takes out of A. -/
theorem testBit_field (pos len a i : Nat) : ((a >>> pos) % 2 ^ len).testBit i = (decide (i < len) && a.testBit (pos + i)) := by
  rw [Nat.testBit_mod_two_pow, Nat.testBit_shiftRight]

/-- A number of `top` bits widened to 32 by its sign. -/
theorem testBit_wrapTo_signedOf {top n : Nat} (h : 0 < top) {i : Nat} (hi : i < 32) :
    (wrapTo 32 (signedOf top n)).testBit i = if i < top then n.testBit i else n.testBit (top - 1) := by
  have hsx : wrapTo 32 (signedOf top n) = ((BitVec.ofNat top n).signExtend 32).toNat := by
    rw [wrapTo_eq_toNat_ofInt, signedOf_eq_toInt h]
    rfl
  have hlast : top - 1 < top := by omega
  simp only [hsx, BitVec.testBit_toNat, BitVec.getLsbD_signExtend, hi, decide_true, Bool.true_and, BitVec.msb_eq_getLsbD_last,
    BitVec.getLsbD_ofNat, hlast]
  split <;> simp [*]

theorem testBit_bfxResult {uns : Bool} {pos len a : Nat} (ha : a < 2 ^ 32) (hp : pos < 32) (hl : 1 ≤ len) {i : Nat} (hi : i < 32) :
    (bfxResult uns pos len a).testBit i =
      if i < len ∧ pos + i < 32 then a.testBit (pos + i) else !uns && a.testBit (min (pos + len) 32 - 1) := by
  obtain ⟨top, htop⟩ : ∃ top, top = min (pos + len) 32 - pos := ⟨_, rfl⟩
  have hin : (i < len ∧ pos + i < 32) ↔ i < top := by omega
  cases uns with
  | true =>
    have hu : bfxResult true pos len a = (a >>> pos) % 2 ^ len := rfl
    rw [hu, testBit_field]
    by_cases h : i < len
    · by_cases h32 : pos + i < 32
      · simp [h, h32]
      · have hz : a.testBit (pos + i) = false :=
          Nat.testBit_lt_two_pow (Nat.lt_of_lt_of_le ha (Nat.pow_le_pow_right (by decide) (by omega)))
        simp [h32, hz]
    · simp [h]
  | false =>
    have hs : bfxResult false pos len a = wrapTo 32 (signedOf top ((a >>> pos) % 2 ^ len)) := by
      rw [htop]
      rfl
    have hsign : min (pos + len) 32 - 1 = pos + (top - 1) := by omega
    have hlen : top - 1 < len := by omega
    rw [hs, testBit_wrapTo_signedOf (by omega) hi, testBit_field, testBit_field, hsign]
    simp only [hin, hlen, decide_true, Bool.true_and, Bool.not_false]
    split
    · have : i < len := by omega
      simp [this]
    · rfl

theorem bfxResult_lt {uns : Bool} {pos len a : Nat} (ha : a < 2 ^ 32) : bfxResult uns pos len a < 2 ^ 32 := by
  simp only [bfxResult]
  split
  · calc (a >>> pos) % 2 ^ len ≤ a >>> pos := Nat.mod_le _ _
      _ ≤ a := Nat.shiftRight_le a pos
      _ < 2 ^ 32 := ha
  · exact wrapTo_lt 32 _

theorem testBit_bfiResult {pos len a b : Nat} (hb : b < 2 ^ 32) {i : Nat} (hi : i < 32) :
    (bfiResult pos len a b).testBit i = if pos ≤ i ∧ i < pos + len then a.testBit (i - pos) else b.testBit i := by
  have h64 : i < 64 := by omega
  have hb' : b % 2 ^ 64 = b := Nat.mod_eq_of_lt (by omega)
  simp only [bfiResult, setField, Nat.testBit_mod_two_pow, BitVec.toNat_ofNat, hb', hi, h64, decide_true, Bool.true_and, Nat.testBit_or,
    Nat.testBit_xor, Nat.testBit_and, Nat.testBit_shiftLeft, Nat.testBit_two_pow_sub_one]
  by_cases h1 : pos ≤ i
  · by_cases h2 : i < pos + len
    · have : i - pos < len := by omega
      simp [h1, h2, this]
    · have : ¬ i - pos < len := by omega
      simp [h1, h2, this]
  · simp [h1]

/-! Sums (R199). -/

theorem foldl_add_eq_sum (f : Nat → Int) (l : List Nat) (k : Int) : l.foldl (fun x i => x + f i) k = k + (l.map f).sum := by
  induction l generalizing k with
  | nil => simp
  | cons i l ih => rw [List.foldl_cons, ih, List.map_cons, List.sum_cons, Int.add_assoc]

theorem dotResult_eq {w : Nat} (hw : 0 < w) (n minor : Nat) (sat : Bool) (a b k : Nat) :
    dotResult w n minor sat a b k = fitAs false sat 32 (readAs false 32 k +
      ((List.range n).map fun i => readAs (minor % 2 == 1) w (piece w i a) * readAs (minor / 2 % 2 == 1) w (piece w i b)).sum) := by
  simp only [dotResult, reduceInt_eq_fitAs, foldl_add_eq_sum, readInt_eq_readAs hw, elemAt_eq_piece]
  rw [signedOf_eq_toInt (by decide)]
  rfl

end Sys2Proof.Machine

/-! The words of formats V and I: what admission says of the fields (R122, R123, R129), where the major opcode stands (R120), and from
both what `VWords` and `IWords` state. -/

namespace Sys2Proof.Machine

open Sys2Proof

/-! Fields laid out lowest first. -/

/-- Every field's value fits its width. -/
def FieldsFit (l : List (Nat × Nat)) : Prop := ∀ x ∈ l, x.2 < 2 ^ x.1

/-- Below the fields that follow stand exactly the fields before them. -/
theorem packFields_div (pre post : List (Nat × Nat)) (h : FieldsFit pre) :
    packFields (pre ++ post) / 2 ^ (pre.map Prod.fst).sum = packFields post := by
  induction pre with
  | nil => simp
  | cons x pre ih =>
    have hx : x.2 < 2 ^ x.1 := h x (List.mem_cons_self ..)
    have hd : packFields (x :: pre ++ post) / 2 ^ x.1 = packFields (pre ++ post) := by
      rw [List.cons_append, packFields, Nat.add_mul_div_left _ _ (Nat.two_pow_pos _), Nat.div_eq_of_lt hx, Nat.zero_add]
    rw [List.map_cons, List.sum_cons, Nat.pow_add, ← Nat.div_div_eq_div_mul, hd]
    exact ih fun y hy => h y (List.mem_cons_of_mem _ hy)

/-- A field of a word reads what was laid out there. -/
theorem fieldOf_wordOf {widths vals : List Nat} {pre post : List (Nat × Nat)} {lo w v : Nat} (hz : widths.zip vals = pre ++ (w, v) :: post)
    (hfit : FieldsFit pre) (hv : v < 2 ^ w) (hlo : (pre.map Prod.fst).sum = lo) (hw : lo + w ≤ 96) :
    fieldOf (wordOf widths vals) lo w = v := by
  have hp := packFields_div pre ((w, v) :: post) hfit
  rw [hlo] at hp
  rw [fieldOf, wordOf, BitVec.toNat_ofNat, hz]
  have hmod : ((packFields (pre ++ (w, v) :: post) % 2 ^ 96) >>> lo) % 2 ^ w = (packFields (pre ++ (w, v) :: post) / 2 ^ lo) % 2 ^ w := by
    apply Nat.eq_of_testBit_eq
    intro i
    simp only [← Nat.shiftRight_eq_div_pow, Nat.testBit_mod_two_pow, Nat.testBit_shiftRight]
    by_cases hi : i < w
    · have : lo + i < 96 := by omega
      simp [this]
    · simp [hi]
  rw [hmod, hp, packFields, Nat.add_mul_mod_self_left, Nat.mod_eq_of_lt hv]

/-! What admission says of the fields. -/

theorem clsOk_lt {x : Cls} {n : Nat} (h : x.ok n = true) : n < 1024 := by
  cases x <;> simp only [Cls.ok, Bool.and_eq_true, decide_eq_true_eq, beq_iff_eq] at h <;> omega

theorem tyCode_lt (t : Ty) : t.code < 16 := by cases t <;> decide
theorem rndCode_lt (r : Rnd) : r.code < 8 := by cases r <;> decide
theorem cvCode_lt (k : Cv) : k.code < 4 := by cases k <;> decide
theorem ocCode_lt (k : Oc) : k.code < 4 := by cases k <;> decide
theorem boolCode_lt (b : Bool) : boolCode b < 2 := by cases b <;> decide

/-- A form of format V admits no field that overruns its width. -/
theorem vopAdm_regs {o : VOp} {m : VAdm} (h : o.adm m = true) : o.a < 1024 ∧ o.b < 1024 ∧ o.c < 1024 ∧ o.d < 1024 ∧ o.ext < 2 ^ 20 := by
  simp only [VOp.adm, Bool.and_eq_true, decide_eq_true_eq] at h
  obtain ⟨⟨⟨⟨⟨⟨⟨⟨⟨⟨⟨⟨⟨-, hd⟩, ha⟩, hb⟩, hc⟩, -⟩, -⟩, -⟩, -⟩, hext⟩, -⟩, -⟩, -⟩, -⟩ := h
  exact ⟨clsOk_lt ha, clsOk_lt hb, clsOk_lt hc, clsOk_lt hd, hext⟩

/-- The format, the operand class code, the minor code and EXT are admitted ones. -/
theorem vopAdm_codes {o : VOp} {m : VAdm} (h : o.adm m = true) :
    o.ty ∈ m.tys ∧ o.minor ∈ m.minors ∧ o.oc ∈ m.ocs ∧ m.ext o.ext = true := by
  simp only [VOp.adm, Bool.and_eq_true, decide_eq_true_eq, List.contains_iff_mem] at h
  obtain ⟨⟨⟨⟨⟨⟨⟨⟨⟨-, hty⟩, hoc⟩, hmin⟩, hext⟩, -⟩, -⟩, -⟩, -⟩, -⟩ := h
  exact ⟨hty, hmin, hoc, hext⟩

theorem iopAdm_regs {o : IOp} {m : IAdm} (h : o.adm m = true) : o.a < 1024 ∧ o.d < 1024 := by
  simp only [IOp.adm, Bool.and_eq_true] at h
  obtain ⟨⟨⟨⟨⟨⟨⟨⟨-, hd⟩, ha⟩, -⟩, -⟩, -⟩, -⟩, -⟩, -⟩ := h
  exact ⟨clsOk_lt ha, clsOk_lt hd⟩

theorem iopAdm_codes {o : IOp} {m : IAdm} (h : o.adm m = true) : o.ty ∈ m.tys ∧ o.minor ∈ m.minors ∧ o.oc ∈ m.ocs := by
  simp only [IOp.adm, Bool.and_eq_true, List.contains_iff_mem] at h
  obtain ⟨⟨⟨⟨⟨⟨-, hty⟩, hoc⟩, hmin⟩, -⟩, -⟩, -⟩ := h
  exact ⟨hty, hmin, hoc⟩

theorem vopAdm_ty {o : VOp} {m : VAdm} (h : o.adm m = true) : o.ty ∈ m.tys := (vopAdm_codes h).1
theorem vopAdm_minor {o : VOp} {m : VAdm} (h : o.adm m = true) : o.minor ∈ m.minors := (vopAdm_codes h).2.1
theorem vopAdm_oc {o : VOp} {m : VAdm} (h : o.adm m = true) : o.oc ∈ m.ocs := (vopAdm_codes h).2.2.1
theorem vopAdm_ext {o : VOp} {m : VAdm} (h : o.adm m = true) : m.ext o.ext = true := (vopAdm_codes h).2.2.2
theorem iopAdm_ty {o : IOp} {m : IAdm} (h : o.adm m = true) : o.ty ∈ m.tys := (iopAdm_codes h).1
theorem iopAdm_minor {o : IOp} {m : IAdm} (h : o.adm m = true) : o.minor ∈ m.minors := (iopAdm_codes h).2.1

/-! The major opcode stands in bits 87 to 79 (R120). -/

theorem opcode_encV {op : Nat} {o : VOp} {m : VAdm} (h : o.adm m = true) (hop : op < 2 ^ 9) (hmin : o.minor < 64) :
    fieldOf (encV op o) 79 9 = op := by
  obtain ⟨ha, hb, hc, hd, hext⟩ := vopAdm_regs h
  have hoc := ocCode_lt o.oc
  refine fieldOf_wordOf (pre := [(20, o.ext), (8, o.minor + 64 * o.oc.code), (1, boolCode o.sat), (1, boolCode o.nt), (2, o.cv.code),
    (3, o.rnd.code), (4, o.ty.code), (10, o.c), (10, o.b), (10, o.a), (10, o.d)]) rfl ?_ hop rfl (by decide)
  simp only [FieldsFit, List.forall_mem_cons]
  exact ⟨hext, by omega, boolCode_lt _, boolCode_lt _, cvCode_lt _, rndCode_lt _, tyCode_lt _, hc, hb, ha, hd, by simp⟩

theorem opcode_encI {op : Nat} {o : IOp} {m : IAdm} (h : o.adm m = true) (hop : op < 2 ^ 9) (hmin : o.minor < 64) :
    fieldOf (encI op o) 79 9 = op := by
  obtain ⟨ha, hd⟩ := iopAdm_regs h
  have hoc := ocCode_lt o.oc
  refine fieldOf_wordOf (pre := [(9, 0), (1, boolCode o.sat), (8, o.minor + 64 * o.oc.code), (2, o.cv.code), (3, o.rnd.code),
    (4, o.ty.code), (32, o.imm.toNat), (10, o.a), (10, o.d)]) rfl ?_ hop rfl (by decide)
  simp only [FieldsFit, List.forall_mem_cons]
  exact ⟨by decide, boolCode_lt _, by omega, cvCode_lt _, rndCode_lt _, tyCode_lt _, o.imm.isLt, ha, hd, by simp⟩

/-! The words of an instruction. -/

/-- Operands 0 under a guard that is always true, with the codes given. -/
def plainV (t : Ty) (m : Nat) (k : Oc) (ext : Nat) : VOp := ⟨⟨false, .always⟩, 0, 0, 0, 0, t, .dyn, .indep, false, false, k, m, ext⟩
def plainI (t : Ty) (m : Nat) (k : Oc) : IOp := ⟨⟨false, .always⟩, 0, 0, 0, t, .dyn, .indep, k, m, false⟩

/-- An instruction of format V whose words are admitted as `VWords` says. -/
theorem vwords_of {mk : VOp → Instr} {op : Nat} {tys : List Ty} {minors : List Nat} {ocs : List Oc} (ext : Nat)
    (henc : ∀ o, encode (mk o) = encV op o := by exact fun _ => rfl) (hop : op < 2 ^ 9 := by decide)
    (hmin : ∀ m ∈ minors, m < 64 := by decide)
    (hwf : ∀ o, (mk o).wf = true → ∃ m, o.adm m = true ∧ m.tys = tys ∧ m.minors = minors ∧ m.ocs = ocs := by
      exact fun _ h => ⟨_, h, rfl, rfl, rfl⟩)
    (hsome : ∀ t ∈ tys, ∀ m ∈ minors, ∀ k ∈ ocs, (mk (plainV t m k ext)).wf = true := by decide) : VWords mk op tys minors ocs := by
  refine ⟨fun o ho => ?_, fun t ht m hm k hk => ⟨plainV t m k ext, hsome t ht m hm k hk, rfl, rfl, rfl⟩⟩
  obtain ⟨m, ha, rfl, rfl, rfl⟩ := hwf o ho
  obtain ⟨hty, hmn, hoc, -⟩ := vopAdm_codes ha
  rw [henc]
  exact ⟨opcode_encV ha hop (hmin _ hmn), hty, hmn, hoc⟩

/-- The same of format I. -/
theorem iwords_of {mk : IOp → Instr} {op : Nat} {tys : List Ty} {minors : List Nat} {ocs : List Oc}
    (henc : ∀ o, encode (mk o) = encI op o := by exact fun _ => rfl) (hop : op < 2 ^ 9 := by decide)
    (hmin : ∀ m ∈ minors, m < 64 := by decide)
    (hwf : ∀ o, (mk o).wf = true → ∃ m, o.adm m = true ∧ m.tys = tys ∧ m.minors = minors ∧ m.ocs = ocs := by
      exact fun _ h => ⟨_, h, rfl, rfl, rfl⟩)
    (hsome : ∀ t ∈ tys, ∀ m ∈ minors, ∀ k ∈ ocs, (mk (plainI t m k)).wf = true := by decide) : IWords mk op tys minors ocs := by
  refine ⟨fun o ho => ?_, fun t ht m hm k hk => ⟨plainI t m k, hsome t ht m hm k hk, rfl, rfl, rfl⟩⟩
  obtain ⟨m, ha, rfl, rfl, rfl⟩ := hwf o ho
  obtain ⟨hty, hmn, hoc⟩ := iopAdm_codes ha
  rw [henc]
  exact ⟨opcode_encI ha hop (hmin _ hmn), hty, hmn, hoc⟩

end Sys2Proof.Machine

/-! From what an integer instruction computes on numbers of its operands' widths to what `VRes`, `IRes` and `LateResults` state. -/

namespace Sys2Proof.Machine

open Sys2Proof

/-! Operands hold numbers of their class's width. -/

theorem clsWidth_toUniform (x : Cls) : clsWidth x.toUniform = clsWidth x := by cases x <;> rfl
theorem clsWidth_ofTy (t : Ty) : clsWidth (Cls.ofTy t) = max 32 t.bits := by cases t <;> rfl
theorem ofTy_vec_or_pair (t : Ty) : Cls.ofTy t = .v ∨ Cls.ofTy t = .pair := by
  simp only [Cls.ofTy]
  cases t.wide <;> simp
theorem mulDest_vec_or_pair (m : Nat) : mulDest m = .v ∨ mulDest m = .pair := by
  simp only [mulDest]
  cases minorWide m <;> simp

theorem clsOpnd_val_lt (x : Cls) (n : Nat) (g : Group) (l : Nat) : (clsOpnd x n).val g l < 2 ^ clsWidth x := by
  cases x with
  | zero => exact Nat.one_pos
  | pred =>
    show (if g.rdP n l then 1 else 0) < 2
    split <;> decide
  | v | pair | k | kpair => exact BitVec.isLt _

/-- An operand under OC, which replaces its class by the uniform one or not. -/
theorem clsOpnd_oc_val_lt (u : Bool) (x : Cls) (n : Nat) (g : Group) (l : Nat) :
    (clsOpnd (if u then x.toUniform else x) n).val g l < 2 ^ clsWidth x := by
  cases u with
  | true => exact clsWidth_toUniform x ▸ clsOpnd_val_lt x.toUniform n g l
  | false => exact clsOpnd_val_lt x n g l

theorem vopA_val_lt (o : VOp) (x : Cls) (g : Group) (l : Nat) : (vopA o x).val g l < 2 ^ clsWidth x := clsOpnd_oc_val_lt _ x o.a g l
theorem vopB_val_lt (o : VOp) (x : Cls) (g : Group) (l : Nat) : (vopB o x).val g l < 2 ^ clsWidth x := clsOpnd_oc_val_lt _ x o.b g l
theorem vopC_val_lt (o : VOp) (x : Cls) (g : Group) (l : Nat) : (vopC o x).val g l < 2 ^ clsWidth x := clsOpnd_oc_val_lt _ x o.c g l
theorem iopA_val_lt (o : IOp) (x : Cls) (g : Group) (l : Nat) : (iopA o x).val g l < 2 ^ clsWidth x := clsOpnd_oc_val_lt _ x o.a g l

/-- An immediate is a number of its format's operand width. -/
theorem immVal_int_lt {o : IOp} (uns : Bool) (h : o.ty ∈ [Ty.i32, Ty.i64]) : immVal o uns < 2 ^ o.ty.bits := by
  have hi := o.imm.isLt
  simp only [List.mem_cons, List.not_mem_nil, or_false] at h
  rcases h with h | h <;> simp only [immVal, h, Ty.bits]
  · exact hi
  · split
    · omega
    · exact wrapTo_lt 64 _

/-- The integer formats of 32 and 64 bits fill their registers. -/
theorem clsWidth_ofTy_int {t : Ty} (h : t ∈ [Ty.i32, Ty.i64]) : clsWidth (Cls.ofTy t) = t.bits := by
  simp only [List.mem_cons, List.not_mem_nil, or_false] at h
  rcases h with rfl | rfl <;> rfl

/-! What the admitted operand classes and formats of an instruction fix. -/

/-- An instruction that admits OC 00 and 01 alone has no uniform form (R183). -/
theorem not_uniform_of_ocB {o : VOp} {m : VAdm} (h : o.adm m = true) (hocs : m.ocs = ocB) : o.oc ≠ .uniform := by
  have hoc := vopAdm_oc h
  rw [hocs] at hoc
  intro hu
  rw [hu] at hoc
  exact absurd hoc (by decide)

/-- Format I's immediate of a 32-bit instruction is its word. -/
theorem immVal_of_i32 {o : IOp} {m : IAdm} (h : o.adm m = true) (ht : m.tys = [.i32]) (uns : Bool) : immVal o uns = o.imm.toNat := by
  have hty := iopAdm_ty h
  rw [ht, List.mem_singleton] at hty
  simp [immVal, hty]

/-! Results at once. -/

/-- `vres_of`, for a function known on numbers of its operands' widths. -/
theorem vres_of_widths {i : Instr} {o : VOp} {d a b e : Cls} (fn : Nat → Nat → Nat → Nat) {R : Nat → Nat → Nat → Nat → Prop}
    (hi : ∀ s, exec i s = mapV s o d a b e false fn) (hd : d = .v ∨ d = .pair)
    (hR : i.wf = true → ∀ x y z, x < 2 ^ clsWidth a → y < 2 ^ clsWidth b → z < 2 ^ clsWidth e →
      fn x y z < 2 ^ clsWidth d ∧ R x y z (fn x y z)) : VRes i o d a b e R :=
  vres_of i o d a b e false fn R hi rfl (hd.imp_right .inl) (fun _ _ => hd)
    fun hw g l => hR hw _ _ _ (vopA_val_lt o a g l) (vopB_val_lt o b g l) (vopC_val_lt o e g l)

/-- `ires_of`, for a function known on numbers of A's width. -/
theorem ires_of_widths {i : Instr} {o : IOp} {d a : Cls} (uns : Bool) (fn : Nat → Nat → Nat) {R : Nat → Nat → Prop}
    (hi : ∀ s, exec i s = mapI s o d a uns fn) (hd : d = .v ∨ d = .pair)
    (hR : i.wf = true → ∀ x, x < 2 ^ clsWidth a → fn x (immVal o uns) < 2 ^ clsWidth d ∧ R x (fn x (immVal o uns))) : IRes i o d a R :=
  ires_of i o d a uns fn R hi hd fun hw g l => hR hw _ (iopA_val_lt o a g l)

/-- The same where all operands are of one integer format of 32 or 64 bits. -/
theorem vres_of_int {i : Instr} {o : VOp} (fn : Nat → Nat → Nat) {R : Nat → Nat → Nat → Prop}
    (hi : ∀ s, exec i s = mapV s o (Cls.ofTy o.ty) (Cls.ofTy o.ty) (Cls.ofTy o.ty) .zero false fun a b _ => fn a b)
    (ht : i.wf = true → o.ty ∈ [Ty.i32, Ty.i64])
    (hR : ∀ a b, a < 2 ^ o.ty.bits → b < 2 ^ o.ty.bits → fn a b < 2 ^ o.ty.bits ∧ R a b (fn a b)) :
    VRes i o (Cls.ofTy o.ty) (Cls.ofTy o.ty) (Cls.ofTy o.ty) .zero fun a b _ x => R a b x := by
  refine vres_of_widths (fun a b _ => fn a b) hi (ofTy_vec_or_pair _) fun hw a b _ ha hb _ => ?_
  rw [clsWidth_ofTy_int (ht hw)] at ha hb ⊢
  exact hR a b ha hb

theorem ires_of_int {i : Instr} {o : IOp} (fn : Nat → Nat → Nat) {R : Nat → Nat → Prop}
    (hi : ∀ s, exec i s = mapI s o (Cls.ofTy o.ty) (Cls.ofTy o.ty) false fn) (ht : i.wf = true → o.ty ∈ [Ty.i32, Ty.i64])
    (hR : ∀ a, a < 2 ^ o.ty.bits → immVal o false < 2 ^ o.ty.bits →
      fn a (immVal o false) < 2 ^ o.ty.bits ∧ R a (fn a (immVal o false))) :
    IRes i o (Cls.ofTy o.ty) (Cls.ofTy o.ty) R := by
  refine ires_of_widths false fn hi (ofTy_vec_or_pair _) fun hw a ha => ?_
  rw [clsWidth_ofTy_int (ht hw)] at ha ⊢
  exact hR a ha (immVal_int_lt false (ht hw))

/-! Results in flight (R172). -/

/-- Two groups read alike at a register of a lane. -/
def SameAt (g h : Group) (r l : Nat) : Prop :=
  g.rdV r l = h.rdV r l ∧ g.rdVP r l = h.rdVP r l ∧ g.rdSide r l = h.rdSide r l ∧ g.rdP r l = h.rdP r l ∧ g.rdPP r l = h.rdPP r l

theorem sameAt_trans {g h k : Group} {r l : Nat} (x : SameAt g h r l) (y : SameAt h k r l) : SameAt g k r l := by
  simp_all only [SameAt, and_self]

/-- Words of the streams are in no register. -/
theorem takeWords_sameAt (outs : List LaneOut) (g : Group) (r l : Nat) : SameAt (takeWords outs g) g r l :=
  ⟨takeWords_keeps (·.rdV r l) (fun _ _ _ => rfl) (fun _ _ _ => rfl) outs g, takeWords_keeps (·.rdVP r l) (fun _ _ _ => rfl) (fun _ _ _ => rfl) outs g,
    takeWords_keeps (·.rdSide r l) (fun _ _ _ => rfl) (fun _ _ _ => rfl) outs g, takeWords_keeps (·.rdP r l) (fun _ _ _ => rfl) (fun _ _ _ => rfl) outs g,
    takeWords_keeps (·.rdPP r l) (fun _ _ _ => rfl) (fun _ _ _ => rfl) outs g⟩

/-- Flags write no register. -/
theorem orAll_sameAt (g : Group) (fs : List (Nat × Flg)) (r l : Nat) : SameAt (g.orAll fs) g r l := by
  induction fs generalizing g with
  | nil => exact ⟨rfl, rfl, rfl, rfl, rfl⟩
  | cons x fs ih => exact ih (g.orFpsr x.1 x.2)

/-- The writes of all lanes in one list write what the lanes' deliveries write. -/
theorem putAll_flatMap_sameAt (dist : Bool) (outs : List LaneOut) {g h : Group} {r l : Nat} (hs : SameAt g h r l) :
    SameAt (g.putAll dist (outs.flatMap (·.ws))) (outs.foldl (deliverLane dist) h) r l := by
  induction outs generalizing g h with
  | nil => exact hs
  | cons o outs ih =>
    have hsplit : g.putAll dist ((o :: outs).flatMap (·.ws)) = (g.putAll dist o.ws).putAll dist (outs.flatMap (·.ws)) := by
      simp [Group.putAll, List.foldl_append]
    rw [hsplit]
    exact ih (putAll_congr dist o.ws hs)

/-- What an instruction of variable latency puts in flight. -/
def flightOf (vr pr : List Nat) (m : LaneMask) (outs : List LaneOut) : Inflight :=
  { vregs := vr, pregs := pr, lanes := m, writes := outs.flatMap (·.ws),
    flags := (outs.filter fun o => o.flags != 0).map fun o => (o.lane, o.flags), ready := true, req := 0, late := false }

theorem flyLanes_eq (vr pr : List Nat) (m : LaneMask) (outs : List LaneOut) (g : Group) :
    flyLanes vr pr m outs g =
      { takeWords outs g with inflight := (takeWords outs g).inflight ++ [flightOf vr pr m outs] } := rfl

/-- RUNNING A LANE INSTRUCTION of variable latency: within the frame its result is put in flight, and once that is delivered each
active lane's registers read as that lane's own writes leave them. -/
theorem runLanes_flies {s : State} {c : Ctx} (f : LaneForm) (F : Ctx → Nat → LaneOut) (hl : f.late = true)
    (hr : Ready s c f.hd (touchOf f.srcs f.dsts)) (he : NoEnables c f.hd) (h : FormFits f c (F c)) :
    ∃ g' x, runLanes s f.hd (touchOf f.srcs f.dsts) true F = .next (withGroup s c.gid g') ∧ LaneFrame f c g' ∧
      g'.inflight = c.p.g.inflight ++ [x] ∧
      ∀ l ∈ lanesOf (c.active f.hd), LaneHas c (deliverOne c.p.dist g' x) l (F c l).ws := by
  have ht {β : Type} (P : Group → β) (h3 : ∀ g l n, P (srAdvance g l n) = P g) (h4 : ∀ g l n, P (drcAdvance g l n) = P g) :
      P (takeWords ((lanesOf (c.active f.hd)).map (F c)) c.p.g) = P c.p.g := takeWords_keeps P h3 h4 _ _
  have hent := ht Group.entries (fun _ _ _ => rfl) (fun _ _ _ => rfl)
  have htm := ht Group.tm (fun _ _ _ => rfl) (fun _ _ _ => rfl)
  refine ⟨{ flyLanes f.vdst f.pdst (c.active f.hd) ((lanesOf (c.active f.hd)).map (F c)) c.p.g with entries := c.movedOn false },
    flightOf f.vdst f.pdst (c.active f.hd) ((lanesOf (c.active f.hd)).map (F c)), ?_, flyLanes_frame h hl, ?_, fun l hm r => ?_⟩
  · simp only [runLanes, runGroup_ready hr, ieeeTrap_none he h.lane, outcome, if_true]
    rw [advance_ctx hr.issuer _ _ (by rw [flyLanes_eq]; exact hent) (by rw [flyLanes_eq]; exact htm)]
    rfl
  · simp only [flyLanes_eq, ht Group.inflight (fun _ _ _ => rfl) (fun _ _ _ => rfl)]
  · have hbefore : SameAt { flyLanes f.vdst f.pdst (c.active f.hd) ((lanesOf (c.active f.hd)).map (F c)) c.p.g with
        entries := c.movedOn false } c.p.g r l := takeWords_sameAt _ c.p.g r l
    have hwrites := putAll_flatMap_sameAt c.p.dist ((lanesOf (c.active f.hd)).map (F c)) hbefore
    have hlane : SameAt _ _ r l := deliver_at c.p.dist h.lanesFit (nodup_lanesOf _) hm c.p.g r
    exact sameAt_trans (orAll_sameAt _ _ r l) (sameAt_trans hwrites hlane)

/-- An instruction of variable latency that MAPV runs delivers the results its function computes. -/
theorem lateResults_of {i : Instr} {o : VOp} {d a b e : Cls} (fn : Nat → Nat → Nat → Nat) {R : Nat → Nat → Nat → Nat → Prop}
    (hi : ∀ s, exec i s = mapV s o d a b e true fn) (hoc : o.oc ≠ .uniform) (hd : d = .v ∨ d = .pair)
    (hR : ∀ x y z, x < 2 ^ clsWidth a → y < 2 ^ clsWidth b → z < 2 ^ clsWidth e →
      fn x y z < 2 ^ clsWidth d ∧ R x y z (fn x y z)) :
    LateResults i { vForm o d a b e with late := true } (vopD o d) fun c l x sd =>
      PointSide c sd ∧ R ((vopA o a).val c.p.g l) ((vopB o b).val c.p.g l) ((vopC o e).val c.p.g l) x := by
  intro s c hr he
  have hx : (o.oc == Oc.uniform) = false := by simp [hoc]
  have hr' : Ready s c o.hd (touchOf [vopA o a, vopB o b, vopC o e] [vopD o d]) := by
    simpa [LaneForm.touch, vForm, hx] using hr
  obtain ⟨g', x, h1, h2, h3, h4⟩ := runLanes_flies { vForm o d a b e with late := true }
    (poisonable [vopA o a, vopB o b, vopC o e] [vopD o d] fun c l =>
      { lane := l, ws := (vopD o d).dests l (fn ((vopA o a).val c.p.g l) ((vopB o b).val c.p.g l) ((vopC o e).val c.p.g l)) 0 })
    rfl hr' he (poisonable_fits { vForm o d a b e with late := true } c _ (plain_fits _ c _ (List.mem_singleton_self _) _ _))
  refine ⟨g', x, ?_, h2, h3, fun l hl hact hp => ?_⟩
  · simp only [hi, mapV, hx, Bool.false_eq_true, if_false]
    exact h1
  · have h5 := h4 l (mem_lanesOf.2 ⟨hl, hact⟩)
    rw [poisonable_clean (srcs := [vopA o a, vopB o b, vopC o e]) hp] at h5
    obtain ⟨hlt, hval⟩ := hR _ _ _ (vopA_val_lt o a c.p.g l) (vopB_val_lt o b c.p.g l) (vopC_val_lt o e c.p.g l)
    have hD : vopD o d = clsOpnd d o.d := by simp [vopD, hx]
    rw [hD] at h5 ⊢
    obtain ⟨q1, q2, q3⟩ := laneHas_val d o.d _ 0 hl (hd.imp_right .inl) hlt h5
    exact ⟨⟨fun hdist => q2 hdist (by rcases hd with rfl | rfl <;> simp), q1 ▸ hval⟩, q3⟩

end Sys2Proof.Machine

/-! Products and quotients (R186, R187). -/

namespace Sys2Proof.Machine

open Sys2Proof

theorem mulResult_eq (m a b : Nat) : mulResult m a b =
    if m / 2 = 1 then fitAs false false 64 (readAs (isU m) 32 a * readAs (isU m) 32 b) / 2 ^ 32
      else fitAs false false (if m / 2 = 0 then 32 else 64) (readAs (isU m) 32 a * readAs (isU m) 32 b) := by
  simp only [mulResult, readInt_eq_readAs (show 0 < 32 by decide), wrapTo_eq_fitAs false]
  split
  · rename_i h
    simp [h]
  · rename_i h
    simp [h]
  · rename_i h0 h1
    rw [if_neg h1, if_neg h0]

/-- The low and the high word fit a register, the whole product a pair. -/
theorem mulResult_lt {m : Nat} (h : m ∈ [0, 1, 2, 3, 4, 5]) (a b : Nat) : mulResult m a b < 2 ^ clsWidth (mulDest m) := by
  have hw : 2 ^ 32 ≤ 2 ^ clsWidth (mulDest m) :=
    Nat.pow_le_pow_right (by decide) (by rcases mulDest_vec_or_pair m with hd | hd <;> rw [hd] <;> decide)
  rw [mulResult_eq]
  split
  · have := fitAs_lt false false 64 (readAs (isU m) 32 a * readAs (isU m) 32 b)
    omega
  · split
    · exact Nat.lt_of_lt_of_le (fitAs_lt _ _ 32 _) hw
    · have hm : minorWide m = true := by
        simp only [List.mem_cons, List.not_mem_nil, or_false] at h
        simp only [minorWide, Bool.or_eq_true, beq_iff_eq]
        omega
      rw [mulDest, if_pos hm]
      exact fitAs_lt _ _ 64 _

theorem madResult_eq (m : Nat) (sat : Bool) (a b k : Nat) : madResult m sat a b k =
    if minorWide m then fitAs false false 64 (readAs (isU m) 32 a * readAs (isU m) 32 b + (k : Int))
      else fitAs (isU m) sat 32 (readAs (isU m) 32 a * readAs (isU m) 32 b + readAs (isU m) 32 k) := by
  simp only [madResult, readInt_eq_readAs (show 0 < 32 by decide), wrapTo_eq_fitAs false, reduceInt_eq_fitAs]

theorem madResult_lt (m : Nat) (sat : Bool) (a b k : Nat) : madResult m sat a b k < 2 ^ clsWidth (mulDest m) := by
  rw [madResult_eq, mulDest]
  cases minorWide m
  · exact fitAs_lt _ _ 32 _
  · exact fitAs_lt _ _ 64 _

theorem divResult_eq (uns : Bool) (a b : Nat) : divResult uns a b =
    if b = 0 then 0xFFFFFFFF else fitAs uns false 32 ((readAs uns 32 a).tdiv (readAs uns 32 b)) := by
  simp only [divResult, readInt_eq_readAs (show 0 < 32 by decide), wrapTo_eq_fitAs uns]

theorem divResult_lt (uns : Bool) (a b : Nat) : divResult uns a b < 2 ^ 32 := by
  rw [divResult_eq]
  split
  · decide
  · exact fitAs_lt _ _ 32 _

theorem remResult_eq (uns : Bool) (a b : Nat) : remResult uns a b =
    if b = 0 then a else fitAs uns false 32 ((readAs uns 32 a).tmod (readAs uns 32 b)) := by
  simp only [remResult, readInt_eq_readAs (show 0 < 32 by decide), wrapTo_eq_fitAs uns]

theorem remResult_lt (uns : Bool) {a : Nat} (ha : a < 2 ^ 32) (b : Nat) : remResult uns a b < 2 ^ 32 := by
  rw [remResult_eq]
  split
  · exact ha
  · exact fitAs_lt _ _ 32 _

/-- Settles O13: the products and quotients of the model's functions are R186's and R187's, at once and from flight. -/
theorem mulDivide : Obligations.MulDivide := by
  unfold Obligations.MulDivide
  refine ⟨⟨fun o => ?_, fun o => ?_, fun o => ?_⟩, fun o hw => ?_, fun o hw => ?_⟩
  · exact vres_of_widths (fun a b _ => mulResult o.minor a b) (fun _ => rfl) (mulDest_vec_or_pair _)
      fun hw a b _ _ _ _ => ⟨mulResult_lt (vopAdm_minor hw) a b, mulResult_eq o.minor a b⟩
  · refine ires_of_widths (isU o.minor) (fun a b => mulResult o.minor a b) (fun _ => rfl) (mulDest_vec_or_pair _) fun hw a _ => ?_
    rw [immVal_of_i32 hw rfl]
    exact ⟨mulResult_lt (iopAdm_minor hw) a _, mulResult_eq o.minor a _⟩
  · exact vres_of_widths (madResult o.minor o.sat) (fun _ => rfl) (mulDest_vec_or_pair _)
      fun _ a b k _ _ _ => ⟨madResult_lt o.minor o.sat a b k, madResult_eq o.minor o.sat a b k⟩
  · exact lateResults_of (fun a b _ => divResult (isU o.minor) a b)
      (R := fun a b _ x => x = if b = 0 then 0xFFFFFFFF else fitAs (isU o.minor) false 32 ((readAs (isU o.minor) 32 a).tdiv (readAs (isU o.minor) 32 b)))
      (fun _ => rfl) (not_uniform_of_ocB hw rfl) (.inl rfl) fun a b _ _ _ _ => ⟨divResult_lt _ a b, divResult_eq _ a b⟩
  · exact lateResults_of (fun a b _ => remResult (isU o.minor) a b)
      (R := fun a b _ x => x = if b = 0 then a else fitAs (isU o.minor) false 32 ((readAs (isU o.minor) 32 a).tmod (readAs (isU o.minor) 32 b)))
      (fun _ => rfl) (not_uniform_of_ocB hw rfl) (.inl rfl) fun a b _ ha _ _ => ⟨remResult_lt _ ha b, remResult_eq _ a b⟩

end Sys2Proof.Machine

/-! Shifts (R188, R189). -/

namespace Sys2Proof.Machine

open Sys2Proof

/-- A shift of format V by the unsigned count in B (R188). -/
theorem vres_of_shift {i : Instr} {o : VOp} (f : Nat → Nat → Nat → Nat) {R : Nat → Nat → Nat → Prop}
    (hi : ∀ s, exec i s = mapShiftV s o f) (ht : i.wf = true → o.ty ∈ [Ty.i32, Ty.i64])
    (hR : ∀ a n, a < 2 ^ o.ty.bits → f o.ty.bits a n < 2 ^ o.ty.bits ∧ R a n (f o.ty.bits a n)) :
    VRes i o (Cls.ofTy o.ty) (Cls.ofTy o.ty) .v .zero fun a n _ x => R a n x := by
  refine vres_of_widths (fun a n _ => f o.ty.bits a n) hi (ofTy_vec_or_pair _) fun hw a n _ ha _ _ => ?_
  rw [clsWidth_ofTy_int (ht hw)] at ha ⊢
  exact hR a n ha

/-- The same of format I: the count is the 32-bit word itself. -/
theorem ires_of_shift {i : Instr} {o : IOp} (f : Nat → Nat → Nat → Nat) {R : Nat → Nat → Prop}
    (hi : ∀ s, exec i s = mapShiftI s o f) (ht : i.wf = true → o.ty ∈ [Ty.i32, Ty.i64])
    (hR : ∀ a, a < 2 ^ o.ty.bits → f o.ty.bits a o.imm.toNat < 2 ^ o.ty.bits ∧ R a (f o.ty.bits a o.imm.toNat)) :
    IRes i o (Cls.ofTy o.ty) (Cls.ofTy o.ty) R := by
  refine ires_of_widths true (fun a b => f o.ty.bits a (b % 2 ^ 32)) hi (ofTy_vec_or_pair _) fun hw a ha => ?_
  have hcount : immVal o true % 2 ^ 32 = o.imm.toNat := by
    have hlt := o.imm.isLt
    have hty := ht hw
    simp only [List.mem_cons, List.not_mem_nil, or_false] at hty
    rcases hty with h | h <;> simp only [immVal, h, if_true] <;> exact Nat.mod_eq_of_lt hlt
  rw [clsWidth_ofTy_int (ht hw)] at ha ⊢
  rw [hcount]
  exact hR a ha

theorem shlBits_spec (w a n : Nat) : shlBits w a n < 2 ^ w ∧ shlBits w a n = a * 2 ^ n % 2 ^ w := by
  rw [shlBits_eq]
  exact ⟨Nat.mod_lt _ (Nat.two_pow_pos w), rfl⟩
theorem shrBits_spec {w a : Nat} (ha : a < 2 ^ w) (n : Nat) : shrBits w a n < 2 ^ w ∧ shrBits w a n = a / 2 ^ n := by
  rw [shrBits_eq ha]
  exact ⟨Nat.lt_of_le_of_lt (Nat.div_le_self a _) ha, rfl⟩
theorem sarBits_spec {w : Nat} (hw : 0 < w) (a n : Nat) :
    sarBits w a n < 2 ^ w ∧ sarBits w a n = fitAs false false w (readAs false w a / 2 ^ n) := by
  rw [sarBits_eq hw]
  exact ⟨fitAs_lt _ _ w _, rfl⟩

/-- Settles O14: a shift is the product with, or the quotient by, a power of two, and SHF's window is read bit by bit. -/
theorem shifts : Obligations.Shifts := by
  unfold Obligations.Shifts
  refine ⟨⟨fun o => ?_, fun o => ?_, fun o => ?_, fun o => ?_, fun o => ?_, fun o => ?_⟩, fun o => ?_,
    vwords_of 0, iwords_of, vwords_of 0, iwords_of, vwords_of 0, iwords_of, vwords_of 0⟩
  · exact vres_of_shift shlBits (fun _ => rfl) vopAdm_ty fun a n _ => shlBits_spec _ a n
  · exact ires_of_shift shlBits (fun _ => rfl) iopAdm_ty fun a _ => shlBits_spec _ a _
  · exact vres_of_shift shrBits (fun _ => rfl) vopAdm_ty fun a n ha => shrBits_spec ha n
  · exact ires_of_shift shrBits (fun _ => rfl) iopAdm_ty fun a ha => shrBits_spec ha _
  · exact vres_of_shift sarBits (fun _ => rfl) vopAdm_ty fun a n _ => sarBits_spec (bits_pos o.ty) a n
  · exact ires_of_shift sarBits (fun _ => rfl) iopAdm_ty fun a _ => sarBits_spec (bits_pos o.ty) a _
  · exact vres_of_widths (shfResult o.minor) (fun _ => rfl) (.inl rfl)
      fun _ a b k ha hb _ => ⟨shfResult_lt o.minor a b k, fun i hi => testBit_shfResult ha hb hi⟩

end Sys2Proof.Machine

/-! Logic, bit counts and bit fields (R190, R191). -/

namespace Sys2Proof.Machine

open Sys2Proof

/-! Logic of w bits, bit by bit. -/

theorem and_bits (w a : Nat) {b : Nat} (hb : b < 2 ^ w) : a &&& b < 2 ^ w ∧ ∀ i, i < w → (a &&& b).testBit i = (a.testBit i && b.testBit i) :=
  ⟨Nat.and_lt_two_pow a hb, fun i _ => Nat.testBit_and a b i⟩
theorem or_bits {w a b : Nat} (ha : a < 2 ^ w) (hb : b < 2 ^ w) :
    a ||| b < 2 ^ w ∧ ∀ i, i < w → (a ||| b).testBit i = (a.testBit i || b.testBit i) :=
  ⟨Nat.or_lt_two_pow ha hb, fun i _ => Nat.testBit_or a b i⟩
theorem xor_bits {w a b : Nat} (ha : a < 2 ^ w) (hb : b < 2 ^ w) :
    a ^^^ b < 2 ^ w ∧ ∀ i, i < w → (a ^^^ b).testBit i = (a.testBit i != b.testBit i) :=
  ⟨Nat.xor_lt_two_pow ha hb, fun i _ => Nat.testBit_xor a b i⟩
theorem not_bits {w a : Nat} (ha : a < 2 ^ w) : (2 ^ w - 1) ^^^ a < 2 ^ w ∧ ∀ i, i < w → ((2 ^ w - 1) ^^^ a).testBit i = !a.testBit i := by
  refine ⟨Nat.xor_lt_two_pow (Nat.sub_lt (Nat.two_pow_pos w) Nat.one_pos) ha, fun i hi => ?_⟩
  simp [Nat.testBit_xor, Nat.testBit_two_pow_sub_one, hi]

/-- No count passes the number of bits counted. -/
theorem popCount_lt (a : Nat) : popCount a 32 < 2 ^ 32 := by
  have h : popCount a 32 ≤ 32 := by
    rw [popCount_eq_length]
    exact (List.length_filter_le _ _).trans (List.length_range (n := 32)).le
  omega

/-! What well-formed bit-field words hold (R191). -/

theorem bfOk_bounds {e : Nat} (h : bfOk e = true) : e < 2 ^ 11 ∧ 1 ≤ e / 32 ∧ e / 32 ≤ 32 ∧ bfPos e = e % 32 ∧ bfLen e = e / 32 := by
  simp only [bfOk, Bool.and_eq_true, decide_eq_true_eq] at h
  simp only [bfLen] at h ⊢
  exact ⟨by omega, by omega, by omega, rfl, by omega⟩

theorem bfx_bits (uns : Bool) {e a : Nat} (he : bfOk e = true) (ha : a < 2 ^ 32) :
    bfxResult uns (bfPos e) (bfLen e) a < 2 ^ 32 ∧ ∀ i, i < 32 → (bfxResult uns (bfPos e) (bfLen e) a).testBit i =
      if i < bfLen e ∧ bfPos e + i < 32 then a.testBit (bfPos e + i) else !uns && a.testBit (min (bfPos e + bfLen e) 32 - 1) := by
  obtain ⟨-, hlen, -, hpos, hlen'⟩ := bfOk_bounds he
  exact ⟨bfxResult_lt ha, fun i hi => testBit_bfxResult ha (hpos ▸ Nat.mod_lt _ (by decide)) (hlen' ▸ hlen) hi⟩

theorem bfiResult_lt (pos len a b : Nat) : bfiResult pos len a b < 2 ^ 32 := Nat.mod_lt _ (by decide)

/-- Settles O15: every result is given bit by bit, and every count by what stands below and above it. -/
theorem bitOperations : Obligations.BitOperations := by
  unfold Obligations.BitOperations
  refine ⟨⟨fun o => ?_, fun o => ?_, fun o => ?_, fun o => ?_, fun o => ?_, fun o => ?_, fun o => ?_, fun o => ?_, fun o => ?_⟩,
    ⟨fun o => ?_, fun o => ?_, fun o => ?_, fun o => ?_, fun o => ?_⟩, vwords_of 0, iwords_of, vwords_of 0, iwords_of, vwords_of 0, iwords_of,
    vwords_of 0, vwords_of 0, vwords_of 0, vwords_of 0, vwords_of 0, vwords_of 0, vwords_of 32, vwords_of 32, fun o hw => ?_, fun o hw => ?_⟩
  · exact vres_of_int (· &&& ·) (fun _ => rfl) vopAdm_ty fun a _ _ hb => and_bits _ a hb
  · exact ires_of_int (· &&& ·) (fun _ => rfl) iopAdm_ty fun a _ hb => and_bits _ a hb
  · exact vres_of_int (· ||| ·) (fun _ => rfl) vopAdm_ty fun _ _ ha hb => or_bits ha hb
  · exact ires_of_int (· ||| ·) (fun _ => rfl) iopAdm_ty fun _ ha hb => or_bits ha hb
  · exact vres_of_int (· ^^^ ·) (fun _ => rfl) vopAdm_ty fun _ _ ha hb => xor_bits ha hb
  · exact ires_of_int (· ^^^ ·) (fun _ => rfl) iopAdm_ty fun _ ha hb => xor_bits ha hb
  · refine vres_of_widths (fun a _ _ => (2 ^ o.ty.bits - 1) ^^^ a) (fun _ => rfl) (ofTy_vec_or_pair _) fun hw a _ _ ha _ _ => ?_
    rw [clsWidth_ofTy_int (vopAdm_ty hw)] at ha ⊢
    exact not_bits ha
  · exact vres_of_widths (lop3Result o.ext) (fun _ => rfl) (.inl rfl)
      fun _ _ _ _ _ _ _ => ⟨bitsWord_lt _, fun _ hi => testBit_bitsWord _ hi⟩
  · exact vres_of_widths (fun a _ _ => brevResult a) (fun _ => rfl) (.inl rfl)
      fun _ _ _ _ _ _ _ => ⟨bitsWord_lt _, fun _ hi => testBit_bitsWord _ hi⟩
  · exact vres_of_widths (fun a _ _ => popCount a 32) (fun _ => rfl) (.inl rfl)
      fun _ a _ _ _ _ _ => ⟨popCount_lt a, popCount_eq_length a 32⟩
  · exact vres_of_widths (fun a _ _ => clzResult a) (fun _ => rfl) (.inl rfl)
      fun _ _ _ _ ha _ _ => ⟨Nat.lt_of_le_of_lt (clzResult_spec ha).1 (by decide), clzResult_spec ha⟩
  · exact vres_of_widths (fun a _ _ => ctzResult a) (fun _ => rfl) (.inl rfl)
      fun _ a _ _ _ _ _ => ⟨Nat.lt_of_le_of_lt (ctzResult_spec a).1 (by decide), ctzResult_spec a⟩
  · exact vres_of_widths (fun a _ _ => bfxResult (isU o.minor) (bfPos o.ext) (bfLen o.ext) a) (fun _ => rfl) (.inl rfl)
      fun hw _ _ _ ha _ _ => bfx_bits _ (vopAdm_ext hw) ha
  · exact vres_of_widths (fun a b _ => bfiResult (bfPos o.ext) (bfLen o.ext) a b) (fun _ => rfl) (.inl rfl)
      fun _ a b _ _ hb _ => ⟨bfiResult_lt _ _ a b, fun _ hi => testBit_bfiResult hb hi⟩
  · simpa using vopAdm_ext hw
  · exact hw.elim (fun h => bfOk_bounds (vopAdm_ext h)) fun h => bfOk_bounds (vopAdm_ext h)

end Sys2Proof.Machine

/-! Comparison, selection, 64-bit addition, conversion, dot products and byte permutation (R192-R194, R197-R199). -/

namespace Sys2Proof.Machine

open Sys2Proof

/-- CVT reduces to the destination's width, then extends by the destination's signedness (R197). -/
theorem cvtResult_eq (st dt : Ty) (usrc udst sat : Bool) (a : Nat) : cvtResult st dt usrc udst sat a =
    fitAs false false (max 32 dt.bits) (readAs udst dt.bits (fitAs udst sat dt.bits (readAs usrc st.bits a))) := by
  simp only [cvtResult, readInt_eq_readAs (bits_pos _), reduceInt_eq_fitAs, wrapTo_eq_fitAs false]

theorem leaResult_eq (uns : Bool) (sc a b : Nat) :
    leaResult uns sc a b = fitAs false false 64 ((a : Int) + readAs uns 32 b * 2 ^ sc) := by
  simp [leaResult, readInt_eq_readAs, wrapTo_eq_fitAs false]

/-- BPERM byte by byte (R192). -/
theorem bperm_pieces (a b k : Nat) : Pieces 8 (bpermResult a b k) fun i =>
    if 8 ≤ piece 4 i k then 0 else piece 8 (piece 4 i k % 8) (a + b * 2 ^ 32) := by
  simp only [bpermResult, elemAt_eq_piece]
  refine pieces_joinElems 8 _ fun i _ => ?_
  split
  · decide
  · exact Nat.mod_lt _ (by decide)

theorem bpermResult_lt (a b k : Nat) : bpermResult a b k < 2 ^ 32 := joinElems_lt 8 _

theorem dotResult_lt (w n minor : Nat) (sat : Bool) (a b k : Nat) : dotResult w n minor sat a b k < 2 ^ 32 := by
  rw [dotResult, reduceInt_eq_fitAs]
  exact fitAs_lt _ _ 32 _

/-- The operand SEL's selector chooses in a lane (R193). -/
def selOpnd (o : VOp) (c : Ctx) (l : Nat) : Opnd :=
  if c.p.g.rdP (o.ext % 64) l != o.ext.testBit 6 then vopA o (Cls.ofTy o.ty) else vopB o (Cls.ofTy o.ty)

theorem selOpnd_val_lt (o : VOp) (c : Ctx) (l : Nat) : (selOpnd o c l).val c.p.g l < 2 ^ clsWidth (Cls.ofTy o.ty) := by
  unfold selOpnd
  split
  · exact vopA_val_lt o _ _ l
  · exact vopB_val_lt o _ _ l

/-- SEL gives the value and the sidecar of the operand chosen. -/
theorem sel_results {o : VOp} {f : LaneForm} (hoc : o.oc ≠ .uniform) (hf : integerForm (.sel o) = some f) :
    Results (.sel o) f (vopD o (Cls.ofTy o.ty)) fun c l x sd =>
      x = (selOpnd o c l).val c.p.g l ∧ (c.p.dist = true → sd = (selOpnd o c l).side c.p.g l) := by
  obtain rfl := Option.some.inj hf
  intro s c hr he _
  obtain ⟨g', h1, h2, h3, -⟩ := runLanes_strict _
    (fun c l => { lane := l, ws := (vopD o (Cls.ofTy o.ty)).dests l ((selOpnd o c l).val c.p.g l) ((selOpnd o c l).side c.p.g l) })
    hr he (plain_fits _ c (vopD o (Cls.ofTy o.ty)) (List.mem_singleton_self _) _ _)
  refine ⟨g', h1, h2, fun _ l hl hact hp => ?_, fun hu => Bool.noConfusion hu⟩
  have h4 := h3 rfl l (mem_lanesOf.2 ⟨hl, hact⟩) hp
  have hD : vopD o (Cls.ofTy o.ty) = clsOpnd (Cls.ofTy o.ty) o.d := by simp [vopD, hoc]
  rw [hD] at h4 ⊢
  obtain ⟨hval, hside, hclean⟩ := laneHas_val _ o.d _ _ hl ((ofTy_vec_or_pair o.ty).imp_right .inl) (selOpnd_val_lt o c l) h4
  exact ⟨⟨hval, fun hdist => hside hdist (by rcases ofTy_vec_or_pair o.ty with h | h <;> rw [h] <;> decide)⟩, hclean⟩

/-- ISET's result is 1 or 0, as its condition holds of the numbers read (R194). -/
theorem iset_results (o : VOp) : VRes (.iset o) o .pred (Cls.ofTy o.ty) (Cls.ofTy o.ty) .zero fun a b _ x =>
    x = if icond (o.minor / 2) (readAs (isU o.minor) o.ty.bits a) (readAs (isU o.minor) o.ty.bits b) then 1 else 0 := by
  refine vres_of _ o .pred _ _ .zero false
    (fun a b _ => if icond (o.minor / 2) (readInt (isU o.minor) o.ty.bits a) (readInt (isU o.minor) o.ty.bits b) then 1 else 0) _
    (fun _ => rfl) rfl (.inr (.inr rfl)) (fun hw hu => absurd hu (not_uniform_of_ocB hw rfl)) fun _ g l => ⟨?_, ?_⟩
  · show _ < 2
    split <;> decide
  · simp only [readInt_eq_readAs (bits_pos o.ty)]

/-- Settles O16: each result is the number its rule gives, and SEL's the operand chosen with its sidecar. -/
theorem selectConvertDot : Obligations.SelectConvertDot := by
  unfold Obligations.SelectConvertDot
  refine ⟨⟨iset_results, fun o f hw hf => sel_results (not_uniform_of_ocB hw rfl) hf, fun o => ?_, fun o => ?_, fun o => ?_⟩,
    ⟨fun o => ?_, fun o => ?_, fun o => ?_⟩, vwords_of 0, vwords_of 0, vwords_of 0⟩
  · exact vres_of_widths (fun a b _ => leaResult (isU o.minor) (o.ext % 8) a b) (fun _ => rfl) (.inr rfl)
      fun _ a b _ _ _ _ => ⟨wrapTo_lt 64 _, leaResult_eq _ _ a b⟩
  · exact vres_of_widths (fun a b _ => (a + b) % 2 ^ 64) (fun _ => rfl) (.inr rfl)
      fun _ a b _ _ _ _ => ⟨Nat.mod_lt _ (by decide), rfl⟩
  · refine vres_of_widths (fun a _ _ => cvtResult (Ty.ofCode (cvtStype o.c)) o.ty (cvtUsrc o.c) (cvtUdst o.c) o.sat a) (fun _ => rfl)
      (ofTy_vec_or_pair _) fun _ a _ _ _ _ _ => ⟨?_, cvtResult_eq _ _ _ _ _ a⟩
    rw [clsWidth_ofTy, cvtResult_eq]
    exact fitAs_lt _ _ _ _
  · exact vres_of_widths (dotResult 8 4 o.minor o.sat) (fun _ => rfl) (.inl rfl)
      fun _ a b k _ _ _ => ⟨dotResult_lt .., dotResult_eq (by decide) ..⟩
  · exact vres_of_widths (dotResult 4 8 o.minor o.sat) (fun _ => rfl) (.inl rfl)
      fun _ a b k _ _ _ => ⟨dotResult_lt .., dotResult_eq (by decide) ..⟩
  · exact vres_of_widths bpermResult (fun _ => rfl) (.inl rfl) fun _ a b k _ _ _ => ⟨bpermResult_lt a b k, bperm_pieces a b k⟩

end Sys2Proof.Machine

/-! The sign bit of every element (R214). -/

namespace Sys2Proof.Machine

open Sys2Proof

/-! Bits and elements (R63). -/

/-- Bit i of a value is bit i mod w of element i / w. -/
theorem testBit_eq_piece {w : Nat} (hw : 0 < w) (n i : Nat) : n.testBit i = (piece w (i / w) n).testBit (i % w) := by
  rw [piece, Nat.testBit_mod_two_pow, Nat.testBit_div_two_pow, Nat.mod_add_div]
  simp [Nat.mod_lt i hw]

/-- An element's last bit is where the next index starts another element. -/
theorem mod_last_iff {w : Nat} (hw : 0 < w) (i : Nat) : i % w + 1 = w ↔ (i + 1) % w = 0 := by
  have hlt := Nat.mod_lt i hw
  rw [← Nat.mod_add_mod i w 1]
  by_cases h : i % w + 1 = w
  · simp [h]
  · simp [h, Nat.mod_eq_of_lt (show i % w + 1 < w by omega)]

/-- The low w-1 bits of an element: without its sign. -/
theorem testBit_clearLast {w j : Nat} (hj : j < w) (e : Nat) :
    (e % 2 ^ (w - 1)).testBit j = (decide (j + 1 ≠ w) && e.testBit j) := by
  have hcond : j < w - 1 ↔ j + 1 ≠ w := by omega
  rw [Nat.testBit_mod_two_pow, decide_eq_decide.2 hcond]

theorem testBit_flipLast {w j : Nat} (hj : j < w) (e : Nat) :
    (e ^^^ 2 ^ (w - 1)).testBit j = (decide (j + 1 = w) != e.testBit j) := by
  have hcond : w - 1 = j ↔ j + 1 = w := by omega
  rw [Nat.testBit_xor, Nat.testBit_two_pow, decide_eq_decide.2 hcond, Bool.xor_comm]

/-- What `op` does to each bit of an element, `bit` being given whether it is the last one, the value joined from the elements shows at
each of its bits. -/
theorem testBit_joinElems_map {w : Nat} (hw : 0 < w) {op : Nat → Nat} {bit : Bool → Bool → Bool}
    (hop : ∀ e j, j < w → (op e).testBit j = bit (decide (j + 1 = w)) (e.testBit j)) (n x : Nat) {i : Nat} (hi : i < w * n) :
    (joinElems w ((List.range n).map fun k => op (elemAt w k x))).testBit i = bit (decide ((i + 1) % w = 0)) (x.testBit i) := by
  have hk : i / w < n := Nat.div_lt_of_lt_mul hi
  have hj : i % w < w := Nat.mod_lt i hw
  have helem : piece w (i / w) (joinElems w ((List.range n).map fun k => op (elemAt w k x))) = op (piece w (i / w) x) % 2 ^ w := by
    rw [piece_joinElems w _ (by simpa using hk)]
    simp [elemAt_eq_piece]
  rw [testBit_eq_piece hw, helem, Nat.testBit_mod_two_pow, hop _ _ hj, ← testBit_eq_piece hw]
  simp [hj, mod_last_iff hw]

/-! The formats FABS and FNEG take, and what their lanes deliver. -/

/-- The elements of a format have its width and fill its register or pair. -/
theorem fmtOfTy_layout {t : Ty} (h : t ∈ tyF4) :
    (fmtOfTy t).width = t.bits ∧ (fmtOfTy t).width * (fmtOfTy t).count = max 32 t.bits := by
  revert t
  decide

/-- An instruction that RUNSIGN runs delivers what its operation does to each bit of each element, with A's sidecar (R97). -/
theorem sign_results {i : Instr} {o : VOp} {op : Nat → Nat} {bit : Bool → Bool → Bool} (hi : ∀ s, exec i s = runSign s o op)
    (hty : o.ty ∈ tyF4) (hoc : o.oc ≠ .uniform)
    (hop : ∀ e j, j < (fmtOfTy o.ty).width → (op e).testBit j = bit (decide (j + 1 = (fmtOfTy o.ty).width)) (e.testBit j)) :
    Results i { f1Form o false false with flags := false } (vopD o (Cls.ofTy o.ty)) fun c l x sd =>
      (∀ k, k < max 32 o.ty.bits →
        x.testBit k = bit (decide ((k + 1) % o.ty.bits = 0)) (((vopA o (Cls.ofTy o.ty)).val c.p.g l).testBit k)) ∧
      (c.p.dist = true → sd = (vopA o (Cls.ofTy o.ty)).side c.p.g l) := by
  intro s c hr he _
  obtain ⟨hwidth, hfill⟩ := fmtOfTy_layout hty
  obtain ⟨g', h1, h2, h3, -⟩ := runLanes_strict { f1Form o false false with flags := false }
    (signLane (vopD o (Cls.ofTy o.ty)) (vopA o (Cls.ofTy o.ty)) (fmtOfTy o.ty) op) hr he
    (plain_fits _ c (vopD o (Cls.ofTy o.ty)) (List.mem_singleton_self _) _ _)
  refine ⟨g', (hi s).trans h1, h2, fun _ l hl hact hp => ?_, fun hu => Bool.noConfusion hu⟩
  have hws := h3 rfl l (mem_lanesOf.2 ⟨hl, hact⟩) hp
  have hD : vopD o (Cls.ofTy o.ty) = clsOpnd (Cls.ofTy o.ty) o.d := by simp [vopD, hoc]
  rw [hD] at hws ⊢
  have hlt := joinElems_lt (fmtOfTy o.ty).width ((List.range (fmtOfTy o.ty).count).map fun k =>
    op (elemAt (fmtOfTy o.ty).width k ((vopA o (Cls.ofTy o.ty)).val c.p.g l)))
  rw [List.length_map, List.length_range, hfill, ← clsWidth_ofTy] at hlt
  obtain ⟨hval, hside, hclean⟩ := laneHas_val _ o.d _ _ hl ((ofTy_vec_or_pair o.ty).imp_right .inl) hlt hws
  refine ⟨⟨fun k hk => ?_, fun hdist => hside hdist ?_⟩, hclean⟩
  · rw [hval, testBit_joinElems_map (hwidth ▸ bits_pos o.ty) hop _ _ (hfill ▸ hk), hwidth]
  · rcases ofTy_vec_or_pair o.ty with h | h <;> rw [h] <;> decide

/-- An instruction that admits OC 00 alone has no uniform form (R183). -/
theorem not_uniform_of_ocPlain {o : VOp} {m : VAdm} (h : o.adm m = true) (hocs : m.ocs = [.plain]) : o.oc ≠ .uniform := by
  have hoc := vopAdm_oc h
  rw [hocs, List.mem_singleton] at hoc
  rw [hoc]
  decide

theorem opcode_encV_minor0 {op : Nat} {o : VOp} {m : VAdm} (h : o.adm m = true) (hmin : m.minors = [0]) (hop : op < 2 ^ 9) :
    fieldOf (encV op o) 79 9 = op := by
  have hz := vopAdm_minor h
  rw [hmin, List.mem_singleton] at hz
  exact opcode_encV h hop (by omega)

/-- Settles O18: the sign is the last bit of an element, which FABS's remainder drops and FNEG's XOR turns over.
`signBits` itself names a function of the model. -/
theorem signBits_holds : Obligations.SignBits := by
  unfold Obligations.SignBits
  refine ⟨fun o hw => ?_, fun o hw => ?_, fun o hw => opcode_encV_minor0 hw rfl (by decide), fun o hw => opcode_encV_minor0 hw rfl (by decide)⟩
  · have habs := sign_results (i := .fabs o) (bit := fun last b => !last && b) (fun _ => rfl) (vopAdm_ty hw) (not_uniform_of_ocPlain hw rfl)
      fun e j hj => by rw [testBit_clearLast hj, decide_not]
    simpa only [ne_eq, decide_not] using habs
  · exact sign_results (bit := fun last b => last != b) (fun _ => rfl) (vopAdm_ty hw) (not_uniform_of_ocPlain hw rfl)
      fun e j hj => testBit_flipLast hj e

end Sys2Proof.Machine
